-- ==== Sys2Proof/Word.lean ====
section
/-! DEFINITION. The word and byte types of the PCE (00_scope R11): every register is a 32-bit word, memory is
byte addressed. A memory address, a length and a count are natural numbers, reached from a word with toNat. -/

namespace Sys2Proof

/-- One byte (u8, R11). -/
abbrev Byte := BitVec 8

/-- One register (REG_W = 32, R8, R30). -/
abbrev Word := BitVec 32

end Sys2Proof
end

