-- ==== Sys2Proof/Syntax.lean ====
section
/-! DEFINITION. The commands of PCE-CMD version 1 (30_encoding R121), one constructor per row of
spec/opcode_table.json. A command word has no immediate field (R125), so no constructor has an argument: every
operand comes from the operand latch. -/

namespace Sys2Proof

/-- The 15 commands (R121). -/
inductive Instr where
  /-- 0x00, R157: no operation, completes at once. -/
  | nop
  /-- 0x10, R173: LZ78 compress. -/
  | lz78C
  /-- 0x11, R177: LZ78 decompress. -/
  | lz78D
  /-- 0x20, R196: LZSS compress. -/
  | lzssC
  /-- 0x21, R198: LZSS decompress. -/
  | lzssD
  /-- 0x30, R223: LZW compress. -/
  | lzwC
  /-- 0x31, R226: LZW decompress. -/
  | lzwD
  /-- 0x40, R300: compress an image. -/
  | jpegC
  /-- 0x41, R301: decompress an image. -/
  | jpegD
  /-- 0x50, R321: encode a file header. -/
  | hdrEfile
  /-- 0x51, R322: encode a folder header. -/
  | hdrEfold
  /-- 0x52, R326: decode a header. -/
  | hdrDec
  /-- 0x53, R329: backpatch a header's size field. -/
  | hdrPatch
  /-- 0x60, R158: codec lookup by stable name. -/
  | regLookup
  /-- 0x61, R159: extension-to-allowed-codecs mapping. -/
  | regExtmap
  deriving DecidableEq, Repr

end Sys2Proof
end

