-- ==== Sys2Proof/Decode.lean ====
section
/-! DEFINITION. Decoding a command word (30_encoding R120, R121, R123), total on every 32-bit word, and the
encoder written from the same table. A word that encodes no command is rejected by name; the engine turns either
rejection into ILLEGAL_COMMAND (R151). -/

namespace Sys2Proof

/-- Why a word encodes no command (R123). -/
inductive DecodeError where
  /-- CMD[31:8] is not 0. -/
  | zeroFieldSet
  /-- OP is no value of R121. -/
  | noSuchOp
  deriving DecidableEq, Repr

/-- CMD[31:8] (R120): must be 0. -/
def cmdZero (w : Word) : BitVec 24 := w.extractLsb' 8 24

/-- CMD[7:4] (R120): the unit. -/
def cmdUnit (w : Word) : BitVec 4 := w.extractLsb' 4 4

/-- CMD[3:0] (R120): the operation within the unit. -/
def cmdFunc (w : Word) : BitVec 4 := w.extractLsb' 0 4

/-- The opcode map of R121, by UNIT and FUNC. -/
def decodeOp : Nat → Nat → Option Instr
  | 0, 0 => some .nop
  | 1, 0 => some .lz78C
  | 1, 1 => some .lz78D
  | 2, 0 => some .lzssC
  | 2, 1 => some .lzssD
  | 3, 0 => some .lzwC
  | 3, 1 => some .lzwD
  | 4, 0 => some .jpegC
  | 4, 1 => some .jpegD
  | 5, 0 => some .hdrEfile
  | 5, 1 => some .hdrEfold
  | 5, 2 => some .hdrDec
  | 5, 3 => some .hdrPatch
  | 6, 0 => some .regLookup
  | 6, 1 => some .regExtmap
  | _, _ => none

/-- Command decode (R120, R121, R123): every word is a command or is rejected by name. -/
def decode (w : Word) : Except DecodeError Instr :=
  if cmdZero w = 0 then
    match decodeOp (cmdUnit w).toNat (cmdFunc w).toNat with
    | some i => .ok i
    | none => .error .noSuchOp
  else .error .zeroFieldSet

/-- UNIT and FUNC of each command (R121). -/
def unitFunc : Instr → BitVec 4 × BitVec 4
  | .nop => (0, 0)
  | .lz78C => (1, 0)
  | .lz78D => (1, 1)
  | .lzssC => (2, 0)
  | .lzssD => (2, 1)
  | .lzwC => (3, 0)
  | .lzwD => (3, 1)
  | .jpegC => (4, 0)
  | .jpegD => (4, 1)
  | .hdrEfile => (5, 0)
  | .hdrEfold => (5, 1)
  | .hdrDec => (5, 2)
  | .hdrPatch => (5, 3)
  | .regLookup => (6, 0)
  | .regExtmap => (6, 1)

/-- The command word of a command (R120): ZERO, UNIT, FUNC from the top. -/
def encode (i : Instr) : Word := (0 : BitVec 24) ++ (unitFunc i).1 ++ (unitFunc i).2

/-- The command the decoder reads from a word numbered as spec/opcode_table.json numbers it. A command is always
one 32-bit word (R120), and a register value has no byte order of its own (R81), so the word's bits are the
register's bits; `nbits` bits are given and the bits above them are 0. -/
def decodeTableWord (nbits w : Nat) : Option Instr :=
  if nbits ≤ 32 ∧ w < 2 ^ nbits then
    match decode (BitVec.ofNat 32 w) with
    | .ok i => some i
    | .error _ => none
  else none

end Sys2Proof
end

