-- ==== Sys2Proof/Machine/Errors.lean ====
section
/-! DEFINITION. The engine's errors: ERRCODE values (60_exceptions R350) and the CAUSE values of CODEC_INTERNAL
(R352). These are the record a command leaves in STATUS when it completes with an error (R355); they are not the
outcomes Fault and Refusal of a step. -/

namespace Sys2Proof.Machine

/-- What ended a codec's transform (R352). -/
inductive Cause where
  | srcUnderrun
  | dstOverflow
  | badCode
  | badOffset
  | sizeMismatch
  | badImageHeader
  | badDictionary
  | badBitstream
  | busError
  | resource
  deriving DecidableEq, Repr

/-- The CAUSE number of each cause (R352). -/
def Cause.code : Cause → Byte
  | .srcUnderrun => 1
  | .dstOverflow => 2
  | .badCode => 3
  | .badOffset => 4
  | .sizeMismatch => 5
  | .badImageHeader => 6
  | .badDictionary => 7
  | .badBitstream => 8
  | .busError => 9
  | .resource => 10

/-- The errors a command can complete with (R350). The reserved kinds UNSUPPORTED_INPUT and STORAGE_IO are no
constructors: no command raises them (R351). -/
inductive Err where
  | bufferBounds
  | codecInternal (c : Cause)
  | headerInvalid
  | codecNotFound
  | illegalCommand
  | dstOverflow
  | busError
  | regionError
  deriving DecidableEq, Repr

/-- ERRCODE (R350). -/
def Err.code : Err → Byte
  | .bufferBounds => 0x01
  | .codecInternal _ => 0x02
  | .headerInvalid => 0x03
  | .codecNotFound => 0x04
  | .illegalCommand => 0x10
  | .dstOverflow => 0x11
  | .busError => 0x12
  | .regionError => 0x13

/-- CAUSE: the cause of a CODEC_INTERNAL, 0 with every other ERRCODE (R352). -/
def Err.causeCode : Err → Byte
  | .codecInternal c => c.code
  | _ => 0

/-- R156: under ILLEGAL_COMMAND and REGION_ERROR no memory has been touched. -/
def Err.beforeAccess : Err → Bool
  | .illegalCommand => true
  | .regionError => true
  | _ => false

/-- Wrapping (R353): in a codec command every fault of the transform is CODEC_INTERNAL with its cause. -/
def wrapCause {α : Type} : Except Cause α → Except Err α
  | .ok a => .ok a
  | .error c => .error (.codecInternal c)

end Sys2Proof.Machine
end

