-- ==== Sys2Proof/Config.lean ====
section
/-! DEFINITION. What an implementation or a platform fixes, and the free values.

The platform's parameters (00_scope R8, R9) are plain data, `Platform`; State holds one and no step changes it, so
every statement about every state is a statement about every platform (log 1). The free values are constants
without a body: nothing can be proved about what they are. -/

namespace Sys2Proof

/-- A run of `len` byte addresses from `base` on (R37, R85). -/
structure Region where
  base : Nat
  len : Nat
  deriving DecidableEq, Repr

/-- How a tie of `round` goes (R15, R241): away from zero or toward +infinity. -/
inductive RoundHalf where
  | away
  | up
  deriving DecidableEq, Repr

/-- COLOUR_FWD (R249): the binary64 bit patterns of the forward coefficients, named by result and source colour.
`uR` is the negative one; the coefficients that the rule subtracts are held without their sign. -/
structure ColourFwd where
  yR : BitVec 64
  yG : BitVec 64
  yB : BitVec 64
  uR : BitVec 64
  uG : BitVec 64
  uB : BitVec 64
  vR : BitVec 64
  vG : BitVec 64
  vB : BitVec 64
  /-- The offset 128.0 of u and v. -/
  offset : BitVec 64
  deriving DecidableEq, Repr

/-- COLOUR_INV (R269): the binary64 bit patterns of the inverse coefficients, without the sign of a subtraction. -/
structure ColourInv where
  rV : BitVec 64
  gU : BitVec 64
  gV : BitVec 64
  bU : BitVec 64
  deriving DecidableEq, Repr

/-- The platform and configuration parameters of R8 and R9, as plain data. -/
structure Platform where
  /-- REG_BASE (R8, R30). -/
  regBase : Word
  /-- The addresses backed by memory the engine may access, as ranges: MEM_OK (R8, R84). -/
  backed : List Region
  /-- Addresses that belong to a device whose reads have side effects (R83, 93 I4). -/
  devices : List Region
  /-- MAX_PIXELS (R8, R247). -/
  maxPixels : Nat
  /-- QTABLE (R255), entry 8u + v. -/
  qtable : List Nat
  colourFwd : ColourFwd
  colourInv : ColourInv
  /-- ROUND_HALF (R241). -/
  roundHalf : RoundHalf
  deriving DecidableEq, Repr

namespace Config

/-- A free byte: the value of byte `a` after the `n`-th draw (R108, R156, R380; log 7). -/
opaque freeByte : Nat → Nat → Byte

/-- A free word: the `k`-th word of the `n`-th draw (R108; log 8). -/
opaque freeWord : Nat → Nat → Word

/-- A free byte: what a command finds at address `a` of a device, where `n` draws came before it (R83, 93 I4; log 12). -/
opaque deviceByte : Nat → Nat → Byte

/-- The free way in which a command completes whose outcome is unspecified (R108, 93 I8; log 8). -/
opaque freeErr : Nat → Option Machine.Err

end Config

end Sys2Proof
end

