-- ==== Sys2Proof/Machine/Tables.lean ====
section
/-! DEFINITION. The constant tables of the image unit and the default parameter values: COS (44_image_transform
R252), CN (R253), QTABLE (R255), the zigzag order (R258), COLOUR_FWD (R249) and COLOUR_INV (R269). The spec supplies
all of them by decision, several from general knowledge (93 G3 to G10); no claim is made that they equal the
repository's values (R9; log 21). -/

namespace Sys2Proof.Machine

/-- COS (R252) as binary64 bit patterns, row i, column j. -/
def cosBits : List (List (BitVec 64)) :=
  [[0x3FF0000000000000, 0x3FEF6297CFF75CB0, 0x3FED906BCF328D46, 0x3FEA9B66290EA1A3, 0x3FE6A09E667F3BCD, 0x3FE1C73B39AE68C8, 0x3FD87DE2A6AEA963, 0x3FC8F8B83C69A60B],
  [0x3FF0000000000000, 0x3FEA9B66290EA1A3, 0x3FD87DE2A6AEA963, 0xBFC8F8B83C69A60B, 0xBFE6A09E667F3BCD, 0xBFEF6297CFF75CB0, 0xBFED906BCF328D46, 0xBFE1C73B39AE68C8],
  [0x3FF0000000000000, 0x3FE1C73B39AE68C8, 0xBFD87DE2A6AEA963, 0xBFEF6297CFF75CB0, 0xBFE6A09E667F3BCD, 0x3FC8F8B83C69A60B, 0x3FED906BCF328D46, 0x3FEA9B66290EA1A3],
  [0x3FF0000000000000, 0x3FC8F8B83C69A60B, 0xBFED906BCF328D46, 0xBFE1C73B39AE68C8, 0x3FE6A09E667F3BCD, 0x3FEA9B66290EA1A3, 0xBFD87DE2A6AEA963, 0xBFEF6297CFF75CB0],
  [0x3FF0000000000000, 0xBFC8F8B83C69A60B, 0xBFED906BCF328D46, 0x3FE1C73B39AE68C8, 0x3FE6A09E667F3BCD, 0xBFEA9B66290EA1A3, 0xBFD87DE2A6AEA963, 0x3FEF6297CFF75CB0],
  [0x3FF0000000000000, 0xBFE1C73B39AE68C8, 0xBFD87DE2A6AEA963, 0x3FEF6297CFF75CB0, 0xBFE6A09E667F3BCD, 0xBFC8F8B83C69A60B, 0x3FED906BCF328D46, 0xBFEA9B66290EA1A3],
  [0x3FF0000000000000, 0xBFEA9B66290EA1A3, 0x3FD87DE2A6AEA963, 0x3FC8F8B83C69A60B, 0xBFE6A09E667F3BCD, 0x3FEF6297CFF75CB0, 0xBFED906BCF328D46, 0x3FE1C73B39AE68C8],
  [0x3FF0000000000000, 0xBFEF6297CFF75CB0, 0x3FED906BCF328D46, 0xBFEA9B66290EA1A3, 0x3FE6A09E667F3BCD, 0xBFE1C73B39AE68C8, 0x3FD87DE2A6AEA963, 0xBFC8F8B83C69A60B]]

/-- CN[0] (R253), the binary64 value nearest to 1/√2. -/
def cnZeroBits : BitVec 64 := 0x3FE6A09E667F3BCD

/-- 1.0, which is CN[j] for j = 1 to 7 (R253). -/
def oneBits : BitVec 64 := 0x3FF0000000000000

/-- 0.25, the scale of R254 and R267. -/
def quarterBits : BitVec 64 := 0x3FD0000000000000

/-- The default QTABLE (R255), entry 8u + v. -/
def qtableDefault : List Nat :=
  [16, 11, 10, 16, 24, 40, 51, 61,
   12, 12, 14, 19, 26, 58, 60, 55,
   14, 13, 16, 24, 40, 57, 69, 56,
   14, 17, 22, 29, 51, 87, 80, 62,
   18, 22, 37, 56, 68, 109, 103, 77,
   24, 35, 55, 64, 81, 104, 113, 92,
   49, 64, 78, 87, 103, 121, 120, 101,
   72, 92, 95, 98, 112, 100, 103, 99]

/-- ZZ (R258): the index 8u + v of the k-th coefficient in zigzag order. -/
def zz : List Nat :=
  [0, 1, 8, 16, 9, 2, 3, 10, 17, 24, 32, 25, 18, 11, 4, 5,
   12, 19, 26, 33, 40, 48, 41, 34, 27, 20, 13, 6, 7, 14, 21, 28,
   35, 42, 49, 56, 57, 50, 43, 36, 29, 22, 15, 23, 30, 37, 44, 51,
   58, 59, 52, 45, 38, 31, 39, 46, 53, 60, 61, 54, 47, 55, 62, 63]

/-- ZI (R258): the zigzag position of index 8u + v. -/
def zi : List Nat :=
  [0, 1, 5, 6, 14, 15, 27, 28,
   2, 4, 7, 13, 16, 26, 29, 42,
   3, 8, 12, 17, 25, 30, 41, 43,
   9, 11, 18, 24, 31, 40, 44, 53,
   10, 19, 23, 32, 39, 45, 52, 54,
   20, 22, 33, 38, 46, 51, 55, 60,
   21, 34, 37, 47, 50, 56, 59, 61,
   35, 36, 48, 49, 57, 58, 62, 63]

/-- The default COLOUR_FWD (R249): each constant is the binary64 value nearest to the decimal in the rule. -/
def colourFwdDefault : ColourFwd where
  yR := 0x3FD322D0E5604189
  yG := 0x3FE2C8B439581062
  yB := 0x3FBD2F1A9FBE76C9
  uR := 0xBFC5992428D434A0
  uG := 0x3FD5336DEB95E5B0
  uB := 0x3FE0000000000000
  vR := 0x3FE0000000000000
  vG := 0x3FDACBC8C0CE91C9
  vB := 0x3FB4D0DCFCC5B8DC
  offset := 0x4060000000000000

/-- The default COLOUR_INV (R269). -/
def colourInvDefault : ColourInv where
  rV := 0x3FF66E978D4FDF3B
  gU := 0x3FD6065300581494
  gV := 0x3FE6DA33BD9CAE21
  bU := 0x3FFC5A1CAC083127

/-- The parameters of the machine at reset: the spec's defaults where R8 gives one, the model's choice for the OPEN
ones (REG_BASE, MEM_OK, MAX_PIXELS; log 1). -/
def platformDefault : Platform where
  regBase := 0xF0000000
  backed := [⟨0, 2 ^ 32⟩]
  devices := []
  maxPixels := 1048576
  qtable := qtableDefault
  colourFwd := colourFwdDefault
  colourInv := colourInvDefault
  roundHalf := .away

end Sys2Proof.Machine
end

