-- ==== Sys2Proof/Machine/Work.lean ====
section
/-! DEFINITION. The types of the hidden per-command working state (10_state R60 to R67): tries, decoder tables,
tokens, run-length pairs, Huffman trees, image planes. They are created when a command starts and discarded when it
completes; the operations on them stand in the family files. -/

namespace Sys2Proof.Machine

/-- One trie node other than the root (R63): its parent (`none` is the root), its symbol byte and its code. -/
structure TrieNode where
  parent : Option Nat
  sym : Byte
  code : Nat
  deriving DecidableEq, Repr

/-- A compressor's dictionary state (R63, R64): the nodes, the current node (`none` is the root), the next code. -/
structure TrieState where
  nodes : List TrieNode
  node : Option Nat
  next : Nat
  deriving DecidableEq, Repr

/-- An LZSS token (R190, R194). -/
inductive Token where
  | lit (b : Byte)
  | copy (off len : Nat)
  | sentinel
  deriving DecidableEq, Repr

/-- A run-length pair (run, value) (R260): `run` zeros, then `val`. It is also a Huffman symbol (R281). -/
structure Pair where
  run : Nat
  val : Int
  deriving DecidableEq, Repr

/-- The encoder's Huffman tree (R282). -/
inductive HTree where
  | leaf (s : Pair)
  | node (child0 child1 : HTree)
  deriving DecidableEq, Repr

/-- A node of the encoder's priority queue (R282). -/
structure HNode where
  weight : Nat
  seq : Nat
  tree : HTree
  deriving DecidableEq, Repr

/-- The decoder's code tree (R291). `absent` stands where a node has no child. -/
inductive CTree where
  | absent
  | leaf (s : Pair)
  | node (child0 child1 : CTree)
  deriving DecidableEq, Repr

/-- One plane of i32 samples (R248): the rows, each a list of samples. -/
abbrev Plane := List (List Int)

/-- One channel in the encoder (R67). `tree` is `none` when there is one symbol only (R283). -/
structure ChannelEnc where
  coeffs : List Int
  pairs : List Pair
  freqs : List (Pair × Nat)
  tree : Option HTree
  codes : List (Pair × List Bool)
  deriving DecidableEq, Repr

/-- One channel in the decoder (R67): its code tree, the bits of its stream read so far, its coefficients. -/
structure ChannelDec where
  tree : CTree
  bitPos : Nat
  coeffs : List Int
  deriving DecidableEq, Repr

/-- The working state of the unit that runs the command (R63 to R67). -/
inductive UnitWork where
  | none
  | lz78Enc (t : TrieState)
  | lz78Dec (table : List (List Byte))
  | lzssEnc (cur ctrlPos groupCount : Nat)
  | lzwEnc (t : TrieState)
  | lzwDec (table : List (List Byte)) (prev : Option (List Byte))
  | imgEnc (planes : List Plane) (channels : List ChannelEnc)
  | imgDec (planes : List Plane) (channels : List ChannelDec)
  deriving DecidableEq, Repr

/-- All per-command working state (R60): the source cursor (R61), the destination count (R62), the unit's own. -/
structure Work where
  inpos : Nat
  outlen : Nat
  unit : UnitWork
  deriving DecidableEq, Repr

/-- The working state when a command starts (R60 to R62, R150). -/
def Work.initial : Work := ⟨0, 0, .none⟩

end Sys2Proof.Machine
end

