-- ==== Sys2Proof/Machine/State.lean ====
section
/-! DEFINITION. The state of the machine (10_state R30 to R70), as plain data, its value after reset (R70), and the
two ways in which a step can stop. -/

namespace Sys2Proof.Machine

/-- The sequencer (R50). STATUS.BUSY is 1 exactly when it is `busy`. -/
inductive Seq where
  | idle
  | busy
  deriving DecidableEq, Repr

/-- The eight operand registers (R36, R37). -/
structure Operands where
  srcAddr : Word
  srcLen : Word
  dstAddr : Word
  dstCap : Word
  arg0 : Word
  arg1 : Word
  arg2 : Word
  arg3 : Word
  deriving DecidableEq, Repr

/-- RES_LEN and RES0 to RES6 (R38). -/
structure Results where
  len : Word := 0
  r0 : Word := 0
  r1 : Word := 0
  r2 : Word := 0
  r3 : Word := 0
  r4 : Word := 0
  r5 : Word := 0
  r6 : Word := 0
  deriving DecidableEq, Repr

/-- The stored fields of STATUS (R34). BUSY is the sequencer's. -/
structure Status where
  done : Bool
  err : Bool
  ovr : Bool
  errcode : Byte
  cause : Byte
  deriving DecidableEq, Repr

/-- The operand latch L (R51): CMD and the operand registers at the instant a command is accepted. -/
structure Latch where
  cmd : Word
  ops : Operands
  deriving DecidableEq, Repr

/-- The registers of the block by name (R31). -/
inductive RegName where
  | id
  | ctrl
  | status
  | cmd
  | srcAddr
  | srcLen
  | dstAddr
  | dstCap
  | arg0
  | arg1
  | arg2
  | arg3
  | resLen
  | res0
  | res1
  | res2
  | res3
  | res4
  | res5
  | res6
  deriving DecidableEq, Repr

/-- Memory (20_memory R80) as (address, byte) pairs in one canonical form: addresses strictly rising and below
2^32, no byte equal to what an unlisted address reads as (log 4). -/
abbrev Memory := List Host.Cell

/-- The two agents (00_scope R18). -/
inductive Agent where
  | host
  | engine
  deriving DecidableEq, Repr

/-- One operation of the host, or of the platform's reset input (R18, R30, R80, R380). -/
inductive HostOp where
  /-- A load of `bytes` bytes at offset `off` of the register block (R30). -/
  | regRead (off bytes : Nat)
  /-- A store of `bytes` bytes at offset `off` of the register block (R30). -/
  | regWrite (off bytes : Nat) (v : Word)
  /-- The host's loop `wait` (R131): read STATUS, and repeat while DONE is 0. -/
  | wait
  /-- Read `n` bytes of memory from address `a` on. -/
  | memRead (a n : Nat)
  /-- Read `n` bytes from address `a` on and assert that they equal the listed ones (30_encoding R130). -/
  | check (a n : Nat) (bs : List Byte)
  /-- Write bytes to memory from address `a` on. -/
  | memWrite (a : Nat) (bs : List Byte)
  /-- The platform's reset input, asserted and released at once (R380, R382; log 26). -/
  | hwReset
  deriving DecidableEq, Repr

/-- The whole state of the machine, its memory and the agents' pending inputs. -/
structure State where
  /-- The platform's parameters (R8, R9; log 1): no step changes them. -/
  plat : Platform
  /-- Memory (R80). -/
  mem : Memory
  /-- CTRL.IE (R33). -/
  ie : Bool
  /-- The sequencer, STATUS.BUSY (R34, R50). -/
  seq : Seq
  /-- The other fields of STATUS (R34). -/
  status : Status
  /-- CMD (R35). -/
  cmd : Word
  /-- The operand registers (R36). -/
  ops : Operands
  /-- The result registers (R38). -/
  res : Results
  /-- The operand latch (R51). -/
  latch : Latch
  /-- The hidden per-command working state (R60 to R67; log 6). -/
  work : Work
  /-- The host wrote a region of the running command (R108; log 8). -/
  raced : Bool
  /-- The model's own counter, which the free values are read by: each draw and each completion without error advances it
  (log 7, log 12). -/
  draws : Nat
  /-- The model's own: the host's pending operations, oldest first (log 3). -/
  host : List HostOp
  /-- The model's own: which agent moves in the next steps (R390; log 3). -/
  sched : List Agent
  /-- The model's own: what the host's last register read returned (log 18). -/
  rdWord : Word
  /-- The model's own: what the host's last memory read returned (log 18). -/
  rdBytes : List Byte
  /-- The model's own: every assertion of the host so far has held (30_encoding R130; log 18). -/
  checksHold : Bool
  deriving DecidableEq, Repr

/-- Why a step stops with a fault. -/
inductive Fault where
  /-- A host memory access at or past address 2^32, which does not exist (R80). Raised by the host's memory read
  and write. Safe: the model stops where a host could not issue the access (log 16). -/
  | noSuchAddress
  deriving DecidableEq, Repr

/-- Why a step is refused. -/
inductive Refusal where
  /-- A command with no meaning yet. Raised by an arm of `exec` only; no arm does. Safe: the model stops. -/
  | notModelled (mnemonic : String)
  /-- An access to the register block that is not an aligned 32-bit load or store inside it, which a model refuses
  (R30, 93 I3). Raised by the host's register and memory operations. Safe: the model stops (log 16). -/
  | registerAccess
  /-- A host memory access to a device's address, whose behaviour the spec does not give (R83, 93 I4). Raised by the
  host's memory read and write. Safe: the model stops (log 12). -/
  | deviceAccess
  deriving DecidableEq, Repr

/-- What every result register holds at reset, at command start and after an error (R38). -/
def Results.zero : Results := {}

def Operands.zero : Operands := ⟨0, 0, 0, 0, 0, 0, 0, 0⟩

def Status.zero : Status := ⟨false, false, false, 0, 0⟩

/-- The machine right after reset (R70), on the default platform, with nothing in memory and nothing pending. -/
def State.reset : State where
  plat := platformDefault
  mem := []
  ie := false
  seq := .idle
  status := .zero
  cmd := 0
  ops := .zero
  res := .zero
  latch := ⟨0, .zero⟩
  work := .initial
  raced := false
  draws := 0
  host := []
  sched := []
  rdWord := 0
  rdBytes := []
  checksHold := true

end Sys2Proof.Machine
end

