-- ==== Sys2Proof/Machine/Flags.lean ====
section
/-! DEFINITION. STATUS and the interrupt line: the fields of STATUS as a word (10_state R34), the W1C write, the
fields a command start and a completion write (40_command_common R150, R155), and IRQ (60_exceptions R361). -/

namespace Sys2Proof.Machine

/-- A flag as one bit. -/
def flagBit (b : Bool) : BitVec 1 := BitVec.ofBool b

/-- The word a read of STATUS returns (R34): reserved, CAUSE, ERRCODE, reserved, OVR, ERR, DONE, BUSY. -/
def statusWord (q : Seq) (f : Status) : Word :=
  (0 : BitVec 8) ++ f.cause ++ f.errcode ++ (0 : BitVec 4) ++ flagBit f.ovr ++ flagBit f.err ++ flagBit f.done
    ++ flagBit (decide (q = .busy))

namespace Status

/-- A write to STATUS (R34): each of DONE, ERR and OVR whose bit is 1 in the written word is cleared. -/
def w1c (f : Status) (w : Word) : Status :=
  { f with
    done := f.done && !w.getLsbD 1
    err := f.err && !w.getLsbD 2
    ovr := f.ovr && !w.getLsbD 3 }

/-- STATUS at a command start (R150): OVR is unchanged. -/
def start (f : Status) : Status := { f with done := false, err := false, errcode := 0, cause := 0 }

/-- STATUS at a completion without error (R155). -/
def completeOk (f : Status) : Status := { f with done := true, err := false, errcode := 0, cause := 0 }

/-- STATUS at a completion with an error (R155, R355). -/
def completeErr (f : Status) (e : Err) : Status :=
  { f with done := true, err := true, errcode := e.code, cause := e.causeCode }

/-- A refused CMD write or soft reset (R34, R35, R381). -/
def overrun (f : Status) : Status := { f with ovr := true }

end Status

/-- IRQ = CTRL.IE AND (STATUS.DONE OR STATUS.ERR) (R361). -/
def State.irq (s : State) : Bool := s.ie && (s.status.done || s.status.err)

/-- BUSY (R34, R50). -/
def State.isBusy (s : State) : Bool := decide (s.seq = .busy)

/-- What a read of STATUS returns (R34). -/
def State.statusReg (s : State) : Word := statusWord s.seq s.status

/-- What a read of CTRL returns (R33): IE in bit 0, every other bit 0. -/
def State.ctrlReg (s : State) : Word := (0 : BitVec 31) ++ flagBit s.ie

end Sys2Proof.Machine
end

