-- ==== Sys2Proof/Machine/Bytes.lean ====
section
/-! DEFINITION. Numbers and bytes: big-endian conversions (00_scope R12, 20_memory R81), signed readings (R11) and
decimal spelling (R16). -/

namespace Sys2Proof.Machine

/-- BE16 (R12): the high byte first. -/
def be16 (v : Nat) : List Byte := [BitVec.ofNat 8 (v / 256), BitVec.ofNat 8 v]

/-- BE32 (R12): the highest byte first. -/
def be32 (v : Word) : List Byte :=
  [v.extractLsb' 24 8, v.extractLsb' 16 8, v.extractLsb' 8 8, v.extractLsb' 0 8]

/-- rdBE16 (R12). -/
def rdBE16 (b0 b1 : Byte) : Nat := b0.toNat * 256 + b1.toNat

/-- rdBE32 (R12). -/
def rdBE32 (b0 b1 b2 b3 : Byte) : Word := b0 ++ b1 ++ b2 ++ b3

/-- as_i32 (R11): a word read as two's complement. -/
def asI32 (w : Word) : Int := w.toInt

/-- wrap32 (R11): reduction modulo 2^32 into [-2^31, 2^31 - 1]. -/
def wrap32 (x : Int) : Int := (x + 2147483648) % 4294967296 - 2147483648

/-- The two's-complement bits of an i32 (R284). -/
def i32Bits (x : Int) : Word := BitVec.ofInt 32 x

/-- The digits of `n`, most significant first, put before `acc`; `fuel` is at least the number of digits. -/
def decDigits : Nat → Nat → List Byte → List Byte
  | 0, _, acc => acc
  | fuel + 1, n, acc =>
    let acc := BitVec.ofNat 8 (48 + n % 10) :: acc
    if n / 10 = 0 then acc else decDigits fuel (n / 10) acc

/-- dec(n) (R16): the shortest ASCII decimal spelling. -/
def dec (n : Nat) : List Byte := decDigits (n + 1) n []

/-- An ASCII digit, 0x30 to 0x39 (R243). -/
def isDigit (b : Byte) : Bool := 0x30 ≤ b.toNat && b.toNat ≤ 0x39

end Sys2Proof.Machine
end

