-- ==== Sys2Proof/Machine/Operands.lean ====
section
/-! DEFINITION. The operands of a command: regions (10_state R37), what each command uses (30_encoding R126), MEM_OK
(20_memory R84) and the region check (R85, 40_command_common R152). A command's operand form is the full value of a
latched register, unsigned, or signed where the rule reads an i32 (R125). -/

namespace Sys2Proof

namespace Region

/-- Byte address `a` is in the region. -/
def contains (r : Region) (a : Nat) : Bool := r.base ≤ a && a < r.base + r.len

/-- R85 (a): the region passes the end of the address space. -/
def wraps (r : Region) : Bool := 2 ^ 32 < r.base + r.len

/-- R85 (b): m > 0, n > 0, a < b + n and b < a + m. -/
def overlaps (r t : Region) : Bool :=
  0 < r.len && 0 < t.len && r.base < t.base + t.len && t.base < r.base + r.len

/-- The part of a region that exists: below 2^32 (R80). -/
def clip (r : Region) : Region := ⟨r.base, min r.len (2 ^ 32 - r.base)⟩

end Region

/-- The register block: 256 bytes at REG_BASE (R30). -/
def Platform.regBlock (p : Platform) : Region := ⟨p.regBase.toNat, 256⟩

/-- MEM_OK(a) (R8, R84): `a` exists, is backed, and is no register: the engine never reaches the register block
through memory (R80; log 11). -/
def Platform.memOk (p : Platform) (a : Nat) : Bool :=
  a < 2 ^ 32 && p.backed.any (·.contains a) && !p.regBlock.contains a

/-- `a` belongs to a device whose reads have side effects (R83, 93 I4; log 12). -/
def Platform.isDevice (p : Platform) (a : Nat) : Bool := p.devices.any (·.contains a)

namespace Machine

/-- Which regions a command uses (R126). -/
structure Uses where
  src : Bool
  dst : Bool
  codec : Bool
  deriving DecidableEq, Repr

/-- R126, by command. -/
def uses : Instr → Uses
  | .nop => ⟨false, false, false⟩
  | .lz78C => ⟨true, true, false⟩
  | .lz78D => ⟨true, true, false⟩
  | .lzssC => ⟨true, true, false⟩
  | .lzssD => ⟨true, true, false⟩
  | .lzwC => ⟨true, true, false⟩
  | .lzwD => ⟨true, true, false⟩
  | .jpegC => ⟨true, true, false⟩
  | .jpegD => ⟨true, true, false⟩
  | .hdrEfile => ⟨true, true, true⟩
  | .hdrEfold => ⟨true, true, false⟩
  | .hdrDec => ⟨true, false, false⟩
  | .hdrPatch => ⟨false, true, false⟩
  | .regLookup => ⟨true, false, false⟩
  | .regExtmap => ⟨true, false, false⟩

/-- The source region (R37). -/
def Operands.src (o : Operands) : Region := ⟨o.srcAddr.toNat, o.srcLen.toNat⟩

/-- The destination region (R37). -/
def Operands.dst (o : Operands) : Region := ⟨o.dstAddr.toNat, o.dstCap.toNat⟩

/-- The codec-name region of HDR.EFILE (R80, R321). -/
def Operands.codec (o : Operands) : Region := ⟨o.arg2.toNat, o.arg3.toNat⟩

/-- The regions a command reads (R126). -/
def readRegions (i : Instr) (o : Operands) : List Region :=
  (if (uses i).src then [o.src] else []) ++ (if (uses i).codec then [o.codec] else [])

/-- The destination region a command uses, the empty one where it uses none (R126). -/
def dstRegion (i : Instr) (o : Operands) : Region := if (uses i).dst then o.dst else ⟨0, 0⟩

/-- Every region a command uses (R126). -/
def usedRegions (i : Instr) (o : Operands) : List Region :=
  readRegions i o ++ (if (uses i).dst then [o.dst] else [])

/-- The region check (R85, R152): no used region wraps, and the destination overlaps no region that is read. -/
def regionsOk (i : Instr) (o : Operands) : Bool :=
  (usedRegions i o).all (!·.wraps) && (readRegions i o).all (!·.overlaps (dstRegion i o))

/-- An operand read as an i32 is not negative (R125, R323). -/
def nonNegative (w : Word) : Bool := 0 ≤ asI32 w

end Machine

end Sys2Proof
end

