-- ==== Sys2Proof/Machine/Ops.lean ====
section
/-! DEFINITION. The shared operations: memory (20_memory R80), the buffer primitives over the source and the
destination region (R90 to R101), reset (R70), command start (40_command_common R150), completion (R155), error
completion (60_exceptions R355) and the frame every command runs in (R152, R153). -/

namespace Sys2Proof.Machine

/-! ## Memory -/

namespace Memory

/-- What a byte that nothing has written reads as (log 4). -/
def unlisted : Byte := 0

/-- MemRead(a, 1) (R13). -/
def read : Memory → Nat → Byte
  | [], _ => unlisted
  | (k, v) :: m, a => if k = a then v else read m a

/-- The bytes of the region (R37). -/
def readRegion (m : Memory) (r : Region) : List Byte := (List.range r.len).map fun i => m.read (r.base + i)

/-- The entries of the bytes stored from address `a` on; a byte equal to what an unlisted address reads as has none. -/
def entries : Nat → List Byte → Memory
  | _, [] => []
  | a, b :: bs => if b = unlisted then entries (a + 1) bs else (a, b) :: entries (a + 1) bs

/-- MemWrite(a, n, bs) (R13): the bytes at `a` to `a + n - 1`, every other byte kept. -/
def write (m : Memory) (a : Nat) (bs : List Byte) : Memory :=
  m.filter (fun c => decide (c.1 < a)) ++ entries a bs ++ m.filter (fun c => decide (a + bs.length ≤ c.1))

/-- The canonical form from address `lo` on: rising addresses below 2^32, no byte that an unlisted address reads as. -/
def wfFrom : Nat → Memory → Bool
  | _, [] => true
  | lo, (k, v) :: m => decide (lo ≤ k) && decide (k < 2 ^ 32) && decide (v ≠ unlisted) && wfFrom (k + 1) m

/-- Memory is in its canonical form. -/
def wf (m : Memory) : Bool := wfFrom 0 m

end Memory

/-! ## Checks -/

/-- End a body with an error unless the condition holds (R153). -/
def check {ε : Type} (ok : Bool) (e : ε) : Except ε Unit := if ok then .ok () else .error e

/-! ## Source primitives -/

/-- One byte of a region as the engine finds it: `none` where MEM_OK is false (R84). -/
abbrev SrcCell := Option Byte

/-- The byte the running command's read of address `a` returns: memory's, or a free value on a device (R83, 93 I4;
log 12). -/
def State.engineRead (s : State) (a : Nat) : Byte :=
  if s.plat.isDevice a then Config.deviceByte s.draws a else s.mem.read a

/-- MemRead(a, 1) by the engine (R13): MEM_OK comes first, on a device too (R84; log 12). -/
def State.cell (s : State) (a : Nat) : SrcCell := if s.plat.memOk a then some (s.engineRead a) else none

/-- The bytes of a region as the engine finds them (R13, R84). -/
def State.cells (s : State) (r : Region) : List SrcCell := (List.range r.len).map fun i => s.cell (r.base + i)

/-- The source region of the running command, read by the latch (R51). -/
def State.srcCells (s : State) : List SrcCell := s.cells s.latch.ops.src

/-- The byte of a cell, or the bus error at it (R84). -/
def readCell {ε : Type} (bus : ε) : SrcCell → Except ε Byte
  | some b => .ok b
  | none => .error bus

/-- InGet (R90). The list is the source bytes not yet read, so advancing the cursor is taking its tail. -/
def inGet : List SrcCell → Except Cause (Byte × List SrcCell)
  | [] => .error .srcUnderrun
  | c :: rest => do
    let b ← readCell .busError c
    .ok (b, rest)

/-- InRemaining (R93). -/
def inRemaining (src : List SrcCell) : Nat := src.length

/-- InGet16 (R91): the two bytes are there before any moves. -/
def inGet16 (src : List SrcCell) : Except Cause (Nat × List SrcCell) := do
  check (decide (2 ≤ inRemaining src)) .srcUnderrun
  let (b0, src) ← inGet src
  let (b1, src) ← inGet src
  .ok (rdBE16 b0 b1, src)

/-- InGet32 (R92). -/
def inGet32 (src : List SrcCell) : Except Cause (Word × List SrcCell) := do
  check (decide (4 ≤ inRemaining src)) .srcUnderrun
  let (b0, src) ← inGet src
  let (b1, src) ← inGet src
  let (b2, src) ← inGet src
  let (b3, src) ← inGet src
  .ok (rdBE32 b0 b1 b2 b3, src)

/-- InAt(p) (R93), over the whole source region. -/
def inAt (all : List SrcCell) (p : Nat) : Except Cause Byte :=
  match all[p]? with
  | some c => readCell .busError c
  | none => .error .srcUnderrun

/-- InSetPos(p) (R94): the source bytes from `p` on. No command needs it. -/
def inSetPos (all : List SrcCell) (p : Nat) : Except Cause (List SrcCell) :=
  if p ≤ all.length then .ok (all.drop p) else .error .srcUnderrun

/-- All bytes in address order (R13), the first that is not MEM_OK being the error. -/
def readAll {ε : Type} (bus : ε) : List SrcCell → Except ε (List Byte)
  | [] => .ok []
  | c :: rest => do
    let b ← readCell bus c
    let bs ← readAll bus rest
    .ok (b :: bs)

/-! ## Destination primitives -/

/-- The output of the running command (R62, R88): where it goes, how much it may hold, what it holds so far, last byte
first. The bytes are stored in memory at the completion; the destination overlaps no region that is read (R85) and no
host access sees it before (R108), so the order is not observable (log 2). -/
structure Sink where
  plat : Platform
  draws : Nat
  base : Nat
  cap : Nat
  outlen : Nat
  rev : List Byte
  deriving DecidableEq, Repr

namespace Sink

/-- The empty output of a command that starts (R62). -/
def start (s : State) : Sink := ⟨s.plat, s.draws, s.latch.ops.dst.base, s.latch.ops.dst.len, 0, []⟩

/-- The bytes produced so far, first byte first: [dst, dst + outlen) (R89). -/
def bytes (k : Sink) : List Byte := k.rev.reverse

/-- Every byte of the next `n` destination addresses is MEM_OK (R84). -/
def writable (k : Sink) (n : Nat) : Bool := (List.range n).all fun i => k.plat.memOk (k.base + k.outlen + i)

/-- OutPutBytes (R99): the room for all bytes first, then the bytes in order. -/
def putBytes (k : Sink) (bs : List Byte) : Except Cause Sink := do
  check (decide (k.outlen + bs.length ≤ k.cap)) .dstOverflow
  check (k.writable bs.length) .busError
  .ok { k with outlen := k.outlen + bs.length, rev := bs.reverse ++ k.rev }

/-- OutPut (R96). -/
def put (k : Sink) (b : Byte) : Except Cause Sink := k.putBytes [b]

/-- OutPut16 (R99). -/
def put16 (k : Sink) (v : Nat) : Except Cause Sink := k.putBytes (be16 v)

/-- OutPut32 (R99). -/
def put32 (k : Sink) (v : Word) : Except Cause Sink := k.putBytes (be32 v)

/-- Several appends one after the other, each with its own room check. -/
def putChunks : List (List Byte) → Sink → Except Cause Sink
  | [], k => .ok k
  | c :: cs, k => do
    let k ← k.putBytes c
    putChunks cs k

/-- Append the bytes one OutPut at a time (R96): the first that is not MEM_OK is BUS_ERROR, the first without room is
DST_OVERFLOW, whichever comes first. -/
def putEach (k : Sink) (bs : List Byte) : Except Cause Sink := do
  check (k.writable (min bs.length (k.cap - k.outlen))) .busError
  k.putBytes bs

/-- OutAt(p) (R100), for p < outlen: the byte written there. A read of a device returns a free value (R83, 93 I4;
log 12). -/
def outAt (k : Sink) (p : Nat) : Byte :=
  if k.plat.isDevice (k.base + p) then Config.deviceByte k.draws (k.base + p)
  else k.rev.getD (k.outlen - 1 - p) 0

/-- OutPutAt(p, b) (R97), for p < outlen. The compressor that could use it fills no byte later here (R196). -/
def putAt (k : Sink) (p : Nat) (b : Byte) : Sink := { k with rev := k.rev.set (k.outlen - 1 - p) b }

/-- OutCopyBack(off, n) (R101): one byte at a time, each from `off` bytes back. -/
def copyBack (off : Nat) : Nat → Sink → Except Cause Sink
  | 0, k => .ok k
  | n + 1, k => do
    let k ← k.put (k.outAt (k.outlen - off))
    copyBack off n k

end Sink

/-! ## Reset, start, completion -/

/-- The values of R70 for every register and every piece of hidden state. Memory, the parameters and the agents'
pending inputs are not the PCE's to reset (R70). The latch, which R51 leaves unspecified, is zero (log 5), and the
working state initial (log 6). -/
def State.resetRegs (s : State) : State :=
  { s with
    ie := false
    seq := .idle
    status := .zero
    cmd := 0
    ops := .zero
    res := .zero
    latch := ⟨0, .zero⟩
    work := .initial
    raced := false }

/-- Command start (R150), in one indivisible step. -/
def State.startCommand (w : Word) (s : State) : State :=
  { s with
    latch := ⟨w, s.ops⟩
    cmd := w
    seq := .busy
    status := s.status.start
    res := .zero
    work := .initial
    raced := false }

/-- What a body that returns normally leaves (R153): its results, the bytes it stored and where, its working state. -/
structure Finish where
  results : Results
  addr : Nat
  bytes : List Byte
  work : Work
  deriving DecidableEq, Repr

/-- Completion without error (R155), with the body's stores in memory (R107; log 24). The working state stays as the body
left it (log 6), and the next command finds fresh values on a device (log 12). The latch keeps the finished command's
word and operands (DESIGN CHOICE, log 5: R357 and 93 I7 leave it open). -/
def State.complete (d : Finish) (s : State) : State :=
  { s with
    res := d.results
    status := s.status.completeOk
    seq := .idle
    mem := s.mem.write d.addr d.bytes
    draws := s.draws + 1
    work := d.work
    raced := false }

/-- Every byte of a region becomes a fresh free value (R108, R156, R380; log 7). -/
def State.drawRegion (r : Region) (s : State) : State :=
  { s with
    mem := s.mem.write r.clip.base
      ((List.range r.clip.len).map fun i => Config.freeByte s.draws (r.clip.base + i))
    draws := s.draws + 1 }

/-- Error completion (R155, R355), the analogue of taking a trap (R365): STATUS.ERR, DONE, ERRCODE and CAUSE are
written, the results are 0, the engine is idle, and every byte of the destination region is a draw, but for the errors
found before any access (R156). The working state stays as it is, which is what the command started with (DESIGN CHOICE,
log 6: R60 leaves it unspecified), and so does the latch (DESIGN CHOICE, log 5: R357 and 93 I7 leave it open). -/
def State.raiseError (e : Err) (dst : Region) (s : State) : State :=
  { (if e.beforeAccess then s else s.drawRegion dst) with
    res := .zero
    status := s.status.completeErr e
    seq := .idle
    raced := false }

/-- The host's acknowledgement (R366), the analogue of a return from the trap: a W1C write of STATUS. -/
def State.acknowledge (w : Word) (s : State) : State := { s with status := s.status.w1c w }

/-- The completion of a command whose whole outcome is unspecified (R108, 93 I8; log 8): destination bytes,
results, ERRCODE and CAUSE are draws, among the codes of R350 and R352; DONE becomes 1. The working state stays as it is
(DESIGN CHOICE, log 6), and so does the latch (DESIGN CHOICE, log 5). -/
def State.drawOutcome (dst : Region) (s : State) : State :=
  let n := s.draws
  { s.drawRegion dst with
    res :=
      { len := Config.freeWord n 0
        r0 := Config.freeWord n 1
        r1 := Config.freeWord n 2
        r2 := Config.freeWord n 3
        r3 := Config.freeWord n 4
        r4 := Config.freeWord n 5
        r5 := Config.freeWord n 6
        r6 := Config.freeWord n 7 }
    status :=
      match Config.freeErr n with
      | none => s.status.completeOk
      | some e => s.status.completeErr e
    seq := .idle
    raced := false }

/-- A used region touches a device (R83, 93 I4). -/
def State.touchesDevice (i : Instr) (s : State) : Bool :=
  (usedRegions i s.latch.ops).any fun r => s.plat.devices.any r.overlaps

/-- The frame every command runs in: the region check (R152), the body (R153), its completion (R155). -/
def runCommand (i : Instr) (body : State → Except Err Finish) (s : State) :
    Host.Outcome State Fault Refusal :=
  if regionsOk i s.latch.ops then
    match body s with
    | .ok d => .next (s.complete d)
    | .error e => .next (s.raiseError e (dstRegion i s.latch.ops))
  else .next (s.raiseError .regionError (dstRegion i s.latch.ops))

/-- A codec's normal end (R154): RES_LEN = outlen, the output at dst. -/
def codecFinish (k : Sink) (inpos : Nat) (u : UnitWork) : Finish where
  results := { len := BitVec.ofNat 32 k.outlen }
  addr := k.base
  bytes := k.bytes
  work := ⟨inpos, k.outlen, u⟩

end Sys2Proof.Machine
end

