-- ==== Sys2Proof/Machine/Control.lean ====
section
/-! DEFINITION. NOP and the registry commands (40_command_common R157, R158, R159; codec ids R122). -/

namespace Sys2Proof.Machine

/-- A normal end that stores nothing (R155). -/
def registerFinish (r : Results) (inpos : Nat) : Finish := ⟨r, 0, [], ⟨inpos, 0, .none⟩⟩

/-- NOP (R157): completes at once with all results 0. -/
def execNop (s : State) : Host.Outcome State Fault Refusal :=
  runCommand .nop (fun _ => .ok (registerFinish .zero 0)) s

/-- ASCII "LZ78". -/
def nameLz78 : List Byte := [0x4C, 0x5A, 0x37, 0x38]

/-- ASCII "LZSS". -/
def nameLzss : List Byte := [0x4C, 0x5A, 0x53, 0x53]

/-- ASCII "LZW". -/
def nameLzw : List Byte := [0x4C, 0x5A, 0x57]

/-- ASCII "JPEG". -/
def nameJpeg : List Byte := [0x4A, 0x50, 0x45, 0x47]

/-- ASCII "ppm". -/
def extPpm : List Byte := [0x70, 0x70, 0x6D]

/-- The codec id of a stable name, byte for byte (R122, R158). -/
def codecId (name : List Byte) : Option Nat :=
  if name = nameLz78 then some 1
  else if name = nameLzss then some 2
  else if name = nameLzw then some 3
  else if name = nameJpeg then some 4
  else none

/-- The codecs allowed for an extension, in the document's order (R159). -/
def allowedCodecs (ext : List Byte) : List Nat := if ext = extPpm then [4, 2, 1, 3] else [2, 1, 3]

/-- The mask of a codec list (R159): the sum of 2^c. -/
def codecMask (l : List Nat) : Nat := (l.map fun c => 2 ^ c).sum

/-- A codec list packed 4 bits an entry, entry i in bits [4i+3 : 4i] (R159). -/
def codecPack : List Nat → Nat
  | [] => 0
  | c :: cs => c + 16 * codecPack cs

/-- The body of REG.LOOKUP (R158). -/
def lookupBody (s : State) : Except Err Finish := do
  let name ← readAll .busError s.srcCells
  match codecId name with
  | some id => .ok (registerFinish { r0 := BitVec.ofNat 32 id } 0)
  | none => .error .codecNotFound

/-- REG.LOOKUP (R158). -/
def execRegLookup (s : State) : Host.Outcome State Fault Refusal := runCommand .regLookup lookupBody s

/-- The body of REG.EXTMAP (R159). -/
def extmapBody (s : State) : Except Err Finish := do
  let ext ← readAll .busError s.srcCells
  let list := allowedCodecs ext
  .ok (registerFinish
    { r0 := BitVec.ofNat 32 (codecMask list)
      r1 := BitVec.ofNat 32 (codecPack list)
      r2 := BitVec.ofNat 32 list.length } 0)

/-- REG.EXTMAP (R159). -/
def execRegExtmap (s : State) : Host.Outcome State Fault Refusal := runCommand .regExtmap extmapBody s

end Sys2Proof.Machine
end

