-- ==== Sys2Proof/Machine/Header.lean ====
section
/-! DEFINITION. The archive header commands (46_archive_header R320 to R329). Their errors are never wrapped (R353). -/

namespace Sys2Proof.Machine

/-- The type byte of a file header (R320). -/
def fileTag : Byte := 0x00

/-- The type byte of a folder header (R320). -/
def folderTag : Byte := 0xFF

/-- The bytes of a file header (R320, R321). -/
def fileHeader (size : Word) (name : List Byte) (orig : Word) (codec : List Byte) : List Byte :=
  [fileTag] ++ be32 size ++ name ++ [0] ++ be32 orig ++ codec ++ [0]

/-- The bytes of a folder header (R320, R322). -/
def folderHeader (size : Word) (name : List Byte) : List Byte := [folderTag] ++ be32 size ++ name ++ [0]

/-- A scan for a 0x00 in address order (R323): HEADER_INVALID at the first one, BUS_ERROR at a byte that is not MEM_OK
before it. -/
def noZero : List SrcCell → Except Err Unit
  | [] => .ok ()
  | c :: rest => do
    let b ← readCell .busError c
    check (decide (b ≠ 0)) .headerInvalid
    noZero rest

/-- VALIDATE_FOLDER (R323). -/
def validateFolder (o : Operands) (name : List SrcCell) : Except Err Unit := do
  check (nonNegative o.arg0) .headerInvalid
  check (decide (o.srcLen ≠ 0)) .headerInvalid
  noZero name

/-- VALIDATE_FILE (R323). -/
def validateFile (o : Operands) (name codec : List SrcCell) : Except Err Unit := do
  check (nonNegative o.arg0 && nonNegative o.arg1) .headerInvalid
  check (decide (o.srcLen ≠ 0)) .headerInvalid
  noZero name
  noZero codec

/-- The end of an encode (R321, R322): the room for the header, then its bytes. -/
def storeHeader (s : State) (h : List Byte) : Except Err Finish := do
  check (decide (h.length ≤ s.latch.ops.dstCap.toNat)) .dstOverflow
  check ((Sink.start s).writable h.length) .busError
  .ok ⟨{ len := BitVec.ofNat 32 h.length }, s.latch.ops.dst.base, h, ⟨0, h.length, .none⟩⟩

/-- The body of HDR.EFILE (R321). -/
def efileBody (s : State) : Except Err Finish := do
  let o := s.latch.ops
  validateFile o s.srcCells (s.cells o.codec)
  let name ← readAll .busError s.srcCells
  let codec ← readAll .busError (s.cells o.codec)
  storeHeader s (fileHeader o.arg0 name o.arg1 codec)

/-- HDR.EFILE (R321). -/
def execHdrEfile (s : State) : Host.Outcome State Fault Refusal := runCommand .hdrEfile efileBody s

/-- The body of HDR.EFOLD (R322). -/
def efoldBody (s : State) : Except Err Finish := do
  let o := s.latch.ops
  validateFolder o s.srcCells
  let name ← readAll .busError s.srcCells
  storeHeader s (folderHeader o.arg0 name)

/-- HDR.EFOLD (R322). -/
def execHdrEfold (s : State) : Host.Outcome State Fault Refusal := runCommand .hdrEfold efoldBody s

/-- InAt(p) of a header command (R93, R95): its bus error is not wrapped. The decode conditions keep p below n. -/
def hdrAt (all : List SrcCell) (p : Nat) : Except Err Byte :=
  match all[p]? with
  | some c => readCell .busError c
  | none => .error .headerInvalid

/-- rdBE32(s, p) over InAt (R12, R325). -/
def hdrAt32 (all : List SrcCell) (p : Nat) : Except Err Word := do
  let b0 ← hdrAt all p
  let b1 ← hdrAt all (p + 1)
  let b2 ← hdrAt all (p + 2)
  let b3 ← hdrAt all (p + 3)
  .ok (rdBE32 b0 b1 b2 b3)

/-- The number of bytes before the first 0x00 (R325 conditions 5 and 8): HEADER_INVALID where there is none. -/
def findZero : List SrcCell → Except Err Nat
  | [] => .error .headerInvalid
  | c :: rest => do
    let b ← readCell .busError c
    if b = 0 then .ok 0
    else do
      let n ← findZero rest
      .ok (n + 1)

/-- Decode conditions 6 to 8 and the results of a file header (R325, R326), `z` the index of the name's terminator. -/
def decodeFileTail (all : List SrcCell) (size : Word) (z : Nat) : Except Err Results := do
  check (decide (5 ≤ all.length - (z + 1))) .headerInvalid
  let orig ← hdrAt32 all (z + 1)
  check (nonNegative orig) .headerInvalid
  let cl ← findZero (all.drop (z + 5))
  .ok
    { len := BitVec.ofNat 32 (z + 5 + cl + 1)
      r0 := 0x00
      r1 := size
      r2 := 5
      r3 := BitVec.ofNat 32 (z - 5)
      r4 := orig
      r5 := BitVec.ofNat 32 (z + 5)
      r6 := BitVec.ofNat 32 cl }

/-- HDR.DEC on the source bytes (R325 in order, R326). -/
def decodeHeader (all : List SrcCell) : Except Err Results := do
  check (decide (6 ≤ all.length)) .headerInvalid
  let t ← hdrAt all 0
  check (decide (t = fileTag ∨ t = folderTag)) .headerInvalid
  let size ← hdrAt32 all 1
  check (nonNegative size) .headerInvalid
  let b5 ← hdrAt all 5
  check (decide (b5 ≠ 0)) .headerInvalid
  let nl ← findZero (all.drop 5)
  if t = folderTag then
    .ok
      { len := BitVec.ofNat 32 (5 + nl + 1)
        r0 := 0xFF
        r1 := size
        r2 := 5
        r3 := BitVec.ofNat 32 nl }
  else decodeFileTail all size (5 + nl)

/-- The body of HDR.DEC (R326). It never moves inpos (R95). -/
def decBody (s : State) : Except Err Finish := do
  let r ← decodeHeader s.srcCells
  .ok ⟨r, 0, [], ⟨0, 0, .none⟩⟩

/-- HDR.DEC (R326). -/
def execHdrDec (s : State) : Host.Outcome State Fault Refusal := runCommand .hdrDec decBody s

/-- The body of HDR.PATCH (R329). -/
def patchBody (s : State) : Except Err Finish := do
  let o := s.latch.ops
  let at0 := o.dst.base + o.arg1.toNat
  check (decide (o.arg1.toNat + 5 ≤ o.dst.len)) .bufferBounds
  check (nonNegative o.arg0) .headerInvalid
  let t ← readCell .busError (s.cell at0)
  check (decide (t = fileTag ∨ t = folderTag)) .headerInvalid
  check ((List.range 4).all fun i => s.plat.memOk (at0 + 1 + i)) .busError
  .ok ⟨{ len := 4 }, at0 + 1, be32 o.arg0, ⟨0, 0, .none⟩⟩

/-- HDR.PATCH (R329). -/
def execHdrPatch (s : State) : Host.Outcome State Fault Refusal := runCommand .hdrPatch patchBody s

end Sys2Proof.Machine
end

