-- ==== Sys2Proof/Machine/F64.lean ====
section
/-! DEFINITION. The binary64 arithmetic of the image unit (00_scope R15): every operation is the exact result
rounded to 53 significant bits, nearest, ties to even. A value is man · 2^exp, held exactly. No command can produce a
NaN, an infinity or a subnormal (44_image_transform R272), so the exponent has no bound here and zero has no sign
(log 15). -/

namespace Sys2Proof.Machine

/-- The finite binary64 value man · 2^exp (R15). The same value may have several forms: only the value counts. -/
structure F64 where
  man : Int
  exp : Int
  deriving DecidableEq, Repr

/-- One halving step of a bit count: the bits of `n / 2^k` and `k` more, or the bits of `n`. -/
def bitStep (k : Nat) (rest : Nat → Nat) (n : Nat) : Nat :=
  match Nat.ble (2 ^ k) n with
  | true => k + rest (n / 2 ^ k)
  | false => rest n

/-- The number of bits of a magnitude: log2 + 1, and 0 for 0. Below 2^256 halving steps find it with fewer reductions. -/
def bitLength (n : Nat) : Nat :=
  match Nat.ble (2 ^ 256) n with
  | true => n.log2 + 1
  | false => bitStep 128 (bitStep 64 (bitStep 32 (bitStep 16 (bitStep 8 (bitStep 4 (bitStep 2 (bitStep 1 id))))))) n

/-- A magnitude divided by 2^sh, rounded to nearest with ties to even (R15). -/
def shiftRne (n sh : Nat) : Nat :=
  let q := n / 2 ^ sh
  let r := n % 2 ^ sh
  if 2 * r > 2 ^ sh ∨ (2 * r = 2 ^ sh ∧ q % 2 = 1) then q + 1 else q

/-- `n` with the sign of `m`. -/
def withSign (m : Int) (n : Nat) : Int := if m < 0 then -(n : Int) else n

namespace F64

/-- Round man · 2^exp to 53 significant bits, nearest, ties to even (R15). -/
def roundTo53 (m e : Int) : F64 :=
  let sh := bitLength m.natAbs - 53
  if sh = 0 then ⟨m, e⟩ else ⟨withSign m (shiftRne m.natAbs sh), e + sh⟩

/-- f64(n) (R15): exact for every integer the image unit converts. -/
def ofInt (n : Int) : F64 := roundTo53 n 0

/-- The value of a binary64 bit pattern (finite patterns only; the tables hold no other). -/
def ofBits (b : BitVec 64) : F64 :=
  let frac := (b.extractLsb' 0 52).toNat
  let ex := (b.extractLsb' 52 11).toNat
  let mag : Nat := if ex = 0 then frac else 2 ^ 52 + frac
  let e : Int := if ex = 0 then -1074 else (ex : Int) - 1075
  ⟨if b.getLsbD 63 then -(mag : Int) else mag, e⟩

/-- One binary64 addition. -/
def add (a b : F64) : F64 :=
  let e := min a.exp b.exp
  roundTo53 (a.man * (2 ^ (a.exp - e).toNat : Nat) + b.man * (2 ^ (b.exp - e).toNat : Nat)) e

def neg (a : F64) : F64 := ⟨-a.man, a.exp⟩

/-- One binary64 subtraction. -/
def sub (a b : F64) : F64 := add a (neg b)

/-- One binary64 multiplication. -/
def mul (a b : F64) : F64 := roundTo53 (a.man * b.man) (a.exp + b.exp)

/-- One binary64 division: the quotient to at least 56 bits with a sticky bit below, then rounded once. A divisor 0
does not occur (every QT entry is at least 1, R272); it gives 0. -/
def div (a b : F64) : F64 :=
  let d := b.man.natAbs
  if d = 0 then ⟨0, 0⟩
  else
    let k := 56 + bitLength d
    let num := a.man.natAbs * 2 ^ k
    let q := 2 * (num / d) + (if num % d = 0 then 0 else 1)
    roundTo53 (withSign (a.man * b.man) q) (a.exp - b.exp - k - 1)

/-- round(x) (R15, R241): the integer nearest to the exact value; a tie goes away from zero or toward +infinity. -/
def round (mode : RoundHalf) (x : F64) : Int :=
  if 0 ≤ x.exp then x.man * (2 ^ x.exp.toNat : Nat)
  else
    let d : Nat := 2 ^ (-x.exp).toNat
    match mode with
    | .away => withSign x.man ((2 * x.man.natAbs + d) / (2 * d))
    | .up => (2 * x.man + d) / ((2 * d : Nat) : Int)

end F64

/-- clamp (R15). -/
def clamp (n lo hi : Int) : Int := min (max n lo) hi

end Sys2Proof.Machine
end

