-- ==== Sys2Proof/Machine/ImageTransform.lean ====
section
/-! DEFINITION. The transform stages of the image codec (44_image_transform R243 to R270): the PPM parse, padding,
colour, blocks, DCT, quantization, zigzag, run-length pairs, and their inverses. -/

namespace Sys2Proof.Machine

/-! ## The input image -/

/-- WS (R243). -/
def isWs (b : Byte) : Bool :=
  b = 0x20 || b = 0x09 || b = 0x0A || b = 0x0B || b = 0x0C || b = 0x0D

/-- Skip whitespace; `seen` is whether some has been skipped. At least one is needed (R243 step 2). -/
def skipWs (seen : Bool) : List SrcCell → Except Cause (List SrcCell)
  | [] => .error .badImageHeader
  | c :: rest => do
    let b ← readCell .busError c
    if isWs b then skipWs true rest
    else do
      check seen .badImageHeader
      .ok (c :: rest)

/-- Read digits up to the first byte that is none, or the end (R243 step 2): the eleventh is an error. It answers how
many there were, their value and the rest. -/
def readDigits (count value : Nat) : List SrcCell → Except Cause (Nat × Nat × List SrcCell)
  | [] => .ok (count, value, [])
  | c :: rest => do
    let b ← readCell .busError c
    if isDigit b then do
      check (decide (count < 10)) .badImageHeader
      readDigits (count + 1) (value * 10 + (b.toNat - 48)) rest
    else .ok (count, value, c :: rest)

/-- num (R243): WS+ digit{1..10}, below 2^31. -/
def readNum (src : List SrcCell) : Except Cause (Nat × List SrcCell) := do
  let src ← skipWs false src
  let (count, value, src) ← readDigits 0 0 src
  check (decide (1 ≤ count ∧ value < 2 ^ 31)) .badImageHeader
  .ok (value, src)

/-- One header byte that must satisfy `p` (R243 steps 1 and 3). -/
def expectByte (p : Byte → Bool) : List SrcCell → Except Cause (List SrcCell)
  | [] => .error .badImageHeader
  | c :: rest => do
    let b ← readCell .busError c
    check (p b) .badImageHeader
    .ok rest

/-- An image: W, H, MAX and the 3·W·H sample bytes in raster order (R243, R245). -/
structure Image where
  width : Nat
  height : Nat
  maxVal : Nat
  px : List Byte
  deriving DecidableEq, Repr

/-- PARSE (R243, R244): the grammar, then the value checks, then the pixel bytes. -/
def parsePpm (maxPixels : Nat) (src : List SrcCell) : Except Cause Image := do
  let src ← expectByte (· = 0x50) src
  let src ← expectByte (· = 0x36) src
  let (w, src) ← readNum src
  let (h, src) ← readNum src
  let (mx, src) ← readNum src
  let src ← expectByte isWs src
  check (decide (1 ≤ w ∧ 1 ≤ h ∧ 1 ≤ mx ∧ mx ≤ 255)) .badImageHeader
  check (decide (w * h ≤ maxPixels)) .resource
  check (decide (3 * (w * h) ≤ inRemaining src)) .srcUnderrun
  let px ← readAll .busError (src.take (3 * (w * h)))
  .ok ⟨w, h, mx, px⟩

/-! ## Padding and blocks -/

/-- The padding amount of a dimension (R246). -/
def padOf (n : Nat) : Nat := (8 - n % 8) % 8

/-- A list cut into `n` pieces of `k` elements. -/
def pieces {α : Type} (k : Nat) : Nat → List α → List (List α)
  | 0, _ => []
  | n + 1, l => l.take k :: pieces k n (l.drop k)

/-- A pixel's three sample values (R245). -/
structure Rgb where
  r : Nat
  g : Nat
  b : Nat
  deriving DecidableEq, Repr

/-- PAD_RGB (R246). -/
def padRgb : Rgb := ⟨128, 128, 128⟩

/-- The pixel of three sample bytes (R245). -/
def rgbOf (l : List Byte) : Rgb := ⟨(l.getD 0 0).toNat, (l.getD 1 0).toNat, (l.getD 2 0).toNat⟩

/-- The padded image, Hp rows of Wp pixels (R246): padding on the right and at the bottom only. -/
def paddedRows (img : Image) : List (List Rgb) :=
  let wp := img.width + padOf img.width
  (pieces (3 * img.width) img.height img.px).map (fun row =>
      (pieces 3 img.width row).map rgbOf ++ List.replicate (padOf img.width) padRgb)
    ++ List.replicate (padOf img.height) (List.replicate wp padRgb)

/-- Block (by, bx) of a plane (R251) as 64 samples, element 8x + y being f[x][y]. -/
def blockAt (p : Plane) (byy bx : Nat) : List Int :=
  ((p.drop (8 * byy)).take 8).flatMap fun row => (row.drop (8 * bx)).take 8

/-- The blocks of a plane in raster order of blocks (R251). -/
def blocksOf (wp hp : Nat) (p : Plane) : List (List Int) :=
  (List.range (hp / 8)).flatMap fun byy => (List.range (wp / 8)).map fun bx => blockAt p byy bx

/-- The plane whose blocks, in raster order of blocks, are the list (R251, R268). -/
def planeOf (wp hp : Nat) (blocks : List (List Int)) : Plane :=
  (pieces (wp / 8) (hp / 8) blocks).flatMap fun rowOfBlocks =>
    (List.range 8).map fun x => rowOfBlocks.flatMap fun b => (b.drop (8 * x)).take 8

/-! ## Colour -/

/-- The colour transform and centring of one pixel (R249, R250), each sample an i32 (R242). With the default
coefficients it lies in [-128, 128] and nothing wraps; with replaced ones (R9) the rounding and the difference are both
wrapped (DESIGN CHOICE, log 23). -/
def toYuv (p : Platform) (c : Rgb) : Int × Int × Int :=
  let f := p.colourFwd
  let k (bits : BitVec 64) (v : Nat) : F64 := (F64.ofBits bits).mul (F64.ofInt v)
  let y := ((k f.yR c.r).add (k f.yG c.g)).add (k f.yB c.b)
  let u := ((((k f.uR c.r).sub (k f.uG c.g)).add (k f.uB c.b))).add (F64.ofBits f.offset)
  let v := ((((k f.vR c.r).sub (k f.vG c.g)).sub (k f.vB c.b))).add (F64.ofBits f.offset)
  let centre (z : F64) : Int := wrap32 (wrap32 (z.round p.roundHalf) - 128)
  (centre y, centre u, centre v)

/-- The inverse colour transform with clamping (R269), of un-centred samples, as three sample bytes. -/
def toRgb (p : Platform) (y u v : Int) : List Byte :=
  let f := p.colourInv
  let fy := F64.ofInt y
  let dU := F64.ofInt (u - 128)
  let dV := F64.ofInt (v - 128)
  let r := fy.add ((F64.ofBits f.rV).mul dV)
  let g := (fy.sub ((F64.ofBits f.gU).mul dU)).sub ((F64.ofBits f.gV).mul dV)
  let b := fy.add ((F64.ofBits f.bU).mul dU)
  let sample (z : F64) : Byte := BitVec.ofInt 8 (clamp (z.round p.roundHalf) 0 255)
  [sample r, sample g, sample b]

/-- The planes Y, U, V of an image (R248 to R250). -/
def planesOf (p : Platform) (img : Image) : List Plane :=
  let yuv := (paddedRows img).map fun row => row.map (toYuv p)
  [yuv.map (·.map (·.1)), yuv.map (·.map (·.2.1)), yuv.map (·.map (·.2.2))]

/-! ## DCT and quantization -/

/-- COS (R252). -/
def cosTable : List (List F64) := cosBits.map (·.map F64.ofBits)

/-- COS[i][j] (R252). -/
def cosAt (i j : Nat) : F64 := (cosTable.getD i []).getD j ⟨0, 0⟩

/-- CN[j] (R253). -/
def cnAt (j : Nat) : F64 := F64.ofBits (if j = 0 then cnZeroBits else oneBits)

/-- The pairs (i, j) in the order in which the sums of R254 and R267 run: i outer, j inner. -/
def index8x8 : List (Nat × Nat) := (List.range 8).flatMap fun i => (List.range 8).map fun j => (i, j)

/-- The sum of R254 for the frequencies (u, v), over a block's samples. -/
def fdctSum (f : List Int) (u v : Nat) : F64 :=
  (f.zip index8x8).foldl
    (fun acc t => acc.add (((F64.ofInt t.1).mul (cosAt t.2.1 u)).mul (cosAt t.2.2 v))) ⟨0, 0⟩

/-- F[u][v] (R254). -/
def fdctAt (f : List Int) (u v : Nat) : F64 :=
  (((F64.ofBits quarterBits).mul (cnAt u)).mul (cnAt v)).mul (fdctSum f u v)

/-- The quantized coefficient q[u][v] (R256). -/
def quantAt (p : Platform) (f : List Int) (u v : Nat) : Int :=
  wrap32 (((fdctAt f u v).div (F64.ofInt (p.qtable.getD (8 * u + v) 1))).round p.roundHalf)

/-- FDCT and quantization of a block: element 8u + v (R254, R256, R257). -/
def quantBlock (p : Platform) (f : List Int) : List Int := index8x8.map fun t => quantAt p f t.1 t.2

/-- De-quantization (R267): the i32 product. -/
def dequantBlock (p : Platform) (q : List Int) : List Int :=
  q.zipWith (fun c t => wrap32 (c * (p.qtable.getD (8 * t.1 + t.2) 1 : Nat))) index8x8

/-- The sum of R267 for the sample (x, y), over the de-quantized coefficients. -/
def idctSum (fd : List Int) (x y : Nat) : F64 :=
  (fd.zip index8x8).foldl
    (fun acc t =>
      acc.add (((((cnAt t.2.1).mul (cnAt t.2.2)).mul (F64.ofInt t.1)).mul (cosAt x t.2.1)).mul (cosAt y t.2.2)))
    ⟨0, 0⟩

/-- The inverse DCT and un-centring of a block (R267, R268): element 8x + y. -/
def idctBlock (p : Platform) (q : List Int) : List Int :=
  let fd := dequantBlock p q
  index8x8.map fun t =>
    let g := wrap32 (((F64.ofBits quarterBits).mul (idctSum fd t.1 t.2)).round p.roundHalf)
    wrap32 (g + 128)

/-! ## Zigzag and run-length pairs -/

/-- z[k] = q[ZZ[k]] (R258). -/
def zigzag (q : List Int) : List Int := zz.map fun i => q.getD i 0

/-- q[ZZ[k]] = z[k] (R266). -/
def unzigzag (z : List Int) : List Int := zi.map fun k => z.getD k 0

/-- RLE (R260) from position `k` on, `run` zeros behind. The last coefficient of the list is the block's last. -/
def rleFrom (run : Nat) : List Int → List Pair
  | [] => []
  | c :: rest =>
    if c ≠ 0 ∨ rest = [] ∨ run = 15 then ⟨run, c⟩ :: rleFrom 0 rest else rleFrom (run + 1) rest

/-- RLE of one block's 64 zigzag coefficients (R260). -/
def rle (z : List Int) : List Pair := rleFrom 0 z

/-- The expansion of pairs (R265). -/
def expandPairs (l : List Pair) : List Int := l.flatMap fun q => List.replicate q.run 0 ++ [q.val]

end Sys2Proof.Machine
end

