-- ==== Sys2Proof/Machine/Huffman.lean ====
section
/-! DEFINITION. The Huffman encoder and decoder of the image codec (45_image_huffman R281 to R286, R291, R292). -/

namespace Sys2Proof.Machine

/-! ## Encoder -/

/-- The symbol order (R281): by run, then by value. -/
def Pair.before (a b : Pair) : Bool := a.run < b.run || (a.run = b.run && a.val < b.val)

/-- Count one more occurrence of a symbol in a frequency list kept in symbol order (R281). -/
def countSymbol (s : Pair) : List (Pair × Nat) → List (Pair × Nat)
  | [] => [(s, 1)]
  | (t, n) :: rest =>
    if s = t then (t, n + 1) :: rest
    else if s.before t then (s, 1) :: (t, n) :: rest
    else (t, n) :: countSymbol s rest

/-- The distinct symbols with their frequencies, in symbol order (R281). -/
def frequencies (l : List Pair) : List (Pair × Nat) := l.foldl (fun acc s => countSymbol s acc) []

/-- The least (weight, seq) goes first (R282). -/
def HNode.before (a b : HNode) : Bool := a.weight < b.weight || (a.weight = b.weight && a.seq < b.seq)

/-- Insert a node into the priority queue, kept in order (R282). -/
def enqueue (n : HNode) : List HNode → List HNode
  | [] => [n]
  | m :: q => if n.before m then n :: m :: q else m :: enqueue n q

/-- The leaves (R282): symbol i has sequence number i. -/
def leaves : Nat → List (Pair × Nat) → List HNode
  | _, [] => []
  | i, (s, n) :: rest => ⟨n, i, .leaf s⟩ :: leaves (i + 1) rest

/-- The merge loop (R282); every round takes one node away, so `fuel` = the number of leaves is enough. -/
def mergeLoop : Nat → Nat → List HNode → Option HTree
  | fuel + 1, next, a :: b :: q =>
    mergeLoop fuel (next + 1) (enqueue ⟨a.weight + b.weight, next, .node a.tree b.tree⟩ q)
  | _, _, [n] => some n.tree
  | _, _, _ => none

/-- The Huffman tree (R282). -/
def huffmanTree (freqs : List (Pair × Nat)) : Option HTree :=
  mergeLoop freqs.length freqs.length ((leaves 0 freqs).foldl (fun q n => enqueue n q) [])

/-- The codes of a tree (R283): "0" to child0, "1" to child1. -/
def HTree.codes : HTree → List (Pair × List Bool)
  | .leaf s => [(s, [])]
  | .node a b => (a.codes.map fun c => (c.1, false :: c.2)) ++ (b.codes.map fun c => (c.1, true :: c.2))

/-- The code of a symbol. -/
def codeOf (codes : List (Pair × List Bool)) (s : Pair) : List Bool :=
  match codes with
  | [] => []
  | (t, c) :: rest => if t = s then c else codeOf rest s

/-- The code map (R283); one distinct symbol has the code "0". -/
def huffmanCodes (freqs : List (Pair × Nat)) : List (Pair × List Bool) :=
  match freqs with
  | [(s, _)] => [(s, [false])]
  | _ =>
    match huffmanTree freqs with
    | some t => t.codes
    | none => []

/-- The code as ASCII characters (R284). -/
def asciiBits (c : List Bool) : List Byte := c.map fun b => if b then 0x31 else 0x30

/-- REC (R284). -/
def dictRecord (s : Pair) (code : List Bool) : List Byte :=
  [BitVec.ofNat 8 s.run] ++ be32 (i32Bits s.val) ++ [0x20] ++ asciiBits code ++ [0x20]

/-- A channel's dictionary, in symbol order (R284). -/
def dictionary (freqs : List (Pair × Nat)) (codes : List (Pair × List Bool)) : List Byte :=
  freqs.flatMap fun f => dictRecord f.1 (codeOf codes f.1)

/-- A channel's bits (R286). -/
def streamBits (codes : List (Pair × List Bool)) (l : List Pair) : List Bool := l.flatMap (codeOf codes)

/-- Up to eight bits as a byte, the first bit most significant, missing bits 0 (R286). -/
def packByte (bits : List Bool) : Byte :=
  BitVec.ofNat 8 (((List.range 8).map fun i => if bits.getD i false then 2 ^ (7 - i) else 0).sum)

/-- PACK (R286): `fuel` is at least the number of bytes. -/
def packLoop : Nat → List Bool → List Byte
  | 0, _ => []
  | fuel + 1, bits => if bits = [] then [] else packByte (bits.take 8) :: packLoop fuel (bits.drop 8)

def packBits (bits : List Bool) : List Byte := packLoop bits.length bits

/-- The run-length pairs of a coefficient sequence, block by block of 64 (R259, R260). -/
def pairsOf (coeffs : List Int) : List Pair := (pieces 64 (coeffs.length / 64) coeffs).flatMap rle

/-- A channel's entropy stage (R281 to R283), from its coefficient sequence. -/
def channelEnc (coeffs : List Int) : ChannelEnc :=
  let prs := pairsOf coeffs
  let freqs := frequencies prs
  { coeffs := coeffs
    pairs := prs
    freqs := freqs
    tree := if freqs.length = 1 then none else huffmanTree freqs
    codes := huffmanCodes freqs }

/-- A channel's dictionary bytes (R284). -/
def ChannelEnc.dict (c : ChannelEnc) : List Byte := dictionary c.freqs c.codes

/-- A channel's stream bytes (R286). -/
def ChannelEnc.stream (c : ChannelEnc) : List Byte := packBits (streamBits c.codes c.pairs)

/-! ## Decoder -/

/-- INSERT below an internal node (R291); `none` is BAD_DICTIONARY. An absent child on the way is created empty. -/
def CTree.insert (sym : Pair) : List Bool → CTree → Option CTree
  | [], _ => none
  | _ :: _, .leaf _ => none
  | bit :: rest, .absent =>
    -- a node just created: no child on either side
    if rest = [] then some (if bit then .node .absent (.leaf sym) else .node (.leaf sym) .absent)
    else
      match CTree.insert sym rest .absent with
      | some c => some (if bit then .node .absent c else .node c .absent)
      | none => none
  | bit :: rest, .node c0 c1 =>
    if rest = [] then
      if bit then (if c1 = .absent then some (.node c0 (.leaf sym)) else none)
      else (if c0 = .absent then some (.node (.leaf sym) c1) else none)
    else if bit then
      match CTree.insert sym rest c1 with
      | some c => some (.node c0 c)
      | none => none
    else
      match CTree.insert sym rest c0 with
      | some c => some (.node c c1)
      | none => none

/-- The code characters from a dictionary position on (R291): the bits, and the cells from the first other byte on. -/
def readCode : List SrcCell → Except Cause (List Bool × List SrcCell)
  | [] => .ok ([], [])
  | c :: rest => do
    let b ← readCell .busError c
    if b = 0x30 then do
      let (code, rest) ← readCode rest
      .ok (false :: code, rest)
    else if b = 0x31 then do
      let (code, rest) ← readCode rest
      .ok (true :: code, rest)
    else .ok ([], c :: rest)

/-- The next byte of a dictionary region. -/
def dictByte : List SrcCell → Except Cause (Byte × List SrcCell)
  | [] => .error .badDictionary
  | c :: rest => do
    let b ← readCell .busError c
    .ok (b, rest)

/-- One record of a dictionary region: the symbol, the code, the rest (R291). Its six fixed bytes are read before its run
and its separator are checked, so a separator that is not MEM_OK is BUS_ERROR even where the run is above 15: the rule
does not say whether its `or` reads the separator then (DESIGN CHOICE, log 14). -/
def readRecord (d : List SrcCell) : Except Cause (Pair × List Bool × List SrcCell) := do
  check (decide (6 ≤ d.length)) .badDictionary
  let (run, d) ← dictByte d
  let (v0, d) ← dictByte d
  let (v1, d) ← dictByte d
  let (v2, d) ← dictByte d
  let (v3, d) ← dictByte d
  let (sp, d) ← dictByte d
  check (decide (run.toNat ≤ 15 ∧ sp = 0x20)) .badDictionary
  let (code, d) ← readCode d
  check (decide (code ≠ [])) .badDictionary
  let (sp2, d) ← dictByte d
  check (decide (sp2 = 0x20)) .badDictionary
  .ok (⟨run.toNat, asI32 (rdBE32 v0 v1 v2 v3)⟩, code, d)

/-- The loop of BUILD (R291); every record takes at least one byte, so `fuel` = the region's length is enough. -/
def buildLoop : Nat → List SrcCell → CTree → Except Cause CTree
  | 0, _, t => .ok t
  | fuel + 1, d, t =>
    if d = [] then .ok t
    else do
      let (sym, code, d) ← readRecord d
      match t.insert sym code with
      | some t => buildLoop fuel d t
      | none => .error .badDictionary

/-- BUILD (R291). -/
def buildTree (d : List SrcCell) : Except Cause CTree := do
  check (decide (d ≠ [])) .badDictionary
  buildLoop d.length d (.node .absent .absent)

/-- The bits of a source byte, most significant first (R286); each bit read is an access to the byte (R292). -/
def cellBits : SrcCell → List (Option Bool)
  | some b => (controlBits b).map some
  | none => List.replicate 8 none
where
  /-- Bit 7 first. -/
  controlBits (b : Byte) : List Bool := (List.range 8).map fun i => b.getLsbD (7 - i)

/-- The child of a node on a bit; `absent` where there is none. -/
def CTree.child (t : CTree) (bit : Bool) : CTree :=
  match t with
  | .node c0 c1 => if bit then c1 else c0
  | .leaf _ => .absent
  | .absent => .absent

/-- WALK (R292) from a node, over the bits of the unread source; `count` coefficients are there so far, `acc` holds
them last first, `nb` bits are read. One round is one bit. -/
def walk (root : CTree) (n : Nat) : List (Option Bool) → CTree → Nat → List Int → Nat →
    Except Cause (List Int × Nat)
  | bits, node, count, acc, nb =>
    if n ≤ count then .ok (acc.reverse, nb)
    else
      match bits with
      | [] => .error .srcUnderrun
      | none :: _ => .error .busError
      | some bit :: rest =>
        match node.child bit with
        | .absent => .error .badBitstream
        | .leaf s =>
          if n < count + s.run + 1 then .error .badBitstream
          else walk root n rest root (count + s.run + 1) (s.val :: (List.replicate s.run 0 ++ acc)) (nb + 1)
        | .node c0 c1 => walk root n rest (.node c0 c1) count acc (nb + 1)

/-- One channel's stream (R292): the coefficients, the bits read, and the source from the next stream's byte on. -/
def walkChannel (root : CTree) (n : Nat) (src : List SrcCell) : Except Cause (ChannelDec × List SrcCell) := do
  let (z, nb) ← walk root n (src.flatMap cellBits) root 0 [] 0
  .ok (⟨root, nb, z⟩, src.drop ((nb + 7) / 8))

end Sys2Proof.Machine
end

