-- ==== Sys2Proof/Machine/Jpeg.lean ====
section
/-! DEFINITION. The image container and the JPEG commands (45_image_huffman R285, R287, R290, R293, R300, R301). -/

namespace Sys2Proof.Machine

/-- ASCII "P6". -/
def asciiP6 : List Byte := [0x50, 0x36]

/-- SP and LF (R285). -/
def sp : List Byte := [0x20]
def lf : List Byte := [0x0A]

/-! ## JPEG.C -/

/-- The three channels of an image (R300): the transform stages, then the entropy stage. -/
def encodeChannels (p : Platform) (img : Image) : List ChannelEnc :=
  let wp := img.width + padOf img.width
  let hp := img.height + padOf img.height
  (planesOf p img).map fun plane =>
    channelEnc ((blocksOf wp hp plane).flatMap fun f => zigzag (quantBlock p f))

/-- The container header (R285). -/
def containerHeader (img : Image) (dicts : List (List Byte)) : List Byte :=
  asciiP6 ++ sp ++ dec img.width ++ sp ++ dec img.height ++ sp ++ dec img.maxVal ++ sp ++ dec (padOf img.width)
    ++ sp ++ dec (padOf img.height) ++ dicts.flatMap (fun d => sp ++ dec d.length) ++ lf

/-- The container (R287) of an image's channels. -/
def containerOf (img : Image) (ch : List ChannelEnc) : List Byte :=
  containerHeader img (ch.map (·.dict)) ++ ch.flatMap (·.dict) ++ ch.flatMap (·.stream)

/-- The compressed image (R300). -/
def jpegEncode (p : Platform) (img : Image) : List Byte := containerOf img (encodeChannels p img)

/-- The body of JPEG.C (R300). Its Errors item, whose order binds (60_exceptions R356), has a failed destination access
before DST_OVERFLOW, so the container is appended byte by byte (log 13). -/
def jpegCBody (s : State) : Except Cause Finish := do
  let img ← parsePpm s.plat.maxPixels s.srcCells
  let ch := encodeChannels s.plat img
  let k ← (Sink.start s).putEach (containerOf img ch)
  .ok (codecFinish k s.latch.ops.srcLen.toNat (.imgEnc (planesOf s.plat img) ch))

/-- JPEG.C (R300). -/
def execJpegC (s : State) : Host.Outcome State Fault Refusal :=
  runCommand .jpegC (fun s => wrapCause (jpegCBody s)) s

/-! ## JPEG.D -/

/-- The bytes before the first 0x0A and the cells after it (R290). -/
def readLine : List SrcCell → Except Cause (List Byte × List SrcCell)
  | [] => .error .badImageHeader
  | c :: rest => do
    let b ← readCell .busError c
    if b = 0x0A then .ok ([], rest)
    else do
      let (line, rest) ← readLine rest
      .ok (b :: line, rest)

/-- A line split at every 0x20 (R290): two adjacent spaces give an empty token. -/
def splitTokens : List Byte → List (List Byte)
  | [] => [[]]
  | b :: rest =>
    if b = 0x20 then [] :: splitTokens rest
    else
      match splitTokens rest with
      | [] => [[b]]
      | t :: ts => (b :: t) :: ts

/-- The value of ASCII digits. -/
def digitsValue (l : List Byte) : Nat := l.foldl (fun v b => v * 10 + (b.toNat - 48)) 0

/-- A numeric token (R290 step 2): 1 to 10 digits, below 2^31. -/
def tokenValue (t : List Byte) : Except Cause Nat := do
  check (decide (1 ≤ t.length ∧ t.length ≤ 10) && t.all isDigit) .badImageHeader
  check (decide (digitsValue t < 2 ^ 31)) .badImageHeader
  .ok (digitsValue t)

/-- A container header's values (R290). -/
structure ContainerHeader where
  width : Nat
  height : Nat
  maxVal : Nat
  padW : Nat
  padH : Nat
  dictLens : List Nat
  deriving DecidableEq, Repr

/-- Numeric tokens in order (R290 step 2). -/
def tokenValues : List (List Byte) → Except Cause (List Nat)
  | [] => .ok []
  | t :: ts => do
    let v ← tokenValue t
    let vs ← tokenValues ts
    .ok (v :: vs)

/-- Steps 1 to 3 of R290 on the header line. -/
def parseTokens (tokens : List (List Byte)) : Except Cause ContainerHeader :=
  match tokens with
  | [t0, t1, t2, t3, t4, t5, t6, t7, t8] => do
    check (decide (t0 = asciiP6)) .badImageHeader
    let v ← tokenValues [t1, t2, t3, t4, t5, t6, t7, t8]
    let h : ContainerHeader := ⟨v.getD 0 0, v.getD 1 0, v.getD 2 0, v.getD 3 0, v.getD 4 0, v.drop 5⟩
    check (decide (1 ≤ h.width ∧ 1 ≤ h.height ∧ 1 ≤ h.maxVal ∧ h.maxVal ≤ 255 ∧
      h.padW = padOf h.width ∧ h.padH = padOf h.height)) .badImageHeader
    .ok h
  | _ => .error .badImageHeader

/-- The header parse (R290), with the cells after the line. -/
def parseContainerHeader (maxPixels : Nat) (src : List SrcCell) :
    Except Cause (ContainerHeader × List SrcCell) := do
  let (line, src) ← readLine src
  let h ← parseTokens (splitTokens line)
  check (decide (h.width * h.height ≤ maxPixels)) .resource
  .ok (h, src)

/-- The three trees, in channel order (R291, R301). -/
def buildTrees : List Nat → List SrcCell → Except Cause (List CTree × List SrcCell)
  | [], src => .ok ([], src)
  | d :: ds, src => do
    check (decide (d ≤ inRemaining src)) .srcUnderrun
    let t ← buildTree (src.take d)
    let (ts, src) ← buildTrees ds (src.drop d)
    .ok (t :: ts, src)

/-- The three walks, in channel order (R292, R301). -/
def walkChannels (n : Nat) : List CTree → List SrcCell → Except Cause (List ChannelDec × List SrcCell)
  | [], src => .ok ([], src)
  | t :: ts, src => do
    let (c, src) ← walkChannel t n src
    let (cs, src) ← walkChannels n ts src
    .ok (c :: cs, src)

/-- The entropy stage of JPEG.D (R301): header, trees, walks. -/
def parseContainer (maxPixels : Nat) (src : List SrcCell) :
    Except Cause (ContainerHeader × List ChannelDec × List SrcCell) := do
  let (h, src) ← parseContainerHeader maxPixels src
  let (trees, src) ← buildTrees h.dictLens src
  let (ch, src) ← walkChannels ((h.width + h.padW) * (h.height + h.padH)) trees src
  .ok (h, ch, src)

/-- The plane of a channel's coefficients (R266 to R268). -/
def decodePlane (p : Platform) (wp hp : Nat) (coeffs : List Int) : Plane :=
  planeOf wp hp ((pieces 64 (coeffs.length / 64) coeffs).map fun z => idctBlock p (unzigzag z))

/-- The pixel bytes of the cropped image (R269, R270, R293). -/
def pixelBytes (p : Platform) (w h : Nat) (planes : List Plane) : List Byte :=
  (List.range h).flatMap fun r =>
    let row (i : Nat) : List Int := ((planes.getD i []).getD r [])
    (((row 0).zip ((row 1).zip (row 2))).take w).flatMap fun t => toRgb p t.1 t.2.1 t.2.2

/-- The header of the decoded image (R293). -/
def ppmHeader (w h mx : Nat) : List Byte := asciiP6 ++ lf ++ dec w ++ sp ++ dec h ++ lf ++ dec mx ++ lf

/-- The planes of a decoded container (R301). -/
def decodePlanes (p : Platform) (h : ContainerHeader) (ch : List ChannelDec) : List Plane :=
  ch.map fun c => decodePlane p (h.width + h.padW) (h.height + h.padH) c.coeffs

/-- The body of JPEG.D (R301). ARG0 is ignored. -/
def jpegDBody (s : State) : Except Cause Finish := do
  let (h, ch, src) ← parseContainer s.plat.maxPixels s.srcCells
  let planes := decodePlanes s.plat h ch
  let k ← (Sink.start s).putBytes (ppmHeader h.width h.height h.maxVal)
  let k ← k.putBytes (pixelBytes s.plat h.width h.height planes)
  .ok (codecFinish k (s.srcCells.length - src.length) (.imgDec planes ch))

/-- JPEG.D (R301). -/
def execJpegD (s : State) : Host.Outcome State Fault Refusal :=
  runCommand .jpegD (fun s => wrapCause (jpegDBody s)) s

end Sys2Proof.Machine
end

