-- ==== Sys2Proof/Machine/Trie.lean ====
section
/-! DEFINITION. The LZ-trie dictionary matcher's parts shared by LZ78 and LZW (10_state R63 to R65): the trie, the
sentinel, and the two ways in which a compressor is run: over the cells of the source region with its output checked
byte by byte, and over a byte string as a function to the compressed stream. -/

namespace Sys2Proof.Machine

/-- SENTINEL (00_scope R8), 0x7FFF. -/
def sentinelCode : Nat := 32767

/-- CODE_LIMIT (00_scope R8): the codes are 0 to 32766. -/
def codeLimit : Nat := 32767

/-- child(node, b) (R63), by the child's code. -/
def trieChild (nodes : List TrieNode) (node : Option Nat) (b : Byte) : Option Nat :=
  match nodes with
  | [] => none
  | n :: rest => if n.parent = node ∧ n.sym = b then some n.code else trieChild rest node b

/-- code(node) (R63): the root's is 0. -/
def nodeCode : Option Nat → Nat
  | none => 0
  | some c => c

/-- The output of a compressor, as the list of its appends in order. -/
abbrev Chunks := List (List Byte)

/-- A compressor that reads a byte at a time: what one byte does, and what the end of input does. -/
structure Compressor where
  feed : TrieState → Byte → TrieState × Chunks
  finish : TrieState → Chunks

/-- Run a compressor over the source (R90) with its output appended to the destination (R96 to R99). -/
def Compressor.drive (c : Compressor) : List SrcCell → TrieState → Sink → Except Cause (TrieState × Sink)
  | [], t, k => do
    let k ← Sink.putChunks (c.finish t) k
    .ok (t, k)
  | cell :: rest, t, k => do
    let b ← readCell .busError cell
    let k ← Sink.putChunks (c.feed t b).2 k
    c.drive rest (c.feed t b).1 k

/-- The appends a compressor makes on a byte string. -/
def Compressor.chunks (c : Compressor) : TrieState → List Byte → Chunks
  | t, [] => c.finish t
  | t, b :: bs => (c.feed t b).2 ++ c.chunks (c.feed t b).1 bs

/-- The compressed stream of a byte string. -/
def Compressor.stream (c : Compressor) (t : TrieState) (bs : List Byte) : List Byte := (c.chunks t bs).flatten

end Sys2Proof.Machine
end

