-- ==== Sys2Proof/Machine/Lz78.lean ====
section
/-! DEFINITION. The LZ78 commands (41_lz78 R170 to R177). -/

namespace Sys2Proof.Machine

/-- The root alone, next = 1 (R63, R173). -/
def lz78Start : TrieState := ⟨[], none, 1⟩

/-- One input byte (R173): descend, or emit a record, insert the new child and go back to the root; right after code
32766 is assigned, emit the sentinel and start again (R174). -/
def lz78Feed (t : TrieState) (b : Byte) : TrieState × Chunks :=
  match trieChild t.nodes t.node b with
  | some c => ({ t with node := some c }, [])
  | none =>
    let record : Chunks := [be16 (nodeCode t.node), [b]]
    if t.next + 1 = codeLimit then (lz78Start, record ++ [be16 sentinelCode])
    else (⟨⟨t.node, b, t.next⟩ :: t.nodes, none, t.next + 1⟩, record)

/-- The end of input (R173, R175): the final item, when the node is not the root. -/
def lz78End (t : TrieState) : Chunks :=
  match t.node with
  | none => []
  | some c => [be16 c]

/-- The LZ78 compressor (R173). -/
def lz78Compressor : Compressor := ⟨lz78Feed, lz78End⟩

/-- The LZ78 stream of a byte string (R172, R173). -/
def lz78Encode (bs : List Byte) : List Byte := lz78Compressor.stream lz78Start bs

/-- The body of LZ78.C (R173). -/
def lz78CBody (s : State) : Except Cause Finish := do
  let (t, k) ← lz78Compressor.drive s.srcCells lz78Start (Sink.start s)
  .ok (codecFinish k s.latch.ops.srcLen.toNat (.lz78Enc t))

/-- LZ78.C (R173). -/
def execLz78C (s : State) : Host.Outcome State Fault Refusal :=
  runCommand .lz78C (fun s => wrapCause (lz78CBody s)) s

/-- The decoder's initial table, {0 ↦ empty string}, next = 1 (R65, R176). next is always the table's length. -/
def lz78Table : List (List Byte) := [[]]

/-- emit(s) (R177): the output may not pass originalSize. -/
def emitSized (arg0 : Nat) (k : Sink) (bs : List Byte) : Except Cause Sink := do
  check (decide (k.outlen + bs.length ≤ arg0)) .sizeMismatch
  k.putBytes bs

/-- The loop of LZ78.D (R177). Each round reads at least two bytes, so `fuel` = the bytes not yet read is enough. -/
def lz78Loop (arg0 : Nat) : Nat → List SrcCell → List (List Byte) → Sink →
    Except Cause (List (List Byte) × Sink)
  | 0, _, table, k => .ok (table, k)
  | fuel + 1, src, table, k =>
    if inRemaining src = 0 then .ok (table, k)
    else do
      let (c, src) ← inGet16 src
      if c = sentinelCode then lz78Loop arg0 fuel src lz78Table k
      else if inRemaining src = 0 then do
        check (decide (c < table.length)) .badCode
        let k ← emitSized arg0 k (table.getD c [])
        .ok (table, k)
      else do
        let (b, src) ← inGet src
        check (decide (c < table.length)) .badCode
        check (decide (table.length ≠ codeLimit)) .badCode
        let str := table.getD c [] ++ [b]
        let k ← emitSized arg0 k str
        lz78Loop arg0 fuel src (table ++ [str]) k

/-- The body of LZ78.D (R177). -/
def lz78DBody (s : State) : Except Cause Finish := do
  let arg0 := s.latch.ops.arg0.toNat
  check (decide (arg0 ≤ s.latch.ops.dstCap.toNat)) .dstOverflow
  let (table, k) ← lz78Loop arg0 s.srcCells.length s.srcCells lz78Table (Sink.start s)
  check (decide (k.outlen = arg0)) .sizeMismatch
  .ok (codecFinish k s.latch.ops.srcLen.toNat (.lz78Dec table))

/-- LZ78.D (R177). -/
def execLz78D (s : State) : Host.Outcome State Fault Refusal :=
  runCommand .lz78D (fun s => wrapCause (lz78DBody s)) s

end Sys2Proof.Machine
end

