-- ==== Sys2Proof/Machine/Lzss.lean ====
section
/-! DEFINITION. The LZSS commands (42_lzss R190 to R198). -/

namespace Sys2Proof.Machine

/-- WINDOW, MIN_MATCH, MAX_MATCH (R191). -/
def lzssWindow : Nat := 4095
def lzssMin : Nat := 3
def lzssMax : Nat := 18

/-- How many bytes two suffixes of the input agree in, at most `mx` (R192). -/
def matchLen : Nat → List Byte → List Byte → Nat
  | mx + 1, x :: xs, y :: ys => if x = y then matchLen mx xs ys + 1 else 0
  | _, _, _ => 0

/-- The candidate scan of R192 over `n` positions in ascending order: `hay` is the input from the position that lies
`off` bytes back, `cur` the input from the current position; a strictly longer match replaces the best (off, len). -/
def bestMatch (cur : List Byte) : Nat → List Byte → Nat → Nat × Nat → Nat × Nat
  | 0, _, _, best => best
  | n + 1, hay, off, best =>
    let l := if hay.head? = cur.head? then matchLen lzssMax hay cur else 0
    bestMatch cur n hay.tail (off - 1) (if best.2 < l then (off, l) else best)

/-- The best match at position `p` (R192): the window's oldest candidate lies min(p, 4095) bytes back. -/
def lzssSearch (input : List Byte) (p : Nat) : Nat × Nat :=
  let w := min p lzssWindow
  bestMatch (input.drop p) w (input.drop (p - w)) w (0, 0)

/-- The token at position `p` (R193). -/
def lzssToken (input : List Byte) (p : Nat) : Token :=
  let best := if 3 ≤ p then lzssSearch input p else (0, 0)
  if lzssMin ≤ best.2 then .copy best.1 best.2 else .lit ((input.drop p).headD 0)

/-- How many input bytes a token stands for. -/
def Token.width : Token → Nat
  | .lit _ => 1
  | .copy _ len => len
  | .sentinel => 0

/-- The tokens from position `p` on, the sentinel last (R193, R196). Each token takes at least one byte, so `fuel` =
the bytes not yet covered is enough. -/
def lzssTokens (input : List Byte) : Nat → Nat → List Token
  | 0, _ => [.sentinel]
  | fuel + 1, p =>
    if p < input.length then
      let t := lzssToken input p
      t :: lzssTokens input fuel (p + t.width)
    else [.sentinel]

/-- Token encodings (R194). -/
def Token.encoding : Token → List Byte
  | .lit b => [b]
  | .copy off len => be16 (off * 16 + (len - 3))
  | .sentinel => be16 0

/-- The flag of a token (R194): 0 for a literal. -/
def Token.flag : Token → Nat
  | .lit _ => 0
  | .copy _ _ => 1
  | .sentinel => 1

/-- The control byte of a group (R195): the flag of token k is bit 7 - k. -/
def controlValue : Nat → List Token → Nat
  | _, [] => 0
  | bit, t :: ts => t.flag * 2 ^ bit + controlValue (bit - 1) ts

/-- The appends of the groups of 8 tokens (R195, R196), each the control byte and then its tokens. `fuel` is at least
the number of tokens. -/
def lzssChunks : Nat → List Token → Chunks
  | 0, _ => []
  | fuel + 1, toks =>
    if toks = [] then []
    else
      let grp := toks.take 8
      [BitVec.ofNat 8 (controlValue 7 grp)] :: grp.map Token.encoding ++ lzssChunks fuel (toks.drop 8)

/-- The appends of LZSS.C on a byte string (R196). -/
def lzssOutput (bs : List Byte) : Chunks :=
  let toks := lzssTokens bs bs.length 0
  lzssChunks toks.length toks

/-- The LZSS stream of a byte string (R196). -/
def lzssEncode (bs : List Byte) : List Byte := (lzssOutput bs).flatten

/-- The compressor's own state at its end (R66): the control byte's position and the token count of its last group. -/
def lzssLast (bs : List Byte) : UnitWork :=
  let toks := lzssTokens bs bs.length 0
  let full := (toks.length - 1) / 8 * 8
  .lzssEnc bs.length (lzssChunks full (toks.take full)).flatten.length (toks.length - full)

/-- The body of LZSS.C (R196): the tokens are complete, and the whole source is read, before the first append. -/
def lzssCBody (s : State) : Except Cause Finish := do
  let input ← readAll .busError s.srcCells
  let k ← Sink.putChunks (lzssOutput input) (Sink.start s)
  .ok (codecFinish k s.latch.ops.srcLen.toNat (lzssLast input))

/-- LZSS.C (R196). -/
def execLzssC (s : State) : Host.Outcome State Fault Refusal :=
  runCommand .lzssC (fun s => wrapCause (lzssCBody s)) s

/-- The flags of a control byte, bit 7 first (R195, R197). -/
def controlFlags (b : Byte) : List Bool :=
  [b.getLsbD 7, b.getLsbD 6, b.getLsbD 5, b.getLsbD 4, b.getLsbD 3, b.getLsbD 2, b.getLsbD 1, b.getLsbD 0]

/-- The loop of LZSS.D (R198), with the flags left of the current control byte. Each round reads at least one byte, so
`fuel` = the bytes not yet read is enough: past it a read would find none left. It answers the unread source. -/
def lzssLoop (arg0 : Nat) : Nat → List Bool → List SrcCell → Sink → Except Cause (List SrcCell × Sink)
  | 0, _, _, _ => .error .srcUnderrun
  | fuel + 1, [], src, k => do
    let (ctrl, src) ← inGet src
    lzssLoop arg0 fuel (controlFlags ctrl) src k
  | fuel + 1, false :: flags, src, k => do
    let (b, src) ← inGet src
    check (decide (k.outlen + 1 ≤ arg0)) .sizeMismatch
    let k ← k.put b
    lzssLoop arg0 fuel flags src k
  | fuel + 1, true :: flags, src, k => do
    let (w, src) ← inGet16 src
    let off := w / 16
    let len := w % 16 + 3
    if off = 0 then do
      check (decide (k.outlen = arg0)) .sizeMismatch
      .ok (src, k)
    else do
      check (decide (off ≤ k.outlen)) .badOffset
      check (decide (k.outlen + len ≤ arg0)) .sizeMismatch
      let k ← k.copyBack off len
      lzssLoop arg0 fuel flags src k

/-- The body of LZSS.D (R198). -/
def lzssDBody (s : State) : Except Cause Finish := do
  let arg0 := s.latch.ops.arg0.toNat
  check (decide (arg0 ≤ s.latch.ops.dstCap.toNat)) .dstOverflow
  let (src, k) ← lzssLoop arg0 s.srcCells.length [] s.srcCells (Sink.start s)
  .ok (codecFinish k (s.srcCells.length - src.length) .none)

/-- LZSS.D (R198). -/
def execLzssD (s : State) : Host.Outcome State Fault Refusal :=
  runCommand .lzssD (fun s => wrapCause (lzssDBody s)) s

end Sys2Proof.Machine
end

