-- ==== Sys2Proof/Machine/Lzw.lean ====
section
/-! DEFINITION. The LZW commands (43_lzw R220 to R226). -/

namespace Sys2Proof.Machine

/-- LZW_FIRST_CODE (00_scope R8). -/
def lzwFirstCode : Nat := 256

/-- The root's 256 children, child b with code b (R64, R221). -/
def lzwBaseNodes : List TrieNode := (List.range 256).map fun b => ⟨none, BitVec.ofNat 8 b, b⟩

/-- The base set, next = 256 (R64, R223). -/
def lzwStart : TrieState := ⟨lzwBaseNodes, none, lzwFirstCode⟩

/-- The dictionary after the first unseen extension of a match is inserted (R223), with the sentinel and the base set
again right after code 32766 is assigned (R224). -/
def lzwInsert (t : TrieState) (b : Byte) : TrieState × Chunks :=
  if t.next + 1 = codeLimit then (lzwStart, [be16 sentinelCode])
  else (⟨⟨t.node, b, t.next⟩ :: t.nodes, none, t.next + 1⟩, [])

/-- One input byte (R223): descend, or emit the matched code, insert the extension, and start the next match with this
same byte, which the match did not consume. -/
def lzwFeed (t : TrieState) (b : Byte) : TrieState × Chunks :=
  match trieChild t.nodes t.node b with
  | some c => ({ t with node := some c }, [])
  | none =>
    let (t', sentinel) := lzwInsert t b
    ({ t' with node := trieChild t'.nodes none b }, be16 (nodeCode t.node) :: sentinel)

/-- The end of input (R223): the code of the match that the input ended. -/
def lzwEnd (t : TrieState) : Chunks :=
  match t.node with
  | none => []
  | some c => [be16 c]

/-- The LZW compressor (R223). -/
def lzwCompressor : Compressor := ⟨lzwFeed, lzwEnd⟩

/-- The LZW stream of a byte string (R222, R223). -/
def lzwEncode (bs : List Byte) : List Byte := lzwCompressor.stream lzwStart bs

/-- The body of LZW.C (R223). -/
def lzwCBody (s : State) : Except Cause Finish := do
  let (t, k) ← lzwCompressor.drive s.srcCells lzwStart (Sink.start s)
  .ok (codecFinish k s.latch.ops.srcLen.toNat (.lzwEnc t))

/-- LZW.C (R223). -/
def execLzwC (s : State) : Host.Outcome State Fault Refusal :=
  runCommand .lzwC (fun s => wrapCause (lzwCBody s)) s

/-- The decoder's base set: code b is [b], next = 256 (R65, R225). next is always the table's length. -/
def lzwTable : List (List Byte) := (List.range 256).map fun b => [BitVec.ofNat 8 b]

/-- The string of a code and the table after it (R225, R226). -/
def lzwDecodeCode (table : List (List Byte)) (prev : Option (List Byte)) (c : Nat) :
    Except Cause (List Byte × List (List Byte)) :=
  match prev with
  | none => do
    check (decide (c < lzwFirstCode)) .badCode
    .ok (table.getD c [], table)
  | some p => do
    check (decide (c ≤ table.length)) .badCode
    let str := if c < table.length then table.getD c [] else p ++ p.take 1
    check (decide (table.length ≠ codeLimit)) .badCode
    .ok (str, table ++ [p ++ str.take 1])

/-- The loop of LZW.D (R226). Each round reads two bytes, so `fuel` = the bytes not yet read is enough. -/
def lzwLoop (arg0 : Nat) : Nat → List SrcCell → List (List Byte) → Option (List Byte) → Sink →
    Except Cause (List (List Byte) × Option (List Byte) × Sink)
  | 0, _, table, prev, k => .ok (table, prev, k)
  | fuel + 1, src, table, prev, k =>
    if inRemaining src = 0 then .ok (table, prev, k)
    else do
      let (c, src) ← inGet16 src
      if c = sentinelCode then lzwLoop arg0 fuel src lzwTable none k
      else do
        let (str, table) ← lzwDecodeCode table prev c
        let k ← emitSized arg0 k str
        lzwLoop arg0 fuel src table (some str) k

/-- The body of LZW.D (R226). -/
def lzwDBody (s : State) : Except Cause Finish := do
  let arg0 := s.latch.ops.arg0.toNat
  check (decide (arg0 ≤ s.latch.ops.dstCap.toNat)) .dstOverflow
  let (table, prev, k) ← lzwLoop arg0 s.srcCells.length s.srcCells lzwTable none (Sink.start s)
  check (decide (k.outlen = arg0)) .sizeMismatch
  .ok (codecFinish k s.latch.ops.srcLen.toNat (.lzwDec table prev))

/-- LZW.D (R226). -/
def execLzwD (s : State) : Host.Outcome State Fault Refusal :=
  runCommand .lzwD (fun s => wrapCause (lzwDBody s)) s

end Sys2Proof.Machine
end

