-- ==== Sys2Proof/Machine/Dispatch.lean ====
section
/-! DEFINITION. One arm per command (30_encoding R121): the meaning of the command in the operand latch. -/

namespace Sys2Proof.Machine

/-- The body and completion of a legal command (R151 to R155). -/
def exec (i : Instr) (s : State) : Host.Outcome State Fault Refusal :=
  match i with
  | .nop => Sys2Proof.Machine.execNop s
  | .lz78C => Sys2Proof.Machine.execLz78C s
  | .lz78D => Sys2Proof.Machine.execLz78D s
  | .lzssC => Sys2Proof.Machine.execLzssC s
  | .lzssD => Sys2Proof.Machine.execLzssD s
  | .lzwC => Sys2Proof.Machine.execLzwC s
  | .lzwD => Sys2Proof.Machine.execLzwD s
  | .jpegC => Sys2Proof.Machine.execJpegC s
  | .jpegD => Sys2Proof.Machine.execJpegD s
  | .hdrEfile => Sys2Proof.Machine.execHdrEfile s
  | .hdrEfold => Sys2Proof.Machine.execHdrEfold s
  | .hdrDec => Sys2Proof.Machine.execHdrDec s
  | .hdrPatch => Sys2Proof.Machine.execHdrPatch s
  | .regLookup => Sys2Proof.Machine.execRegLookup s
  | .regExtmap => Sys2Proof.Machine.execRegExtmap s

end Sys2Proof.Machine
end

