-- ==== Sys2Proof/Machine/HostBus.lean ====
section
/-! DEFINITION. What the host does to the machine: register reads and writes (10_state R30 to R39, 70 R381), memory
reads and writes with their races (20_memory R108), the polling loop (30_encoding R131) and the reset input
(70_reset_and_hazards R380). -/

namespace Sys2Proof.Machine

/-! ## The register map -/

/-- The offset of a register (R31). -/
def RegName.offset : RegName → Nat
  | .id => 0x00
  | .ctrl => 0x04
  | .status => 0x08
  | .cmd => 0x0C
  | .srcAddr => 0x10
  | .srcLen => 0x14
  | .dstAddr => 0x18
  | .dstCap => 0x1C
  | .arg0 => 0x20
  | .arg1 => 0x24
  | .arg2 => 0x28
  | .arg3 => 0x2C
  | .resLen => 0x30
  | .res0 => 0x34
  | .res1 => 0x38
  | .res2 => 0x3C
  | .res3 => 0x40
  | .res4 => 0x44
  | .res5 => 0x48
  | .res6 => 0x4C

/-- The register at an offset (R31); `none` at the reserved offsets 0x50 to 0xFC. -/
def regAt : Nat → Option RegName
  | 0x00 => some .id
  | 0x04 => some .ctrl
  | 0x08 => some .status
  | 0x0C => some .cmd
  | 0x10 => some .srcAddr
  | 0x14 => some .srcLen
  | 0x18 => some .dstAddr
  | 0x1C => some .dstCap
  | 0x20 => some .arg0
  | 0x24 => some .arg1
  | 0x28 => some .arg2
  | 0x2C => some .arg3
  | 0x30 => some .resLen
  | 0x34 => some .res0
  | 0x38 => some .res1
  | 0x3C => some .res2
  | 0x40 => some .res3
  | 0x44 => some .res4
  | 0x48 => some .res5
  | 0x4C => some .res6
  | _ => none

/-- ID_VALUE (R8, R32). -/
def idValue : Word := 0x50524F50

/-- What a read of a register returns (R31 to R38). -/
def State.readReg (s : State) : RegName → Word
  | .id => idValue
  | .ctrl => s.ctrlReg
  | .status => s.statusReg
  | .cmd => s.cmd
  | .srcAddr => s.ops.srcAddr
  | .srcLen => s.ops.srcLen
  | .dstAddr => s.ops.dstAddr
  | .dstCap => s.ops.dstCap
  | .arg0 => s.ops.arg0
  | .arg1 => s.ops.arg1
  | .arg2 => s.ops.arg2
  | .arg3 => s.ops.arg3
  | .resLen => s.res.len
  | .res0 => s.res.r0
  | .res1 => s.res.r1
  | .res2 => s.res.r2
  | .res3 => s.res.r3
  | .res4 => s.res.r4
  | .res5 => s.res.r5
  | .res6 => s.res.r6

/-- A write to CTRL (R33, R381): IE first, then the soft reset, refused while BUSY. -/
def State.writeCtrl (w : Word) (s : State) : State :=
  let s := { s with ie := w.getLsbD 0 }
  if w.getLsbD 1 then
    if s.isBusy then { s with status := s.status.overrun } else s.resetRegs
  else s

/-- A write to CMD (R35, R150, R383): a command start, or refused while BUSY. -/
def State.writeCmd (w : Word) (s : State) : State :=
  if s.isBusy then { s with status := s.status.overrun } else s.startCommand w

/-- What a write to a register does (R31 to R38): ID and the results ignore it. -/
def State.writeReg (s : State) (w : Word) : RegName → State
  | .ctrl => s.writeCtrl w
  | .status => s.acknowledge w
  | .cmd => s.writeCmd w
  | .srcAddr => { s with ops := { s.ops with srcAddr := w } }
  | .srcLen => { s with ops := { s.ops with srcLen := w } }
  | .dstAddr => { s with ops := { s.ops with dstAddr := w } }
  | .dstCap => { s with ops := { s.ops with dstCap := w } }
  | .arg0 => { s with ops := { s.ops with arg0 := w } }
  | .arg1 => { s with ops := { s.ops with arg1 := w } }
  | .arg2 => { s with ops := { s.ops with arg2 := w } }
  | .arg3 => { s with ops := { s.ops with arg3 := w } }
  | .id => s
  | .resLen => s
  | .res0 => s
  | .res1 => s
  | .res2 => s
  | .res3 => s
  | .res4 => s
  | .res5 => s
  | .res6 => s

/-- An access to the block has a meaning only as an aligned 32-bit access inside its 256 bytes (R30). -/
def regAccessOk (off bytes : Nat) : Bool := decide (bytes = 4) && decide (off % 4 = 0) && decide (off < 256)

/-- A host load from the block: a reserved offset reads 0 (R39). -/
def hostRegRead (off bytes : Nat) (s : State) : Host.Outcome State Fault Refusal :=
  if regAccessOk off bytes then
    .next { s with
      rdWord :=
        match regAt off with
        | some r => s.readReg r
        | none => 0 }
  else .refused .registerAccess

/-- A host store to the block: a reserved offset ignores it (R39). -/
def hostRegWrite (off bytes : Nat) (v : Word) (s : State) : Host.Outcome State Fault Refusal :=
  if regAccessOk off bytes then
    match regAt off with
    | some r => .next (s.writeReg v r)
    | none => .next s
  else .refused .registerAccess

/-! ## Memory -/

/-- The running command, where the engine is busy with a legal one (R151). -/
def State.running (s : State) : Option Instr :=
  if s.isBusy then
    match decode s.latch.cmd with
    | .ok i => some i
    | .error _ => none
  else none

/-- The running command's destination region; the empty one where there is none (R108, R380). -/
def State.busyDst (s : State) : Region :=
  match s.running with
  | some i => dstRegion i s.latch.ops
  | none => ⟨0, 0⟩

/-- A host write to `r` races with the running command (R108): it touches a region the command uses. -/
def State.racesWith (s : State) (r : Region) : Bool :=
  match s.running with
  | some i => (usedRegions i s.latch.ops).any r.overlaps
  | none => false

/-- A host access to memory: it must lie in the address space (R80), be no register access of another form (R30) and
no device access (R83). An address that exists but is not MEM_OK is ordinary memory to the host: R84 gives only the
engine's access there an outcome, and R86 leaves the rest of the map to the platform (DESIGN CHOICE, log 22). -/
def hostAccess (r : Region) (s : State) (act : State → State) : Host.Outcome State Fault Refusal :=
  if r.wraps then .fault .noSuchAddress
  else if r.overlaps s.plat.regBlock then .refused .registerAccess
  else if s.plat.devices.any r.overlaps then .refused .deviceAccess
  else .next (act s)

/-- A host memory read: a byte of the running command's destination is a draw (R108, 93 I9; log 9). From the completion
on it is the byte in memory, whether or not STATUS has been read since (DESIGN CHOICE, log 24: R107 and R385 promise it
only after a read of DONE = 1). All its bytes are read in one step (DESIGN CHOICE, log 25: R390 makes only register
accesses of the host and byte accesses of the engine indivisible). -/
def State.readMem (a n : Nat) (s : State) : State :=
  let dst := s.busyDst
  { s with
    rdBytes := (List.range n).map fun i =>
      if dst.contains (a + i) then Config.freeByte s.draws (a + i) else s.mem.read (a + i)
    draws := if (Region.mk a n).overlaps dst then s.draws + 1 else s.draws }

/-- A host read with its assertion (30_encoding R130), in one step (log 25): the assertions so far hold if these bytes
are the listed ones. -/
def State.checkMem (a n : Nat) (bs : List Byte) (s : State) : State :=
  let t := s.readMem a n
  { t with checksHold := s.checksHold && decide (t.rdBytes = bs) }

/-- A host memory write, marking a race (R108, 93 I8; log 8). A race needs BUSY = 1: after the completion there is none,
even before DONE is read (DESIGN CHOICE, log 24). All its bytes are written in one step (DESIGN CHOICE, log 25). -/
def State.writeMem (a : Nat) (bs : List Byte) (s : State) : State :=
  { s with
    mem := s.mem.write a bs
    raced := s.raced || s.racesWith ⟨a, bs.length⟩ }

/-- The hardware reset (R380): R70 at once; a running command is abandoned and its destination is a draw (log 10). The
input is asserted and released in one step, so no access meets a machine held in reset (DESIGN CHOICE, log 26: R382
leaves to the platform how the PCE comes out of reset). -/
def State.hardwareReset (s : State) : State :=
  if s.isBusy then (s.drawRegion s.busyDst).resetRegs else s.resetRegs

/-! ## One operation -/

/-- The host's loop (R131): read STATUS; while DONE is 0 the loop stays pending. -/
def State.pollDone (s : State) : State :=
  let s' := { s with rdWord := s.statusReg }
  if s.status.done then s' else { s' with host := .wait :: s.host }

/-- One pending operation, taken from the queue, on the state without it. -/
def hostOp (op : HostOp) (s : State) : Host.Outcome State Fault Refusal :=
  match op with
  | .regRead off bytes => hostRegRead off bytes s
  | .regWrite off bytes v => hostRegWrite off bytes v s
  | .wait => .next s.pollDone
  | .memRead a n => hostAccess ⟨a, n⟩ s (State.readMem a n)
  | .check a n bs => hostAccess ⟨a, n⟩ s (State.checkMem a n bs)
  | .memWrite a bs => hostAccess ⟨a, bs.length⟩ s (State.writeMem a bs)
  | .hwReset => .next s.hardwareReset

/-- The host's step: its oldest pending operation, or nothing. -/
def hostStep (s : State) : Host.Outcome State Fault Refusal :=
  match s.host with
  | [] => .next s
  | op :: rest => hostOp op { s with host := rest }

end Sys2Proof.Machine
end

