-- ==== Sys2Proof/Machine/Step.lean ====
section
/-! DEFINITION. One step: the agent whose turn it is moves (00_scope R18, 70_reset_and_hazards R390; log 2, log 3). -/

namespace Sys2Proof.Machine

/-- Whose turn it is: as `sched` says, and by default the engine's while it is busy and the host's otherwise, so that
every command completes (R161, R390). -/
def State.turn (s : State) : Agent :=
  match s.sched with
  | a :: _ => a
  | [] => if s.isBusy then .engine else .host

/-- The turn is taken. -/
def State.popSched (s : State) : State := { s with sched := s.sched.tail }

/-- The engine's step: nothing while idle (R375); an illegal word completes at once (R151); an outcome that is
unspecified, because the host raced with it, is drawn (R108); otherwise the command runs and completes. -/
def engineStep (s : State) : Host.Outcome State Fault Refusal :=
  if s.isBusy then
    match decode s.latch.cmd with
    | .error _ => .next (s.raiseError .illegalCommand ⟨0, 0⟩)
    | .ok i => if s.raced then .next (s.drawOutcome (dstRegion i s.latch.ops)) else exec i s
  else .next s

/-- One step of the machine. -/
def step (s : State) : Host.Outcome State Fault Refusal :=
  match s.turn with
  | .host => hostStep s.popSched
  | .engine => engineStep s.popSched

/-- `s` with the command word `w` accepted, as an accepted CMD write leaves it (R150), and the engine's turn next, so
that the next step decodes and runs it. The engine fetches nothing from memory (R40): its word is in the latch (log 17). -/
def State.withFetchWord (s : State) (nbits w : Nat) : State :=
  { s.startCommand (BitVec.ofNat 32 (w % 2 ^ nbits)) with sched := .engine :: s.sched }

end Sys2Proof.Machine
end

