-- ==== Sys2Proof/Machine/HostAsm.lean ====
section
/-! DEFINITION. The host assembly notation (30_encoding R130 to R132): each statement is the list of host operations
it expands to. A program's encoding is its list of register stores (R130). -/

namespace Sys2Proof.Machine.HostAsm

/-- REG (R130): a register's name, or an offset. -/
inductive Reg where
  | name (r : RegName)
  | offset (off : Nat)
  deriving DecidableEq, Repr

/-- The offset a REG stands for (R130). -/
def Reg.off : Reg → Nat
  | .name r => r.offset
  | .offset off => off

/-- REG_BASE + offset, to which a REG is resolved (R130). The host operations carry the offset. -/
def Reg.address (p : Platform) (r : Reg) : Nat := p.regBase.toNat + r.off

/-- `wr REG, v` (R130). -/
def wr (r : Reg) (v : Word) : List HostOp := [.regWrite r.off 4 v]

/-- `rd REG` (R130). -/
def rd (r : Reg) : List HostOp := [.regRead r.off 4]

/-- `mem A, b0 b1 ...` (R130). -/
def mem (a : Nat) (bs : List Byte) : List HostOp := [.memWrite a bs]

/-- `check A, n, b0 ...` (R130): a host read that asserts the n bytes at A are the listed ones. -/
def chk (a n : Nat) (bs : List Byte) : List HostOp := [.check a n bs]

/-- `wait` (R131). -/
def wait : List HostOp := [.wait]

/-- `ack` (R131). -/
def ack : List HostOp := wr (.name .status) 0x0000000E

/-- `run OP` (R131). -/
def run (op : Word) : List HostOp := wr (.name .cmd) op ++ wait

/-- `setsrc A, N` (R131). -/
def setsrc (a n : Word) : List HostOp := wr (.name .srcAddr) a ++ wr (.name .srcLen) n

/-- `setdst A, N` (R131). -/
def setdst (a n : Word) : List HostOp := wr (.name .dstAddr) a ++ wr (.name .dstCap) n

/-! The command pseudo-instructions (R132). -/

def nop : List HostOp := run 0x00

def lz78C (s sl d dc : Word) : List HostOp := setsrc s sl ++ setdst d dc ++ run 0x10

def lz78D (s sl d dc os : Word) : List HostOp := setsrc s sl ++ setdst d dc ++ wr (.name .arg0) os ++ run 0x11

def lzssC (s sl d dc : Word) : List HostOp := setsrc s sl ++ setdst d dc ++ run 0x20

def lzssD (s sl d dc os : Word) : List HostOp := setsrc s sl ++ setdst d dc ++ wr (.name .arg0) os ++ run 0x21

def lzwC (s sl d dc : Word) : List HostOp := setsrc s sl ++ setdst d dc ++ run 0x30

def lzwD (s sl d dc os : Word) : List HostOp := setsrc s sl ++ setdst d dc ++ wr (.name .arg0) os ++ run 0x31

def jpegC (s sl d dc : Word) : List HostOp := setsrc s sl ++ setdst d dc ++ run 0x40

def jpegD (s sl d dc : Word) : List HostOp := setsrc s sl ++ setdst d dc ++ run 0x41

def hdrEfile (n nl d dc sz os c cl : Word) : List HostOp :=
  setsrc n nl ++ setdst d dc ++ wr (.name .arg0) sz ++ wr (.name .arg1) os ++ wr (.name .arg2) c ++ wr (.name .arg3) cl ++ run 0x50

def hdrEfold (n nl d dc sz : Word) : List HostOp := setsrc n nl ++ setdst d dc ++ wr (.name .arg0) sz ++ run 0x51

def hdrDec (s sl : Word) : List HostOp := setsrc s sl ++ run 0x52

def hdrPatch (d dc sz off : Word) : List HostOp := setdst d dc ++ wr (.name .arg0) sz ++ wr (.name .arg1) off ++ run 0x53

def regLookup (s sl : Word) : List HostOp := setsrc s sl ++ run 0x60

def regExtmap (s sl : Word) : List HostOp := setsrc s sl ++ run 0x61

/-- A program's encoding (R130): its ordered register stores as (offset, value). -/
def encoding (p : List HostOp) : List (Nat × Word) :=
  p.filterMap fun
    | .regWrite off _ v => some (off, v)
    | .regRead _ _ => none
    | .wait => none
    | .memRead _ _ => none
    | .check _ _ _ => none
    | .memWrite _ _ => none
    | .hwReset => none

end Sys2Proof.Machine.HostAsm
end

