-- ==== Sys2Proof/WellFormed.lean ====
section
/-! DEFINITION. Well-formedness: of a command word (30_encoding R120, R123), a command, the platform's parameters
(00_scope R8, R9) and a host operation (10_state R30). -/

namespace Sys2Proof

/-- UNIT and FUNC are not among the illegal ones R123 lists. -/
def opLegal (unit func : Nat) : Bool :=
  if unit = 0 then decide (func = 0)
  else if unit ≤ 4 then decide (func < 2)
  else if unit = 5 then decide (func < 4)
  else if unit = 6 then decide (func < 2)
  else false

/-- A word is a command word (R123): ZERO is 0 and OP is legal. -/
def wordWf (w : Word) : Bool := decide (cmdZero w = 0) && opLegal (cmdUnit w).toNat (cmdFunc w).toNat

/-- A command is well formed when its word is. A command has no operand (R125), so every one is. -/
def Instr.wf (i : Instr) : Bool := wordWf (encode i)

/-- A binary64 bit pattern of a finite number. -/
def finiteBits (b : BitVec 64) : Bool := decide (b.extractLsb' 52 11 ≠ 0x7FF)

/-- The coefficients are finite numbers. -/
def ColourFwd.wf (c : ColourFwd) : Bool :=
  [c.yR, c.yG, c.yB, c.uR, c.uG, c.uB, c.vR, c.vG, c.vB, c.offset].all finiteBits

/-- The coefficients are finite numbers. -/
def ColourInv.wf (c : ColourInv) : Bool := [c.rV, c.gU, c.gV, c.bU].all finiteBits

/-- The parameters are legal: an aligned register block inside the address space (R30), MAX_PIXELS at least 64 (R8),
64 table entries from 1 to 255 (R255), finite coefficients. -/
def Platform.wf (p : Platform) : Bool :=
  decide (p.regBase.toNat % 4 = 0) && decide (p.regBase.toNat + 256 ≤ 2 ^ 32) && decide (64 ≤ p.maxPixels)
    && decide (p.qtable.length = 64) && p.qtable.all (fun q => decide (1 ≤ q ∧ q ≤ 255))
    && p.colourFwd.wf && p.colourInv.wf

namespace Machine

/-- A host operation has a meaning (R30, R80) on a platform. -/
def HostOp.wf (p : Platform) : HostOp → Bool
  | .regRead off bytes => regAccessOk off bytes
  | .regWrite off bytes _ => regAccessOk off bytes
  | .wait => true
  | .memRead a n => !(Region.mk a n).wraps && !(Region.mk a n).overlaps p.regBlock
      && !p.devices.any (Region.mk a n).overlaps
  | .check a n _ => !(Region.mk a n).wraps && !(Region.mk a n).overlaps p.regBlock
      && !p.devices.any (Region.mk a n).overlaps
  | .memWrite a bs => !(Region.mk a bs.length).wraps && !(Region.mk a bs.length).overlaps p.regBlock
      && !p.devices.any (Region.mk a bs.length).overlaps
  | .hwReset => true

end Machine

end Sys2Proof
end

