-- ==== Sys2Proof/Safety.lean ====
section
/-! DEFINITION. What a safe run of the machine is, in the terms the statements use. -/

namespace Sys2Proof.Machine

/-- ERRCODE and CAUSE as some completion leaves them (60_exceptions R350, R352): none, or the codes of an error. The
reserved codes 0x05 and 0x06 are not among them (R351). -/
def legalCodes (errcode cause : Byte) : Bool :=
  decide (errcode = 0 ∧ cause = 0)
    || decide (errcode = 0x02 ∧ 1 ≤ cause.toNat ∧ cause.toNat ≤ 10)
    || ([0x01, 0x03, 0x04, 0x10, 0x11, 0x12, 0x13].contains errcode && decide (cause = 0))

/-- The invariant of the machine: memory keeps its canonical form (log 4); while BUSY nothing of a completion shows
(10_state R50, 70 R386), CMD still holds the latched word (R35, R357) and only then can a race be pending (R108);
ERRCODE and CAUSE are codes some completion writes (R350, R352); ERR never stands without an error code (R34, R355). -/
structure State.Inv (s : State) : Prop where
  memWf : s.mem.wf = true
  busyClear : s.seq = .busy →
    s.status.done = false ∧ s.status.err = false ∧ s.status.errcode = 0 ∧ s.status.cause = 0 ∧ s.res = .zero
  latchCmd : s.seq = .busy → s.latch.cmd = s.cmd
  racedBusy : s.raced = true → s.seq = .busy
  codes : legalCodes s.status.errcode s.status.cause = true
  errHasCode : s.status.err = true → s.status.errcode ≠ 0

/-- The errors a command can complete with (R354), as ERRCODE and CAUSE. -/
def errorRow : Instr → List Err
  | .nop => []
  | .lz78C => [.regionError, .codecInternal .dstOverflow, .codecInternal .busError]
  | .lzssC => [.regionError, .codecInternal .dstOverflow, .codecInternal .busError]
  | .lzwC => [.regionError, .codecInternal .dstOverflow, .codecInternal .busError]
  | .lz78D => [.regionError, .codecInternal .dstOverflow, .codecInternal .srcUnderrun, .codecInternal .badCode,
      .codecInternal .sizeMismatch, .codecInternal .busError]
  | .lzwD => [.regionError, .codecInternal .dstOverflow, .codecInternal .srcUnderrun, .codecInternal .badCode,
      .codecInternal .sizeMismatch, .codecInternal .busError]
  | .lzssD => [.regionError, .codecInternal .dstOverflow, .codecInternal .srcUnderrun, .codecInternal .badOffset,
      .codecInternal .sizeMismatch, .codecInternal .busError]
  | .jpegC => [.regionError, .codecInternal .badImageHeader, .codecInternal .resource, .codecInternal .srcUnderrun,
      .codecInternal .busError, .codecInternal .dstOverflow]
  | .jpegD => [.regionError, .codecInternal .badImageHeader, .codecInternal .resource, .codecInternal .srcUnderrun,
      .codecInternal .badDictionary, .codecInternal .badBitstream, .codecInternal .busError,
      .codecInternal .dstOverflow]
  | .hdrEfile => [.regionError, .headerInvalid, .busError, .dstOverflow]
  | .hdrEfold => [.regionError, .headerInvalid, .busError, .dstOverflow]
  | .hdrDec => [.regionError, .headerInvalid, .busError]
  | .hdrPatch => [.regionError, .bufferBounds, .headerInvalid, .busError]
  | .regLookup => [.regionError, .codecNotFound, .busError]
  | .regExtmap => [.regionError, .busError]

/-- The source bytes as the running command finds them, where every one of them is MEM_OK. -/
def State.source (s : State) : Option (List Byte) :=
  match readAll (ε := Unit) () s.srcCells with
  | .ok bs => some bs
  | .error _ => none

/-- The codec-name bytes as the running HDR.EFILE finds them, where every one of them is MEM_OK. -/
def State.codecName (s : State) : Option (List Byte) :=
  match readAll (ε := Unit) () (s.cells s.latch.ops.codec) with
  | .ok bs => some bs
  | .error _ => none

/-- The first `n` bytes of the destination region are MEM_OK and within DST_CAP. -/
def State.room (s : State) (n : Nat) : Bool := decide (n ≤ s.latch.ops.dstCap.toNat) && (Sink.start s).writable n

/-- No byte of the destination region lies on a device: it is ordinary memory, as R83 requires. -/
def State.dstOrdinary (s : State) : Bool := !s.plat.devices.any s.latch.ops.dst.overlaps

/-- Every register and every visible piece of state at its reset value (10_state R70). -/
structure State.AtReset (t : State) : Prop where
  id : t.readReg .id = 0x50524F50
  others : ∀ r : RegName, r ≠ .id → t.readReg r = 0
  idle : t.seq = .idle
  irq : t.irq = false

/-- The eight operand registers (10_state R36). -/
def operandRegs : List RegName := [.srcAddr, .srcLen, .dstAddr, .dstCap, .arg0, .arg1, .arg2, .arg3]

/-- What no command changes, whether it completes with or without an error: every register but STATUS and the results,
STATUS.OVR, the parameters, and what belongs to the host (40_command_common R155, 60_exceptions R355). That the latch is
kept after the completion too is the model's choice (log 5: R357 and 93 I7 leave it open). -/
structure State.KeepsRegisters (t s : State) : Prop where
  ie : t.ie = s.ie
  cmd : t.cmd = s.cmd
  ops : t.ops = s.ops
  latch : t.latch = s.latch
  ovr : t.status.ovr = s.status.ovr
  plat : t.plat = s.plat
  host : t.host = s.host
  sched : t.sched = s.sched
  rdWord : t.rdWord = s.rdWord
  rdBytes : t.rdBytes = s.rdBytes
  checksHold : t.checksHold = s.checksHold

/-- `t` is `s` after a completion without error (40_command_common R155): the results are `r`, the bytes stored are
`bs` from address `a` on and no other byte of memory changed, DONE is 1, ERR is 0, ERRCODE and CAUSE are 0, the engine
is idle. -/
structure State.CompletedFrom (t s : State) (r : Results) (a : Nat) (bs : List Byte) : Prop where
  res : t.res = r
  status : t.status = ⟨true, false, s.status.ovr, 0, 0⟩
  idle : t.seq = .idle
  mem : ∀ x, t.mem.read x = if a ≤ x ∧ x < a + bs.length then bs.getD (x - a) 0 else s.mem.read x
  keeps : t.KeepsRegisters s

/-- `t` is `s` after command `i` completed with error `e` (40_command_common R155, R156, 60_exceptions R355): the results
are 0, DONE and ERR are 1, ERRCODE and CAUSE name the error, the engine is idle, and no byte outside the destination
region changed, nor any byte at all under ILLEGAL_COMMAND and REGION_ERROR. -/
structure State.FailedFrom (t s : State) (i : Instr) (e : Err) : Prop where
  res : t.res = ⟨0, 0, 0, 0, 0, 0, 0, 0⟩
  status : t.status = ⟨true, true, s.status.ovr, e.code, e.causeCode⟩
  idle : t.seq = .idle
  outside : ∀ x, (dstRegion i s.latch.ops).contains x = false → t.mem.read x = s.mem.read x
  untouched : e = .regionError ∨ e = .illegalCommand → t.mem = s.mem
  keeps : t.KeepsRegisters s

/-- Command `i` runs on `s` and completes without error, with results `r` and with `bs` stored from `a` on. -/
def State.RunsTo (s : State) (i : Instr) (r : Results) (a : Nat) (bs : List Byte) : Prop :=
  ∃ t, exec i s = .next t ∧ t.CompletedFrom s r a bs

/-- Command `i` runs on `s` and completes with error `e`. -/
def State.FailsWith (s : State) (i : Instr) (e : Err) : Prop := ∃ t, exec i s = .next t ∧ t.FailedFrom s i e

/-- The result registers of a command that reports `n` bytes and nothing else (30_encoding R127). -/
def lengthResult (n : Nat) : Results := ⟨BitVec.ofNat 32 n, 0, 0, 0, 0, 0, 0, 0⟩

/-- Where a command that completes without error has stored (30_encoding R126, R127): its output from the start of the
destination on, RES_LEN bytes; the four bytes after the type byte for HDR.PATCH; nothing without a destination. -/
def storedRegion (i : Instr) (o : Operands) (r : Results) : Region :=
  if i = .hdrPatch then ⟨o.dst.base + o.arg1.toNat + 1, 4⟩
  else if (uses i).dst then ⟨o.dst.base, r.len.toNat⟩
  else ⟨0, 0⟩

/-- Command `i`'s regions are well formed and its source region holds exactly `src`, every byte of it MEM_OK. -/
def State.Reads (s : State) (i : Instr) (src : List Byte) : Prop :=
  regionsOk i s.latch.ops = true ∧ s.source = some src

/-- `q` is m · 2^e rounded to 53 significant bits, to nearest, ties to even (00_scope R15): it lost `sh`
low bits, none if `m` has no more than 53, is within half a unit of its last bit, and is even where it is exactly half away. -/
def F64.IsRounded (q : F64) (m e : Int) : Prop :=
  ∃ sh : Nat, q.exp = e + sh ∧ q.man.natAbs ≤ 2 ^ 53 ∧ 2 * (m - q.man * 2 ^ sh).natAbs ≤ 2 ^ sh ∧
    (0 < sh → 2 ^ 52 * 2 ^ sh ≤ m.natAbs) ∧ (2 * (m - q.man * 2 ^ sh).natAbs = 2 ^ sh → q.man % 2 = 0)

/-- The decoded image of a container (45_image_huffman R301) whose channels hold these coefficients. -/
def imageFile (p : Platform) (w h mx : Nat) (coeffs : List (List Int)) : List Byte :=
  ppmHeader w h mx ++ pixelBytes p w h (coeffs.map (decodePlane p (w + padOf w) (h + padOf h)))

/-- The quantized coefficients of an image (45_image_huffman R300), channel by channel. -/
def imageCoeffs (p : Platform) (img : Image) : List (List Int) := (encodeChannels p img).map (·.coeffs)

/-- An image as the grammar of 44_image_transform R243 and R244 admits it, with its pixel bytes. -/
def Image.wf (img : Image) : Prop :=
  1 ≤ img.width ∧ 1 ≤ img.height ∧ 1 ≤ img.maxVal ∧ img.maxVal ≤ 255 ∧
    img.px.length = 3 * (img.width * img.height)

/-- A run of `n` steps from `s` that no step ends. -/
def State.safeFor (s : State) (n : Nat) : Prop := ∃ t, Sys2Proof.core.run n s = .next t

end Sys2Proof.Machine
end

