-- ==== Sys2Proof/Certificates/Slice0/Obligations.lean ====
section
/-! DEFINITION. The statements about the machine, each from the numbered rules of spec/ it names. `RunsTo` says that a
command answers a next state and what that state holds; `FailsWith` says which error it completes with
(Sys2Proof/Safety.lean). Both, and every frame through `KeepsRegisters`, say of the latch after a completion what the
model chose (log 5), not a rule of spec/. -/

open Sys2Proof Sys2Proof.Machine

/-! ## Registers, reset and the host -/

/-- R70: after a hardware reset (from any state) and after an accepted soft reset every register, the sequencer and the
interrupt line have the stated value; memory outside the destination of an interrupted command keeps its bytes. The
machine's own reset state has the same values. -/
def Obligations.ResetLeavesTheStatedValues : Prop :=
  State.reset.AtReset ∧
  (∀ s : State, s.hardwareReset.AtReset ∧
    ∀ x, s.busyDst.contains x = false → s.hardwareReset.mem.read x = s.mem.read x) ∧
  (∀ (s : State) (w : Word), s.seq = .idle → w.getLsbD 1 = true →
    (s.writeCtrl w).AtReset ∧ (s.writeCtrl w).mem = s.mem)

/-- The model's invariant (Sys2Proof/Safety.lean) holds right after reset. It rests on log 4 to log 6 and log 8. -/
def Obligations.ResetStateMeetsTheInvariant : Prop := State.reset.Inv

/-- R31, R32, R33, R35, R38: what a 32-bit load at each of the twenty offsets 0x00 to 0x4C returns, ID as 0x50524F50 and
CTRL as IE in bit 0 with every other bit 0 (the word at 0x08 is StatusWordLayout's); what a store to an operand register
does; a store to ID or to a result register changes nothing. A register's name stands for its offset and no other. -/
def Obligations.RegisterMapIsAsStated : Prop :=
  (∀ s : State, ∀ q ∈ ([(0x00, 0x50524F50), (0x04, if s.ie then 1 else 0), (0x08, s.readReg .status), (0x0C, s.cmd),
      (0x10, s.ops.srcAddr), (0x14, s.ops.srcLen), (0x18, s.ops.dstAddr), (0x1C, s.ops.dstCap), (0x20, s.ops.arg0),
      (0x24, s.ops.arg1), (0x28, s.ops.arg2), (0x2C, s.ops.arg3), (0x30, s.res.len), (0x34, s.res.r0), (0x38, s.res.r1),
      (0x3C, s.res.r2), (0x40, s.res.r3), (0x44, s.res.r4), (0x48, s.res.r5), (0x4C, s.res.r6)] : List (Nat × Word)),
    hostRegRead q.1 4 s = .next { s with rdWord := q.2 }) ∧
  (∀ (s : State) (w : Word),
    hostRegWrite 0x10 4 w s = .next { s with ops := { s.ops with srcAddr := w } } ∧
    hostRegWrite 0x14 4 w s = .next { s with ops := { s.ops with srcLen := w } } ∧
    hostRegWrite 0x18 4 w s = .next { s with ops := { s.ops with dstAddr := w } } ∧
    hostRegWrite 0x1C 4 w s = .next { s with ops := { s.ops with dstCap := w } } ∧
    hostRegWrite 0x20 4 w s = .next { s with ops := { s.ops with arg0 := w } } ∧
    hostRegWrite 0x24 4 w s = .next { s with ops := { s.ops with arg1 := w } } ∧
    hostRegWrite 0x28 4 w s = .next { s with ops := { s.ops with arg2 := w } } ∧
    hostRegWrite 0x2C 4 w s = .next { s with ops := { s.ops with arg3 := w } } ∧
    ∀ off ∈ [0x00, 0x30, 0x34, 0x38, 0x3C, 0x40, 0x44, 0x48, 0x4C], hostRegWrite off 4 w s = .next s) ∧
  (∀ r : RegName, regAt r.offset = some r ∧ r.offset % 4 = 0 ∧ r.offset < 0x50) ∧
  (∀ off r, regAt off = some r → r.offset = off) ∧
  (∀ (r : RegName) (s : State), hostRegRead r.offset 4 s = .next { s with rdWord := s.readReg r }) ∧
  (∀ s : State, s.readReg .id = 0x50524F50) ∧
  (∀ (s : State) (w : Word) (r : RegName),
    r ∈ [RegName.id, .resLen, .res0, .res1, .res2, .res3, .res4, .res5, .res6] → s.writeReg w r = s)

/-- R39: a reserved slot reads 0 and ignores a write; the reserved bits of CTRL and STATUS read 0, and a write of them
is ignored. -/
def Obligations.ReservedSlotsAndBitsReadZero : Prop :=
  (∀ (off : Nat) (v : Word) (s : State), 0x50 ≤ off → off < 256 → off % 4 = 0 →
    hostRegRead off 4 s = .next { s with rdWord := 0 } ∧ hostRegWrite off 4 v s = .next s) ∧
  (∀ s : State, (s.readReg .ctrl).extractLsb' 2 30 = 0 ∧ (s.readReg .status).extractLsb' 4 4 = 0 ∧
    (s.readReg .status).extractLsb' 24 8 = 0) ∧
  (∀ (s : State) (v w : Word), (v.getLsbD 0 = w.getLsbD 0 ∧ v.getLsbD 1 = w.getLsbD 1 → s.writeCtrl v = s.writeCtrl w) ∧
    (v.getLsbD 1 = w.getLsbD 1 ∧ v.getLsbD 2 = w.getLsbD 2 ∧ v.getLsbD 3 = w.getLsbD 3 →
      s.acknowledge v = s.acknowledge w))

/-- R30: the block is accessed by aligned 32-bit loads and stores of its 256 bytes; the model refuses any other access
(log 16), and answers a next state to each of these. -/
def Obligations.RegisterAccessIsAlignedWords : Prop :=
  ∀ (off bytes : Nat) (v : Word) (s : State),
    (bytes = 4 ∧ off % 4 = 0 ∧ off < 256 →
      (∃ t, hostRegRead off bytes s = .next t) ∧ ∃ t, hostRegWrite off bytes v s = .next t) ∧
    (¬(bytes = 4 ∧ off % 4 = 0 ∧ off < 256) →
      hostRegRead off bytes s = .refused .registerAccess ∧ hostRegWrite off bytes v s = .refused .registerAccess)

/-- R34: the fields of the word a read of STATUS returns, and the write that clears DONE, ERR and OVR where its bit is
1 and changes nothing else. -/
def Obligations.StatusWordLayout : Prop :=
  ∀ (s : State) (w : Word),
    ((s.readReg .status).getLsbD 0 = decide (s.seq = .busy) ∧ (s.readReg .status).getLsbD 1 = s.status.done ∧
      (s.readReg .status).getLsbD 2 = s.status.err ∧ (s.readReg .status).getLsbD 3 = s.status.ovr ∧
      (s.readReg .status).extractLsb' 4 4 = 0 ∧ (s.readReg .status).extractLsb' 8 8 = s.status.errcode ∧
      (s.readReg .status).extractLsb' 16 8 = s.status.cause ∧ (s.readReg .status).extractLsb' 24 8 = 0) ∧
    hostRegWrite 0x08 4 w s = .next { s with
      status :=
        ⟨s.status.done && !w.getLsbD 1, s.status.err && !w.getLsbD 2, s.status.ovr && !w.getLsbD 3,
          s.status.errcode, s.status.cause⟩ }

/-- R36: an operand register reads back the last value written, whatever the engine does, and the write changes no
other register, not the latch and no memory. -/
def Obligations.OperandRegistersReadBack : Prop :=
  ∀ (s : State) (w : Word) (r q : RegName), r ∈ operandRegs →
    (s.writeReg w r).readReg r = w ∧ (q ≠ r → (s.writeReg w r).readReg q = s.readReg q) ∧
    { s.writeReg w r with ops := s.ops } = s

/-- R150: an accepted CMD write latches the word and the operands, starts the engine and clears the record of the last
command; while BUSY the write is refused and sets OVR, and nothing else changes. -/
def Obligations.CommandStartLatchesAndClears : Prop :=
  ∀ (s : State) (w : Word),
    (s.seq = .idle → ∃ t, hostRegWrite 0x0C 4 w s = .next t ∧ t.latch = ⟨w, s.ops⟩ ∧ t.cmd = w ∧ t.seq = .busy ∧
      t.status = ⟨false, false, s.status.ovr, 0, 0⟩ ∧ t.res = ⟨0, 0, 0, 0, 0, 0, 0, 0⟩ ∧ t.work = ⟨0, 0, .none⟩ ∧
      t.mem = s.mem ∧ t.ops = s.ops ∧ t.ie = s.ie) ∧
    (s.seq = .busy → hostRegWrite 0x0C 4 w s = .next { s with status := { s.status with ovr := true } })

/-- R381: a CTRL write sets IE to bit 0; with bit 1 set, a busy engine refuses the soft reset and sets OVR, and an idle
one resets to exactly the state of a hardware reset, which clears IE again. -/
def Obligations.SoftResetIsRefusedWhileBusy : Prop :=
  ∀ (s : State) (w : Word),
    (w.getLsbD 1 = false → hostRegWrite 0x04 4 w s = .next { s with ie := w.getLsbD 0 }) ∧
    (w.getLsbD 1 = true → s.seq = .busy →
      hostRegWrite 0x04 4 w s = .next { s with ie := w.getLsbD 0, status := { s.status with ovr := true } }) ∧
    (w.getLsbD 1 = true → s.seq = .idle →
      ∃ t, hostRegWrite 0x04 4 w s = .next t ∧ t.AtReset ∧ t = s.hardwareReset ∧ t.mem = s.mem)

/-- R380: the reset input abandons a running command: the machine is idle with DONE 0 and IRQ low, no byte outside the
abandoned command's destination changes, each byte inside is a free value, and the next CMD write is accepted. -/
def Obligations.HardwareResetAbandonsTheCommand : Prop :=
  ∀ (s : State) (rest : List HostOp), s.turn = .host → s.host = .hwReset :: rest →
    ∃ t, step s = .next t ∧ t.AtReset ∧ t.status.done = false ∧
      (∀ x, s.busyDst.contains x = false → t.mem.read x = s.mem.read x) ∧
      (∀ x, s.busyDst.contains x = true → x < 2 ^ 32 → ∃ n, t.mem.read x = Config.freeByte n x) ∧
      ∀ w, ∃ u, hostRegWrite 0x0C 4 w t = .next u ∧ u.seq = .busy ∧ u.latch.cmd = w

/-- A host write to memory and a read of it while the engine is idle (20_memory R80, R106, R107): the bytes come back,
every other byte is as it was, and an assertion on them (R130) holds exactly when it lists them. That this holds of every
idle state is the model's choice (log 24): between a completion and the first STATUS read of DONE = 1, R107 and R385
promise nothing. So are the one step each access takes (log 25), that an address without MEM_OK is memory to the host
(log 22), and the stops: a write, a read or an assertion past the address space faults, one that touches the register
block or a device is refused, busy or idle (log 12, log 16). -/
def Obligations.HostMemoryAccessWhileIdle : Prop :=
  ∀ (s : State) (a : Nat) (bs cs : List Byte),
    (s.seq = .idle → (Region.mk a bs.length).wraps = false →
      (Region.mk a bs.length).overlaps s.plat.regBlock = false →
      s.plat.devices.any (Region.mk a bs.length).overlaps = false →
      ∃ t u v, hostOp (.memWrite a bs) s = .next t ∧ hostOp (.memRead a bs.length) t = .next u ∧ u.rdBytes = bs ∧
        (∀ x, x < a ∨ a + bs.length ≤ x → t.mem.read x = s.mem.read x) ∧ t.KeepsRegisters s ∧ u.mem = t.mem ∧
        hostOp (.check a bs.length cs) t = .next v ∧ v.mem = t.mem ∧
        v.checksHold = (t.checksHold && decide (bs = cs))) ∧
    ∀ op ∈ [HostOp.memWrite a bs, .memRead a bs.length, .check a bs.length cs],
      (2 ^ 32 < a + bs.length → hostOp op s = .fault .noSuchAddress) ∧
      (a + bs.length ≤ 2 ^ 32 → (Region.mk a bs.length).overlaps s.plat.regBlock = true →
        hostOp op s = .refused .registerAccess) ∧
      (a + bs.length ≤ 2 ^ 32 → (Region.mk a bs.length).overlaps s.plat.regBlock = false →
        s.plat.devices.any (Region.mk a bs.length).overlaps = true → hostOp op s = .refused .deviceAccess)

/-! ## Decoding and the step -/

/-- R121: the fifteen command words. -/
def Obligations.WrittenCommandWordsDecode : Prop :=
  decode 0x00000000 = .ok .nop ∧ decode 0x00000010 = .ok .lz78C ∧ decode 0x00000011 = .ok .lz78D ∧
  decode 0x00000020 = .ok .lzssC ∧ decode 0x00000021 = .ok .lzssD ∧ decode 0x00000030 = .ok .lzwC ∧
  decode 0x00000031 = .ok .lzwD ∧ decode 0x00000040 = .ok .jpegC ∧ decode 0x00000041 = .ok .jpegD ∧
  decode 0x00000050 = .ok .hdrEfile ∧ decode 0x00000051 = .ok .hdrEfold ∧ decode 0x00000052 = .ok .hdrDec ∧
  decode 0x00000053 = .ok .hdrPatch ∧ decode 0x00000060 = .ok .regLookup ∧ decode 0x00000061 = .ok .regExtmap

/-- R120, R121: a word is a command exactly when it is that command's word, so no bit of a word is dropped. -/
def Obligations.DecodeAgreesWithEncode : Prop :=
  ∀ (w : Word) (i : Instr), decode w = .ok i ↔ w = encode i

/-- In the engine's turn, a busy machine whose latched word decodes to a command takes the step of that command's
meaning, unless the host raced with the command, whose outcome is then unspecified (R108, log 8); an idle machine does
nothing (R375). The step adds the taken turn and nothing else. That one step is the whole command, decode, checks, body
and completion, is the model's choice (log 2: R390 makes each engine step one byte access, the start or the completion),
and so are the turns (log 3). -/
def Obligations.StepRunsTheDecodedCommand : Prop :=
  ∀ s : State, s.turn = .engine →
    (∀ i, s.seq = .busy → decode s.latch.cmd = .ok i → s.raced = false → step s = exec i s.popSched) ∧
    (s.seq = .idle → step s = .next s.popSched)

/-- R123, R151: a latched word with a bit of CMD[31:8] set, or with UNIT and FUNC of no command, completes at once with
ILLEGAL_COMMAND and touches no memory; every other register but STATUS and the results, IE among them, is kept (R355),
so the interrupt line follows IE (R361). -/
def Obligations.IllegalWordCompletesWithItsError : Prop :=
  ∀ s : State, s.turn = .engine → s.seq = .busy →
    s.latch.cmd.extractLsb' 8 24 ≠ 0 ∨
      (let unit := (s.latch.cmd.extractLsb' 4 4).toNat
       let func := (s.latch.cmd.extractLsb' 0 4).toNat
       (unit = 0 ∧ func ≠ 0) ∨ (1 ≤ unit ∧ unit ≤ 4 ∧ 2 ≤ func) ∨ (unit = 5 ∧ 4 ≤ func) ∨ (unit = 6 ∧ 2 ≤ func) ∨
        7 ≤ unit) →
    ∃ t, step s = .next t ∧ t.status = ⟨true, true, s.status.ovr, 0x10, 0⟩ ∧ t.seq = .idle ∧
      t.res = ⟨0, 0, 0, 0, 0, 0, 0, 0⟩ ∧ t.mem = s.mem ∧ t.KeepsRegisters s.popSched ∧ t.irq = s.ie

/-- Whatever the latched word, the operands and the memory, the engine's turn completes the command: DONE is 1 and the
engine is idle. R161 says after finitely many engine steps; that it is one is the model's choice (log 2), as are the
turns (log 3). -/
def Obligations.EveryAcceptedCommandCompletes : Prop :=
  ∀ s : State, s.turn = .engine → s.seq = .busy → ∃ t, step s = .next t ∧ t.seq = .idle ∧ t.status.done = true

/-- R390: a host that writes any word to CMD and polls STATUS reads DONE = 1: under the default turns (log 3) three
steps run the command and end the loop. -/
def Obligations.PolledCommandCompletes : Prop :=
  ∀ (s : State) (w : Word), s.seq = .idle → s.sched = [] → s.host = HostAsm.run w →
    ∃ t, Sys2Proof.core.run 3 s = .next t ∧ t.host = [] ∧ t.seq = .idle ∧ t.status.done = true ∧
      t.rdWord.getLsbD 1 = true ∧ t.cmd = w

/-- R361: the interrupt level; the completion of any accepted word, an illegal one included, raises it when enabled, and
so does setting IE while DONE = 1; clearing DONE and ERR, writing IE = 0, a new command and a reset lower it, and no step
does but one of these accesses. That one engine turn from a busy state, or one exec, is the whole command, so that the
level is IE right after it, is the model's choice (log 2: R390 lets an engine step be one byte access), and so are the
turns (log 3). -/
def Obligations.InterruptIsALevel : Prop :=
  (∀ s : State, s.irq = (s.ie && (s.status.done || s.status.err))) ∧
  (∀ (i : Instr) (s t : State), exec i s = .next t → t.irq = s.ie) ∧
  (∀ s t : State, s.turn = .engine → s.seq = .busy → step s = .next t → t.ie = s.ie ∧ t.irq = s.ie) ∧
  (∀ s : State, s.status.done = true → (s.writeCtrl 1).irq = true) ∧
  (∀ (s : State) (w : Word), w.getLsbD 0 = false → (s.writeReg w .ctrl).irq = false) ∧
  (∀ (s : State) (w : Word), s.seq = .idle → (s.writeReg w .cmd).irq = false) ∧
  (∀ s : State, s.hardwareReset.irq = false) ∧
  (∀ (s : State) (w : Word), w.getLsbD 1 = true → w.getLsbD 2 = true → (s.writeReg w .status).irq = false) ∧
  (∀ s t : State, s.irq = true → step s = .next t → t.irq = false →
    ∃ op rest, s.host = op :: rest ∧
      (op = .hwReset ∨ ∃ v, op = .regWrite 0x04 4 v ∨ op = .regWrite 0x08 4 v ∨ op = .regWrite 0x0C 4 v))

/-- From any busy state, a step keeps the running command (its word, its operands, BUSY, DONE and the results), or
completes it with DONE = 1, or is the reset input (R35, R51, R380, R381, R384, R386). That the latch is kept at the
completion is the model's choice (log 5). -/
def Obligations.RunningCommandEndsOnlyByCompletionOrReset : Prop :=
  ∀ s t : State, s.seq = .busy → step s = .next t →
    (t.seq = .busy ∧ t.latch = s.latch ∧ t.cmd = s.cmd ∧ t.res = s.res ∧ (s.status.done = false → t.status.done = false)) ∨
    (t.seq = .idle ∧ t.status.done = true ∧ t.latch = s.latch ∧ t.cmd = s.cmd) ∨
    (t.seq = .idle ∧ ∃ rest, s.host = .hwReset :: rest)

/-- R108: while a command runs, a host read of its destination gives free values (log 9) and of other memory the bytes
there; a host write that touches a region it uses marks a race (log 8), and any other does not; a raced command still
completes with DONE = 1. That it does so in one turn is the model's choice (log 2), and so is that it then changes no byte
outside its destination (log 8: R80 lets the engine reach no other byte, but R108 does not repeat it for a race). -/
def Obligations.HostAccessWhileBusyIsARace : Prop :=
  ∀ (s : State) (i : Instr), s.seq = .busy → decode s.latch.cmd = .ok i →
    (∀ a n k, k < n →
      (s.readMem a n).rdBytes[k]? = some (if (dstRegion i s.latch.ops).contains (a + k)
        then Config.freeByte s.draws (a + k) else s.mem.read (a + k))) ∧
    (∀ a bs, (usedRegions i s.latch.ops).any (Region.overlaps ⟨a, bs.length⟩) = true →
      (s.writeMem a bs).raced = true) ∧
    (∀ a bs, (usedRegions i s.latch.ops).any (Region.overlaps ⟨a, bs.length⟩) = false →
      (s.writeMem a bs).raced = s.raced) ∧
    (s.raced = true → s.turn = .engine → ∃ t, step s = .next t ∧ t.status.done = true ∧ t.seq = .idle ∧
      ∀ x, (dstRegion i s.latch.ops).contains x = false → t.mem.read x = s.mem.read x)

/-! ## What every command does -/

/-- The frame of all fifteen commands: with or without an error, exec answers a next state that keeps every register
but STATUS and the results, keeps STATUS.OVR, and changes no byte of memory outside the destination region the command
uses (R80, R155, R355). That it keeps the latch is the model's choice (log 5: R357 and 93 I7 leave it open). -/
def Obligations.CommandFrame : Prop :=
  ∀ (i : Instr) (s : State), ∃ t, exec i s = .next t ∧ t.KeepsRegisters s ∧ t.seq = .idle ∧ t.status.done = true ∧
    ∀ x, (dstRegion i s.latch.ops).contains x = false → t.mem.read x = s.mem.read x

/-- The frame of a completion without error: the only bytes that change are the first RES_LEN bytes of the destination,
the four size bytes for HDR.PATCH, and none for a command without a destination (R126, R127, R154, R329). -/
def Obligations.SuccessStoresOnlyItsOutput : Prop :=
  ∀ (i : Instr) (s t : State), exec i s = .next t → t.status.err = false →
    ∀ x, (storedRegion i s.latch.ops t.res).contains x = false → t.mem.read x = s.mem.read x

/-- R156: after an error every byte of the destination region is a free value and no other byte changed; after
REGION_ERROR, and after the ILLEGAL_COMMAND of a word that decodes to no command, no byte changed. -/
def Obligations.ErrorLeavesDestinationFree : Prop :=
  (∀ (i : Instr) (s t : State), exec i s = .next t → t.status.err = true →
    t.res = ⟨0, 0, 0, 0, 0, 0, 0, 0⟩ ∧
    (t.status.errcode = 0x13 → t.mem = s.mem) ∧
    (t.status.errcode ≠ 0x13 →
      (∀ x, (dstRegion i s.latch.ops).contains x = false → t.mem.read x = s.mem.read x) ∧
      ∃ n, ∀ x, (dstRegion i s.latch.ops).contains x = true → t.mem.read x = Config.freeByte n x)) ∧
  ∀ (s : State) (e : DecodeError), s.turn = .engine → s.seq = .busy → decode s.latch.cmd = .error e →
    ∃ t, step s = .next t ∧ t.status.errcode = 0x10 ∧ t.mem = s.mem

/-- R85, R152: a command completes with REGION_ERROR exactly when a region it uses passes 2^32 or its destination
shares a byte with its source or codec-name region, and then no byte of memory has changed. -/
def Obligations.RegionErrorExactlyWhenIllFormed : Prop :=
  ∀ (i : Instr) (s : State), ∃ t, exec i s = .next t ∧ (t.status.errcode = 0x13 → t.mem = s.mem) ∧
    (t.status.errcode = 0x13 ↔
      let o := s.latch.ops
      let src := o.srcAddr.toNat
      let srcEnd := src + o.srcLen.toNat
      let dst := o.dstAddr.toNat
      let dstEnd := dst + o.dstCap.toNat
      let cod := o.arg2.toNat
      let codEnd := cod + o.arg3.toNat
      let usesSrc := i ∉ [Instr.nop, .hdrPatch]
      let usesDst := i ∉ [Instr.nop, .hdrDec, .regLookup, .regExtmap]
      (usesSrc ∧ 2 ^ 32 < srcEnd) ∨ (usesDst ∧ 2 ^ 32 < dstEnd) ∨ (i = .hdrEfile ∧ 2 ^ 32 < codEnd) ∨
      (usesSrc ∧ usesDst ∧ src < srcEnd ∧ dst < dstEnd ∧ dst < srcEnd ∧ src < dstEnd) ∨
      (i = .hdrEfile ∧ cod < codEnd ∧ dst < dstEnd ∧ dst < codEnd ∧ cod < dstEnd))

/-- R354: no command completes with an ERRCODE or a CAUSE outside its row (`errorRow` in Sys2Proof/Safety.lean), and a
word that decodes to no command completes with ILLEGAL_COMMAND only. -/
def Obligations.ErrorsAreInTheCommandsRow : Prop :=
  (∀ (i : Instr) (s t : State), exec i s = .next t →
    (t.status.err = false ∧ t.status.errcode = 0 ∧ t.status.cause = 0) ∨
    (t.status.err = true ∧ ∃ e ∈ errorRow i, t.status.errcode = e.code ∧ t.status.cause = e.causeCode)) ∧
  ∀ (s t : State) (e : DecodeError), s.turn = .engine → s.seq = .busy → decode s.latch.cmd = .error e →
    step s = .next t → t.status.err = true ∧ t.status.errcode = 0x10 ∧ t.status.cause = 0

/-- A source byte that is not MEM_OK ends the commands that read their whole source first: REG.LOOKUP and REG.EXTMAP
with BUS_ERROR, LZSS.C with CODEC_INTERNAL and the cause BUS_ERROR (R84, R353). -/
def Obligations.SourceBusFaultIsReported : Prop :=
  ∀ (s : State) (a : Nat), s.latch.ops.src.contains a = true → s.plat.memOk a = false →
    (regionsOk .regLookup s.latch.ops = true → s.FailsWith .regLookup .busError) ∧
    (regionsOk .regExtmap s.latch.ops = true → s.FailsWith .regExtmap .busError) ∧
    (regionsOk .lzssC s.latch.ops = true → s.FailsWith .lzssC (.codecInternal .busError))

/-- R384: operand registers written after the accepted CMD write do not affect the running command. -/
def Obligations.OperandsAreReadFromTheLatch : Prop :=
  ∀ (i : Instr) (s t : State) (o : Operands), exec i s = .next t → exec i { s with ops := o } = .next { t with ops := o }

/-- R19: the outcome is a function of the latched operands and of the bytes of the regions the command uses. Two states
that agree on these and on the parameters end with the same results and the same error record, and without an error
they store the same bytes at the same place, whatever else they hold: earlier results, status, working state, other
memory. (R19 speaks of the source region; HDR.PATCH reads its destination, R329; what it finds
on a device is a free value, R83, log 12, and there the two states must draw the same ones.) -/
def Obligations.OutcomeDependsOnlyOnOperandsAndSource : Prop :=
  ∀ (i : Instr) (s₁ s₂ t₁ t₂ : State), s₁.plat = s₂.plat → s₁.latch.ops = s₂.latch.ops →
    (∀ r ∈ readRegions i s₁.latch.ops, ∀ x, r.contains x = true → s₁.mem.read x = s₂.mem.read x) →
    (i = .hdrPatch → ∀ x, s₁.latch.ops.dst.contains x = true → s₁.mem.read x = s₂.mem.read x) →
    (s₁.touchesDevice i = true → s₁.draws = s₂.draws) →
    exec i s₁ = .next t₁ → exec i s₂ = .next t₂ →
    t₁.res = t₂.res ∧ t₁.status.err = t₂.status.err ∧ t₁.status.errcode = t₂.status.errcode ∧
    t₁.status.cause = t₂.status.cause ∧
    (t₁.status.err = false → ∃ a bs, t₁.mem = s₁.mem.write a bs ∧ t₂.mem = s₂.mem.write a bs)

/-! ## NOP and the registry -/

/-- R157: NOP completes at once with all results 0, whatever the operand registers hold, and touches no memory; STATUS
then reads 0x00000002 where OVR was 0. -/
def Obligations.NopCompletes : Prop :=
  decode 0x00000000 = .ok .nop ∧
  ∀ s : State, ∃ t, exec .nop s = .next t ∧ t.CompletedFrom s ⟨0, 0, 0, 0, 0, 0, 0, 0⟩ 0 [] ∧ t.mem = s.mem ∧
    (s.status.ovr = false → t.readReg .status = 0x00000002)

/-- R158: REG.LOOKUP maps the four stable names, byte for byte, to their codec ids, and answers CODEC_NOT_FOUND to any
other byte string, BUS_ERROR to an unreadable source and REGION_ERROR to one that wraps. -/
def Obligations.RegLookupMapsStableNames : Prop :=
  ∀ s : State,
    (s.latch.ops.src.wraps = true → s.FailsWith .regLookup .regionError) ∧
    (s.latch.ops.src.wraps = false →
      (∀ name, s.source = some name →
        (name = [0x4C, 0x5A, 0x37, 0x38] → s.RunsTo .regLookup ⟨0, 1, 0, 0, 0, 0, 0, 0⟩ 0 []) ∧
        (name = [0x4C, 0x5A, 0x53, 0x53] → s.RunsTo .regLookup ⟨0, 2, 0, 0, 0, 0, 0, 0⟩ 0 []) ∧
        (name = [0x4C, 0x5A, 0x57] → s.RunsTo .regLookup ⟨0, 3, 0, 0, 0, 0, 0, 0⟩ 0 []) ∧
        (name = [0x4A, 0x50, 0x45, 0x47] → s.RunsTo .regLookup ⟨0, 4, 0, 0, 0, 0, 0, 0⟩ 0 []) ∧
        (name ∉ ([[0x4C, 0x5A, 0x37, 0x38], [0x4C, 0x5A, 0x53, 0x53], [0x4C, 0x5A, 0x57], [0x4A, 0x50, 0x45, 0x47]] :
            List (List Byte)) → s.FailsWith .regLookup .codecNotFound)) ∧
      (s.source = none → s.FailsWith .regLookup .busError))

/-- R159: REG.EXTMAP answers JPEG, LZSS, LZ78, LZW for "ppm" and LZSS, LZ78, LZW for every other extension, as a mask, a
packed list and a count. -/
def Obligations.RegExtmapListsAllowedCodecs : Prop :=
  ∀ s : State,
    (s.latch.ops.src.wraps = true → s.FailsWith .regExtmap .regionError) ∧
    (s.latch.ops.src.wraps = false →
      (∀ ext, s.source = some ext →
        (ext = [0x70, 0x70, 0x6D] → s.RunsTo .regExtmap ⟨0, 0x1E, 0x3124, 4, 0, 0, 0, 0⟩ 0 []) ∧
        (ext ≠ [0x70, 0x70, 0x6D] → s.RunsTo .regExtmap ⟨0, 0x0E, 0x0312, 3, 0, 0, 0, 0⟩ 0 [])) ∧
      (s.source = none → s.FailsWith .regExtmap .busError))

/-! ## The dictionary and window codecs -/

/-- LZ78.C completes where its source is readable and its stream fits the destination, and writes the stream of R173
(`lz78Encode`) with RES_LEN its length. -/
def Obligations.Lz78CompressCompletes : Prop :=
  ∀ (s : State) (bs : List Byte), regionsOk .lz78C s.latch.ops = true → s.source = some bs →
    s.room (lz78Encode bs).length = true →
    s.RunsTo .lz78C (lengthResult (lz78Encode bs).length) s.latch.ops.dstAddr.toNat (lz78Encode bs)

/-- LZSS.C completes where its source is readable and its stream fits the destination, and writes the stream of R196
(`lzssEncode`) with RES_LEN its length. -/
def Obligations.LzssCompressCompletes : Prop :=
  ∀ (s : State) (bs : List Byte), regionsOk .lzssC s.latch.ops = true → s.source = some bs →
    s.room (lzssEncode bs).length = true →
    s.RunsTo .lzssC (lengthResult (lzssEncode bs).length) s.latch.ops.dstAddr.toNat (lzssEncode bs)

/-- LZW.C completes where its source is readable and its stream fits the destination, and writes the stream of R223
(`lzwEncode`) with RES_LEN its length. -/
def Obligations.LzwCompressCompletes : Prop :=
  ∀ (s : State) (bs : List Byte), regionsOk .lzwC s.latch.ops = true → s.source = some bs →
    s.room (lzwEncode bs).length = true →
    s.RunsTo .lzwC (lengthResult (lzwEncode bs).length) s.latch.ops.dstAddr.toNat (lzwEncode bs)

/-- R98 in the compress commands: a readable source whose stream is longer than a destination that is MEM_OK
throughout ends in CODEC_INTERNAL with the cause DST_OVERFLOW. -/
def Obligations.CompressorsReportOverflow : Prop :=
  ∀ (s : State) (bs : List Byte), s.source = some bs →
    (∀ x, s.latch.ops.dst.contains x = true → s.plat.memOk x = true) →
    (regionsOk .lz78C s.latch.ops = true → s.latch.ops.dstCap.toNat < (lz78Encode bs).length →
      s.FailsWith .lz78C (.codecInternal .dstOverflow)) ∧
    (regionsOk .lzssC s.latch.ops = true → s.latch.ops.dstCap.toNat < (lzssEncode bs).length →
      s.FailsWith .lzssC (.codecInternal .dstOverflow)) ∧
    (regionsOk .lzwC s.latch.ops = true → s.latch.ops.dstCap.toNat < (lzwEncode bs).length →
      s.FailsWith .lzwC (.codecInternal .dstOverflow))

/-- The stream lengths the corner cases of R173, R196 and R223 give as the worst: LZ78 3 bytes a source byte and 2 a
sentinel, one sentinel after every 32766th record; LZSS n + ceil((n + 1) / 8) + 2; LZW 2 bytes a source byte and 2 a
sentinel, one after every 32511th insertion. -/
def Obligations.StreamLengthsAreBounded : Prop :=
  ∀ bs : List Byte,
    (lz78Encode bs).length ≤ 3 * bs.length + 2 * (bs.length / 32766) ∧
    (lzssEncode bs).length ≤ bs.length + (bs.length + 1 + 7) / 8 + 2 ∧
    (lzwEncode bs).length ≤ 2 * bs.length + 2 * (bs.length / 32511)

/-- R192, R193, R200: at a position from 3 on the token is a match exactly when some position at most 4095 back agrees
in 3 bytes or more; the match lies in the window, agrees in all its bytes, is at most 18 long, no candidate is longer,
and none as long lies further back. Before position 3 every token is a literal. -/
def Obligations.LzssTakesTheLongestOldestMatch : Prop :=
  ∀ (input : List Byte) (p : Nat), p < input.length →
    (p < 3 → lzssToken input p = .lit (input.getD p 0)) ∧
    (∀ off len, lzssToken input p = .copy off len →
      3 ≤ p ∧ 3 ≤ len ∧ len ≤ 18 ∧ 1 ≤ off ∧ off ≤ min p 4095 ∧ p + len ≤ input.length ∧
      (∀ k, k < len → input[p - off + k]? = input[p + k]?) ∧
      (∀ off', 1 ≤ off' → off' ≤ min p 4095 → ∀ len', len' ≤ 18 → p + len' ≤ input.length →
        (∀ k, k < len' → input[p - off' + k]? = input[p + k]?) → len' < len ∨ (len' = len ∧ off' ≤ off) ∨ len' = 0)) ∧
    (∀ b, lzssToken input p = .lit b →
      b = input.getD p 0 ∧
      (3 ≤ p → ∀ off', 1 ≤ off' → off' ≤ min p 4095 → p + 3 ≤ input.length →
        ∃ k, k < 3 ∧ input[p - off' + k]? ≠ input[p + k]?)) ∧
    lzssToken input p ≠ .sentinel

/-- The errors of the decompress commands and where they are raised (R177, R198, R226, R356). First, whatever the source:
originalSize above DST_CAP is DST_OVERFLOW before the source is read; an empty source gives the empty output of LZ78.D and
LZW.D for originalSize 0 and SIZE_MISMATCH above it; LZSS.D needs its sentinel. Then, inside a stream: after any `lits`
that decode to themselves, a code at or above what the table admits, or any code with the table full, is BAD_CODE and an odd
trailing byte is SRC_UNDERRUN; an offset past the start of the output is BAD_OFFSET; a compressor's stream under another
originalSize is SIZE_MISMATCH; LZSS.D on any strict prefix of a stream is SRC_UNDERRUN; sentinels alone decode to nothing. -/
def Obligations.DecompressorEdgeCases : Prop :=
  (∀ s : State,
    (s.latch.ops.dstCap.toNat < s.latch.ops.arg0.toNat →
      (regionsOk .lz78D s.latch.ops = true → s.FailsWith .lz78D (.codecInternal .dstOverflow)) ∧
      (regionsOk .lzssD s.latch.ops = true → s.FailsWith .lzssD (.codecInternal .dstOverflow)) ∧
      (regionsOk .lzwD s.latch.ops = true → s.FailsWith .lzwD (.codecInternal .dstOverflow))) ∧
    (s.latch.ops.arg0.toNat ≤ s.latch.ops.dstCap.toNat → s.latch.ops.srcLen = 0 →
      (regionsOk .lz78D s.latch.ops = true → s.latch.ops.arg0 = 0 →
        s.RunsTo .lz78D (lengthResult 0) s.latch.ops.dstAddr.toNat []) ∧
      (regionsOk .lzwD s.latch.ops = true → s.latch.ops.arg0 = 0 →
        s.RunsTo .lzwD (lengthResult 0) s.latch.ops.dstAddr.toNat []) ∧
      (regionsOk .lz78D s.latch.ops = true → s.latch.ops.arg0 ≠ 0 →
        s.FailsWith .lz78D (.codecInternal .sizeMismatch)) ∧
      (regionsOk .lzwD s.latch.ops = true → s.latch.ops.arg0 ≠ 0 →
        s.FailsWith .lzwD (.codecInternal .sizeMismatch)) ∧
      (regionsOk .lzssD s.latch.ops = true → s.FailsWith .lzssD (.codecInternal .srcUnderrun))) ∧
    (regionsOk .lzssD s.latch.ops = true → s.source = some [0x80, 0x00, 0x00] → s.latch.ops.arg0 = 0 →
      s.RunsTo .lzssD (lengthResult 0) s.latch.ops.dstAddr.toNat [])) ∧
  (∀ (s : State) (lits rest : List Byte) (c : Nat) (x : Byte), s.latch.ops.arg0.toNat ≤ s.latch.ops.dstCap.toNat →
    lits.length ≤ s.latch.ops.arg0.toNat → s.room lits.length = true →
    (lits.length ≤ 32766 →
      (c < 2 ^ 16 → c ≠ 0x7FFF → lits.length < c ∨ (lits.length = 32766 ∧ rest ≠ []) →
        s.Reads .lz78D (lits.flatMap (fun b => [0x00, 0x00, b]) ++ be16 c ++ rest) →
        s.FailsWith .lz78D (.codecInternal .badCode)) ∧
      (s.Reads .lz78D (lits.flatMap (fun b => [0x00, 0x00, b]) ++ [x]) →
        s.FailsWith .lz78D (.codecInternal .srcUnderrun))) ∧
    (lits.length ≤ 32512 →
      (c < 2 ^ 16 → c ≠ 0x7FFF → 256 + lits.length ≤ c ∨ lits.length = 32512 →
        s.Reads .lzwD (lits.flatMap (fun b => [0x00, b]) ++ be16 c ++ rest) →
        s.FailsWith .lzwD (.codecInternal .badCode)) ∧
      (s.Reads .lzwD (lits.flatMap (fun b => [0x00, b]) ++ [x]) →
        s.FailsWith .lzwD (.codecInternal .srcUnderrun))) ∧
    (lits.length < 8 → (∀ k, k < lits.length → x.getLsbD (7 - k) = false) → x.getLsbD (7 - lits.length) = true →
      c < 2 ^ 16 → lits.length < c / 16 → s.Reads .lzssD ([x] ++ lits ++ be16 c ++ rest) →
      s.FailsWith .lzssD (.codecInternal .badOffset))) ∧
  (∀ (s : State) (bs : List Byte), s.latch.ops.arg0.toNat ≠ bs.length → s.room s.latch.ops.arg0.toNat = true →
    (s.Reads .lz78D (lz78Encode bs) → s.FailsWith .lz78D (.codecInternal .sizeMismatch)) ∧
    (s.Reads .lzssD (lzssEncode bs) → s.FailsWith .lzssD (.codecInternal .sizeMismatch)) ∧
    (s.Reads .lzwD (lzwEncode bs) → s.FailsWith .lzwD (.codecInternal .sizeMismatch))) ∧
  (∀ (s : State) (bs : List Byte) (k : Nat), s.latch.ops.arg0.toNat = bs.length → s.room bs.length = true →
    k < (lzssEncode bs).length → s.Reads .lzssD ((lzssEncode bs).take k) →
    s.FailsWith .lzssD (.codecInternal .srcUnderrun)) ∧
  (∀ (s : State) (n : Nat), s.latch.ops.arg0 = 0 →
    (s.Reads .lz78D (List.replicate n [0x7F, 0xFF]).flatten →
      s.RunsTo .lz78D (lengthResult 0) s.latch.ops.dstAddr.toNat []) ∧
    (s.Reads .lzwD (List.replicate n [0x7F, 0xFF]).flatten →
      s.RunsTo .lzwD (lengthResult 0) s.latch.ops.dstAddr.toNat []))

/-- The decompress commands complete on the streams of R173, R196 and R223: with originalSize the length of the byte
string and room for it, each writes the byte string, with RES_LEN its length (R177, R198, R226). LZSS.D reads its output
back: on ordinary memory it writes the byte string, and on a device as many bytes (R83, R101, log 12). -/
def Obligations.DecompressorsInvertTheStreams : Prop :=
  ∀ (s : State) (bs : List Byte), s.latch.ops.arg0.toNat = bs.length → s.room bs.length = true →
    (regionsOk .lz78D s.latch.ops = true → s.source = some (lz78Encode bs) →
      s.RunsTo .lz78D (lengthResult bs.length) s.latch.ops.dstAddr.toNat bs) ∧
    (regionsOk .lzssD s.latch.ops = true → s.dstOrdinary = true → s.source = some (lzssEncode bs) →
      s.RunsTo .lzssD (lengthResult bs.length) s.latch.ops.dstAddr.toNat bs) ∧
    (regionsOk .lzssD s.latch.ops = true → s.source = some (lzssEncode bs) →
      ∃ out, out.length = bs.length ∧ s.RunsTo .lzssD (lengthResult bs.length) s.latch.ops.dstAddr.toNat out) ∧
    (regionsOk .lzwD s.latch.ops = true → s.source = some (lzwEncode bs) →
      s.RunsTo .lzwD (lengthResult bs.length) s.latch.ops.dstAddr.toNat bs)

/-- R178: LZ78.D on the bytes LZ78.C wrote for S, with originalSize the length of S and room for S, writes S. `t` is the
state LZ78.C left, `u` any state whose source holds the RES_LEN bytes of its output. -/
def Obligations.Lz78RoundTrip : Prop :=
  ∀ (s t u : State) (input : List Byte), s.source = some input → exec .lz78C s = .next t → t.status.err = false →
    u.source = some (t.mem.readRegion ⟨s.latch.ops.dstAddr.toNat, t.res.len.toNat⟩) →
    regionsOk .lz78D u.latch.ops = true → u.latch.ops.arg0.toNat = input.length → u.room input.length = true →
    u.RunsTo .lz78D (lengthResult input.length) u.latch.ops.dstAddr.toNat input

/-- R199: LZSS.D on the bytes LZSS.C wrote for S, with originalSize the length of S and room for S, writes S; every
match of S has an offset from 1 to its position and a length from 3 to 18. LZSS.D reads its output back, so its
destination must be ordinary memory (R83, R101). -/
def Obligations.LzssRoundTrip : Prop :=
  (∀ (input : List Byte) (p off len : Nat), p < input.length → lzssToken input p = .copy off len →
    1 ≤ off ∧ off ≤ p ∧ 3 ≤ len ∧ len ≤ 18) ∧
  ∀ (s t u : State) (input : List Byte), s.source = some input → exec .lzssC s = .next t → t.status.err = false →
    u.source = some (t.mem.readRegion ⟨s.latch.ops.dstAddr.toNat, t.res.len.toNat⟩) →
    regionsOk .lzssD u.latch.ops = true → u.dstOrdinary = true → u.latch.ops.arg0.toNat = input.length →
    u.room input.length = true →
    u.RunsTo .lzssD (lengthResult input.length) u.latch.ops.dstAddr.toNat input

/-- R227: LZW.D on the bytes LZW.C wrote for S, with originalSize the length of S and room for S, writes S, sentinels
included. -/
def Obligations.LzwRoundTrip : Prop :=
  ∀ (s t u : State) (input : List Byte), s.source = some input → exec .lzwC s = .next t → t.status.err = false →
    u.source = some (t.mem.readRegion ⟨s.latch.ops.dstAddr.toNat, t.res.len.toNat⟩) →
    regionsOk .lzwD u.latch.ops = true → u.latch.ops.arg0.toNat = input.length → u.room input.length = true →
    u.RunsTo .lzwD (lengthResult input.length) u.latch.ops.dstAddr.toNat input

/-! ## Archive headers -/

/-- R321, R323: HDR.EFILE on a readable name and codec name: a header that validation refuses is HEADER_INVALID, a valid
one too long for the destination is DST_OVERFLOW, with room the header's bytes are stored, and a byte of that room that is
not MEM_OK is BUS_ERROR. That DST_OVERFLOW comes before the bus error of a destination byte is the model's choice
(DEDUCED, log 13: R321's Errors item has BUS_ERROR first). On any name and codec name, a negative size or an empty name is
HEADER_INVALID before any read; then the first byte of the name, and after it of the codec name, that is not MEM_OK or is
0x00 decides, with BUS_ERROR or HEADER_INVALID (that order within a scan is log 14's). -/
def Obligations.HdrEfileEncodesFileHeader : Prop :=
  (∀ (s : State) (name codec : List Byte), regionsOk .hdrEfile s.latch.ops = true → s.source = some name →
    s.codecName = some codec →
    let o := s.latch.ops
    let valid := o.arg0.toNat < 2 ^ 31 ∧ o.arg1.toNat < 2 ^ 31 ∧ name ≠ [] ∧ (0 : Byte) ∉ name ∧ (0 : Byte) ∉ codec
    let len := 11 + name.length + codec.length
    (¬valid → s.FailsWith .hdrEfile .headerInvalid) ∧
    (valid → o.dstCap.toNat < len → s.FailsWith .hdrEfile .dstOverflow) ∧
    (valid → len ≤ o.dstCap.toNat → s.room len = false → s.FailsWith .hdrEfile .busError) ∧
    (valid → s.room len = true →
      s.RunsTo .hdrEfile (lengthResult len) o.dstAddr.toNat
        ([0x00] ++ be32 o.arg0 ++ name ++ [0x00] ++ be32 o.arg1 ++ codec ++ [0x00]))) ∧
  ∀ s : State, regionsOk .hdrEfile s.latch.ops = true →
    let o := s.latch.ops
    let argsValid := o.arg0.toNat < 2 ^ 31 ∧ o.arg1.toNat < 2 ^ 31 ∧ o.srcLen ≠ 0
    (¬argsValid → s.FailsWith .hdrEfile .headerInvalid) ∧
    ∀ (bs : List Byte) (c : SrcCell) (rest : List SrcCell), argsValid → (0 : Byte) ∉ bs →
      s.srcCells ++ s.cells o.codec = bs.map some ++ c :: rest →
      (c = none → s.FailsWith .hdrEfile .busError) ∧ (c = some 0x00 → s.FailsWith .hdrEfile .headerInvalid)

/-- R322, R323: HDR.EFOLD, likewise: on a readable name HEADER_INVALID, DST_OVERFLOW, BUS_ERROR or the header's bytes, the
DST_OVERFLOW before the bus error of a destination byte by the model's choice (DEDUCED, log 13: R322's Errors item has
BUS_ERROR first); on any name HEADER_INVALID before any read, then the first byte that decides (log 14). -/
def Obligations.HdrEfoldEncodesFolderHeader : Prop :=
  (∀ (s : State) (name : List Byte), regionsOk .hdrEfold s.latch.ops = true → s.source = some name →
    let o := s.latch.ops
    let valid := o.arg0.toNat < 2 ^ 31 ∧ name ≠ [] ∧ (0 : Byte) ∉ name
    let len := 6 + name.length
    (¬valid → s.FailsWith .hdrEfold .headerInvalid) ∧
    (valid → o.dstCap.toNat < len → s.FailsWith .hdrEfold .dstOverflow) ∧
    (valid → len ≤ o.dstCap.toNat → s.room len = false → s.FailsWith .hdrEfold .busError) ∧
    (valid → s.room len = true →
      s.RunsTo .hdrEfold (lengthResult len) o.dstAddr.toNat ([0xFF] ++ be32 o.arg0 ++ name ++ [0x00]))) ∧
  ∀ s : State, regionsOk .hdrEfold s.latch.ops = true →
    let argsValid := s.latch.ops.arg0.toNat < 2 ^ 31 ∧ s.latch.ops.srcLen ≠ 0
    (¬argsValid → s.FailsWith .hdrEfold .headerInvalid) ∧
    ∀ (bs : List Byte) (c : SrcCell) (rest : List SrcCell), argsValid → (0 : Byte) ∉ bs →
      s.srcCells = bs.map some ++ c :: rest →
      (c = none → s.FailsWith .hdrEfold .busError) ∧ (c = some 0x00 → s.FailsWith .hdrEfold .headerInvalid)

/-- R325, R326: HDR.DEC on a readable source gives a valid header's fields when the source begins with one, by offset
and length, whatever follows it, and HEADER_INVALID when it begins with none; it stores nothing. -/
def Obligations.HdrDecDecodesExactlyValidHeaders : Prop :=
  ∀ (s : State) (src : List Byte), s.latch.ops.src.wraps = false → s.source = some src →
    (∀ size name rest, src = [0xFF] ++ be32 size ++ name ++ [0x00] ++ rest → size.toNat < 2 ^ 31 → name ≠ [] →
      (0 : Byte) ∉ name →
      s.RunsTo .hdrDec ⟨BitVec.ofNat 32 (6 + name.length), 0xFF, size, 5, BitVec.ofNat 32 name.length, 0, 0, 0⟩ 0 []) ∧
    (∀ size name orig codec rest,
      src = [0x00] ++ be32 size ++ name ++ [0x00] ++ be32 orig ++ codec ++ [0x00] ++ rest →
      size.toNat < 2 ^ 31 → orig.toNat < 2 ^ 31 → name ≠ [] → (0 : Byte) ∉ name → (0 : Byte) ∉ codec →
      s.RunsTo .hdrDec
        ⟨BitVec.ofNat 32 (11 + name.length + codec.length), 0x00, size, 5, BitVec.ofNat 32 name.length, orig,
          BitVec.ofNat 32 (10 + name.length), BitVec.ofNat 32 codec.length⟩ 0 []) ∧
    ((¬∃ size name rest, src = [0xFF] ++ be32 size ++ name ++ [0x00] ++ rest ∧ size.toNat < 2 ^ 31 ∧ name ≠ [] ∧
        (0 : Byte) ∉ name) →
      (¬∃ size name orig codec rest,
        src = [0x00] ++ be32 size ++ name ++ [0x00] ++ be32 orig ++ codec ++ [0x00] ++ rest ∧
        size.toNat < 2 ^ 31 ∧ orig.toNat < 2 ^ 31 ∧ name ≠ [] ∧ (0 : Byte) ∉ name ∧ (0 : Byte) ∉ codec) →
      s.FailsWith .hdrDec .headerInvalid)

/-- R329: HDR.PATCH in the order of its checks, and the four bytes it stores. -/
def Obligations.HdrPatchRewritesTheSize : Prop :=
  ∀ s : State,
    let o := s.latch.ops
    let at0 := o.dstAddr.toNat + o.arg1.toNat
    let tag := s.engineRead at0 = 0x00 ∨ s.engineRead at0 = 0xFF
    let backed := ∀ k, k < 5 → s.plat.memOk (at0 + k) = true
    (o.dst.wraps = true → s.FailsWith .hdrPatch .regionError) ∧
    (o.dst.wraps = false →
      (o.dstCap.toNat < o.arg1.toNat + 5 → s.FailsWith .hdrPatch .bufferBounds) ∧
      (o.arg1.toNat + 5 ≤ o.dstCap.toNat →
        (2 ^ 31 ≤ o.arg0.toNat → s.FailsWith .hdrPatch .headerInvalid) ∧
        (o.arg0.toNat < 2 ^ 31 →
          (s.plat.memOk at0 = false → s.FailsWith .hdrPatch .busError) ∧
          (s.plat.memOk at0 = true → ¬tag → s.FailsWith .hdrPatch .headerInvalid) ∧
          (s.plat.memOk at0 = true → tag → ¬backed → s.FailsWith .hdrPatch .busError) ∧
          (tag → backed → s.RunsTo .hdrPatch (lengthResult 4) (at0 + 1) (be32 o.arg0)))))

/-- R328: HDR.DEC on the bytes HDR.EFILE or HDR.EFOLD wrote gives the header back, with the RES_LEN of the encode, and
the name and the codec name stand at the offsets it reports; on any strict prefix of them, on a negative size field and
on an empty name it is HEADER_INVALID. -/
def Obligations.HeaderRoundTrip : Prop :=
  (∀ (u : State) (tag : Byte) (size : Word) (rest : List Byte), u.latch.ops.src.wraps = false →
    (2 ^ 31 ≤ size.toNat → u.source = some ([tag] ++ be32 size ++ rest) → u.FailsWith .hdrDec .headerInvalid) ∧
    (u.source = some ([tag] ++ be32 size ++ [0x00] ++ rest) → u.FailsWith .hdrDec .headerInvalid)) ∧
  ∀ (i : Instr) (s t u : State) (name codec : List Byte), i = .hdrEfile ∨ i = .hdrEfold →
    s.source = some name → (i = .hdrEfile → s.codecName = some codec) → exec i s = .next t → t.status.err = false →
    u.latch.ops.src.wraps = false →
    let o := s.latch.ops
    let written := t.mem.readRegion ⟨o.dstAddr.toNat, t.res.len.toNat⟩
    (u.source = some written →
      (i = .hdrEfold → u.RunsTo .hdrDec ⟨t.res.len, 0xFF, o.arg0, 5, o.srcLen, 0, 0, 0⟩ 0 []) ∧
      (i = .hdrEfile → u.RunsTo .hdrDec ⟨t.res.len, 0x00, o.arg0, 5, o.srcLen, o.arg1, o.srcLen + 10, o.arg3⟩ 0 [] ∧
        (written.drop (o.srcLen.toNat + 10)).take o.arg3.toNat = codec) ∧
      (written.drop 5).take o.srcLen.toNat = name) ∧
    (∀ k, k < t.res.len.toNat → u.source = some (written.take k) → u.FailsWith .hdrDec .headerInvalid)

/-! ## The image codec -/

/-- JPEG.C (R300) on a source that parses as an image (R243, R244): with room for the container it writes it; a
destination byte that the container reaches within DST_CAP and that is not MEM_OK is BUS_ERROR, and only without one is a
container longer than the destination DST_OVERFLOW (the order of R300's Errors item, R356, log 13); a source that does not
parse ends with the parse's cause. -/
def Obligations.JpegCompressCompletes : Prop :=
  ∀ s : State, regionsOk .jpegC s.latch.ops = true →
    (∀ img, parsePpm s.plat.maxPixels s.srcCells = .ok img →
      let out := jpegEncode s.plat img
      let o := s.latch.ops
      (s.room out.length = true → s.RunsTo .jpegC (lengthResult out.length) o.dstAddr.toNat out) ∧
      (∀ k, k < out.length → k < o.dstCap.toNat → s.plat.memOk (o.dstAddr.toNat + k) = false →
        s.FailsWith .jpegC (.codecInternal .busError)) ∧
      (o.dstCap.toNat < out.length → (∀ k, k < o.dstCap.toNat → s.plat.memOk (o.dstAddr.toNat + k) = true) →
        s.FailsWith .jpegC (.codecInternal .dstOverflow))) ∧
    (∀ c, parsePpm s.plat.maxPixels s.srcCells = .error c → s.FailsWith .jpegC (.codecInternal c))

/-- JPEG.D (R301) on a source that parses as a container (R290 to R292): with room for the image it writes the header of
R293 and the pixels; an image longer than the destination is DST_OVERFLOW; a source that does not parse ends with the
parse's cause. ARG0 plays no part. -/
def Obligations.JpegDecompressCompletes : Prop :=
  ∀ s : State, regionsOk .jpegD s.latch.ops = true →
    (∀ h ch rest, parseContainer s.plat.maxPixels s.srcCells = .ok (h, ch, rest) →
      let out := imageFile s.plat h.width h.height h.maxVal (ch.map (·.coeffs))
      (s.room out.length = true → s.RunsTo .jpegD (lengthResult out.length) s.latch.ops.dstAddr.toNat out) ∧
      (s.latch.ops.dstCap.toNat < out.length →
        (∀ x, s.latch.ops.dst.contains x = true → s.plat.memOk x = true) →
        s.FailsWith .jpegD (.codecInternal .dstOverflow))) ∧
    (∀ c, parseContainer s.plat.maxPixels s.srcCells = .error c → s.FailsWith .jpegD (.codecInternal c))

/-- R243, R244, R293: the header form that JPEG.D writes parses as an image, with any bytes after the pixels, and is
RESOURCE above MAX_PIXELS and SRC_UNDERRUN with a pixel byte missing. -/
def Obligations.WrittenImageHeaderParses : Prop :=
  ∀ (maxPixels : Nat) (img : Image) (rest : List Byte), img.wf → img.width < 2 ^ 31 → img.height < 2 ^ 31 →
    let file := ppmHeader img.width img.height img.maxVal ++ img.px ++ rest
    (img.width * img.height ≤ maxPixels → parsePpm maxPixels (file.map some) = .ok img) ∧
    (maxPixels < img.width * img.height → parsePpm maxPixels (file.map some) = .error .resource) ∧
    (img.width * img.height ≤ maxPixels → ∀ k, k < img.px.length →
      parsePpm maxPixels ((ppmHeader img.width img.height img.maxVal ++ img.px.take k).map some) =
        .error .srcUnderrun)

/-- R261, R265: the pairs of a block have runs of at most 15, cover its 64 coefficients exactly and expand back to them;
there are 4 to 64 of them, four of (15, 0) for a block of zeros; a channel of B blocks has 4B to 64B; the example. -/
def Obligations.RunLengthPairsCoverTheBlock : Prop :=
  (∀ z : List Int, z.length = 64 →
    (∀ q ∈ rle z, q.run ≤ 15) ∧ expandPairs (rle z) = z ∧ ((rle z).map fun q => q.run + 1).sum = 64 ∧
    4 ≤ (rle z).length ∧ (rle z).length ≤ 64) ∧
  rle (List.replicate 64 0) = List.replicate 4 ⟨15, 0⟩ ∧
  rle ([0, -13, 0, 0, 0, 0, -1] ++ List.replicate 57 0) =
    [⟨1, -13⟩, ⟨4, -1⟩, ⟨15, 0⟩, ⟨15, 0⟩, ⟨15, 0⟩, ⟨8, 0⟩] ∧
  (∀ (b : Nat) (coeffs : List Int), coeffs.length = 64 * b →
    4 * b ≤ (pairsOf coeffs).length ∧ (pairsOf coeffs).length ≤ 64 * b ∧ expandPairs (pairsOf coeffs) = coeffs)

/-- R258, R266: the zigzag walk visits the anti-diagonals in the stated order, and placing the coefficients back undoes
the serialization. -/
def Obligations.ZigzagIsUndone : Prop :=
  zz = (List.range 15).flatMap (fun d =>
    let us := (List.range 8).filter fun u => u ≤ d && d - u ≤ 7
    (if d % 2 = 0 then us.reverse else us).map fun u => 8 * u + (d - u)) ∧
  (∀ q : List Int, q.length = 64 → unzigzag (zigzag q) = q ∧ zigzag (unzigzag q) = q)

/-- R283: the codes of a channel are at least one bit long and prefix-free; every symbol that occurs has one; a single
distinct symbol has the code "0". -/
def Obligations.HuffmanCodesArePrefixFree : Prop :=
  ∀ l : List Pair, l ≠ [] →
    let codes := huffmanCodes (frequencies l)
    (∀ s ∈ l, codeOf codes s ≠ []) ∧
    (∀ s ∈ l, ∀ t ∈ l, s ≠ t → ¬(codeOf codes s).isPrefixOf (codeOf codes t) = true) ∧
    (∀ s, (∀ t ∈ l, t = s) → codeOf codes s = [false])

/-- The entropy stage loses nothing (R281 to R286 against R291, R292): the tree rebuilt from a channel's serialized
dictionary walks the channel's stream back to its coefficients and stops at the next stream's byte. -/
def Obligations.EntropyStageIsLossless : Prop :=
  ∀ (b : Nat) (coeffs : List Int) (rest : List Byte), 1 ≤ b → coeffs.length = 64 * b →
    (∀ c ∈ coeffs, -2147483648 ≤ c ∧ c ≤ 2147483647) →
    ∃ root nb, buildTree ((channelEnc coeffs).dict.map some) = .ok root ∧
      walkChannel root coeffs.length (((channelEnc coeffs).stream ++ rest).map some) =
        .ok (⟨root, nb, coeffs⟩, rest.map some)

/-- R271: JPEG.D on the container JPEG.C wrote completes and gives back W, H and MAX exactly, with the pixels decoded
from exactly the quantized coefficients of the input image. The container's dictionary sizes must be ones R290 admits,
which a container below 2^31 bytes meets. -/
def Obligations.JpegRoundTripKeepsDimensions : Prop :=
  ∀ (s t u : State) (img : Image), parsePpm s.plat.maxPixels s.srcCells = .ok img → exec .jpegC s = .next t →
    t.status.err = false → t.res.len.toNat < 2 ^ 31 →
    u.source = some (t.mem.readRegion ⟨s.latch.ops.dstAddr.toNat, t.res.len.toNat⟩) →
    img.width * img.height ≤ u.plat.maxPixels → regionsOk .jpegD u.latch.ops = true →
    let out := imageFile u.plat img.width img.height img.maxVal (imageCoeffs s.plat img)
    u.room out.length = true → u.RunsTo .jpegD (lengthResult out.length) u.latch.ops.dstAddr.toNat out

/-- R302, R271: a mid-gray image of any size, under the default forward coefficients and any table, has only zero
coefficients, four pairs (15, 0) a block and the single code "0" in every channel, and decodes to itself. Under the
default parameters so does every image of one of R271's other colours, its sides multiples of 8; its samples and its DC
coefficients are the ones stated, and every other coefficient is 0. -/
def Obligations.MidGrayIsReproduced : Prop :=
  (∀ (p : Platform) (w h mx : Nat), p.colourFwd = colourFwdDefault → 1 ≤ w → 1 ≤ h →
    let img : Image := ⟨w, h, mx, List.replicate (3 * (w * h)) 128⟩
    let blocks := (w + padOf w) / 8 * ((h + padOf h) / 8)
    (encodeChannels p img).length = 3 ∧
    (∀ c ∈ encodeChannels p img, c.coeffs = List.replicate (64 * blocks) 0 ∧
      c.pairs = List.replicate (4 * blocks) ⟨15, 0⟩ ∧ c.codes = [(⟨15, 0⟩, [false])]) ∧
    imageFile p w h mx (imageCoeffs p img) = ppmHeader w h mx ++ img.px) ∧
  (∀ (p : Platform) (w h mx : Nat), p.colourFwd = colourFwdDefault → p.colourInv = colourInvDefault →
    p.qtable = qtableDefault → p.roundHalf = .away → 1 ≤ w → 1 ≤ h → w % 8 = 0 → h % 8 = 0 →
    ∀ q ∈ ([(⟨0, 0, 0⟩, (-128, 0, 0), [-64, 0, 0]), (⟨255, 255, 255⟩, (127, 0, 0), [64, 0, 0]),
        (⟨255, 0, 0⟩, (-52, -43, 128), [-26, -22, 64]), (⟨200, 100, 50⟩, (-4, -42, 54), [-2, -21, 27])] :
        List (Rgb × (Int × Int × Int) × List Int)),
      let img : Image := ⟨w, h, mx, (List.replicate (w * h)
        [BitVec.ofNat 8 q.1.r, BitVec.ofNat 8 q.1.g, BitVec.ofNat 8 q.1.b]).flatten⟩
      toYuv p q.1 = q.2.1 ∧
      imageCoeffs p img = q.2.2.map (fun dc => (List.replicate (w / 8 * (h / 8)) (dc :: List.replicate 63 0)).flatten) ∧
      imageFile p w h mx (imageCoeffs p img) = ppmHeader w h mx ++ img.px)

/-- R15, R241: round gives an integer nearest to the exact value; a tie goes away from zero or toward +infinity. -/
def Obligations.RoundIsToNearest : Prop :=
  ∀ (mode : RoundHalf) (x : F64),
    (∀ k : Nat, x.exp = k → x.round mode = x.man * 2 ^ k) ∧
    (∀ k : Nat, x.exp = -(k : Int) →
      2 * (x.man - x.round mode * 2 ^ k).natAbs ≤ 2 ^ k ∧
      (2 * (x.man - x.round mode * 2 ^ k).natAbs = 2 ^ k →
        match mode with
        | .away => x.man.natAbs < (x.round mode * 2 ^ k).natAbs
        | .up => x.man < x.round mode * 2 ^ k))

/-- R15: every binary64 operation is its exact result rounded to 53 significant bits, nearest, ties to even
(`F64.IsRounded` in Sys2Proof/Safety.lean): the sum and the difference, on a common exponent, the product, the quotient,
and the conversion of an integer, which is exact below 2^53. The exponent has no bound (log 15). -/
def Obligations.Binary64RoundsToNearestEven : Prop :=
  (∀ m e : Int, (F64.roundTo53 m e).IsRounded m e) ∧
  (∀ a b : F64, ∃ (e : Int) (ka kb : Nat), a.exp = e + ka ∧ b.exp = e + kb ∧
    (a.add b).IsRounded (a.man * 2 ^ ka + b.man * 2 ^ kb) e ∧
    (a.sub b).IsRounded (a.man * 2 ^ ka - b.man * 2 ^ kb) e) ∧
  (∀ a b : F64, (a.mul b).IsRounded (a.man * b.man) (a.exp + b.exp)) ∧
  (∀ n : Int, (F64.ofInt n).IsRounded n 0 ∧ (n.natAbs < 2 ^ 53 → F64.ofInt n = ⟨n, 0⟩)) ∧
  (∀ a b : F64, b.man ≠ 0 → ∃ up down : Nat, (a.div b).exp + up = a.exp - b.exp + down ∧
    let err := (a.man * 2 ^ up - (a.div b).man * b.man * 2 ^ down).natAbs
    (a.div b).man.natAbs ≤ 2 ^ 53 ∧ 2 * err ≤ b.man.natAbs * 2 ^ down ∧
    (err ≠ 0 → 2 ^ 52 * b.man.natAbs * 2 ^ down ≤ a.man.natAbs * 2 ^ up) ∧
    (2 * err = b.man.natAbs * 2 ^ down → (a.div b).man % 2 = 0))

/-! ## The invariant -/

/-- Every step keeps the invariant, from every state that has it: the canonical form of memory, what a busy machine
shows (R386), CMD against the latch (R35, R357), the codes STATUS can hold (R350, R352). The canonical form of memory is
the model's (log 4). -/
def Obligations.StepKeepsTheInvariant : Prop :=
  ∀ s t : State, s.Inv → step s = .next t → t.Inv

/-- No step changes the parameters of the platform (R8, R9; the model holds them in State, log 1), and only a host write
to an operand register, a soft reset or the reset input changes an operand register (R36). -/
def Obligations.ParametersAndOperandsAreTheHosts : Prop :=
  ∀ s t : State, step s = .next t → t.plat = s.plat ∧
    (t.ops ≠ s.ops → ∃ op rest, s.host = op :: rest ∧
      (op = .hwReset ∨ (∃ v, op = .regWrite 0x04 4 v ∧ v.getLsbD 1 = true) ∨
        ∃ r v, r ∈ operandRegs ∧ op = .regWrite r.offset 4 v))
end

