-- ==== Sys2Proof/Laws/F64.lean ====
section
/-! SUPPORT. The bit length of a magnitude, which every rounding of the binary64 arithmetic starts from. -/

namespace Sys2Proof.Machine

/-- What a bit count of the numbers below `m` must say. -/
def CountsBits (f : Nat → Nat) (m : Nat) : Prop :=
  ∀ n, n < m → n < 2 ^ f n ∧ (n ≠ 0 → 0 < f n ∧ 2 ^ (f n - 1) ≤ n)

theorem bitStep_counts {k : Nat} {f : Nat → Nat} (h : CountsBits f (2 ^ k)) :
    CountsBits (bitStep k f) (2 ^ (k + k)) := by
  intro n hn
  have hpos : 0 < 2 ^ k := Nat.pow_pos (by decide)
  unfold bitStep
  cases hb : Nat.ble (2 ^ k) n with
  | false =>
    exact h n (Nat.lt_of_not_le fun hle => by rw [Nat.ble_eq_true_of_le hle] at hb; cases hb)
  | true =>
    have hle : 2 ^ k ≤ n := Nat.le_of_ble_eq_true hb
    have hq : n / 2 ^ k < 2 ^ k := by
      rw [Nat.div_lt_iff_lt_mul hpos, ← Nat.pow_add]
      exact hn
    have hq0 : n / 2 ^ k ≠ 0 := fun h0 => by
      have := Nat.div_pos hle hpos
      rw [h0] at this
      exact absurd this (by decide)
    obtain ⟨h1, h2⟩ := h _ hq
    obtain ⟨h3, h4⟩ := h2 hq0
    show n < 2 ^ (k + f (n / 2 ^ k)) ∧ (n ≠ 0 → 0 < k + f (n / 2 ^ k) ∧ 2 ^ (k + f (n / 2 ^ k) - 1) ≤ n)
    generalize f (n / 2 ^ k) = c at *
    refine ⟨?_, fun _ => ⟨by omega, ?_⟩⟩
    · rw [Nat.pow_add, Nat.mul_comm]
      exact (Nat.div_lt_iff_lt_mul hpos).mp h1
    · rw [show k + c - 1 = (c - 1) + k by omega, Nat.pow_add]
      exact (Nat.le_div_iff_mul_le hpos).mp h4

theorem bitLength_counts (n : Nat) : n < 2 ^ bitLength n ∧ (n ≠ 0 → 0 < bitLength n ∧ 2 ^ (bitLength n - 1) ≤ n) := by
  unfold bitLength
  cases hb : Nat.ble (2 ^ 256) n with
  | true =>
    have hn : n ≠ 0 := fun h0 => by
      have : 2 ^ 256 ≤ n := Nat.le_of_ble_eq_true hb
      rw [h0] at this
      exact absurd this (by decide)
    exact ⟨Nat.lt_log2_self, fun _ => ⟨Nat.succ_pos _, Nat.log2_self_le hn⟩⟩
  | false =>
    have h0 : CountsBits id (2 ^ 1) := fun m hm => by
      have : m = 0 ∨ m = 1 := by omega
      rcases this with rfl | rfl <;> decide
    have h := bitStep_counts (bitStep_counts (bitStep_counts (bitStep_counts (bitStep_counts (bitStep_counts
      (bitStep_counts (bitStep_counts h0)))))))
    exact h n (Nat.lt_of_not_le fun hle => by rw [Nat.ble_eq_true_of_le hle] at hb; cases hb)

theorem lt_two_pow_bitLength (n : Nat) : n < 2 ^ bitLength n := (bitLength_counts n).1

theorem two_pow_bitLength_le {n : Nat} (h : n ≠ 0) : 2 ^ (bitLength n - 1) ≤ n := ((bitLength_counts n).2 h).2

theorem bitLength_pos {n : Nat} (h : n ≠ 0) : 0 < bitLength n := ((bitLength_counts n).2 h).1

end Sys2Proof.Machine
end

