-- ==== Sys2Proof/Laws/Memory.lean ====
section
/-! SUPPORT. Memory: a read after a write, and the canonical form that every write keeps (log 4). -/

namespace Sys2Proof.Machine.Memory

theorem read_append_of_ne {m n : Memory} {x : Nat} (h : ∀ c ∈ m, c.1 ≠ x) : read (m ++ n) x = read n x := by
  induction m with
  | nil => rfl
  | cons c m ih =>
    have hc : c.1 ≠ x := h c (by simp)
    simp only [List.cons_append, read, if_neg hc]
    exact ih fun d hd => h d (by simp [hd])

theorem read_of_ne {m : Memory} {x : Nat} (h : ∀ c ∈ m, c.1 ≠ x) : read m x = unlisted := by
  have := read_append_of_ne (n := []) h
  simpa [read] using this

theorem read_append_left {m n : Memory} {x : Nat} (h : ∀ c ∈ n, c.1 ≠ x) : read (m ++ n) x = read m x := by
  induction m with
  | nil => exact read_of_ne h
  | cons c m ih => simp only [List.cons_append, read, ih]

theorem read_filter {m : Memory} {x : Nat} {p : Nat → Bool} (h : p x = true) :
    read (m.filter fun c => p c.1) x = read m x := by
  induction m with
  | nil => rfl
  | cons c m ih =>
    by_cases hp : p c.1 = true
    · simp only [List.filter_cons, hp, if_true, read, ih]
    · have hc : c.1 ≠ x := fun e => hp (e ▸ h)
      simp only [List.filter_cons, hp, read, if_neg hc, ih, Bool.false_eq_true, if_false]

theorem mem_entries {a : Nat} {bs : List Byte} {c : Host.Cell} (h : c ∈ entries a bs) :
    a ≤ c.1 ∧ c.1 < a + bs.length ∧ c.2 ≠ unlisted := by
  induction bs generalizing a with
  | nil => simp [entries] at h
  | cons b bs ih =>
    simp only [entries] at h
    split at h
    · have := ih h
      simp only [List.length_cons]
      exact ⟨by omega, by omega, this.2.2⟩
    · simp only [List.mem_cons] at h
      rcases h with rfl | h
      · simpa using ‹_›
      · have := ih h
        simp only [List.length_cons]
        exact ⟨by omega, by omega, this.2.2⟩

theorem read_entries (a : Nat) (bs : List Byte) (x : Nat) :
    read (entries a bs) x = if a ≤ x ∧ x < a + bs.length then bs.getD (x - a) 0 else unlisted := by
  induction bs generalizing a with
  | nil => simp [entries, read, unlisted]
  | cons b bs ih =>
    simp only [entries, List.length_cons]
    by_cases hx : x = a
    · subst hx
      by_cases hb : b = unlisted
      · rw [if_pos hb, read_of_ne fun c hc => by have := mem_entries hc; omega]
        simp [hb]
      · simp [if_neg hb, read]
    · have step : read (entries (a + 1) bs) x =
          if a ≤ x ∧ x < a + (bs.length + 1) then (b :: bs).getD (x - a) 0 else unlisted := by
        rw [ih]
        by_cases h : a ≤ x
        · obtain ⟨k, rfl⟩ : ∃ k, x = a + 1 + k := ⟨x - a - 1, by omega⟩
          have e1 : a + 1 + k - a = k + 1 := by omega
          have e2 : a + 1 + k - (a + 1) = k := by omega
          simp only [e1, e2, List.getD_cons_succ]
          congr 1
          simp only [eq_iff_iff]
          omega
        · rw [if_neg (by omega), if_neg (by omega)]
      split
      · exact step
      · rw [read, if_neg (fun e => hx e.symm)]
        exact step

/-- A read after a write (R13): the written bytes, and every other byte as it was. -/
theorem read_write (m : Memory) (a : Nat) (bs : List Byte) (x : Nat) :
    read (m.write a bs) x = if a ≤ x ∧ x < a + bs.length then bs.getD (x - a) 0 else read m x := by
  have hlow : ∀ c ∈ m.filter (fun c => decide (c.1 < a)), c.1 < a := fun c hc => by
    simpa using (List.mem_filter.mp hc).2
  have hhigh : ∀ c ∈ m.filter (fun c => decide (a + bs.length ≤ c.1)), a + bs.length ≤ c.1 := fun c hc => by
    simpa using (List.mem_filter.mp hc).2
  unfold write
  by_cases h1 : x < a
  · rw [List.append_assoc, read_append_left, if_neg (by omega)]
    · exact read_filter (p := fun k => decide (k < a)) (by simpa using h1)
    · intro c hc
      rcases List.mem_append.mp hc with hc | hc
      · have := mem_entries hc; omega
      · have := hhigh c hc; omega
  · rw [List.append_assoc, read_append_of_ne fun c hc => by have := hlow c hc; omega]
    by_cases h2 : x < a + bs.length
    · rw [read_append_left fun c hc => by have := hhigh c hc; omega, read_entries]
      by_cases h3 : a ≤ x
      · rw [if_pos ⟨h3, h2⟩, if_pos ⟨h3, h2⟩]
      · omega
    · rw [read_append_of_ne fun c hc => by have := mem_entries hc; omega, if_neg (by omega)]
      exact read_filter (p := fun k => decide (a + bs.length ≤ k)) (by simp; omega)

theorem read_write_inside {m : Memory} {a : Nat} {bs : List Byte} {i : Nat} (h : i < bs.length) :
    read (m.write a bs) (a + i) = bs[i] := by
  rw [read_write, if_pos (by omega), Nat.add_sub_cancel_left, List.getD_eq_getElem?_getD,
    List.getElem?_eq_getElem h, Option.getD_some]

theorem read_write_outside {m : Memory} {a : Nat} {bs : List Byte} {x : Nat}
    (h : x < a ∨ a + bs.length ≤ x) : read (m.write a bs) x = read m x := by
  rw [read_write, if_neg (by omega)]

theorem read_write_nil (m : Memory) (a x : Nat) : read (m.write a []) x = read m x :=
  read_write_outside (by simp; omega)

/-- The bytes just written, read back as a region. -/
theorem readRegion_write (m : Memory) (a : Nat) (bs : List Byte) :
    readRegion (m.write a bs) ⟨a, bs.length⟩ = bs := by
  apply List.ext_getElem
  · simp [readRegion]
  · intro i h1 h2
    simp [readRegion, read_write_inside h2]

/-! ## The canonical form -/

theorem wfFrom_iff (lo : Nat) (m : Memory) : wfFrom lo m = true ↔
    m.Pairwise (fun c d => c.1 < d.1) ∧ ∀ c ∈ m, lo ≤ c.1 ∧ c.1 < 2 ^ 32 ∧ c.2 ≠ unlisted := by
  induction m generalizing lo with
  | nil => simp [wfFrom]
  | cons c m ih =>
    obtain ⟨k, v⟩ := c
    simp only [wfFrom, Bool.and_eq_true, decide_eq_true_eq, ih, List.pairwise_cons, List.mem_cons,
      forall_eq_or_imp]
    constructor
    · rintro ⟨⟨⟨h1, h2⟩, h3⟩, h4, h5⟩
      exact ⟨⟨fun d hd => by have := h5 d hd; omega, h4⟩, ⟨h1, h2, h3⟩,
        fun d hd => by have := h5 d hd; exact ⟨by omega, this.2⟩⟩
    · rintro ⟨⟨h1, h2⟩, ⟨h3, h4, h5⟩, h6⟩
      exact ⟨⟨⟨h3, h4⟩, h5⟩, h2, fun d hd => ⟨h1 d hd, (h6 d hd).2⟩⟩

theorem entries_pairwise (a : Nat) (bs : List Byte) : (entries a bs).Pairwise (fun c d => c.1 < d.1) := by
  induction bs generalizing a with
  | nil => simp [entries]
  | cons b bs ih =>
    simp only [entries]
    split
    · exact ih (a + 1)
    · exact List.pairwise_cons.mpr ⟨fun c hc => (mem_entries hc).1, ih (a + 1)⟩

/-- A write below 2^32 keeps the canonical form. -/
theorem write_wf {m : Memory} {a : Nat} {bs : List Byte} (h : m.wf = true) (hb : a + bs.length ≤ 2 ^ 32) :
    (m.write a bs).wf = true := by
  rw [wf, wfFrom_iff] at *
  obtain ⟨hs, hm⟩ := h
  refine ⟨?_, ?_⟩
  · rw [write, List.pairwise_append, List.pairwise_append]
    refine ⟨⟨hs.filter _, entries_pairwise a bs, ?_⟩, hs.filter _, ?_⟩
    · intro c hc d hd
      have h1 : c.1 < a := by simpa using (List.mem_filter.mp hc).2
      have h2 := mem_entries hd
      omega
    · intro c hc d hd
      have h2 : a + bs.length ≤ d.1 := by simpa using (List.mem_filter.mp hd).2
      rcases List.mem_append.mp hc with hc | hc
      · have h1 : c.1 < a := by simpa using (List.mem_filter.mp hc).2
        omega
      · have := mem_entries hc
        omega
  · intro c hc
    rw [write] at hc
    simp only [List.mem_append] at hc
    rcases hc with (hc | hc) | hc
    · exact hm c (List.mem_filter.mp hc).1
    · have := mem_entries hc
      exact ⟨by omega, by omega, this.2.2⟩
    · exact hm c (List.mem_filter.mp hc).1

/-- Two canonical memories that read the same are the same data. -/
theorem ext_of_wf {m n : Memory} (hm : m.wf = true) (hn : n.wf = true) (h : ∀ x, read m x = read n x) : m = n := by
  have key : ∀ (m n : Memory), wf m = true → wf n = true → (∀ x, read m x = read n x) →
      ∀ c ∈ m, c ∈ n := by
    intro m n hm hn h c hc
    have hm' := (wfFrom_iff 0 m).mp hm
    have read_of_mem : ∀ l : Memory, l.Pairwise (fun c d => c.1 < d.1) → c ∈ l → read l c.1 = c.2 := by
      intro l hl hcl
      induction l with
      | nil => cases hcl
      | cons d l ih =>
        rcases List.mem_cons.mp hcl with rfl | hcl
        · simp [read]
        · have := (List.pairwise_cons.mp hl).1 c hcl
          rw [read, if_neg (by omega)]
          exact ih (List.pairwise_cons.mp hl).2 hcl
    have hv := read_of_mem m hm'.1 hc
    by_cases hx : ∃ d ∈ n, d.1 = c.1
    · obtain ⟨d, hd, hdc⟩ := hx
      have hv' : read n d.1 = d.2 := by
        have hn' := (wfFrom_iff 0 n).mp hn
        clear hm hm' hv h hn
        obtain ⟨hp, -⟩ := hn'
        induction n with
        | nil => cases hd
        | cons e l ih =>
          rcases List.mem_cons.mp hd with rfl | hd
          · simp [read]
          · have := (List.pairwise_cons.mp hp).1 d hd
            rw [read, if_neg (by omega)]
            exact ih hd (List.pairwise_cons.mp hp).2
      have : d = c := by
        apply Prod.ext hdc
        rw [← hv', hdc, ← h, hv]
      exact this ▸ hd
    · have h0 : read n c.1 = unlisted := read_of_ne fun d hd e => hx ⟨d, hd, e⟩
      exact absurd (by rw [← hv, h, h0]) (hm'.2 c hc).2.2
  have perm : ∀ (m n : Memory), m.Pairwise (fun c d => c.1 < d.1) → n.Pairwise (fun c d => c.1 < d.1) →
      (∀ c ∈ m, c ∈ n) → (∀ c ∈ n, c ∈ m) → m = n := by
    intro m
    induction m with
    | nil =>
      intro n _ _ _ h2
      cases n with
      | nil => rfl
      | cons d n => exact absurd (h2 d (by simp)) (by simp)
    | cons c m ih =>
      intro n hm hn h1 h2
      cases n with
      | nil => exact absurd (h1 c (by simp)) (by simp)
      | cons d n =>
        have hcm := List.pairwise_cons.mp hm
        have hdn := List.pairwise_cons.mp hn
        have hcd : c = d := by
          rcases List.mem_cons.mp (h1 c (by simp)) with e | hc
          · exact e
          · rcases List.mem_cons.mp (h2 d (by simp)) with e | hd
            · exact e.symm
            · have := hdn.1 c hc
              have := hcm.1 d hd
              omega
        subst hcd
        congr 1
        refine ih n hcm.2 hdn.2 (fun e he => ?_) (fun e he => ?_)
        · rcases List.mem_cons.mp (h1 e (by simp [he])) with rfl | h
          · exact absurd (hcm.1 e he) (by omega)
          · exact h
        · rcases List.mem_cons.mp (h2 e (by simp [he])) with rfl | h
          · exact absurd (hdn.1 e he) (by omega)
          · exact h
  exact perm m n ((wfFrom_iff 0 m).mp hm).1 ((wfFrom_iff 0 n).mp hn).1 (key m n hm hn h)
    (key n m hn hm fun x => (h x).symm)

end Sys2Proof.Machine.Memory
end

