-- ==== Sys2Proof/Laws/PerInstr.lean ====
section
/-! SUPPORT. One lemma per command: its word decodes back to it and is well formed (30_encoding R120, R121). -/

namespace Sys2Proof.Laws.RoundTrip

/-- The command's own word decodes to the command, and is well formed. -/
def Statement (i : Instr) : Prop := decode (encode i) = .ok i ∧ i.wf = true

theorem nop : Statement .nop := ⟨rfl, rfl⟩

theorem lz78C : Statement .lz78C := ⟨rfl, rfl⟩

theorem lz78D : Statement .lz78D := ⟨rfl, rfl⟩

theorem lzssC : Statement .lzssC := ⟨rfl, rfl⟩

theorem lzssD : Statement .lzssD := ⟨rfl, rfl⟩

theorem lzwC : Statement .lzwC := ⟨rfl, rfl⟩

theorem lzwD : Statement .lzwD := ⟨rfl, rfl⟩

theorem jpegC : Statement .jpegC := ⟨rfl, rfl⟩

theorem jpegD : Statement .jpegD := ⟨rfl, rfl⟩

theorem hdrEfile : Statement .hdrEfile := ⟨rfl, rfl⟩

theorem hdrEfold : Statement .hdrEfold := ⟨rfl, rfl⟩

theorem hdrDec : Statement .hdrDec := ⟨rfl, rfl⟩

theorem hdrPatch : Statement .hdrPatch := ⟨rfl, rfl⟩

theorem regLookup : Statement .regLookup := ⟨rfl, rfl⟩

theorem regExtmap : Statement .regExtmap := ⟨rfl, rfl⟩

end Sys2Proof.Laws.RoundTrip
end

