-- ==== Sys2Proof/Laws/Regions.lean ====
section
/-! SUPPORT. Regions as arithmetic: containment, wrapping, overlap, the part that exists, and the region check. -/

namespace Sys2Proof

namespace Region

@[simp] theorem contains_iff (r : Region) (a : Nat) : r.contains a = true ↔ r.base ≤ a ∧ a < r.base + r.len := by
  simp [contains]

@[simp] theorem wraps_iff (r : Region) : r.wraps = true ↔ 2 ^ 32 < r.base + r.len := by
  simp [wraps]

@[simp] theorem overlaps_iff (r t : Region) : r.overlaps t = true ↔
    0 < r.len ∧ 0 < t.len ∧ r.base < t.base + t.len ∧ t.base < r.base + r.len := by
  simp [overlaps, and_assoc]

/-- Two regions overlap exactly when they share an address (R85). -/
theorem overlaps_iff_shared (r t : Region) :
    r.overlaps t = true ↔ ∃ a, r.contains a = true ∧ t.contains a = true := by
  simp only [overlaps_iff, contains_iff]
  constructor
  · rintro ⟨h1, h2, h3, h4⟩
    exact ⟨max r.base t.base, by omega, by omega⟩
  · rintro ⟨a, ⟨h1, h2⟩, h3, h4⟩
    omega

theorem overlaps_comm (r t : Region) : r.overlaps t = t.overlaps r := by
  rw [Bool.eq_iff_iff, overlaps_iff, overlaps_iff]
  omega

@[simp] theorem clip_base (r : Region) : r.clip.base = r.base := rfl

theorem clip_fits (r : Region) (h : r.base < 2 ^ 32) : r.clip.base + r.clip.len ≤ 2 ^ 32 := by
  simp only [clip]
  omega

theorem clip_of_not_wraps {r : Region} (h : r.wraps = false) : r.clip = r := by
  have : ¬2 ^ 32 < r.base + r.len := fun hw => by simp [(wraps_iff r).mpr hw] at h
  obtain ⟨b, l⟩ := r
  simp only [clip, mk.injEq, true_and]
  simp only at this
  omega

end Region

namespace Machine

theorem src_base_lt (o : Operands) : o.src.base < 2 ^ 32 := o.srcAddr.isLt

theorem dst_base_lt (o : Operands) : o.dst.base < 2 ^ 32 := o.dstAddr.isLt

theorem dstRegion_base_lt (i : Instr) (o : Operands) : (dstRegion i o).base < 2 ^ 32 := by
  unfold dstRegion
  split
  · exact dst_base_lt o
  · decide

/-- A destination that passes the region check ends inside the address space (R85). -/
theorem dstRegion_fits {i : Instr} {o : Operands} (h : regionsOk i o = true) :
    (dstRegion i o).base + (dstRegion i o).len ≤ 2 ^ 32 := by
  unfold dstRegion
  split
  · have h1 : o.dst.wraps = false := by
      have := (Bool.and_eq_true _ _ ▸ h : _ ∧ _).1
      simpa [usedRegions, *] using (List.all_eq_true.mp this) o.dst (by simp [usedRegions, *])
    have : ¬2 ^ 32 < o.dst.base + o.dst.len := fun hw => by simp [(Region.wraps_iff o.dst).mpr hw] at h1
    omega
  · decide

/-- A region that is read shares no address with the destination (R85). -/
theorem readRegion_disjoint {i : Instr} {o : Operands} (h : regionsOk i o = true) {r : Region}
    (hr : r ∈ readRegions i o) {a : Nat} (ha : r.contains a = true) : (dstRegion i o).contains a = false := by
  have h2 := (Bool.and_eq_true _ _ ▸ h : _ ∧ _).2
  have h3 : r.overlaps (dstRegion i o) = false := by simpa using (List.all_eq_true.mp h2) r hr
  rw [← Bool.not_eq_true]
  intro hc
  rw [(Region.overlaps_iff_shared r _).mpr ⟨a, ha, hc⟩] at h3
  cases h3

end Machine

end Sys2Proof
end

