-- ==== Sys2Proof/Laws/Source.lean ====
section
/-! SUPPORT. The source side: what each source primitive answers, once (20_memory R90 to R93), and how a sequence of
fallible operations comes apart. -/

namespace Sys2Proof.Machine

/-! ## Sequences -/

theorem bind_ok {ε α β : Type} {x : Except ε α} {f : α → Except ε β} {b : β} :
    x >>= f = .ok b ↔ ∃ a, x = .ok a ∧ f a = .ok b := by
  cases x <;> simp [bind, Except.bind]

theorem bind_error {ε α β : Type} {x : Except ε α} {f : α → Except ε β} {e : ε} :
    x >>= f = .error e ↔ x = .error e ∨ ∃ a, x = .ok a ∧ f a = .error e := by
  cases x <;> simp [bind, Except.bind]

theorem check_ok {ε : Type} {b : Bool} {e : ε} {u : Unit} : check b e = .ok u ↔ b = true := by
  cases b <;> simp [check]

theorem check_error {ε : Type} {b : Bool} {e e' : ε} : check b e = .error e' ↔ b = false ∧ e' = e := by
  cases b <;> simp [check, eq_comm]

@[simp] theorem check_true {ε : Type} {e : ε} : check true e = .ok () := rfl

@[simp] theorem check_false {ε : Type} {e : ε} : check false e = .error e := rfl

theorem wrapCause_ok {α : Type} {x : Except Cause α} {a : α} : wrapCause x = .ok a ↔ x = .ok a := by
  cases x <;> simp [wrapCause]

theorem wrapCause_error {α : Type} {x : Except Cause α} {e : Err} :
    wrapCause x = .error e ↔ ∃ c, x = .error c ∧ e = .codecInternal c := by
  cases x <;> simp [wrapCause, eq_comm]

/-! ## Cells -/

@[simp] theorem cells_length (s : State) (r : Region) : (s.cells r).length = r.len := by
  simp [State.cells]

@[simp] theorem srcCells_length (s : State) : s.srcCells.length = s.latch.ops.srcLen.toNat := by
  simp [State.srcCells, Operands.src]

@[simp] theorem readCell_some {ε : Type} (bus : ε) (b : Byte) : readCell bus (some b) = .ok b := rfl

@[simp] theorem readCell_none {ε : Type} (bus : ε) : readCell bus none = .error bus := rfl

/-- Off the devices the engine reads memory (R83). -/
theorem engineRead_memory {s : State} {a : Nat} (h : s.plat.isDevice a = false) : s.engineRead a = s.mem.read a := by
  rw [State.engineRead, h]
  rfl

theorem cell_of_memOk {s : State} {a : Nat} (h : s.plat.memOk a = true) : s.cell a = some (s.engineRead a) := by
  rw [State.cell, if_pos h]

theorem cell_of_not_memOk {s : State} {a : Nat} (h : s.plat.memOk a = false) : s.cell a = none := by
  rw [State.cell, h]
  rfl

/-- Two states that agree on the parameters, on the bytes of a region and, where a device is in it, on the free values
find the same cells in it. -/
theorem cells_congr {s t : State} {r : Region} (hp : s.plat = t.plat)
    (hm : ∀ x, r.contains x = true → s.mem.read x = t.mem.read x)
    (hd : s.draws = t.draws ∨ s.plat.devices.any r.overlaps = false) : s.cells r = t.cells r := by
  refine List.map_congr_left fun i hi => ?_
  have hi : i < r.len := List.mem_range.mp hi
  have hc : r.contains (r.base + i) = true := by simp [Region.contains]; omega
  have hb : s.engineRead (r.base + i) = t.engineRead (r.base + i) := by
    unfold State.engineRead
    rw [← hp, hm _ hc]
    rcases hd with hd | hd
    · rw [hd]
    · have : s.plat.isDevice (r.base + i) = false := by
        rw [List.any_eq_false] at hd
        rw [Platform.isDevice, List.any_eq_false]
        intro d hmem hin
        refine hd d hmem ?_
        simp only [Region.contains, Region.overlaps, Bool.and_eq_true, decide_eq_true_eq] at hin ⊢
        omega
      rw [this]
      rfl
  unfold State.cell
  rw [← hp, hb]

/-- Reading a region whole succeeds exactly when every byte of it is MEM_OK. -/
theorem readAll_ok {ε : Type} {bus : ε} {cs : List SrcCell} {bs : List Byte} :
    readAll bus cs = .ok bs ↔ cs = bs.map some := by
  induction cs generalizing bs with
  | nil => cases bs <;> simp [readAll]
  | cons c cs ih =>
    cases c with
    | none => cases bs <;> simp [readAll, bind, Except.bind]
    | some b =>
      simp only [readAll, readCell_some, bind_ok, Except.ok.injEq]
      constructor
      · rintro ⟨b', rfl, l, h, rfl⟩
        simp [ih.mp h]
      · intro h
        cases bs with
        | nil => simp at h
        | cons b' l =>
          simp only [List.map_cons, List.cons.injEq, Option.some.injEq] at h
          exact ⟨b, rfl, l, ih.mpr h.2, by rw [h.1]⟩

theorem readAll_map_some {ε : Type} (bus : ε) (bs : List Byte) : readAll bus (bs.map some) = .ok bs :=
  readAll_ok.mpr rfl

/-- Reading a region whole fails exactly when some byte of it is not MEM_OK, with the bus error. -/
theorem readAll_error {ε : Type} {bus e : ε} {cs : List SrcCell} :
    readAll bus cs = .error e ↔ e = bus ∧ none ∈ cs := by
  induction cs with
  | nil => simp [readAll]
  | cons c cs ih =>
    cases c with
    | none => simp [readAll, bind, Except.bind, eq_comm]
    | some b => simp [readAll, bind_error, ih]

theorem source_eq_some {s : State} {bs : List Byte} : s.source = some bs ↔ s.srcCells = bs.map some := by
  unfold State.source
  cases h : readAll (ε := Unit) () s.srcCells with
  | ok l => simp [readAll_ok.mp h, List.map_inj_right]
  | error e =>
    have := (readAll_error.mp h).2
    simp only [reduceCtorEq, false_iff]
    intro he
    simp [he] at this

theorem codecName_eq_some {s : State} {bs : List Byte} :
    s.codecName = some bs ↔ s.cells s.latch.ops.codec = bs.map some := by
  unfold State.codecName
  cases h : readAll (ε := Unit) () (s.cells s.latch.ops.codec) with
  | ok l => simp [readAll_ok.mp h, List.map_inj_right]
  | error e =>
    have := (readAll_error.mp h).2
    simp only [reduceCtorEq, false_iff]
    intro he
    simp [he] at this

theorem source_length {s : State} {bs : List Byte} (h : s.source = some bs) :
    bs.length = s.latch.ops.srcLen.toNat := by
  rw [← srcCells_length s, source_eq_some.mp h, List.length_map]

/-! ## Sequential reads -/

@[simp] theorem inGet_some (b : Byte) (rest : List SrcCell) : inGet (some b :: rest) = .ok (b, rest) := rfl

@[simp] theorem inGet_none (rest : List SrcCell) : inGet (none :: rest) = .error .busError := rfl

@[simp] theorem inGet_nil : inGet [] = .error .srcUnderrun := rfl

@[simp] theorem inGet16_some (b0 b1 : Byte) (rest : List SrcCell) :
    inGet16 (some b0 :: some b1 :: rest) = .ok (rdBE16 b0 b1, rest) := rfl

@[simp] theorem inGet32_some (b0 b1 b2 b3 : Byte) (rest : List SrcCell) :
    inGet32 (some b0 :: some b1 :: some b2 :: some b3 :: rest) = .ok (rdBE32 b0 b1 b2 b3, rest) := rfl

/-- A successful 16-bit read takes two cells. -/
theorem inGet16_ok {src rest : List SrcCell} {v : Nat} (h : inGet16 src = .ok (v, rest)) :
    ∃ b0 b1, src = some b0 :: some b1 :: rest ∧ v = rdBE16 b0 b1 := by
  match src with
  | [] => cases h
  | [_] => cases h
  | none :: _ :: _ => cases h
  | some _ :: none :: _ => cases h
  | some b0 :: some b1 :: l => cases h; exact ⟨b0, b1, rfl, rfl⟩

/-! ## Header fields and scans (R323) -/

/-- An operand is not negative as an i32 exactly when its top bit is 0 (R323). -/
theorem nonNegative_iff {w : Word} : nonNegative w = true ↔ w.toNat < 2 ^ 31 := by
  have := w.isLt
  simp [nonNegative, asI32, BitVec.toInt_eq_toNat_cond]
  omega

/-- A scan reads a nonzero byte and goes on. -/
theorem noZero_cons_some {b : Byte} {rest : List SrcCell} (h : b ≠ 0) : noZero (some b :: rest) = noZero rest := by
  rw [noZero, readCell_some]
  show (check (decide (b ≠ 0)) Err.headerInvalid >>= fun _ => noZero rest) = _
  rw [decide_eq_true h]
  rfl

/-- A scan for 0x00 passes over bytes that are readable and not 0x00 (R323). -/
theorem noZero_skip {bs : List Byte} {rest : List SrcCell} (h : (0 : Byte) ∉ bs) :
    noZero (bs.map some ++ rest) = noZero rest := by
  induction bs with
  | nil => rfl
  | cons b bs ih =>
    obtain ⟨hb, hbs⟩ : (0 : Byte) ≠ b ∧ (0 : Byte) ∉ bs := by simpa [List.mem_cons] using h
    rw [List.map_cons, List.cons_append, noZero_cons_some (Ne.symm hb), ih hbs]

/-- Two scans one after the other are the scan of both (R323: the name, then the codec name). -/
theorem noZero_append (a b : List SrcCell) : noZero (a ++ b) = noZero a >>= fun _ => noZero b := by
  induction a with
  | nil => rfl
  | cons c a ih =>
    cases c with
    | none => rfl
    | some x =>
      by_cases hx : x = 0
      · subst hx
        rfl
      · rw [List.cons_append, noZero_cons_some hx, noZero_cons_some hx, ih]

/-! ## Big-endian fields (R12, R81) -/

theorem rdBE16_be16 {v : Nat} (h : v < 65536) :
    rdBE16 (BitVec.ofNat 8 (v / 256)) (BitVec.ofNat 8 v) = v := by
  simp only [rdBE16, BitVec.toNat_ofNat]
  omega

theorem be16_length (v : Nat) : (be16 v).length = 2 := rfl

theorem be32_length (v : Word) : (be32 v).length = 4 := rfl

theorem rdBE32_be32 (v : Word) :
    rdBE32 (v.extractLsb' 24 8) (v.extractLsb' 16 8) (v.extractLsb' 8 8) (v.extractLsb' 0 8) = v := by
  unfold rdBE32
  ext i hi
  simp only [BitVec.getElem_append, BitVec.getElem_extractLsb']
  split
  · rw [BitVec.getLsbD_eq_getElem (by omega)]; congr 1; omega
  · split
    · rw [BitVec.getLsbD_eq_getElem (by omega)]; congr 1; omega
    · split
      · rw [BitVec.getLsbD_eq_getElem (by omega)]; congr 1; omega
      · rw [BitVec.getLsbD_eq_getElem (by omega)]; congr 1; omega

end Sys2Proof.Machine
end

