-- ==== Sys2Proof/Laws/Sink.lean ====
section
/-! SUPPORT. The destination side: what an append does when it succeeds and when it fails, for one append, for a list
of appends and for the back-reference copy (20_memory R96 to R101). -/

namespace Sys2Proof.Machine

namespace Sink

/-- The output with more bytes at its end. -/
def extend (k : Sink) (bs : List Byte) : Sink :=
  { k with outlen := k.outlen + bs.length, rev := bs.reverse ++ k.rev }

@[simp] theorem extend_plat (k : Sink) (bs : List Byte) : (k.extend bs).plat = k.plat := rfl
@[simp] theorem extend_base (k : Sink) (bs : List Byte) : (k.extend bs).base = k.base := rfl
@[simp] theorem extend_draws (k : Sink) (bs : List Byte) : (k.extend bs).draws = k.draws := rfl
@[simp] theorem extend_cap (k : Sink) (bs : List Byte) : (k.extend bs).cap = k.cap := rfl
@[simp] theorem extend_outlen (k : Sink) (bs : List Byte) : (k.extend bs).outlen = k.outlen + bs.length := rfl
@[simp] theorem extend_bytes (k : Sink) (bs : List Byte) : (k.extend bs).bytes = k.bytes ++ bs := by
  simp [extend, bytes]
@[simp] theorem extend_nil (k : Sink) : k.extend [] = k := by simp [extend]
@[simp] theorem extend_extend (k : Sink) (bs cs : List Byte) : (k.extend bs).extend cs = k.extend (bs ++ cs) := by
  simp [extend, Nat.add_assoc]

@[simp] theorem start_plat (s : State) : (Sink.start s).plat = s.plat := rfl
@[simp] theorem start_draws (s : State) : (Sink.start s).draws = s.draws := rfl
@[simp] theorem start_base (s : State) : (Sink.start s).base = s.latch.ops.dstAddr.toNat := rfl
@[simp] theorem start_cap (s : State) : (Sink.start s).cap = s.latch.ops.dstCap.toNat := rfl
@[simp] theorem start_outlen (s : State) : (Sink.start s).outlen = 0 := rfl
@[simp] theorem start_bytes (s : State) : (Sink.start s).bytes = [] := rfl

/-- The room and the backing for `n` more bytes. -/
def roomFor (k : Sink) (n : Nat) : Bool := decide (k.outlen + n ≤ k.cap) && k.writable n

theorem writable_iff (k : Sink) (n : Nat) :
    k.writable n = true ↔ ∀ i, i < n → k.plat.memOk (k.base + k.outlen + i) = true := by
  simp [writable]

theorem writable_add (k : Sink) (bs : List Byte) (n : Nat) :
    k.writable (bs.length + n) = true ↔ k.writable bs.length = true ∧ (k.extend bs).writable n = true := by
  simp only [writable_iff, extend_plat, extend_base, extend_outlen]
  constructor
  · intro h
    refine ⟨fun i hi => h i (by omega), fun i hi => ?_⟩
    have := h (bs.length + i) (by omega)
    rwa [show k.base + (k.outlen + bs.length) + i = k.base + k.outlen + (bs.length + i) by omega]
  · rintro ⟨h1, h2⟩ i hi
    by_cases hb : i < bs.length
    · exact h1 i hb
    · have := h2 (i - bs.length) (by omega)
      rwa [show k.base + (k.outlen + bs.length) + (i - bs.length) = k.base + k.outlen + i by omega] at this

theorem writable_of_le {k : Sink} {m n : Nat} (h : k.writable n = true) (hm : m ≤ n) : k.writable m = true := by
  rw [writable_iff] at *
  exact fun i hi => h i (by omega)

/-- An append succeeds exactly with room and backing, and adds its bytes. -/
theorem putBytes_ok {k k' : Sink} {bs : List Byte} : k.putBytes bs = .ok k' ↔
    k.outlen + bs.length ≤ k.cap ∧ k.writable bs.length = true ∧ k' = k.extend bs := by
  simp only [putBytes, bind_ok, check_ok, decide_eq_true_eq, Except.ok.injEq]
  constructor
  · rintro ⟨_, h1, _, h2, rfl⟩
    exact ⟨h1, h2, rfl⟩
  · rintro ⟨h1, h2, rfl⟩
    exact ⟨(), h1, (), h2, rfl⟩

/-- An append fails with DST_OVERFLOW without room, and with BUS_ERROR with room but without backing. -/
theorem putBytes_error {k : Sink} {bs : List Byte} {c : Cause} : k.putBytes bs = .error c ↔
    (k.cap < k.outlen + bs.length ∧ c = .dstOverflow) ∨
      (k.outlen + bs.length ≤ k.cap ∧ k.writable bs.length = false ∧ c = .busError) := by
  simp [putBytes, bind_error, check_error, check_ok]

/-- A list of appends that succeeds adds all its bytes; it had room and backing for them. -/
theorem putChunks_ok {cs : List (List Byte)} {k k' : Sink} (h : putChunks cs k = .ok k') :
    k' = k.extend cs.flatten ∧ k.writable cs.flatten.length = true ∧
      (k.outlen ≤ k.cap → k.outlen + cs.flatten.length ≤ k.cap) := by
  induction cs generalizing k with
  | nil =>
    cases h
    simp [writable]
  | cons c cs ih =>
    simp only [putChunks, bind_ok] at h
    obtain ⟨k1, h1, h2⟩ := h
    obtain ⟨hr, hw, rfl⟩ := putBytes_ok.mp h1
    obtain ⟨h3, h4, h5⟩ := ih h2
    refine ⟨by simp [h3], ?_, fun _ => ?_⟩
    · rw [List.flatten_cons, List.length_append]
      exact (writable_add k c _).mpr ⟨hw, h4⟩
    · have := h5 (by simpa using hr)
      simp only [extend_outlen, extend_cap, List.flatten_cons, List.length_append] at this ⊢
      omega

/-- With room and backing for all the bytes, a list of appends succeeds. -/
theorem putChunks_of_room {cs : List (List Byte)} {k : Sink} (hr : k.outlen + cs.flatten.length ≤ k.cap)
    (hw : k.writable cs.flatten.length = true) : putChunks cs k = .ok (k.extend cs.flatten) := by
  induction cs generalizing k with
  | nil => simp [putChunks]
  | cons c cs ih =>
    rw [List.flatten_cons, List.length_append] at hr hw
    obtain ⟨hw1, hw2⟩ := (writable_add k c _).mp hw
    have h1 : k.putBytes c = .ok (k.extend c) := putBytes_ok.mpr ⟨by omega, hw1, rfl⟩
    have h2 := ih (k := k.extend c) (by simp only [extend_outlen, extend_cap]; omega) hw2
    simp only [putChunks, bind_ok]
    exact ⟨_, h1, by rw [h2, extend_extend, List.flatten_cons]⟩

/-- A list of appends fails only with DST_OVERFLOW or BUS_ERROR. -/
theorem putChunks_error {cs : List (List Byte)} {k : Sink} {c : Cause} (h : putChunks cs k = .error c) :
    c = .dstOverflow ∨ c = .busError := by
  induction cs generalizing k with
  | nil => cases h
  | cons b cs ih =>
    simp only [putChunks, bind_error] at h
    rcases h with h | ⟨k1, -, h⟩
    · rcases putBytes_error.mp h with ⟨-, rfl⟩ | ⟨-, -, rfl⟩ <;> simp
    · exact ih h

/-- A byte-by-byte append succeeds exactly with room and backing, and adds its bytes (R96). -/
theorem putEach_ok {k k' : Sink} {bs : List Byte} : k.putEach bs = .ok k' ↔
    k.outlen + bs.length ≤ k.cap ∧ k.writable bs.length = true ∧ k' = k.extend bs := by
  simp only [putEach, bind_ok, check_ok, putBytes_ok]
  constructor
  · rintro ⟨_, -, h⟩
    exact h
  · rintro ⟨h1, h2, h3⟩
    exact ⟨(), writable_of_le h2 (Nat.min_le_left _ _), h1, h2, h3⟩

/-- A byte-by-byte append fails with BUS_ERROR at a byte with room but without backing, and with DST_OVERFLOW where every
byte with room has backing and one has no room (R96). -/
theorem putEach_error {k : Sink} {bs : List Byte} {c : Cause} : k.putEach bs = .error c ↔
    (k.writable (min bs.length (k.cap - k.outlen)) = false ∧ c = .busError) ∨
      (k.writable (min bs.length (k.cap - k.outlen)) = true ∧ k.cap < k.outlen + bs.length ∧ c = .dstOverflow) := by
  simp only [putEach, bind_error, check_error, check_ok, putBytes_error]
  constructor
  · rintro (h | ⟨_, h1, ⟨h2, h3⟩ | ⟨h2, h3, -⟩⟩)
    · exact .inl h
    · exact .inr ⟨h1, h2, h3⟩
    · rw [Nat.min_eq_left (by omega), h3] at h1
      cases h1
  · rintro (h | ⟨h1, h2, h3⟩)
    · exact .inl h
    · exact .inr ⟨(), h1, .inl ⟨h2, h3⟩⟩

/-- The byte `p` of the output, counted from its first byte (R100), where it is no device's. -/
theorem outAt_eq {k : Sink} {p : Nat} (hlen : k.rev.length = k.outlen) (h : p < k.outlen)
    (hd : k.plat.isDevice (k.base + p) = false) : k.outAt p = k.bytes.getD p 0 := by
  simp only [outAt, hd, bytes, List.getD_eq_getElem?_getD]
  rw [List.getElem?_reverse (by omega), hlen]
  rfl

/-- The bytes of a back-reference copy, one after the other (R101). -/
def copyBytes (off : Nat) : Nat → List Byte → List Byte
  | 0, _ => []
  | n + 1, out =>
    let b := out.getD (out.length - off) 0
    b :: copyBytes off n (out ++ [b])

theorem copyBytes_length (off n : Nat) (out : List Byte) : (copyBytes off n out).length = n := by
  induction n generalizing out with
  | zero => rfl
  | succ n ih => simp [copyBytes, ih]

theorem extend_rev_length {k : Sink} (h : k.rev.length = k.outlen) (bs : List Byte) :
    (k.extend bs).rev.length = (k.extend bs).outlen := by
  simp [extend, h, Nat.add_comm]

/-- The bytes a back-reference copy appends to an output, as its read-back finds them (R100, R101). -/
def copied (off : Nat) : Nat → Sink → List Byte
  | 0, _ => []
  | n + 1, k => k.outAt (k.outlen - off) :: copied off n (k.extend [k.outAt (k.outlen - off)])

theorem copied_length (off n : Nat) (k : Sink) : (copied off n k).length = n := by
  induction n generalizing k with
  | zero => rfl
  | succ n ih => simp [copied, ih]

/-- A back-reference copy with room and backing appends the copied bytes (R101), on a device too. -/
theorem copyBack_of_room {off n : Nat} {k : Sink} (hr : k.outlen + n ≤ k.cap) (hw : k.writable n = true) :
    copyBack off n k = .ok (k.extend (copied off n k)) := by
  induction n generalizing k with
  | zero => simp [copyBack, copied]
  | succ n ih =>
    simp only [copyBack, copied, bind_ok, put]
    generalize k.outAt (k.outlen - off) = b
    have hw' := (writable_add k [b] n).mp (by rwa [List.length_singleton, Nat.add_comm])
    refine ⟨k.extend [b], putBytes_ok.mpr ⟨by simp; omega, hw'.1, rfl⟩, ?_⟩
    rw [ih (by simp; omega) hw'.2]
    simp

/-- On ordinary memory the copied bytes are the output's own (R101). -/
theorem copied_eq_copyBytes {off n : Nat} {k : Sink} (hlen : k.rev.length = k.outlen) (h1 : 1 ≤ off)
    (h2 : off ≤ k.outlen) (hd : ∀ p, p < k.outlen + n → k.plat.isDevice (k.base + p) = false) :
    copied off n k = copyBytes off n k.bytes := by
  induction n generalizing k with
  | zero => rfl
  | succ n ih =>
    have hb : k.bytes.length = k.outlen := by simp [bytes, hlen]
    have hat : k.outAt (k.outlen - off) = k.bytes.getD (k.bytes.length - off) 0 := by
      rw [outAt_eq hlen (by omega) (hd _ (by omega)), hb]
    simp only [copied, copyBytes, hat]
    generalize k.bytes.getD (k.bytes.length - off) 0 = b
    rw [ih (extend_rev_length hlen [b]) (by simp; omega) fun p hp => hd p (by simp at hp; omega)]
    simp

/-- A back-reference copy fails only with DST_OVERFLOW or BUS_ERROR. -/
theorem copyBack_error {off n : Nat} {k : Sink} {c : Cause} (h : copyBack off n k = .error c) :
    c = .dstOverflow ∨ c = .busError := by
  induction n generalizing k with
  | zero => cases h
  | succ n ih =>
    simp only [copyBack, bind_error] at h
    rcases h with h | ⟨k1, -, h⟩
    · rcases putBytes_error.mp h with ⟨-, rfl⟩ | ⟨-, -, rfl⟩ <;> simp
    · exact ih h

end Sink

theorem room_iff {s : State} {n : Nat} :
    s.room n = true ↔ n ≤ s.latch.ops.dstCap.toNat ∧ (Sink.start s).writable n = true := by
  simp [State.room]

/-- An empty output has room for what `room` says. -/
theorem putBytes_start {s : State} {bs : List Byte} (h : s.room bs.length = true) :
    (Sink.start s).putBytes bs = .ok ((Sink.start s).extend bs) := by
  obtain ⟨h1, h2⟩ := room_iff.mp h
  exact Sink.putBytes_ok.mpr ⟨by simpa using h1, h2, rfl⟩

theorem putChunks_start {s : State} {cs : List (List Byte)} (h : s.room cs.flatten.length = true) :
    Sink.putChunks cs (Sink.start s) = .ok ((Sink.start s).extend cs.flatten) := by
  obtain ⟨h1, h2⟩ := room_iff.mp h
  exact Sink.putChunks_of_room (by simpa using h1) h2

/-- On an ordinary destination no byte of the output is a device's (R83). -/
theorem isDevice_of_dstOrdinary {s : State} {p : Nat} (h : s.dstOrdinary = true)
    (hp : p < s.latch.ops.dstCap.toNat) : s.plat.isDevice (s.latch.ops.dstAddr.toNat + p) = false := by
  rw [Platform.isDevice, List.any_eq_false]
  intro d hd hc
  rw [State.dstOrdinary, Bool.not_eq_true', List.any_eq_false] at h
  exact h d hd ((Region.overlaps_iff_shared _ _).mpr ⟨_, (Region.contains_iff _ _).mpr ⟨Nat.le_add_right _ _,
    Nat.add_lt_add_left hp _⟩, hc⟩)

end Sys2Proof.Machine
end

