-- ==== Sys2Proof/Laws/State.lean ====
section
/-! SUPPORT. One lemma per field per state update, so that no proof unfolds a record update: the updates of reset,
command start, completion, error completion, draws, acknowledgement, host accesses and turns. -/

namespace Sys2Proof.Machine.State

/-! ## resetRegs (R70) -/

@[simp] theorem resetRegs_plat (s : State) : (s.resetRegs).plat = s.plat := rfl
@[simp] theorem resetRegs_mem (s : State) : (s.resetRegs).mem = s.mem := rfl
@[simp] theorem resetRegs_ie (s : State) : (s.resetRegs).ie = false := rfl
@[simp] theorem resetRegs_seq (s : State) : (s.resetRegs).seq = .idle := rfl
@[simp] theorem resetRegs_status (s : State) : (s.resetRegs).status = .zero := rfl
@[simp] theorem resetRegs_cmd (s : State) : (s.resetRegs).cmd = 0 := rfl
@[simp] theorem resetRegs_ops (s : State) : (s.resetRegs).ops = .zero := rfl
@[simp] theorem resetRegs_res (s : State) : (s.resetRegs).res = .zero := rfl
@[simp] theorem resetRegs_latch (s : State) : (s.resetRegs).latch = ⟨0, .zero⟩ := rfl
@[simp] theorem resetRegs_work (s : State) : (s.resetRegs).work = .initial := rfl
@[simp] theorem resetRegs_raced (s : State) : (s.resetRegs).raced = false := rfl
@[simp] theorem resetRegs_draws (s : State) : (s.resetRegs).draws = s.draws := rfl
@[simp] theorem resetRegs_host (s : State) : (s.resetRegs).host = s.host := rfl
@[simp] theorem resetRegs_sched (s : State) : (s.resetRegs).sched = s.sched := rfl
@[simp] theorem resetRegs_rdWord (s : State) : (s.resetRegs).rdWord = s.rdWord := rfl
@[simp] theorem resetRegs_rdBytes (s : State) : (s.resetRegs).rdBytes = s.rdBytes := rfl
@[simp] theorem resetRegs_checksHold (s : State) : (s.resetRegs).checksHold = s.checksHold := rfl

/-! ## startCommand (R150) -/

@[simp] theorem startCommand_plat (s : State) (w : Word) : (s.startCommand w).plat = s.plat := rfl
@[simp] theorem startCommand_mem (s : State) (w : Word) : (s.startCommand w).mem = s.mem := rfl
@[simp] theorem startCommand_ie (s : State) (w : Word) : (s.startCommand w).ie = s.ie := rfl
@[simp] theorem startCommand_seq (s : State) (w : Word) : (s.startCommand w).seq = .busy := rfl
@[simp] theorem startCommand_status (s : State) (w : Word) : (s.startCommand w).status = s.status.start := rfl
@[simp] theorem startCommand_cmd (s : State) (w : Word) : (s.startCommand w).cmd = w := rfl
@[simp] theorem startCommand_ops (s : State) (w : Word) : (s.startCommand w).ops = s.ops := rfl
@[simp] theorem startCommand_res (s : State) (w : Word) : (s.startCommand w).res = .zero := rfl
@[simp] theorem startCommand_latch (s : State) (w : Word) : (s.startCommand w).latch = ⟨w, s.ops⟩ := rfl
@[simp] theorem startCommand_work (s : State) (w : Word) : (s.startCommand w).work = .initial := rfl
@[simp] theorem startCommand_raced (s : State) (w : Word) : (s.startCommand w).raced = false := rfl
@[simp] theorem startCommand_draws (s : State) (w : Word) : (s.startCommand w).draws = s.draws := rfl
@[simp] theorem startCommand_host (s : State) (w : Word) : (s.startCommand w).host = s.host := rfl
@[simp] theorem startCommand_sched (s : State) (w : Word) : (s.startCommand w).sched = s.sched := rfl
@[simp] theorem startCommand_rdWord (s : State) (w : Word) : (s.startCommand w).rdWord = s.rdWord := rfl
@[simp] theorem startCommand_rdBytes (s : State) (w : Word) : (s.startCommand w).rdBytes = s.rdBytes := rfl
@[simp] theorem startCommand_checksHold (s : State) (w : Word) : (s.startCommand w).checksHold = s.checksHold := rfl

/-! ## complete (R155) -/

@[simp] theorem complete_plat (s : State) (d : Finish) : (s.complete d).plat = s.plat := rfl
@[simp] theorem complete_mem (s : State) (d : Finish) : (s.complete d).mem = s.mem.write d.addr d.bytes := rfl
@[simp] theorem complete_ie (s : State) (d : Finish) : (s.complete d).ie = s.ie := rfl
@[simp] theorem complete_seq (s : State) (d : Finish) : (s.complete d).seq = .idle := rfl
@[simp] theorem complete_status (s : State) (d : Finish) : (s.complete d).status = s.status.completeOk := rfl
@[simp] theorem complete_cmd (s : State) (d : Finish) : (s.complete d).cmd = s.cmd := rfl
@[simp] theorem complete_ops (s : State) (d : Finish) : (s.complete d).ops = s.ops := rfl
@[simp] theorem complete_res (s : State) (d : Finish) : (s.complete d).res = d.results := rfl
@[simp] theorem complete_latch (s : State) (d : Finish) : (s.complete d).latch = s.latch := rfl
@[simp] theorem complete_work (s : State) (d : Finish) : (s.complete d).work = d.work := rfl
@[simp] theorem complete_raced (s : State) (d : Finish) : (s.complete d).raced = false := rfl
@[simp] theorem complete_draws (s : State) (d : Finish) : (s.complete d).draws = s.draws + 1 := rfl
@[simp] theorem complete_host (s : State) (d : Finish) : (s.complete d).host = s.host := rfl
@[simp] theorem complete_sched (s : State) (d : Finish) : (s.complete d).sched = s.sched := rfl
@[simp] theorem complete_rdWord (s : State) (d : Finish) : (s.complete d).rdWord = s.rdWord := rfl
@[simp] theorem complete_rdBytes (s : State) (d : Finish) : (s.complete d).rdBytes = s.rdBytes := rfl
@[simp] theorem complete_checksHold (s : State) (d : Finish) : (s.complete d).checksHold = s.checksHold := rfl

/-! ## drawRegion (R156) -/

@[simp] theorem drawRegion_plat (s : State) (r : Region) : (s.drawRegion r).plat = s.plat := rfl
@[simp] theorem drawRegion_mem (s : State) (r : Region) :
    (s.drawRegion r).mem = s.mem.write r.clip.base
      ((List.range r.clip.len).map fun i => Config.freeByte s.draws (r.clip.base + i)) := rfl
@[simp] theorem drawRegion_ie (s : State) (r : Region) : (s.drawRegion r).ie = s.ie := rfl
@[simp] theorem drawRegion_seq (s : State) (r : Region) : (s.drawRegion r).seq = s.seq := rfl
@[simp] theorem drawRegion_status (s : State) (r : Region) : (s.drawRegion r).status = s.status := rfl
@[simp] theorem drawRegion_cmd (s : State) (r : Region) : (s.drawRegion r).cmd = s.cmd := rfl
@[simp] theorem drawRegion_ops (s : State) (r : Region) : (s.drawRegion r).ops = s.ops := rfl
@[simp] theorem drawRegion_res (s : State) (r : Region) : (s.drawRegion r).res = s.res := rfl
@[simp] theorem drawRegion_latch (s : State) (r : Region) : (s.drawRegion r).latch = s.latch := rfl
@[simp] theorem drawRegion_work (s : State) (r : Region) : (s.drawRegion r).work = s.work := rfl
@[simp] theorem drawRegion_raced (s : State) (r : Region) : (s.drawRegion r).raced = s.raced := rfl
@[simp] theorem drawRegion_draws (s : State) (r : Region) : (s.drawRegion r).draws = s.draws + 1 := rfl
@[simp] theorem drawRegion_host (s : State) (r : Region) : (s.drawRegion r).host = s.host := rfl
@[simp] theorem drawRegion_sched (s : State) (r : Region) : (s.drawRegion r).sched = s.sched := rfl
@[simp] theorem drawRegion_rdWord (s : State) (r : Region) : (s.drawRegion r).rdWord = s.rdWord := rfl
@[simp] theorem drawRegion_rdBytes (s : State) (r : Region) : (s.drawRegion r).rdBytes = s.rdBytes := rfl
@[simp] theorem drawRegion_checksHold (s : State) (r : Region) : (s.drawRegion r).checksHold = s.checksHold := rfl

/-! ## raiseError (R355) -/

@[simp] theorem raiseError_plat (s : State) (e : Err) (dst : Region) :
    (s.raiseError e dst).plat = s.plat := by
  unfold raiseError; split <;> rfl
@[simp] theorem raiseError_mem (s : State) (e : Err) (dst : Region) :
    (s.raiseError e dst).mem = if e.beforeAccess then s.mem else (s.drawRegion dst).mem := by
  unfold raiseError; split <;> rfl
@[simp] theorem raiseError_ie (s : State) (e : Err) (dst : Region) :
    (s.raiseError e dst).ie = s.ie := by
  unfold raiseError; split <;> rfl
@[simp] theorem raiseError_seq (s : State) (e : Err) (dst : Region) : (s.raiseError e dst).seq = .idle := rfl
@[simp] theorem raiseError_status (s : State) (e : Err) (dst : Region) :
    (s.raiseError e dst).status = s.status.completeErr e := by
  unfold raiseError; split <;> rfl
@[simp] theorem raiseError_cmd (s : State) (e : Err) (dst : Region) :
    (s.raiseError e dst).cmd = s.cmd := by
  unfold raiseError; split <;> rfl
@[simp] theorem raiseError_ops (s : State) (e : Err) (dst : Region) :
    (s.raiseError e dst).ops = s.ops := by
  unfold raiseError; split <;> rfl
@[simp] theorem raiseError_res (s : State) (e : Err) (dst : Region) : (s.raiseError e dst).res = .zero := rfl
@[simp] theorem raiseError_latch (s : State) (e : Err) (dst : Region) :
    (s.raiseError e dst).latch = s.latch := by
  unfold raiseError; split <;> rfl
@[simp] theorem raiseError_work (s : State) (e : Err) (dst : Region) :
    (s.raiseError e dst).work = s.work := by
  unfold raiseError; split <;> rfl
@[simp] theorem raiseError_raced (s : State) (e : Err) (dst : Region) : (s.raiseError e dst).raced = false := rfl
@[simp] theorem raiseError_draws (s : State) (e : Err) (dst : Region) :
    (s.raiseError e dst).draws = if e.beforeAccess then s.draws else s.draws + 1 := by
  unfold raiseError; split <;> rfl
@[simp] theorem raiseError_host (s : State) (e : Err) (dst : Region) :
    (s.raiseError e dst).host = s.host := by
  unfold raiseError; split <;> rfl
@[simp] theorem raiseError_sched (s : State) (e : Err) (dst : Region) :
    (s.raiseError e dst).sched = s.sched := by
  unfold raiseError; split <;> rfl
@[simp] theorem raiseError_rdWord (s : State) (e : Err) (dst : Region) :
    (s.raiseError e dst).rdWord = s.rdWord := by
  unfold raiseError; split <;> rfl
@[simp] theorem raiseError_rdBytes (s : State) (e : Err) (dst : Region) :
    (s.raiseError e dst).rdBytes = s.rdBytes := by
  unfold raiseError; split <;> rfl
@[simp] theorem raiseError_checksHold (s : State) (e : Err) (dst : Region) :
    (s.raiseError e dst).checksHold = s.checksHold := by
  unfold raiseError; split <;> rfl

/-! ## acknowledge (R366) -/

@[simp] theorem acknowledge_plat (s : State) (w : Word) : (s.acknowledge w).plat = s.plat := rfl
@[simp] theorem acknowledge_mem (s : State) (w : Word) : (s.acknowledge w).mem = s.mem := rfl
@[simp] theorem acknowledge_ie (s : State) (w : Word) : (s.acknowledge w).ie = s.ie := rfl
@[simp] theorem acknowledge_seq (s : State) (w : Word) : (s.acknowledge w).seq = s.seq := rfl
@[simp] theorem acknowledge_status (s : State) (w : Word) : (s.acknowledge w).status = s.status.w1c w := rfl
@[simp] theorem acknowledge_cmd (s : State) (w : Word) : (s.acknowledge w).cmd = s.cmd := rfl
@[simp] theorem acknowledge_ops (s : State) (w : Word) : (s.acknowledge w).ops = s.ops := rfl
@[simp] theorem acknowledge_res (s : State) (w : Word) : (s.acknowledge w).res = s.res := rfl
@[simp] theorem acknowledge_latch (s : State) (w : Word) : (s.acknowledge w).latch = s.latch := rfl
@[simp] theorem acknowledge_work (s : State) (w : Word) : (s.acknowledge w).work = s.work := rfl
@[simp] theorem acknowledge_raced (s : State) (w : Word) : (s.acknowledge w).raced = s.raced := rfl
@[simp] theorem acknowledge_draws (s : State) (w : Word) : (s.acknowledge w).draws = s.draws := rfl
@[simp] theorem acknowledge_host (s : State) (w : Word) : (s.acknowledge w).host = s.host := rfl
@[simp] theorem acknowledge_sched (s : State) (w : Word) : (s.acknowledge w).sched = s.sched := rfl
@[simp] theorem acknowledge_rdWord (s : State) (w : Word) : (s.acknowledge w).rdWord = s.rdWord := rfl
@[simp] theorem acknowledge_rdBytes (s : State) (w : Word) : (s.acknowledge w).rdBytes = s.rdBytes := rfl
@[simp] theorem acknowledge_checksHold (s : State) (w : Word) : (s.acknowledge w).checksHold = s.checksHold := rfl

/-! ## drawOutcome (R108) -/

@[simp] theorem drawOutcome_plat (s : State) (dst : Region) : (s.drawOutcome dst).plat = s.plat := rfl
@[simp] theorem drawOutcome_mem (s : State) (dst : Region) : (s.drawOutcome dst).mem = (s.drawRegion dst).mem := rfl
@[simp] theorem drawOutcome_ie (s : State) (dst : Region) : (s.drawOutcome dst).ie = s.ie := rfl
@[simp] theorem drawOutcome_seq (s : State) (dst : Region) : (s.drawOutcome dst).seq = .idle := rfl
@[simp] theorem drawOutcome_status (s : State) (dst : Region) :
    (s.drawOutcome dst).status = match Config.freeErr s.draws with
      | none => s.status.completeOk
      | some e => s.status.completeErr e := rfl
@[simp] theorem drawOutcome_cmd (s : State) (dst : Region) : (s.drawOutcome dst).cmd = s.cmd := rfl
@[simp] theorem drawOutcome_ops (s : State) (dst : Region) : (s.drawOutcome dst).ops = s.ops := rfl
@[simp] theorem drawOutcome_res (s : State) (dst : Region) :
    (s.drawOutcome dst).res = ⟨Config.freeWord s.draws 0, Config.freeWord s.draws 1, Config.freeWord s.draws 2,
      Config.freeWord s.draws 3, Config.freeWord s.draws 4, Config.freeWord s.draws 5, Config.freeWord s.draws 6,
      Config.freeWord s.draws 7⟩ := rfl
@[simp] theorem drawOutcome_latch (s : State) (dst : Region) : (s.drawOutcome dst).latch = s.latch := rfl
@[simp] theorem drawOutcome_work (s : State) (dst : Region) : (s.drawOutcome dst).work = s.work := rfl
@[simp] theorem drawOutcome_raced (s : State) (dst : Region) : (s.drawOutcome dst).raced = false := rfl
@[simp] theorem drawOutcome_draws (s : State) (dst : Region) : (s.drawOutcome dst).draws = s.draws + 1 := rfl
@[simp] theorem drawOutcome_host (s : State) (dst : Region) : (s.drawOutcome dst).host = s.host := rfl
@[simp] theorem drawOutcome_sched (s : State) (dst : Region) : (s.drawOutcome dst).sched = s.sched := rfl
@[simp] theorem drawOutcome_rdWord (s : State) (dst : Region) : (s.drawOutcome dst).rdWord = s.rdWord := rfl
@[simp] theorem drawOutcome_rdBytes (s : State) (dst : Region) : (s.drawOutcome dst).rdBytes = s.rdBytes := rfl
@[simp] theorem drawOutcome_checksHold (s : State) (dst : Region) : (s.drawOutcome dst).checksHold = s.checksHold := rfl

/-! ## popSched -/

@[simp] theorem popSched_plat (s : State) : (s.popSched).plat = s.plat := rfl
@[simp] theorem popSched_mem (s : State) : (s.popSched).mem = s.mem := rfl
@[simp] theorem popSched_ie (s : State) : (s.popSched).ie = s.ie := rfl
@[simp] theorem popSched_seq (s : State) : (s.popSched).seq = s.seq := rfl
@[simp] theorem popSched_status (s : State) : (s.popSched).status = s.status := rfl
@[simp] theorem popSched_cmd (s : State) : (s.popSched).cmd = s.cmd := rfl
@[simp] theorem popSched_ops (s : State) : (s.popSched).ops = s.ops := rfl
@[simp] theorem popSched_res (s : State) : (s.popSched).res = s.res := rfl
@[simp] theorem popSched_latch (s : State) : (s.popSched).latch = s.latch := rfl
@[simp] theorem popSched_work (s : State) : (s.popSched).work = s.work := rfl
@[simp] theorem popSched_raced (s : State) : (s.popSched).raced = s.raced := rfl
@[simp] theorem popSched_draws (s : State) : (s.popSched).draws = s.draws := rfl
@[simp] theorem popSched_host (s : State) : (s.popSched).host = s.host := rfl
@[simp] theorem popSched_sched (s : State) : (s.popSched).sched = s.sched.tail := rfl
@[simp] theorem popSched_rdWord (s : State) : (s.popSched).rdWord = s.rdWord := rfl
@[simp] theorem popSched_rdBytes (s : State) : (s.popSched).rdBytes = s.rdBytes := rfl
@[simp] theorem popSched_checksHold (s : State) : (s.popSched).checksHold = s.checksHold := rfl

/-! ## writeMem (R108) -/

@[simp] theorem writeMem_plat (s : State) (a : Nat) (bs : List Byte) : (s.writeMem a bs).plat = s.plat := rfl
@[simp] theorem writeMem_mem (s : State) (a : Nat) (bs : List Byte) : (s.writeMem a bs).mem = s.mem.write a bs := rfl
@[simp] theorem writeMem_ie (s : State) (a : Nat) (bs : List Byte) : (s.writeMem a bs).ie = s.ie := rfl
@[simp] theorem writeMem_seq (s : State) (a : Nat) (bs : List Byte) : (s.writeMem a bs).seq = s.seq := rfl
@[simp] theorem writeMem_status (s : State) (a : Nat) (bs : List Byte) : (s.writeMem a bs).status = s.status := rfl
@[simp] theorem writeMem_cmd (s : State) (a : Nat) (bs : List Byte) : (s.writeMem a bs).cmd = s.cmd := rfl
@[simp] theorem writeMem_ops (s : State) (a : Nat) (bs : List Byte) : (s.writeMem a bs).ops = s.ops := rfl
@[simp] theorem writeMem_res (s : State) (a : Nat) (bs : List Byte) : (s.writeMem a bs).res = s.res := rfl
@[simp] theorem writeMem_latch (s : State) (a : Nat) (bs : List Byte) : (s.writeMem a bs).latch = s.latch := rfl
@[simp] theorem writeMem_work (s : State) (a : Nat) (bs : List Byte) : (s.writeMem a bs).work = s.work := rfl
@[simp] theorem writeMem_raced (s : State) (a : Nat) (bs : List Byte) :
    (s.writeMem a bs).raced = (s.raced || s.racesWith ⟨a, bs.length⟩) := rfl
@[simp] theorem writeMem_draws (s : State) (a : Nat) (bs : List Byte) : (s.writeMem a bs).draws = s.draws := rfl
@[simp] theorem writeMem_host (s : State) (a : Nat) (bs : List Byte) : (s.writeMem a bs).host = s.host := rfl
@[simp] theorem writeMem_sched (s : State) (a : Nat) (bs : List Byte) : (s.writeMem a bs).sched = s.sched := rfl
@[simp] theorem writeMem_rdWord (s : State) (a : Nat) (bs : List Byte) : (s.writeMem a bs).rdWord = s.rdWord := rfl
@[simp] theorem writeMem_rdBytes (s : State) (a : Nat) (bs : List Byte) : (s.writeMem a bs).rdBytes = s.rdBytes := rfl
@[simp] theorem writeMem_checksHold (s : State) (a : Nat) (bs : List Byte) : (s.writeMem a bs).checksHold = s.checksHold := rfl

/-! ## readMem (R108) -/

@[simp] theorem readMem_plat (s : State) (a n : Nat) : (s.readMem a n).plat = s.plat := rfl
@[simp] theorem readMem_mem (s : State) (a n : Nat) : (s.readMem a n).mem = s.mem := rfl
@[simp] theorem readMem_ie (s : State) (a n : Nat) : (s.readMem a n).ie = s.ie := rfl
@[simp] theorem readMem_seq (s : State) (a n : Nat) : (s.readMem a n).seq = s.seq := rfl
@[simp] theorem readMem_status (s : State) (a n : Nat) : (s.readMem a n).status = s.status := rfl
@[simp] theorem readMem_cmd (s : State) (a n : Nat) : (s.readMem a n).cmd = s.cmd := rfl
@[simp] theorem readMem_ops (s : State) (a n : Nat) : (s.readMem a n).ops = s.ops := rfl
@[simp] theorem readMem_res (s : State) (a n : Nat) : (s.readMem a n).res = s.res := rfl
@[simp] theorem readMem_latch (s : State) (a n : Nat) : (s.readMem a n).latch = s.latch := rfl
@[simp] theorem readMem_work (s : State) (a n : Nat) : (s.readMem a n).work = s.work := rfl
@[simp] theorem readMem_raced (s : State) (a n : Nat) : (s.readMem a n).raced = s.raced := rfl
@[simp] theorem readMem_host (s : State) (a n : Nat) : (s.readMem a n).host = s.host := rfl
@[simp] theorem readMem_sched (s : State) (a n : Nat) : (s.readMem a n).sched = s.sched := rfl
@[simp] theorem readMem_rdWord (s : State) (a n : Nat) : (s.readMem a n).rdWord = s.rdWord := rfl
@[simp] theorem readMem_checksHold (s : State) (a n : Nat) : (s.readMem a n).checksHold = s.checksHold := rfl

/-! ## checkMem (30_encoding R130) -/

@[simp] theorem checkMem_plat (s : State) (a n : Nat) (bs : List Byte) :
    (s.checkMem a n bs).plat = s.plat := rfl
@[simp] theorem checkMem_mem (s : State) (a n : Nat) (bs : List Byte) :
    (s.checkMem a n bs).mem = s.mem := rfl
@[simp] theorem checkMem_ie (s : State) (a n : Nat) (bs : List Byte) :
    (s.checkMem a n bs).ie = s.ie := rfl
@[simp] theorem checkMem_seq (s : State) (a n : Nat) (bs : List Byte) :
    (s.checkMem a n bs).seq = s.seq := rfl
@[simp] theorem checkMem_status (s : State) (a n : Nat) (bs : List Byte) :
    (s.checkMem a n bs).status = s.status := rfl
@[simp] theorem checkMem_cmd (s : State) (a n : Nat) (bs : List Byte) :
    (s.checkMem a n bs).cmd = s.cmd := rfl
@[simp] theorem checkMem_ops (s : State) (a n : Nat) (bs : List Byte) :
    (s.checkMem a n bs).ops = s.ops := rfl
@[simp] theorem checkMem_res (s : State) (a n : Nat) (bs : List Byte) :
    (s.checkMem a n bs).res = s.res := rfl
@[simp] theorem checkMem_latch (s : State) (a n : Nat) (bs : List Byte) :
    (s.checkMem a n bs).latch = s.latch := rfl
@[simp] theorem checkMem_work (s : State) (a n : Nat) (bs : List Byte) :
    (s.checkMem a n bs).work = s.work := rfl
@[simp] theorem checkMem_raced (s : State) (a n : Nat) (bs : List Byte) :
    (s.checkMem a n bs).raced = s.raced := rfl
@[simp] theorem checkMem_draws (s : State) (a n : Nat) (bs : List Byte) :
    (s.checkMem a n bs).draws = (s.readMem a n).draws := rfl
@[simp] theorem checkMem_host (s : State) (a n : Nat) (bs : List Byte) :
    (s.checkMem a n bs).host = s.host := rfl
@[simp] theorem checkMem_sched (s : State) (a n : Nat) (bs : List Byte) :
    (s.checkMem a n bs).sched = s.sched := rfl
@[simp] theorem checkMem_rdWord (s : State) (a n : Nat) (bs : List Byte) :
    (s.checkMem a n bs).rdWord = s.rdWord := rfl
@[simp] theorem checkMem_rdBytes (s : State) (a n : Nat) (bs : List Byte) :
    (s.checkMem a n bs).rdBytes = (s.readMem a n).rdBytes := rfl
@[simp] theorem checkMem_checksHold (s : State) (a n : Nat) (bs : List Byte) :
    (s.checkMem a n bs).checksHold = (s.checksHold && decide ((s.readMem a n).rdBytes = bs)) := rfl

/-! ## withFetchWord (log 17) -/

@[simp] theorem withFetchWord_plat (s : State) (nbits w : Nat) : (s.withFetchWord nbits w).plat = s.plat := rfl
@[simp] theorem withFetchWord_mem (s : State) (nbits w : Nat) : (s.withFetchWord nbits w).mem = s.mem := rfl
@[simp] theorem withFetchWord_ie (s : State) (nbits w : Nat) : (s.withFetchWord nbits w).ie = s.ie := rfl
@[simp] theorem withFetchWord_seq (s : State) (nbits w : Nat) : (s.withFetchWord nbits w).seq = .busy := rfl
@[simp] theorem withFetchWord_status (s : State) (nbits w : Nat) :
    (s.withFetchWord nbits w).status = s.status.start := rfl
@[simp] theorem withFetchWord_cmd (s : State) (nbits w : Nat) :
    (s.withFetchWord nbits w).cmd = BitVec.ofNat 32 (w % 2 ^ nbits) := rfl
@[simp] theorem withFetchWord_ops (s : State) (nbits w : Nat) : (s.withFetchWord nbits w).ops = s.ops := rfl
@[simp] theorem withFetchWord_res (s : State) (nbits w : Nat) : (s.withFetchWord nbits w).res = .zero := rfl
@[simp] theorem withFetchWord_latch (s : State) (nbits w : Nat) :
    (s.withFetchWord nbits w).latch = ⟨BitVec.ofNat 32 (w % 2 ^ nbits), s.ops⟩ := rfl
@[simp] theorem withFetchWord_work (s : State) (nbits w : Nat) : (s.withFetchWord nbits w).work = .initial := rfl
@[simp] theorem withFetchWord_raced (s : State) (nbits w : Nat) : (s.withFetchWord nbits w).raced = false := rfl
@[simp] theorem withFetchWord_draws (s : State) (nbits w : Nat) : (s.withFetchWord nbits w).draws = s.draws := rfl
@[simp] theorem withFetchWord_host (s : State) (nbits w : Nat) : (s.withFetchWord nbits w).host = s.host := rfl
@[simp] theorem withFetchWord_sched (s : State) (nbits w : Nat) :
    (s.withFetchWord nbits w).sched = .engine :: s.sched := rfl
@[simp] theorem withFetchWord_rdWord (s : State) (nbits w : Nat) : (s.withFetchWord nbits w).rdWord = s.rdWord := rfl
@[simp] theorem withFetchWord_rdBytes (s : State) (nbits w : Nat) :
    (s.withFetchWord nbits w).rdBytes = s.rdBytes := rfl
@[simp] theorem withFetchWord_checksHold (s : State) (nbits w : Nat) :
    (s.withFetchWord nbits w).checksHold = s.checksHold := rfl

end Sys2Proof.Machine.State

namespace Sys2Proof.Machine

/-! ## Status fields -/

@[simp] theorem Status.w1c_done (f : Status) (w : Word) : (f.w1c w).done = (f.done && !w.getLsbD 1) := rfl
@[simp] theorem Status.w1c_err (f : Status) (w : Word) : (f.w1c w).err = (f.err && !w.getLsbD 2) := rfl
@[simp] theorem Status.w1c_ovr (f : Status) (w : Word) : (f.w1c w).ovr = (f.ovr && !w.getLsbD 3) := rfl
@[simp] theorem Status.w1c_errcode (f : Status) (w : Word) : (f.w1c w).errcode = f.errcode := rfl
@[simp] theorem Status.w1c_cause (f : Status) (w : Word) : (f.w1c w).cause = f.cause := rfl
@[simp] theorem Status.start_done (f : Status) : (f.start).done = false := rfl
@[simp] theorem Status.start_err (f : Status) : (f.start).err = false := rfl
@[simp] theorem Status.start_ovr (f : Status) : (f.start).ovr = f.ovr := rfl
@[simp] theorem Status.start_errcode (f : Status) : (f.start).errcode = 0 := rfl
@[simp] theorem Status.start_cause (f : Status) : (f.start).cause = 0 := rfl
@[simp] theorem Status.completeOk_done (f : Status) : (f.completeOk).done = true := rfl
@[simp] theorem Status.completeOk_err (f : Status) : (f.completeOk).err = false := rfl
@[simp] theorem Status.completeOk_ovr (f : Status) : (f.completeOk).ovr = f.ovr := rfl
@[simp] theorem Status.completeOk_errcode (f : Status) : (f.completeOk).errcode = 0 := rfl
@[simp] theorem Status.completeOk_cause (f : Status) : (f.completeOk).cause = 0 := rfl
@[simp] theorem Status.completeErr_done (f : Status) (e : Err) : (f.completeErr e).done = true := rfl
@[simp] theorem Status.completeErr_err (f : Status) (e : Err) : (f.completeErr e).err = true := rfl
@[simp] theorem Status.completeErr_ovr (f : Status) (e : Err) : (f.completeErr e).ovr = f.ovr := rfl
@[simp] theorem Status.completeErr_errcode (f : Status) (e : Err) : (f.completeErr e).errcode = e.code := rfl
@[simp] theorem Status.completeErr_cause (f : Status) (e : Err) : (f.completeErr e).cause = e.causeCode := rfl
@[simp] theorem Status.overrun_done (f : Status) : (f.overrun).done = f.done := rfl
@[simp] theorem Status.overrun_err (f : Status) : (f.overrun).err = f.err := rfl
@[simp] theorem Status.overrun_ovr (f : Status) : (f.overrun).ovr = true := rfl
@[simp] theorem Status.overrun_errcode (f : Status) : (f.overrun).errcode = f.errcode := rfl
@[simp] theorem Status.overrun_cause (f : Status) : (f.overrun).cause = f.cause := rfl

end Sys2Proof.Machine
end

