-- ==== Sys2Proof/Laws/Run.lean ====
section
/-! SUPPORT. The frame every command runs in (40_command_common R152 to R155), said once, and the machine's step taken
apart. Every proof about a command starts here. -/

namespace Sys2Proof.Machine

/-- The body of a command (R153). -/
def bodyOf : Instr → State → Except Err Finish
  | .nop => fun _ => .ok (registerFinish .zero 0)
  | .lz78C => fun s => wrapCause (lz78CBody s)
  | .lz78D => fun s => wrapCause (lz78DBody s)
  | .lzssC => fun s => wrapCause (lzssCBody s)
  | .lzssD => fun s => wrapCause (lzssDBody s)
  | .lzwC => fun s => wrapCause (lzwCBody s)
  | .lzwD => fun s => wrapCause (lzwDBody s)
  | .jpegC => fun s => wrapCause (jpegCBody s)
  | .jpegD => fun s => wrapCause (jpegDBody s)
  | .hdrEfile => efileBody
  | .hdrEfold => efoldBody
  | .hdrDec => decBody
  | .hdrPatch => patchBody
  | .regLookup => lookupBody
  | .regExtmap => extmapBody

/-- Every command is its body in the common frame. -/
theorem exec_eq_runCommand (i : Instr) (s : State) : exec i s = runCommand i (bodyOf i) s := by
  cases i <;> rfl

/-- All a command can do: REGION_ERROR, a completion with the body's result, a completion with the body's error. -/
theorem exec_cases (i : Instr) (s : State) :
    (regionsOk i s.latch.ops = false ∧ exec i s = .next (s.raiseError .regionError (dstRegion i s.latch.ops))) ∨
    (∃ d, regionsOk i s.latch.ops = true ∧ bodyOf i s = .ok d ∧ exec i s = .next (s.complete d)) ∨
    (∃ e, regionsOk i s.latch.ops = true ∧ bodyOf i s = .error e ∧
      exec i s = .next (s.raiseError e (dstRegion i s.latch.ops))) := by
  rw [exec_eq_runCommand]
  unfold runCommand
  cases hr : regionsOk i s.latch.ops with
  | false => simp
  | true =>
    cases hb : bodyOf i s with
    | ok d => exact .inr (.inl ⟨d, rfl, rfl, by simp⟩)
    | error e => exact .inr (.inr ⟨e, rfl, rfl, by simp⟩)

/-- A command whose regions pass and whose body ends normally completes with the body's result. -/
theorem exec_of_body_ok {i : Instr} {s : State} {d : Finish} (hr : regionsOk i s.latch.ops = true)
    (hb : bodyOf i s = .ok d) : exec i s = .next (s.complete d) := by
  rw [exec_eq_runCommand, runCommand, if_pos hr, hb]

/-- A command whose regions pass and whose body raises an error completes with it. -/
theorem exec_of_body_error {i : Instr} {s : State} {e : Err} (hr : regionsOk i s.latch.ops = true)
    (hb : bodyOf i s = .error e) : exec i s = .next (s.raiseError e (dstRegion i s.latch.ops)) := by
  rw [exec_eq_runCommand, runCommand, if_pos hr, hb]

theorem exec_of_region_error {i : Instr} {s : State} (hr : regionsOk i s.latch.ops = false) :
    exec i s = .next (s.raiseError .regionError (dstRegion i s.latch.ops)) := by
  rw [exec_eq_runCommand, runCommand, hr]
  simp

/-! ## Memory under the updates -/

/-- A draw of a region changes no byte outside it (R156). -/
theorem read_drawRegion_outside {s : State} {r : Region} {a : Nat} (h : r.contains a = false) :
    (s.drawRegion r).mem.read a = s.mem.read a := by
  have h' : ¬(r.base ≤ a ∧ a < r.base + r.len) := fun hc => by
    rw [(Region.contains_iff r a).mpr hc] at h
    cases h
  rw [State.drawRegion_mem]
  apply Memory.read_write_outside
  simp only [Region.clip, List.length_map, List.length_range]
  omega

/-- A drawn byte is a free value (R156). -/
theorem read_drawRegion_inside {s : State} {r : Region} {a : Nat} (h : r.contains a = true) (ha : a < 2 ^ 32) :
    (s.drawRegion r).mem.read a = Config.freeByte s.draws a := by
  have h' := (Region.contains_iff r a).mp h
  rw [State.drawRegion_mem, Memory.read_write, if_pos (by
    simp only [Region.clip, List.length_map, List.length_range]; omega)]
  simp only [List.getD_eq_getElem?_getD, List.getElem?_map, Region.clip]
  rw [List.getElem?_range (by omega)]
  simp only [Option.map_some, Option.getD_some]
  congr 1
  omega

theorem drawRegion_wf {s : State} {r : Region} (h : s.mem.wf = true) (hr : r.base < 2 ^ 32) :
    (s.drawRegion r).mem.wf = true := by
  rw [State.drawRegion_mem]
  exact Memory.write_wf h (by simpa using Region.clip_fits r hr)

/-- An error completion changes no byte outside the destination region (R156). -/
theorem read_raiseError_outside {s : State} {e : Err} {dst : Region} {a : Nat} (h : dst.contains a = false) :
    (s.raiseError e dst).mem.read a = s.mem.read a := by
  rw [State.raiseError_mem]
  split
  · rfl
  · exact read_drawRegion_outside h

theorem raiseError_wf {s : State} {e : Err} {dst : Region} (h : s.mem.wf = true) (hd : dst.base < 2 ^ 32) :
    (s.raiseError e dst).mem.wf = true := by
  rw [State.raiseError_mem]
  split
  · exact h
  · exact drawRegion_wf h hd

theorem drawOutcome_wf {s : State} {dst : Region} (h : s.mem.wf = true) (hd : dst.base < 2 ^ 32) :
    (s.drawOutcome dst).mem.wf = true := by
  rw [State.drawOutcome_mem]
  exact drawRegion_wf h hd

theorem complete_wf {s : State} {d : Finish} (h : s.mem.wf = true) (hd : d.addr + d.bytes.length ≤ 2 ^ 32) :
    (s.complete d).mem.wf = true := by
  rw [State.complete_mem]
  exact Memory.write_wf h hd

theorem writeMem_wf {s : State} {a : Nat} {bs : List Byte} (h : s.mem.wf = true) (hd : a + bs.length ≤ 2 ^ 32) :
    (s.writeMem a bs).mem.wf = true := by
  rw [State.writeMem_mem]
  exact Memory.write_wf h hd

theorem hardwareReset_wf {s : State} (h : s.mem.wf = true) : s.hardwareReset.mem.wf = true := by
  unfold State.hardwareReset
  split
  · rw [State.resetRegs_mem]
    apply drawRegion_wf h
    unfold State.busyDst
    split
    · exact dstRegion_base_lt _ _
    · decide
  · exact h

/-! ## The step -/

/-- All an engine turn can do. -/
theorem engineStep_cases (s : State) :
    (s.seq = .idle ∧ engineStep s = .next s) ∨
    (s.seq = .busy ∧ ∃ e, decode s.latch.cmd = .error e ∧
      engineStep s = .next (s.raiseError .illegalCommand ⟨0, 0⟩)) ∨
    (s.seq = .busy ∧ ∃ i, decode s.latch.cmd = .ok i ∧ s.raced = true ∧
      engineStep s = .next (s.drawOutcome (dstRegion i s.latch.ops))) ∨
    (s.seq = .busy ∧ ∃ i, decode s.latch.cmd = .ok i ∧ s.raced = false ∧ engineStep s = exec i s) := by
  unfold engineStep State.isBusy
  cases hq : s.seq with
  | idle => simp
  | busy =>
    cases hd : decode s.latch.cmd with
    | error e => simp
    | ok i =>
      cases hu : s.raced with
      | true => simp
      | false => simp

theorem step_engine {s : State} (h : s.turn = .engine) : step s = engineStep s.popSched := by
  rw [step, h]

theorem step_host {s : State} (h : s.turn = .host) : step s = hostStep s.popSched := by
  rw [step, h]

/-- All a host turn can do: nothing, or its oldest pending operation. -/
theorem hostStep_cases (s : State) :
    (s.host = [] ∧ hostStep s = .next s) ∨
    (∃ op rest, s.host = op :: rest ∧ hostStep s = hostOp op { s with host := rest }) := by
  unfold hostStep
  cases h : s.host with
  | nil => simp
  | cons op rest => exact .inr ⟨op, rest, rfl, rfl⟩

/-- All a host access to memory can do: it goes on, faults past the address space, or is refused at the register block
or at a device. -/
theorem hostAccess_cases (r : Region) (s : State) (act : State → State) :
    (r.wraps = true ∧ hostAccess r s act = .fault .noSuchAddress) ∨
    (r.wraps = false ∧ r.overlaps s.plat.regBlock = true ∧ hostAccess r s act = .refused .registerAccess) ∨
    (r.wraps = false ∧ r.overlaps s.plat.regBlock = false ∧ s.plat.devices.any r.overlaps = true ∧
      hostAccess r s act = .refused .deviceAccess) ∨
    (r.wraps = false ∧ r.overlaps s.plat.regBlock = false ∧ s.plat.devices.any r.overlaps = false ∧
      hostAccess r s act = .next (act s)) := by
  unfold hostAccess
  cases r.wraps <;> cases r.overlaps s.plat.regBlock <;> cases s.plat.devices.any r.overlaps <;> simp

/-- A host access to memory goes on only inside the address space, off the register block and off every device. -/
theorem hostAccess_next {r : Region} {s t : State} {act : State → State} (h : hostAccess r s act = .next t) :
    r.wraps = false ∧ r.overlaps s.plat.regBlock = false ∧ s.plat.devices.any r.overlaps = false ∧ t = act s := by
  obtain ⟨_, h'⟩ | ⟨_, _, h'⟩ | ⟨_, _, _, h'⟩ | ⟨h1, h2, h3, h'⟩ := hostAccess_cases r s act <;> rw [h'] at h <;> cases h
  exact ⟨h1, h2, h3, rfl⟩

end Sys2Proof.Machine
end

