-- ==== Sys2Proof/Machine/Archive.lean ====
section
/-! DEFINITION. The archive layout (46_archive_header R334, R335) as a format, and what the host's unpacking finds in
it (R337 to R339). Packing and unpacking are host procedures over the commands: no command runs any of this. -/

namespace Sys2Proof.Machine

/-- The entries of one level of an archive, in order (R334, R335). -/
inductive Archive where
  /-- No more entries. -/
  | done
  /-- A file: its name, original size, codec name and compressed payload; then the entries after it. -/
  | file (name : List Byte) (orig : Word) (codec payload : List Byte) (rest : Archive)
  /-- A folder: its name and its own entries; then the entries after it. -/
  | folder (name : List Byte) (entries rest : Archive)
  deriving DecidableEq, Repr

/-- The bytes of the entries (R334, R335): a header whose size field is the length of what follows it in the entry. -/
def Archive.bytes : Archive → List Byte
  | .done => []
  | .file name orig codec payload rest =>
    fileHeader (BitVec.ofNat 32 payload.length) name orig codec ++ payload ++ rest.bytes
  | .folder name entries rest =>
    folderHeader (BitVec.ofNat 32 entries.bytes.length) name ++ entries.bytes ++ rest.bytes

/-- What the compress command of a codec stores for a content (30_encoding R122): the payload of R334. The image codec has
none for a content that is no image. -/
def compressWith (p : Platform) (id : Nat) (content : List Byte) : Option (List Byte) :=
  match id with
  | 1 => some (lz78Encode content)
  | 2 => some (lzssEncode content)
  | 3 => some (lzwEncode content)
  | 4 =>
    match parsePpm p.maxPixels (content.map some) with
    | .ok img => some (jpegEncode p img)
    | .error _ => none
  | _ => none

/-- The files and folders the host packs, in its listing order, each file with the stable name of the codec the host
chose (R334, R335). -/
inductive FileTree where
  | done
  | file (name codec content : List Byte) (rest : FileTree)
  | folder (name : List Byte) (entries rest : FileTree)
  deriving DecidableEq, Repr

/-- The archive of a tree (R334, R335): a file's payload is its codec's compress output and its original size its
content's length. Nothing where a codec name is no stable name or a codec has no output. -/
def FileTree.archive (p : Platform) : FileTree → Option Archive
  | .done => some .done
  | .file name codec content rest => do
    let id ← codecId codec
    let payload ← compressWith p id content
    let rest ← rest.archive p
    some (.file name (BitVec.ofNat 32 content.length) codec payload rest)
  | .folder name entries rest => do
    let entries ← entries.archive p
    let rest ← rest.archive p
    some (.folder name entries rest)

/-- UNPACK (R337) up to the decompression of the payloads: the entries that fill the bytes exactly, or nothing where
the archive is corrupt. Every entry takes a header's bytes, so `fuel` = the number of bytes is enough. -/
def unpackEntries : Nat → List Byte → Option Archive
  | _, [] => some .done
  | 0, _ => none
  | fuel + 1, b :: bs =>
    let buf := b :: bs
    match decodeHeader (buf.map some) with
    | .error _ => none
    | .ok r =>
      let field (off len : Word) : List Byte := (buf.drop off.toNat).take len.toNat
      let size := r.r1.toNat
      let body := buf.drop r.len.toNat
      if body.length < size then none
      else
        match unpackEntries fuel (body.drop size) with
        | none => none
        | some rest =>
          if r.r0 = 0 then
            match codecId (field r.r5 r.r6) with
            | none => none
            | some _ => some (.file (field r.r2 r.r3) r.r4 (field r.r5 r.r6) (body.take size) rest)
          else
            match unpackEntries fuel (body.take size) with
            | none => none
            | some entries => some (.folder (field r.r2 r.r3) entries rest)

/-- Exactly one entry stands at this level (R337). -/
def Archive.single : Archive → Bool
  | .done => false
  | .file _ _ _ _ rest => decide (rest = .done)
  | .folder _ _ rest => decide (rest = .done)

/-- UNPACK(file, 0, len(file)) (R337, R339): nothing unless the file is one entry, filled exactly. -/
def unpackFile (bs : List Byte) : Option Archive :=
  match unpackEntries bs.length bs with
  | none => none
  | some a => if a.single then some a else none

end Sys2Proof.Machine
end

