-- ==== Sys2Proof/Tests/Slice0.lean ====
section
/-! SUPPORT. The model's own tests. Expected results are the worked examples and tables of spec/ (named at each test);
the theorems named wit_ show that a statement's hypotheses can be met together. -/

namespace Sys2Proof.Tests

open Sys2Proof.Machine

-- one theorem after the other: each kernel evaluation would otherwise take a thread of its own
set_option Elab.async false

/-! ## Helpers -/

/-- The next state of an outcome, and the reset state where there is none. -/
def after (o : Host.Outcome State Fault Refusal) : State :=
  match o with
  | .next t => t
  | .fault _ => .reset
  | .refused _ => .reset

/-- Whether an outcome is a next state. -/
def goesOn (o : Host.Outcome State Fault Refusal) : Bool :=
  match o with
  | .next _ => true
  | .fault _ => false
  | .refused _ => false

theorem eq_next_after {o : Host.Outcome State Fault Refusal} (h : goesOn o = true) : o = .next (after o) := by
  cases o with
  | next t => rfl
  | fault e => cases h
  | refused e => cases h

/-- Whether a fallible computation ends normally with `a`. -/
def endsWith {ε α : Type} [DecidableEq α] (x : Except ε α) (a : α) : Bool :=
  match x with
  | .ok b => decide (b = a)
  | .error _ => false

theorem eq_ok_of_endsWith {ε α : Type} [DecidableEq α] {x : Except ε α} {a : α} (h : endsWith x a = true) :
    x = .ok a := by
  cases x with
  | ok b => rw [of_decide_eq_true h]
  | error e => cases h

/-- A machine in which a command word has just been accepted. -/
def busyOn (w : Word) (o : Operands) (m : Memory) : State :=
  { State.reset with seq := .busy, cmd := w, ops := o, latch := ⟨w, o⟩, mem := m }

/-- Source at 0x1000, destination at 0x2000. -/
def opsOf (n cap arg0 : Word) : Operands := ⟨0x1000, n, 0x2000, cap, arg0, 0, 0, 0⟩

/-- A command on source bytes at 0x1000 with `cap` destination bytes at 0x2000. -/
def on (i : Instr) (src : List Byte) (cap arg0 : Word) : State :=
  busyOn (encode i) (opsOf (BitVec.ofNat 32 src.length) cap arg0) (Memory.write [] 0x1000 src)

/-- The RES_LEN bytes at 0x2000. -/
def output (t : State) : List Byte := t.mem.readRegion ⟨0x2000, t.res.len.toNat⟩

/-- "AAAA" and "ABABABA". -/
def fourA : List Byte := [0x41, 0x41, 0x41, 0x41]
def abab : List Byte := [0x41, 0x42, 0x41, 0x42, 0x41, 0x42, 0x41]

/-! ## Well-formedness: an ill-formed term for each check -/

theorem test_wf_word_zero_field : wordWf 0x00000110 = false := by decide
theorem test_wf_word_unit0 : wordWf 0x00000001 = false := by decide
theorem test_wf_word_unit4 : wordWf 0x00000042 = false := by decide
theorem test_wf_word_unit5 : wordWf 0x00000054 = false := by decide
theorem test_wf_word_unit6 : wordWf 0x00000062 = false := by decide
theorem test_wf_word_unit7 : wordWf 0x00000070 = false := by decide
theorem test_wf_platform_default : platformDefault.wf = true := by decide
theorem test_wf_platform_base : (Platform.wf { platformDefault with regBase := 2 }) = false := by decide
theorem test_wf_platform_top : (Platform.wf { platformDefault with regBase := 0xFFFFFF04 }) = false := by decide
theorem test_wf_platform_pixels : (Platform.wf { platformDefault with maxPixels := 63 }) = false := by decide
theorem test_wf_platform_table : (Platform.wf { platformDefault with qtable := [1] }) = false := by decide
theorem test_wf_platform_entry : (Platform.wf { platformDefault with qtable := List.replicate 64 0 }) = false := by decide
theorem test_wf_platform_fwd :
    (Platform.wf { platformDefault with colourFwd := { colourFwdDefault with yR := 0x7FF0000000000000 } }) = false := by
  decide
theorem test_wf_platform_inv :
    (Platform.wf { platformDefault with colourInv := { colourInvDefault with rV := 0xFFF8000000000000 } }) = false := by
  decide
theorem test_wf_host_width : HostOp.wf platformDefault (.regRead 0 2) = false := by decide
theorem test_wf_host_align : HostOp.wf platformDefault (.regWrite 2 4 0) = false := by decide
theorem test_wf_host_block : HostOp.wf platformDefault (.regRead 256 4) = false := by decide
theorem test_wf_host_wrap : HostOp.wf platformDefault (.memRead 0xFFFFFFFF 2) = false := by decide
theorem test_wf_host_register : HostOp.wf platformDefault (.memWrite 0xF00000FF [1]) = false := by decide
theorem test_wf_host_device :
    HostOp.wf { platformDefault with devices := [⟨0x100, 1⟩] } (.memRead 0x100 1) = false := by decide

/-! ## Decoding: words written out bit by bit as ZERO, UNIT, FUNC (R120, R121) -/

theorem test_decode_nop : decode 0b00000000000000000000000000000000#32 = .ok .nop := by rfl
theorem test_decode_lz78C : decode 0b00000000000000000000000000010000#32 = .ok .lz78C := by rfl
theorem test_decode_lz78D : decode 0b00000000000000000000000000010001#32 = .ok .lz78D := by rfl
theorem test_decode_lzssC : decode 0b00000000000000000000000000100000#32 = .ok .lzssC := by rfl
theorem test_decode_lzssD : decode 0b00000000000000000000000000100001#32 = .ok .lzssD := by rfl
theorem test_decode_lzwC : decode 0b00000000000000000000000000110000#32 = .ok .lzwC := by rfl
theorem test_decode_lzwD : decode 0b00000000000000000000000000110001#32 = .ok .lzwD := by rfl
theorem test_decode_jpegC : decode 0b00000000000000000000000001000000#32 = .ok .jpegC := by rfl
theorem test_decode_jpegD : decode 0b00000000000000000000000001000001#32 = .ok .jpegD := by rfl
theorem test_decode_hdrEfile : decode 0b00000000000000000000000001010000#32 = .ok .hdrEfile := by rfl
theorem test_decode_hdrEfold : decode 0b00000000000000000000000001010001#32 = .ok .hdrEfold := by rfl
theorem test_decode_hdrDec : decode 0b00000000000000000000000001010010#32 = .ok .hdrDec := by rfl
theorem test_decode_hdrPatch : decode 0b00000000000000000000000001010011#32 = .ok .hdrPatch := by rfl
theorem test_decode_regLookup : decode 0b00000000000000000000000001100000#32 = .ok .regLookup := by rfl
theorem test_decode_regExtmap : decode 0b00000000000000000000000001100001#32 = .ok .regExtmap := by rfl
theorem test_decode_zero_field : decode 0b10000000000000000000000000010000#32 = .error .zeroFieldSet := by rfl
theorem test_decode_no_op : decode 0b00000000000000000000000000010010#32 = .error .noSuchOp := by rfl

/-- As the host asks it: every row's word decodes, and is the first command the machine runs after reset. -/
theorem test_table_words : ∀ i ∈ [Instr.nop, .lz78C, .lz78D, .lzssC, .lzssD, .lzwC, .lzwD, .jpegC, .jpegD, .hdrEfile,
    .hdrEfold, .hdrDec, .hdrPatch, .regLookup, .regExtmap], decodeTableWord 32 (encode i).toNat = some i ∧
      goesOn (step (State.reset.withFetchWord 32 (encode i).toNat)) = true := by decide +kernel

/-! ## Commands, one step each -/

/-- R157: `run 0x00` gives STATUS = 0x00000002. -/
theorem test_nop : (after (exec .nop (busyOn 0 (opsOf 0 0 0) []))).statusReg = 0x00000002 := by decide

/-- R158: "LZSS" gives 2; "lzw" is STATUS 0x00000406 (95 §2.8). -/
theorem test_regLookup : (after (exec .regLookup (on .regLookup [0x4C, 0x5A, 0x53, 0x53] 0 0))).res.r0 = 2 := by decide
theorem test_regLookup_case :
    (after (exec .regLookup (on .regLookup [0x6C, 0x7A, 0x77] 0 0))).statusReg = 0x00000406 := by decide

/-- R159: "ppm" gives 0x1E, 0x3124, 4; "PPM" gives the default list. -/
theorem test_regExtmap : (after (exec .regExtmap (on .regExtmap [0x70, 0x70, 0x6D] 0 0))).res =
    ⟨0, 0x1E, 0x3124, 4, 0, 0, 0, 0⟩ := by decide
theorem test_regExtmap_case : (after (exec .regExtmap (on .regExtmap [0x50, 0x50, 0x4D] 0 0))).res =
    ⟨0, 0x0E, 0x0312, 3, 0, 0, 0, 0⟩ := by decide

/-- R173: "AAAA" gives 00 00 41 00 01 41 00 01; one byte of room less is CODEC_INTERNAL, DST_OVERFLOW. -/
theorem test_lz78C : output (after (exec .lz78C (on .lz78C fourA 8 0))) =
    [0x00, 0x00, 0x41, 0x00, 0x01, 0x41, 0x00, 0x01] := by decide +kernel
theorem test_lz78C_overflow : (after (exec .lz78C (on .lz78C fourA 7 0))).statusReg = 0x00020206 := by decide +kernel

/-- R177: the stream of R173 gives "AAAA"; after a sentinel code 1 is gone (95 §3). -/
theorem test_lz78D : output (after (exec .lz78D
    (on .lz78D [0x00, 0x00, 0x41, 0x00, 0x01, 0x41, 0x00, 0x01] 4 4))) = fourA := by decide +kernel
theorem test_lz78D_sentinel : (after (exec .lz78D
    (on .lz78D [0x00, 0x00, 0x41, 0x7F, 0xFF, 0x00, 0x01] 4 2))).statusReg = 0x00030206 := by decide +kernel

/-- R196: "ABABABA" gives 18 41 42 41 00 21 00 00; empty input gives 80 00 00. -/
theorem test_lzssC : output (after (exec .lzssC (on .lzssC abab 16 0))) =
    [0x18, 0x41, 0x42, 0x41, 0x00, 0x21, 0x00, 0x00] := by decide +kernel
theorem test_lzssC_empty : output (after (exec .lzssC (on .lzssC [] 3 0))) = [0x80, 0x00, 0x00] := by decide +kernel

/-- R198: the stream of R196 gives "ABABABA"; an empty source is SRC_UNDERRUN. -/
theorem test_lzssD : output (after (exec .lzssD
    (on .lzssD [0x18, 0x41, 0x42, 0x41, 0x00, 0x21, 0x00, 0x00] 7 7))) = abab := by decide +kernel
theorem test_lzssD_empty : (after (exec .lzssD (on .lzssD [] 7 0))).statusReg = 0x00010206 := by decide +kernel

/-- R223: "ABABABA" gives 00 41 00 42 01 00 01 02. -/
theorem test_lzwC : output (after (exec .lzwC (on .lzwC abab 8 0))) =
    [0x00, 0x41, 0x00, 0x42, 0x01, 0x00, 0x01, 0x02] := by decide +kernel

/-- 95 §3: after the reset code 256 is the KwKwK case again; a first code of 256 is BAD_CODE. -/
theorem test_lzwD : output (after (exec .lzwD
    (on .lzwD [0x00, 0x41, 0x7F, 0xFF, 0x00, 0x41, 0x01, 0x00] 4 4))) = fourA := by decide +kernel
theorem test_lzwD_bad : (after (exec .lzwD (on .lzwD [0x00, 0x41, 0x7F, 0xFF, 0x01, 0x00] 4 4))).statusReg =
    0x00030206 := by decide +kernel

/-- R321: name "a.txt", size 8, originalSize 4, codec "LZ78". -/
def efileState (cap : Word) : State :=
  busyOn (encode .hdrEfile) ⟨0x1000, 5, 0x2000, cap, 8, 4, 0x1100, 4⟩
    (Memory.write (Memory.write [] 0x1000 [0x61, 0x2E, 0x74, 0x78, 0x74]) 0x1100 [0x4C, 0x5A, 0x37, 0x38])
theorem test_hdrEfile : output (after (exec .hdrEfile (efileState 20))) =
    [0x00, 0x00, 0x00, 0x00, 0x08, 0x61, 0x2E, 0x74, 0x78, 0x74, 0x00, 0x00, 0x00, 0x00, 0x04, 0x4C, 0x5A, 0x37, 0x38,
      0x00] := by decide +kernel
theorem test_hdrEfile_overflow : (after (exec .hdrEfile (efileState 19))).statusReg = 0x00001106 := by decide +kernel

/-- R322: name "dir", size 0. -/
theorem test_hdrEfold : output (after (exec .hdrEfold (on .hdrEfold [0x64, 0x69, 0x72] 9 0))) =
    [0xFF, 0x00, 0x00, 0x00, 0x00, 0x64, 0x69, 0x72, 0x00] := by decide +kernel
theorem test_hdrEfold_negative : (after (exec .hdrEfold (on .hdrEfold [0x64] 9 0x80000000))).statusReg = 0x00000306 := by
  decide +kernel

/-- R326: FF 00 00 00 26 74 6F 70 00 and a byte after it; 95 §2.7, condition 8: no codec terminator. -/
theorem test_hdrDec : (after (exec .hdrDec
    (on .hdrDec [0xFF, 0x00, 0x00, 0x00, 0x26, 0x74, 0x6F, 0x70, 0x00, 0x55] 0 0))).res =
      ⟨9, 0xFF, 38, 5, 3, 0, 0, 0⟩ := by decide +kernel
theorem test_hdrDec_truncated : (after (exec .hdrDec
    (on .hdrDec [0x00, 0x00, 0x00, 0x00, 0x00, 0x61, 0x00, 0x00, 0x00, 0x00, 0x04, 0x4C, 0x5A] 0 0))).statusReg =
      0x00000306 := by decide +kernel

/-- R329 and 95 §2.7: the size of FF 00 00 00 00 74 6F 70 00 at 0x2000 becomes 38; offset 5 is BUFFER_BOUNDS. -/
def patchState (size off : Word) : State :=
  busyOn (encode .hdrPatch) ⟨0, 0, 0x2000, 9, size, off, 0, 0⟩
    (Memory.write [] 0x2000 [0xFF, 0x00, 0x00, 0x00, 0x00, 0x74, 0x6F, 0x70, 0x00])
theorem test_hdrPatch : (after (exec .hdrPatch (patchState 38 0))).mem.readRegion ⟨0x2000, 9⟩ =
    [0xFF, 0x00, 0x00, 0x00, 0x26, 0x74, 0x6F, 0x70, 0x00] := by decide +kernel
theorem test_hdrPatch_bounds : (after (exec .hdrPatch (patchState 38 5))).statusReg = 0x00000106 := by decide +kernel

/-! ## The image unit -/

/-- T-JPEG-1 (95): the 8 by 8 mid-gray image and its 48-byte container. -/
def grayFile : List Byte :=
  [0x50, 0x36, 0x0A, 0x38, 0x20, 0x38, 0x0A, 0x32, 0x35, 0x35, 0x0A] ++ List.replicate 192 0x80
def grayImage : Image := ⟨8, 8, 255, List.replicate 192 0x80⟩
def grayContainer : List Byte :=
  [0x50, 0x36, 0x20, 0x38, 0x20, 0x38, 0x20, 0x32, 0x35, 0x35, 0x20, 0x30, 0x20, 0x30, 0x20, 0x38, 0x20, 0x38, 0x20,
    0x38, 0x0A] ++
  [0x0F, 0x00, 0x00, 0x00, 0x00, 0x20, 0x30, 0x20] ++ [0x0F, 0x00, 0x00, 0x00, 0x00, 0x20, 0x30, 0x20] ++
  [0x0F, 0x00, 0x00, 0x00, 0x00, 0x20, 0x30, 0x20] ++ [0x00, 0x00, 0x00]

theorem gray_quant : quantBlock platformDefault (List.replicate 64 0) = List.replicate 64 0 := by decide +kernel

theorem gray_planes : planesOf platformDefault grayImage = List.replicate 3 (List.replicate 8 (List.replicate 8 0)) := by
  decide +kernel

theorem gray_blocks : blocksOf 8 8 (List.replicate 8 (List.replicate 8 0)) = [List.replicate 64 0] := by decide +kernel

theorem gray_zigzag : zigzag (List.replicate 64 0) = List.replicate 64 0 := by decide +kernel

theorem gray_channels : encodeChannels platformDefault grayImage = List.replicate 3 (channelEnc (List.replicate 64 0)) := by
  have hw : grayImage.width + padOf grayImage.width = 8 := by decide
  have hh : grayImage.height + padOf grayImage.height = 8 := by decide
  rw [encodeChannels, gray_planes, hw, hh, List.map_replicate, gray_blocks, List.flatMap_singleton, gray_quant,
    gray_zigzag]

theorem test_gray_container : jpegEncode platformDefault grayImage = grayContainer := by
  rw [jpegEncode, gray_channels]
  decide +kernel

theorem gray_parse : parsePpm 1048576 (grayFile.map some) = .ok grayImage :=
  eq_ok_of_endsWith (by decide +kernel)

def grayState : State := on .jpegC grayFile 48 0

theorem gray_cells : grayState.srcCells = grayFile.map some := by decide +kernel

theorem jpegC_body {s : State} {img : Image} {k : Sink} (hp : parsePpm s.plat.maxPixels s.srcCells = .ok img)
    (hk : (Sink.start s).putEach (jpegEncode s.plat img) = .ok k) :
    bodyOf .jpegC s = .ok (codecFinish k s.latch.ops.srcLen.toNat
      (.imgEnc (planesOf s.plat img) (encodeChannels s.plat img))) := by
  refine wrapCause_ok.mpr ?_
  unfold jpegCBody
  exact bind_ok.mpr ⟨img, hp, bind_ok.mpr ⟨k, hk, rfl⟩⟩

theorem gray_put : (Sink.start grayState).putEach (jpegEncode grayState.plat grayImage) =
    .ok ((Sink.start grayState).extend grayContainer) := by
  rw [show grayState.plat = platformDefault from rfl, test_gray_container]
  exact Sink.putEach_ok.mpr ⟨by decide +kernel, by decide +kernel, rfl⟩

theorem gray_source : parsePpm grayState.plat.maxPixels grayState.srcCells = .ok grayImage := by
  rw [gray_cells]
  exact gray_parse

/-- T-JPEG-1: JPEG.C completes with the container at the destination. -/
theorem gray_exec : exec .jpegC grayState = .next (grayState.complete
    (codecFinish ((Sink.start grayState).extend grayContainer) grayState.latch.ops.srcLen.toNat
      (.imgEnc (planesOf grayState.plat grayImage) (encodeChannels grayState.plat grayImage)))) :=
  exec_of_body_ok (by decide +kernel) (jpegC_body gray_source gray_put)

theorem test_jpegC : (after (exec .jpegC grayState)).res.len = 48 ∧ output (after (exec .jpegC grayState)) = grayContainer := by
  rw [gray_exec]
  decide +kernel

/-- JPEG.C on a source that is no image: BAD_IMAGE_HEADER (R243). -/
theorem test_jpegC_bad : (after (exec .jpegC (on .jpegC fourA 48 0))).statusReg = 0x00060206 := by decide +kernel

/-- T-JPEG-1: JPEG.D on the container gives RES_LEN 203 and the image's header. -/
theorem test_jpegD : (after (exec .jpegD (on .jpegD grayContainer 203 0))).res.len = 203 ∧
    (output (after (exec .jpegD (on .jpegD grayContainer 203 0)))).take 11 = grayFile.take 11 := by decide +kernel
theorem test_jpegD_short : (after (exec .jpegD (on .jpegD (grayContainer.take 47) 203 0))).statusReg = 0x00010206 := by
  decide +kernel

/-- R250: (255, 0, 0) gives (-52, -43, 128). R269: (76, 85, 256) gives (255, 0, 0). -/
theorem test_toYuv : toYuv platformDefault ⟨255, 0, 0⟩ = (-52, -43, 128) := by decide +kernel
theorem test_toRgb : toRgb platformDefault 76 85 256 = [255, 0, 0] := by decide +kernel

/-- R256: a block of 64s has q[0][0] = 32, a block of -43s -22. R267: q[0][0] = 32 alone gives the sample 64. -/
theorem test_quant : quantAt platformDefault (List.replicate 64 64) 0 0 = 32 := by decide +kernel
theorem test_quant_negative : quantAt platformDefault (List.replicate 64 (-43)) 0 0 = -22 := by decide +kernel
theorem test_idct : (idctBlock platformDefault (32 :: List.replicate 63 0)).head? = some (64 + 128) := by decide +kernel

/-- R241: -2.5 rounds to -3 away from zero and to -2 upward; 2.5 to 3 under both. -/
theorem test_round : F64.round .away ⟨-5, -1⟩ = -3 ∧ F64.round .up ⟨-5, -1⟩ = -2 ∧ F64.round .away ⟨5, -1⟩ = 3 ∧
    F64.round .up ⟨5, -1⟩ = 3 := by decide

/-- R253: in binary64 CN[0] · CN[0] is 0.5000000000000001, one unit in the last place above 0.5. -/
theorem test_cn : (cnAt 0).mul (cnAt 0) = ⟨2 ^ 52 + 1, -53⟩ := by decide +kernel

/-- R258: ZI is the inverse of ZZ. -/
theorem test_zi : zz.map (fun i => zi.getD i 0) = List.range 64 := by decide +kernel

/-- R261: the example block. -/
theorem test_rle : rle ([0, -13, 0, 0, 0, 0, -1] ++ List.replicate 57 0) =
    [⟨1, -13⟩, ⟨4, -1⟩, ⟨15, 0⟩, ⟨15, 0⟩, ⟨15, 0⟩, ⟨8, 0⟩] := by decide +kernel

/-- R283: the example frequencies. -/
theorem test_huffman :
    let codes := huffmanCodes [(⟨0, 1⟩, 1), (⟨0, 2⟩, 1), (⟨0, 3⟩, 2), (⟨15, 0⟩, 4)]
    codeOf codes ⟨15, 0⟩ = [false] ∧ codeOf codes ⟨0, 3⟩ = [true, false] ∧ codeOf codes ⟨0, 1⟩ = [true, true, false] ∧
      codeOf codes ⟨0, 2⟩ = [true, true, true] := by decide +kernel

/-! ## The host -/

/-- R34: the STATUS word of a codec error with OVR set. -/
theorem test_status_word : statusWord .idle ⟨true, true, true, 0x02, 0x09⟩ = 0x0009020E := by decide

/-- R381: a refused soft reset sets OVR and still writes IE. -/
theorem test_soft_reset_refused : ((on .nop [] 0 0).writeCtrl 3).ie = true ∧ ((on .nop [] 0 0).writeCtrl 3).status.ovr = true := by
  decide

/-- R132: the stores of `lz78.d`. -/
theorem test_asm : HostAsm.encoding (HostAsm.lz78D 0x1000 8 0x2000 4 4) =
    [(0x10, 0x1000), (0x14, 8), (0x18, 0x2000), (0x1C, 4), (0x20, 4), (0x0C, 0x11)] := by decide

/-- R130: a REG by name and by offset, its address, and an assertion that fails (log 18). -/
theorem test_asm_reg : HostAsm.wr (.offset 0x18) 5 = HostAsm.wr (.name .dstAddr) 5 ∧
    HostAsm.Reg.address platformDefault (.name .res6) = 0xF000004C := by decide
theorem test_asm_check :
    (after (step { State.reset with host := HostAsm.chk 0x40 2 [0, 1], mem := [(0x41, 1)] })).checksHold = true ∧
    (after (step { State.reset with host := HostAsm.chk 0x40 2 [0, 2], mem := [(0x41, 1)] })).checksHold = false := by
  decide

/-- R31, R33: a load of CTRL and of RES1. -/
theorem test_register_loads :
    (after (hostRegRead 0x04 4 { State.reset with ie := true })).rdWord = 1 ∧
    (after (hostRegRead 0x38 4 { State.reset with res := { r0 := 6, r1 := 7 } })).rdWord = 7 := by decide

/-- A read of memory nothing has written (log 4), and the canonical form after writing that value. -/
theorem test_memory_unlisted : Memory.read [] 5 = 0 ∧ Memory.write [(5, 1)] 5 [0] = [] := by decide

/-! ## Witnesses: states and operands that meet a statement's hypotheses together, one per clause at a boundary -/

/-- A machine with MEM_OK on 0x1000 to 0x10FF only. -/
def smallPlat : Platform := { platformDefault with backed := [⟨0x1000, 256⟩] }

/-- A source at the very top of the address space, with one byte too many or none. -/
def topOps (n : Word) : Operands := ⟨0xFFFFFFFF, n, 0, 0, 0, 0, 0, 0⟩

theorem wit_ResetLeavesTheStatedValues :
    State.reset.seq = .idle ∧ (2 : Word).getLsbD 1 = true ∧ (on .nop [] 0 0).busyDst.contains 5 = false := by decide

theorem wit_RegisterMapIsAsStated :
    regAt 0x4C = some .res6 ∧ RegName.id ∈ [RegName.id, .resLen, .res0, .res1, .res2, .res3, .res4, .res5, .res6] := by
  decide

theorem wit_ReservedSlotsAndBitsReadZero :
    (0x50 ≤ 0x50 ∧ 0x50 < 256 ∧ 0x50 % 4 = 0) ∧ (0x50 ≤ 0xFC ∧ 0xFC < 256 ∧ 0xFC % 4 = 0) ∧
    ((7 : Word).getLsbD 0 = (3 : Word).getLsbD 0 ∧ (7 : Word).getLsbD 1 = (3 : Word).getLsbD 1) ∧
    ((0xFF : Word).getLsbD 1 = (0x0E : Word).getLsbD 1 ∧ (0xFF : Word).getLsbD 2 = (0x0E : Word).getLsbD 2 ∧
      (0xFF : Word).getLsbD 3 = (0x0E : Word).getLsbD 3) := by decide

theorem wit_RegisterAccessIsAlignedWords :
    (4 = 4 ∧ 252 % 4 = 0 ∧ 252 < 256) ∧ ¬(4 = 4 ∧ 256 % 4 = 0 ∧ 256 < 256) ∧ ¬(4 = 4 ∧ 2 % 4 = 0 ∧ 2 < 256) ∧
    ¬(2 = 4 ∧ 0 % 4 = 0 ∧ 0 < 256) := by decide

theorem wit_OperandRegistersReadBack : RegName.arg3 ∈ operandRegs ∧ RegName.srcAddr ≠ RegName.arg3 := by decide

theorem wit_CommandStartLatchesAndClears : State.reset.seq = .idle ∧ (on .nop [] 0 0).seq = .busy := by decide

theorem wit_SoftResetIsRefusedWhileBusy :
    (1 : Word).getLsbD 1 = false ∧ (3 : Word).getLsbD 1 = true ∧ (on .nop [] 0 0).seq = .busy ∧
    State.reset.seq = .idle := by decide

/-- A running LZ78.C that the reset input is about to abandon. -/
def resetting : State := { on .lz78C fourA 8 0 with host := [.hwReset], sched := [.host] }

theorem wit_HardwareResetAbandonsTheCommand :
    resetting.turn = .host ∧ resetting.host = .hwReset :: [] ∧ resetting.busyDst.contains 0x1FFF = false ∧
    resetting.busyDst.contains 0x2000 = true ∧ resetting.busyDst.contains 0x2007 = true := by decide

theorem wit_HostMemoryAccessWhileIdle :
    (State.reset.seq = .idle ∧ (Region.mk 0xFFFFFFFF 1).wraps = false ∧
      (Region.mk 0xFFFFFFFF 1).overlaps State.reset.plat.regBlock = false ∧
      State.reset.plat.devices.any (Region.mk 0xFFFFFFFF 1).overlaps = false) ∧
    2 ^ 32 < 0xFFFFFFFF + [(1 : Byte), 2].length ∧
    (0xF00000FF + [(1 : Byte)].length ≤ 2 ^ 32 ∧
      (Region.mk 0xF00000FF [(1 : Byte)].length).overlaps State.reset.plat.regBlock = true) ∧
    ((Region.mk 0x107 [(1 : Byte)].length).overlaps { platformDefault with devices := [⟨0x100, 8⟩] }.regBlock = false ∧
      [Region.mk 0x100 8].any (Region.mk 0x107 [(1 : Byte)].length).overlaps = true) := by decide

theorem wit_DecodeAgreesWithEncode : decode 0x00000061 = .ok .regExtmap ∧ (0x00000061 : Word) = encode .regExtmap :=
  ⟨rfl, rfl⟩

theorem wit_StepRunsTheDecodedCommand :
    ((on .lz78C fourA 8 0).turn = .engine ∧ (on .lz78C fourA 8 0).seq = .busy ∧
      (on .lz78C fourA 8 0).raced = false) ∧ decode (on .lz78C fourA 8 0).latch.cmd = .ok .lz78C ∧
    (State.turn { State.reset with sched := [.engine] } = .engine ∧ State.reset.seq = .idle) :=
  ⟨by decide, rfl, by decide⟩

theorem wit_IllegalWordCompletesWithItsError :
    (busyOn 0x00000100 (opsOf 0 0 0) []).turn = .engine ∧ (busyOn 0x00000100 (opsOf 0 0 0) []).seq = .busy ∧
    (0x00000100 : Word).extractLsb' 8 24 ≠ 0 ∧
    (((0x01 : Word).extractLsb' 4 4).toNat = 0 ∧ ((0x01 : Word).extractLsb' 0 4).toNat ≠ 0) ∧
    (((0x42 : Word).extractLsb' 4 4).toNat = 4 ∧ 2 ≤ ((0x42 : Word).extractLsb' 0 4).toNat) ∧
    (((0x54 : Word).extractLsb' 4 4).toNat = 5 ∧ 4 ≤ ((0x54 : Word).extractLsb' 0 4).toNat) ∧
    (((0x62 : Word).extractLsb' 4 4).toNat = 6 ∧ 2 ≤ ((0x62 : Word).extractLsb' 0 4).toNat) ∧
    7 ≤ ((0x70 : Word).extractLsb' 4 4).toNat := by decide

/-- A busy machine in its engine's turn whose word decodes to nothing: for the clauses about illegal words. -/
theorem wit_illegal_word :
    (busyOn 0x70 (opsOf 0 0 0) []).turn = .engine ∧ (busyOn 0x70 (opsOf 0 0 0) []).seq = .busy ∧
    decode (busyOn 0x70 (opsOf 0 0 0) []).latch.cmd = .error .noSuchOp ∧
    step (busyOn 0x70 (opsOf 0 0 0) []) = .next (after (step (busyOn 0x70 (opsOf 0 0 0) []))) :=
  ⟨by decide, by decide, rfl, eq_next_after (by decide)⟩

theorem wit_EveryAcceptedCommandCompletes :
    (busyOn 0xFFFFFFFF (topOps 2) []).turn = .engine ∧ (busyOn 0xFFFFFFFF (topOps 2) []).seq = .busy := by decide

theorem wit_PolledCommandCompletes :
    State.reset.seq = .idle ∧ State.reset.sched = [] ∧
    State.host { State.reset with host := HostAsm.run 0x10 } = HostAsm.run 0x10 := by decide

/-- A completed command whose interrupt the host is about to acknowledge. -/
def pending : State :=
  { State.reset with ie := true, status := ⟨true, false, false, 0, 0⟩, host := HostAsm.ack }

theorem wit_InterruptIsALevel :
    pending.irq = true ∧ step pending = .next (after (step pending)) ∧ (after (step pending)).irq = false ∧
    (0x0E : Word).getLsbD 1 = true ∧ (0x0E : Word).getLsbD 2 = true ∧ (2 : Word).getLsbD 0 = false ∧
    pending.seq = .idle ∧ exec .nop (on .nop [] 0 0) = .next (after (exec .nop (on .nop [] 0 0))) :=
  ⟨by decide, eq_next_after (by decide), by decide, by decide, by decide, by decide, by decide,
    eq_next_after (by decide)⟩

theorem wit_RunningCommandEndsOnlyByCompletionOrReset :
    (on .nop [] 0 0).seq = .busy ∧ step (on .nop [] 0 0) = .next (after (step (on .nop [] 0 0))) ∧
    resetting.seq = .busy ∧ step resetting = .next (after (step resetting)) ∧
    State.seq { on .nop [] 0 0 with sched := [.host] } = .busy ∧
    step { on .nop [] 0 0 with sched := [.host] } = .next (after (step { on .nop [] 0 0 with sched := [.host] })) :=
  ⟨by decide, eq_next_after (by decide), by decide, eq_next_after (by decide), by decide, eq_next_after (by decide)⟩

theorem wit_HostAccessWhileBusyIsARace :
    (on .lz78C fourA 8 0).seq = .busy ∧ decode (on .lz78C fourA 8 0).latch.cmd = .ok .lz78C ∧
    (usedRegions .lz78C (on .lz78C fourA 8 0).latch.ops).any (Region.overlaps ⟨0x1003, [(7 : Byte)].length⟩) = true ∧
    (usedRegions .lz78C (on .lz78C fourA 8 0).latch.ops).any (Region.overlaps ⟨0x2007, [(7 : Byte)].length⟩) = true ∧
    (usedRegions .lz78C (on .lz78C fourA 8 0).latch.ops).any (Region.overlaps ⟨0x1004, [(7 : Byte)].length⟩) = false ∧
    State.raced { on .lz78C fourA 8 0 with raced := true } = true ∧
    State.turn { on .lz78C fourA 8 0 with raced := true } = .engine :=
  ⟨by decide, rfl, by decide, by decide, by decide, by decide, by decide⟩

/-- Commands that end without and with an error, REGION_ERROR among them. -/
theorem wit_exec_outcomes :
    (exec .lz78C (on .lz78C fourA 8 0) = .next (after (exec .lz78C (on .lz78C fourA 8 0))) ∧
      (after (exec .lz78C (on .lz78C fourA 8 0))).status.err = false) ∧
    (exec .lz78C (on .lz78C fourA 7 0) = .next (after (exec .lz78C (on .lz78C fourA 7 0))) ∧
      (after (exec .lz78C (on .lz78C fourA 7 0))).status.err = true ∧
      (after (exec .lz78C (on .lz78C fourA 7 0))).status.errcode ≠ 0x13) ∧
    (exec .regLookup (busyOn 0x60 (topOps 2) []) = .next (after (exec .regLookup (busyOn 0x60 (topOps 2) []))) ∧
      (after (exec .regLookup (busyOn 0x60 (topOps 2) []))).status.err = true ∧
      (after (exec .regLookup (busyOn 0x60 (topOps 2) []))).status.errcode = 0x13) :=
  ⟨⟨eq_next_after (by decide +kernel), by decide +kernel⟩,
    ⟨eq_next_after (by decide +kernel), by decide +kernel, by decide +kernel⟩,
    ⟨eq_next_after (by decide +kernel), by decide +kernel, by decide +kernel⟩⟩

/-- A source whose last byte is not MEM_OK. -/
def unbacked (i : Instr) : State :=
  { busyOn (encode i) ⟨0x10FE, 3, 0x1000, 8, 0, 0, 0, 0⟩ [] with plat := smallPlat }

theorem wit_SourceBusFaultIsReported :
    (unbacked .lzssC).latch.ops.src.contains 0x1100 = true ∧ (unbacked .lzssC).plat.memOk 0x1100 = false ∧
    regionsOk .regLookup (unbacked .lzssC).latch.ops = true ∧ regionsOk .regExtmap (unbacked .lzssC).latch.ops = true ∧
    regionsOk .lzssC (unbacked .lzssC).latch.ops = true := by decide

/-- The state of `test_lz78C` with other results, another status and another byte elsewhere. -/
def other : State :=
  { on .lz78C fourA 8 0 with
    mem := Memory.write (on .lz78C fourA 8 0).mem 0x3000 [9]
    res := ⟨1, 2, 3, 4, 5, 6, 7, 8⟩
    status := ⟨true, true, true, 0x12, 0⟩ }

/-- LZ78.D of three bytes that are a device's into two bytes, with originalSize 3. -/
def deviceState (m : Memory) : State :=
  { busyOn (encode .lz78D) (opsOf 3 2 3) m with plat := { platformDefault with devices := [⟨0x1000, 3⟩] } }

/-- Where the source is a device: the check before any access (R176) still comes first, and a byte that is MEM_OK is the
device's, one that is not BUS_ERROR (R84, R356; log 12). -/
theorem test_device_checks :
    (after (exec .lz78D (deviceState []))).statusReg = 0x00020206 ∧
    (deviceState []).cell 0x1002 = some (Config.deviceByte 0 0x1002) ∧
    State.cell { deviceState [] with plat := { smallPlat with devices := [⟨0x1100, 1⟩] } } 0x1100 = none :=
  ⟨by decide +kernel, rfl, rfl⟩

theorem wit_OutcomeDependsOnlyOnOperandsAndSource :
    (on .lz78C fourA 8 0).plat = other.plat ∧ (on .lz78C fourA 8 0).latch.ops = other.latch.ops ∧
    (∀ r ∈ readRegions .lz78C (on .lz78C fourA 8 0).latch.ops, ∀ x, r.contains x = true →
      (on .lz78C fourA 8 0).mem.read x = other.mem.read x) ∧
    exec .lz78C (on .lz78C fourA 8 0) = .next (after (exec .lz78C (on .lz78C fourA 8 0))) ∧
    exec .lz78C other = .next (after (exec .lz78C other)) ∧ (on .lz78C fourA 8 0).mem ≠ other.mem ∧
    (on .lz78C fourA 8 0).touchesDevice .lz78C = false ∧
    (deviceState [(0x2000, 9)]).touchesDevice .lz78D = true ∧
    (deviceState [(0x2000, 9)]).draws = (deviceState [(0x2000, 8)]).draws := by
  refine ⟨by decide, by decide, ?_, eq_next_after (by decide +kernel), eq_next_after (by decide +kernel), by decide, by decide,
    by decide, by decide⟩
  intro r hr x hx
  have hr' : r = ⟨0x1000, 4⟩ := by simpa [readRegions, uses, on, busyOn, opsOf, Operands.src, fourA] using hr
  subst hr'
  rw [Region.contains_iff] at hx
  exact (Memory.read_write_outside (by simp only at hx ⊢; omega)).symm

theorem wit_RegLookupMapsStableNames :
    (busyOn 0x60 (topOps 2) []).latch.ops.src.wraps = true ∧ (busyOn 0x60 (topOps 1) []).latch.ops.src.wraps = false ∧
    (on .regLookup nameLz78 0 0).source = some [0x4C, 0x5A, 0x37, 0x38] ∧
    (on .regLookup nameLzss 0 0).source = some [0x4C, 0x5A, 0x53, 0x53] ∧
    (on .regLookup nameLzw 0 0).source = some [0x4C, 0x5A, 0x57] ∧
    (on .regLookup nameJpeg 0 0).source = some [0x4A, 0x50, 0x45, 0x47] ∧
    (on .regLookup [] 0 0).source = some [] ∧
    (unbacked .regLookup).source = none ∧ (unbacked .regLookup).latch.ops.src.wraps = false := by decide +kernel

theorem wit_RegExtmapListsAllowedCodecs :
    (busyOn 0x61 (topOps 2) []).latch.ops.src.wraps = true ∧ (on .regExtmap extPpm 0 0).latch.ops.src.wraps = false ∧
    (on .regExtmap extPpm 0 0).source = some [0x70, 0x70, 0x6D] ∧ (on .regExtmap [] 0 0).source = some [] ∧
    (unbacked .regExtmap).source = none ∧ (unbacked .regExtmap).latch.ops.src.wraps = false := by decide +kernel

theorem wit_Lz78CompressCompletes :
    regionsOk .lz78C (on .lz78C fourA 8 0).latch.ops = true ∧ (on .lz78C fourA 8 0).source = some fourA ∧
    (on .lz78C fourA 8 0).room (lz78Encode fourA).length = true := by decide +kernel

theorem wit_LzssCompressCompletes :
    regionsOk .lzssC (on .lzssC abab 8 0).latch.ops = true ∧ (on .lzssC abab 8 0).source = some abab ∧
    (on .lzssC abab 8 0).room (lzssEncode abab).length = true := by decide +kernel

theorem wit_LzwCompressCompletes :
    regionsOk .lzwC (on .lzwC abab 8 0).latch.ops = true ∧ (on .lzwC abab 8 0).source = some abab ∧
    (on .lzwC abab 8 0).room (lzwEncode abab).length = true := by decide +kernel

/-- Every byte of the destination of `on` with 7 bytes is MEM_OK. -/
theorem dst_backed (i : Instr) (src : List Byte) (x : Nat) (h : (on i src 7 0).latch.ops.dst.contains x = true) :
    (on i src 7 0).plat.memOk x = true := by
  rw [Region.contains_iff] at h
  have h1 : 0x2000 ≤ x := h.1
  have h2 : x < 0x2000 + 7 := h.2
  show platformDefault.memOk x = true
  simp only [Platform.memOk, platformDefault, Platform.regBlock, Region.contains, List.any_cons, List.any_nil,
    Bool.or_false, Bool.and_eq_true, decide_eq_true_eq, Bool.not_eq_true', Bool.and_eq_false_iff]
  refine ⟨⟨by omega, by omega, by omega⟩, .inl (decide_eq_false ?_)⟩
  show ¬(0xF0000000 : Nat) ≤ x
  omega

theorem wit_CompressorsReportOverflow :
    (on .lz78C abab 7 0).source = some abab ∧
    (∀ x, (on .lz78C abab 7 0).latch.ops.dst.contains x = true → (on .lz78C abab 7 0).plat.memOk x = true) ∧
    regionsOk .lz78C (on .lz78C abab 7 0).latch.ops = true ∧
    (on .lz78C abab 7 0).latch.ops.dstCap.toNat < (lz78Encode abab).length ∧
    regionsOk .lzssC (on .lz78C abab 7 0).latch.ops = true ∧
    (on .lz78C abab 7 0).latch.ops.dstCap.toNat < (lzssEncode abab).length ∧
    regionsOk .lzwC (on .lz78C abab 7 0).latch.ops = true ∧
    (on .lz78C abab 7 0).latch.ops.dstCap.toNat < (lzwEncode abab).length :=
  ⟨by decide +kernel, dst_backed .lz78C abab, by decide +kernel, by decide +kernel, by decide +kernel,
    by decide +kernel, by decide +kernel, by decide +kernel⟩

theorem wit_LzssTakesTheLongestOldestMatch :
    (2 < abab.length ∧ 2 < 3) ∧ (3 < abab.length ∧ lzssToken abab 3 = .copy 2 4) ∧
    (3 < fourA.length ∧ lzssToken fourA 3 = .lit 0x41) ∧
    (3 < [(1 : Byte), 2, 3, 4, 5, 6].length ∧ 3 + 3 ≤ [(1 : Byte), 2, 3, 4, 5, 6].length ∧
      lzssToken [1, 2, 3, 4, 5, 6] 3 = .lit 4) := by decide +kernel

/-! The clauses of DecompressorEdgeCases about what stands inside a stream. The tables are full after a stream of zeros,
which memory that lists nothing holds. -/

/-- A source of `n` zero bytes at 0x1000, and originalSize and DST_CAP `m` at 0x800000. -/
def zeroState (i : Instr) (n m : Word) : State :=
  { State.reset with seq := .busy, latch := ⟨encode i, ⟨0x1000, n, 0x800000, m, m, 0, 0, 0⟩⟩ }

theorem memOk_default {a : Nat} (h : a < 0xF0000000) : platformDefault.memOk a = true := by
  have h' : ¬0xF0000000 ≤ a := by omega
  simp [Platform.memOk, platformDefault, Platform.regBlock, Region.contains]
  omega

theorem zeroState_source (i : Instr) (n m : Word) (h : 0x1000 + n.toNat ≤ 0xF0000000) :
    (zeroState i n m).source = some (List.replicate n.toNat 0) := by
  rw [source_eq_some, State.srcCells, State.cells]
  apply List.ext_getElem (by simp [zeroState, Operands.src])
  intro k hk _
  have hk : k < n.toNat := by simpa [zeroState, Operands.src] using hk
  have hm : (zeroState i n m).plat.memOk (0x1000 + k) = true := memOk_default (by omega)
  have hb : (zeroState i n m).latch.ops.src.base = 0x1000 := rfl
  have hz : (zeroState i n m).mem.read (0x1000 + k) = 0 := rfl
  have hc : (zeroState i n m).cell (0x1000 + k) = some 0 := by
    rw [cell_of_memOk hm, engineRead_memory rfl, hz]
  simp [hb, hc]

theorem zeroState_room (i : Instr) (n m : Word) (h : 0x800000 + m.toNat ≤ 0xF0000000) :
    (zeroState i n m).room m.toNat = true := by
  rw [room_iff, Sink.writable_iff]
  refine ⟨Nat.le_refl _, fun k hk => ?_⟩
  have hb : (Sink.start (zeroState i n m)).base + (Sink.start (zeroState i n m)).outlen = 0x800000 := rfl
  rw [hb]
  exact memOk_default (by omega)

theorem flatMap_replicate {α β : Type} {f : α → List β} {k : Nat} {x : α} {y : β} (h : f x = List.replicate k y)
    (n : Nat) : (List.replicate n x).flatMap f = List.replicate (k * n) y := by
  induction n with
  | zero => simp
  | succ n ih =>
    rw [List.replicate_succ, List.flatMap_cons, ih, h, List.replicate_append_replicate, Nat.mul_succ, Nat.add_comm]

/-- A full table: 32766 records of LZ78 and one more; 32512 codes of LZW and one more. -/
theorem wit_DecompressorEdgeCases_full :
    ((zeroState .lz78D 98301 32766).Reads .lz78D
        ((List.replicate 32766 (0 : Byte)).flatMap (fun b => [0x00, 0x00, b]) ++ be16 0 ++ [0x00]) ∧
      (zeroState .lz78D 98301 32766).room 32766 = true ∧ (List.replicate 32766 (0 : Byte)).length = 32766) ∧
    ((zeroState .lzwD 65026 32512).Reads .lzwD
        ((List.replicate 32512 (0 : Byte)).flatMap (fun b => [0x00, b]) ++ be16 0 ++ []) ∧
      (zeroState .lzwD 65026 32512).room 32512 = true ∧ (List.replicate 32512 (0 : Byte)).length = 32512) := by
  have h3 : ([0x00, 0x00, 0x00] : List Byte) = List.replicate 3 0 := rfl
  have h2 : ([0x00, 0x00] : List Byte) = List.replicate 2 0 := rfl
  have e3 := flatMap_replicate (f := fun b : Byte => [0x00, 0x00, b]) h3 32766
  have e2 := flatMap_replicate (f := fun b : Byte => [0x00, b]) h2 32512
  refine ⟨⟨⟨by decide, ?_⟩, zeroState_room _ _ 32766 (by decide), List.length_replicate⟩,
    ⟨⟨by decide, ?_⟩, zeroState_room _ _ 32512 (by decide), List.length_replicate⟩⟩
  · rw [zeroState_source _ 98301 _ (by decide), e3, show be16 0 = List.replicate 2 0 from rfl,
      List.replicate_append_replicate, show [(0x00 : Byte)] = List.replicate 1 0 from rfl,
      List.replicate_append_replicate]
    exact congrArg (fun k => some (List.replicate k 0)) (by decide)
  · rw [zeroState_source _ 65026 _ (by decide), e2, show be16 0 = List.replicate 2 0 from rfl,
      List.replicate_append_replicate, List.append_nil]
    exact congrArg (fun k => some (List.replicate k 0)) (by decide)

/-- A code one above the table, a trailing byte, an offset one past the start, another originalSize, a cut stream, and
sentinels alone. -/
theorem wit_DecompressorEdgeCases_streams :
    ((on .lz78D [0x00, 0x00, 0x41, 0x00, 0x02] 1 1).source =
        some ([0x41].flatMap (fun b => [0x00, 0x00, b]) ++ be16 2 ++ []) ∧
      (on .lz78D [0x00, 0x00, 0x41, 0x00, 0x02] 1 1).room 1 = true ∧
      regionsOk .lz78D (on .lz78D [0x00, 0x00, 0x41, 0x00, 0x02] 1 1).latch.ops = true) ∧
    (on .lz78D [0x00, 0x00, 0x41, 0x09] 1 1).source = some ([0x41].flatMap (fun b => [0x00, 0x00, b]) ++ [0x09]) ∧
    (on .lzwD [0x00, 0x41, 0x01, 0x01] 1 1).source = some ([0x41].flatMap (fun b => [0x00, b]) ++ be16 257 ++ []) ∧
    (on .lzwD [0x00, 0x41, 0x09] 1 1).source = some ([0x41].flatMap (fun b => [0x00, b]) ++ [0x09]) ∧
    ((on .lzssD [0x40, 0x41, 0x00, 0x20] 1 1).source = some ([0x40] ++ [0x41] ++ be16 0x20 ++ []) ∧
      (0x40 : Byte).getLsbD 7 = false ∧ (0x40 : Byte).getLsbD 6 = true) ∧
    ((on .lz78D (lz78Encode fourA) 3 3).latch.ops.arg0.toNat ≠ fourA.length ∧
      (on .lz78D (lz78Encode fourA) 3 3).room 3 = true ∧
      (on .lz78D (lz78Encode fourA) 3 3).source = some (lz78Encode fourA) ∧
      (on .lzssD (lzssEncode fourA) 5 5).source = some (lzssEncode fourA) ∧
      (on .lzwD (lzwEncode fourA) 5 5).source = some (lzwEncode fourA)) ∧
    (6 < (lzssEncode fourA).length ∧
      (on .lzssD ((lzssEncode fourA).take 6) 4 4).source = some ((lzssEncode fourA).take 6)) ∧
    ((on .lz78D [0x7F, 0xFF, 0x7F, 0xFF] 0 0).source = some (List.replicate 2 [0x7F, 0xFF]).flatten ∧
      (on .lzwD [0x7F, 0xFF, 0x7F, 0xFF] 0 0).source = some (List.replicate 2 [0x7F, 0xFF]).flatten) := by
  decide +kernel

theorem wit_NopCompletes : State.reset.status.ovr = false := by rfl

theorem wit_ZigzagIsUndone : (List.replicate 64 (1 : Int)).length = 64 := by decide

/-- Boundary values of each clause: a region that ends at 2^32 and one byte past it, regions that touch and share one
byte, the codec name likewise. -/
theorem wit_RegionErrorExactlyWhenIllFormed :
    regionsOk .lz78C ⟨0xFFFFFFF0, 16, 0, 8, 0, 0, 0, 0⟩ = true ∧
    regionsOk .lz78C ⟨0xFFFFFFF0, 17, 0, 8, 0, 0, 0, 0⟩ = false ∧
    regionsOk .hdrPatch ⟨0, 0, 0xFFFFFFF0, 16, 0, 0, 0, 0⟩ = true ∧
    regionsOk .hdrPatch ⟨0, 0, 0xFFFFFFF0, 17, 0, 0, 0, 0⟩ = false ∧
    regionsOk .lz78C ⟨0x100, 16, 0x110, 8, 0, 0, 0, 0⟩ = true ∧
    regionsOk .lz78C ⟨0x100, 16, 0x10F, 8, 0, 0, 0, 0⟩ = false ∧
    regionsOk .hdrEfile ⟨0, 1, 0x110, 8, 0, 0, 0x100, 16⟩ = true ∧
    regionsOk .hdrEfile ⟨0, 1, 0x10F, 8, 0, 0, 0x100, 16⟩ = false ∧
    regionsOk .hdrEfile ⟨0, 1, 0x110, 8, 0, 0, 0xFFFFFFF0, 17⟩ = false ∧
    regionsOk .nop ⟨0xFFFFFFF0, 17, 0xFFFFFFF0, 17, 0, 0, 0, 0⟩ = true := by decide

theorem wit_DecompressorEdgeCases :
    ((on .lz78D [] 3 4).latch.ops.dstCap.toNat < (on .lz78D [] 3 4).latch.ops.arg0.toNat ∧
      regionsOk .lz78D (on .lz78D [] 3 4).latch.ops = true ∧ regionsOk .lzssD (on .lz78D [] 3 4).latch.ops = true ∧
      regionsOk .lzwD (on .lz78D [] 3 4).latch.ops = true) ∧
    ((on .lz78D [] 4 4).latch.ops.arg0.toNat ≤ (on .lz78D [] 4 4).latch.ops.dstCap.toNat ∧
      (on .lz78D [] 4 4).latch.ops.srcLen = 0 ∧ (on .lz78D [] 4 4).latch.ops.arg0 ≠ 0 ∧
      regionsOk .lz78D (on .lz78D [] 4 4).latch.ops = true) ∧
    ((on .lz78D [] 0 0).latch.ops.arg0 = 0 ∧ (on .lz78D [] 0 0).latch.ops.srcLen = 0 ∧
      regionsOk .lzwD (on .lz78D [] 0 0).latch.ops = true) ∧
    (regionsOk .lzssD (on .lzssD [0x80, 0x00, 0x00] 0 0).latch.ops = true ∧
      (on .lzssD [0x80, 0x00, 0x00] 0 0).source = some [0x80, 0x00, 0x00] ∧
      (on .lzssD [0x80, 0x00, 0x00] 0 0).latch.ops.arg0 = 0) := by decide +kernel

theorem wit_DecompressorsInvertTheStreams :
    (let s := on .lz78D [0x00, 0x00, 0x41, 0x00, 0x01, 0x41, 0x00, 0x01] 4 4
     s.latch.ops.arg0.toNat = fourA.length ∧ s.room fourA.length = true ∧ regionsOk .lz78D s.latch.ops = true ∧
       s.source = some (lz78Encode fourA)) ∧
    (let s := on .lzssD (lzssEncode abab) 7 7
     s.latch.ops.arg0.toNat = abab.length ∧ s.room abab.length = true ∧ regionsOk .lzssD s.latch.ops = true ∧
       s.dstOrdinary = true ∧ s.source = some (lzssEncode abab)) ∧
    (let s := on .lzwD (lzwEncode abab) 7 7
     s.latch.ops.arg0.toNat = abab.length ∧ s.room abab.length = true ∧ regionsOk .lzwD s.latch.ops = true ∧
       s.source = some (lzwEncode abab)) := by decide +kernel

theorem wit_Lz78RoundTrip :
    let s := on .lz78C fourA 8 0
    let t := after (exec .lz78C s)
    let u := on .lz78D (output t) 4 4
    s.source = some fourA ∧ exec .lz78C s = .next t ∧ t.status.err = false ∧
    u.source = some (t.mem.readRegion ⟨s.latch.ops.dstAddr.toNat, t.res.len.toNat⟩) ∧
    regionsOk .lz78D u.latch.ops = true ∧ u.latch.ops.arg0.toNat = fourA.length ∧ u.room fourA.length = true :=
  ⟨by decide +kernel, eq_next_after (by decide +kernel), by decide +kernel, by decide +kernel, by decide +kernel,
    by decide +kernel, by decide +kernel⟩

theorem wit_LzssRoundTrip :
    let s := on .lzssC abab 8 0
    let t := after (exec .lzssC s)
    let u := on .lzssD (output t) 7 7
    s.source = some abab ∧ exec .lzssC s = .next t ∧ t.status.err = false ∧
    u.source = some (t.mem.readRegion ⟨s.latch.ops.dstAddr.toNat, t.res.len.toNat⟩) ∧
    regionsOk .lzssD u.latch.ops = true ∧ u.dstOrdinary = true ∧ u.latch.ops.arg0.toNat = abab.length ∧
    u.room abab.length = true :=
  ⟨by decide +kernel, eq_next_after (by decide +kernel), by decide +kernel, by decide +kernel, by decide +kernel,
    by decide +kernel, by decide +kernel, by decide +kernel⟩

theorem wit_LzwRoundTrip :
    let s := on .lzwC abab 8 0
    let t := after (exec .lzwC s)
    let u := on .lzwD (output t) 7 7
    s.source = some abab ∧ exec .lzwC s = .next t ∧ t.status.err = false ∧
    u.source = some (t.mem.readRegion ⟨s.latch.ops.dstAddr.toNat, t.res.len.toNat⟩) ∧
    regionsOk .lzwD u.latch.ops = true ∧ u.latch.ops.arg0.toNat = abab.length ∧ u.room abab.length = true :=
  ⟨by decide +kernel, eq_next_after (by decide +kernel), by decide +kernel, by decide +kernel, by decide +kernel,
    by decide +kernel, by decide +kernel⟩

theorem wit_HdrEfileEncodesFileHeader :
    let s := efileState 20
    let name : List Byte := [0x61, 0x2E, 0x74, 0x78, 0x74]
    let codec : List Byte := [0x4C, 0x5A, 0x37, 0x38]
    regionsOk .hdrEfile s.latch.ops = true ∧ s.source = some name ∧ s.codecName = some codec ∧
    (s.latch.ops.arg0.toNat < 2 ^ 31 ∧ s.latch.ops.arg1.toNat < 2 ^ 31 ∧ name ≠ [] ∧ (0 : Byte) ∉ name ∧
      (0 : Byte) ∉ codec) ∧ s.room 20 = true ∧
    (efileState 19).latch.ops.dstCap.toNat < 11 + name.length + codec.length ∧
    (on .hdrEfile [0] 20 0).source = some [0] ∧ (on .hdrEfile [0] 20 0).codecName = some [] ∧
    regionsOk .hdrEfile (on .hdrEfile [0] 20 0).latch.ops = true := by decide +kernel

/-- A header command with the name byte 0x61 at 0x10FF, the last address that is MEM_OK: the room that ends there, the
byte after it, and a name or codec name that reaches past it. -/
def headerSmall (i : Instr) (o : Operands) : State :=
  { busyOn (encode i) o (Memory.write [] 0x10FF [0x61]) with plat := smallPlat }

/-- The clauses about a destination byte and about name and codec-name bytes that are not MEM_OK or are 0x00. -/
theorem wit_HdrEfileEncodesFileHeader_bytes :
    (let s := headerSmall .hdrEfile ⟨0x10FF, 1, 0x10F4, 11, 0, 0, 0x10FF, 0⟩
     regionsOk .hdrEfile s.latch.ops = true ∧ s.source = some [0x61] ∧ s.codecName = some []) ∧
    (let s := headerSmall .hdrEfile ⟨0x10FF, 1, 0x1100, 12, 0, 0, 0x10FF, 0⟩
     regionsOk .hdrEfile s.latch.ops = true ∧ s.source = some [0x61] ∧ s.codecName = some [] ∧
       12 ≤ s.latch.ops.dstCap.toNat ∧ s.room 12 = false) ∧
    (let s := headerSmall .hdrEfile ⟨0x10FF, 1, 0x1000, 12, 0, 0, 0x1100, 1⟩
     regionsOk .hdrEfile s.latch.ops = true ∧ s.latch.ops.srcLen ≠ 0 ∧
       s.srcCells ++ s.cells s.latch.ops.codec = [0x61].map some ++ none :: []) ∧
    (let s := headerSmall .hdrEfile ⟨0x10FF, 1, 0x1000, 12, 0, 0, 0x10FE, 1⟩
     regionsOk .hdrEfile s.latch.ops = true ∧
       s.srcCells ++ s.cells s.latch.ops.codec = [0x61].map some ++ some 0x00 :: []) ∧
    (let s := headerSmall .hdrEfile ⟨0x1100, 1, 0x1000, 12, 0, 0x80000000, 0x1100, 1⟩
     regionsOk .hdrEfile s.latch.ops = true ∧ 2 ^ 31 ≤ s.latch.ops.arg1.toNat) := by decide +kernel

theorem wit_HdrEfoldEncodesFolderHeader_bytes :
    (let s := headerSmall .hdrEfold ⟨0x10FF, 1, 0x1100, 7, 0, 0, 0, 0⟩
     regionsOk .hdrEfold s.latch.ops = true ∧ s.source = some [0x61] ∧ 7 ≤ s.latch.ops.dstCap.toNat ∧
       s.room 7 = false) ∧
    (let s := headerSmall .hdrEfold ⟨0x10FF, 2, 0x1000, 8, 0, 0, 0, 0⟩
     regionsOk .hdrEfold s.latch.ops = true ∧ s.latch.ops.srcLen ≠ 0 ∧ s.srcCells = [0x61].map some ++ none :: []) ∧
    (let s := headerSmall .hdrEfold ⟨0x10FE, 2, 0x1000, 8, 0, 0, 0, 0⟩
     regionsOk .hdrEfold s.latch.ops = true ∧ s.srcCells = [].map some ++ some 0x00 :: [some 0x61]) ∧
    (let s := headerSmall .hdrEfold ⟨0x1100, 0, 0x1000, 8, 0, 0, 0, 0⟩
     regionsOk .hdrEfold s.latch.ops = true ∧ s.latch.ops.srcLen = 0) := by decide +kernel

theorem wit_HdrEfoldEncodesFolderHeader :
    let s := on .hdrEfold [0x64] 7 0x7FFFFFFF
    regionsOk .hdrEfold s.latch.ops = true ∧ s.source = some [0x64] ∧ s.latch.ops.arg0.toNat < 2 ^ 31 ∧ s.room 7 = true ∧
    (on .hdrEfold [0x64] 6 0).latch.ops.dstCap.toNat < 6 + 1 ∧ (on .hdrEfold [0x64] 6 0).source = some [0x64] ∧
    regionsOk .hdrEfold (on .hdrEfold [0x64] 6 0).latch.ops = true ∧
    (on .hdrEfold [] 7 0).source = some [] ∧ regionsOk .hdrEfold (on .hdrEfold [] 7 0).latch.ops = true := by
  decide +kernel

theorem wit_HdrDecDecodesExactlyValidHeaders :
    ((on .hdrDec (folderHeader 38 [0x61] ++ [7]) 0 0).latch.ops.src.wraps = false ∧
      (on .hdrDec (folderHeader 38 [0x61] ++ [7]) 0 0).source = some ([0xFF] ++ be32 38 ++ [0x61] ++ [0x00] ++ [7])) ∧
    ((on .hdrDec (fileHeader 38 [0x61] 0x7FFFFFFF []) 0 0).latch.ops.src.wraps = false ∧
      (on .hdrDec (fileHeader 38 [0x61] 0x7FFFFFFF []) 0 0).source =
        some ([0x00] ++ be32 38 ++ [0x61] ++ [0x00] ++ be32 0x7FFFFFFF ++ [] ++ [0x00] ++ [])) ∧
    ((0 : Byte) ∉ [(0x61 : Byte)] ∧ (38 : Word).toNat < 2 ^ 31 ∧ (0x7FFFFFFF : Word).toNat < 2 ^ 31) := by
  decide +kernel

/-- A source that begins with no valid header. -/
theorem wit_HdrDecDecodesExactlyValidHeaders_invalid :
    (on .hdrDec [] 0 0).source = some [] ∧
    (¬∃ (size : Word) (name rest : List Byte), [] = [0xFF] ++ be32 size ++ name ++ [0x00] ++ rest ∧
      size.toNat < 2 ^ 31 ∧ name ≠ [] ∧ (0 : Byte) ∉ name) ∧
    (¬∃ (size : Word) (name : List Byte) (orig : Word) (codec rest : List Byte),
      [] = [0x00] ++ be32 size ++ name ++ [0x00] ++ be32 orig ++ codec ++ [0x00] ++ rest ∧ size.toNat < 2 ^ 31 ∧
      orig.toNat < 2 ^ 31 ∧ name ≠ [] ∧ (0 : Byte) ∉ name ∧ (0 : Byte) ∉ codec) :=
  ⟨by decide +kernel, by rintro ⟨_, _, _, h, -⟩; simp at h, by rintro ⟨_, _, _, _, _, h, -⟩; simp at h⟩

/-- HDR.PATCH at offset 0 of nine bytes at `dst`, the first one `tag`, on a platform with MEM_OK on 0x1000 to 0x10FF. -/
def patchSmall (dst : Word) (tag : Byte) : State :=
  { busyOn (encode .hdrPatch) ⟨0, 0, dst, 9, 38, 0, 0, 0⟩ (Memory.write [] dst.toNat [tag]) with plat := smallPlat }

theorem wit_HdrPatchRewritesTheSize :
    ((patchState 38 4).latch.ops.dst.wraps = false ∧
      (patchState 38 4).latch.ops.arg1.toNat + 5 ≤ (patchState 38 4).latch.ops.dstCap.toNat ∧
      (patchState 38 4).latch.ops.arg0.toNat < 2 ^ 31 ∧ (patchState 38 4).engineRead 0x2004 = 0x00 ∧
      ∀ k, k < 5 → (patchState 38 4).plat.memOk (0x2004 + k) = true) ∧
    ((patchState 38 5).latch.ops.dst.wraps = false ∧
      (patchState 38 5).latch.ops.dstCap.toNat < (patchState 38 5).latch.ops.arg1.toNat + 5) ∧
    2 ^ 31 ≤ (patchState 0x80000000 0).latch.ops.arg0.toNat ∧
    Region.wraps (Operands.dst ⟨0, 0, 0xFFFFFFFF, 2, 0, 0, 0, 0⟩) = true ∧
    ((patchSmall 0x1100 0xFF).latch.ops.dst.wraps = false ∧ (patchSmall 0x1100 0xFF).plat.memOk 0x1100 = false) ∧
    ((patchSmall 0x1000 0x61).plat.memOk 0x1000 = true ∧
      ¬((patchSmall 0x1000 0x61).engineRead 0x1000 = 0x00 ∨ (patchSmall 0x1000 0x61).engineRead 0x1000 = 0xFF)) ∧
    ((patchSmall 0x10FC 0xFF).plat.memOk 0x10FC = true ∧ (patchSmall 0x10FC 0xFF).engineRead 0x10FC = 0xFF ∧
      ¬∀ k, k < 5 → (patchSmall 0x10FC 0xFF).plat.memOk (0x10FC + k) = true) := by
  decide +kernel

theorem wit_HeaderRoundTrip :
    let s := efileState 20
    let t := after (exec .hdrEfile s)
    let u := on .hdrDec (output t) 0 0
    let v := on .hdrDec ((output t).take 19) 0 0
    s.source = some [0x61, 0x2E, 0x74, 0x78, 0x74] ∧ s.codecName = some [0x4C, 0x5A, 0x37, 0x38] ∧
    exec .hdrEfile s = .next t ∧ t.status.err = false ∧ u.latch.ops.src.wraps = false ∧
    u.source = some (t.mem.readRegion ⟨s.latch.ops.dstAddr.toNat, t.res.len.toNat⟩) ∧ 19 < t.res.len.toNat ∧
    v.latch.ops.src.wraps = false ∧
    v.source = some ((t.mem.readRegion ⟨s.latch.ops.dstAddr.toNat, t.res.len.toNat⟩).take 19) :=
  ⟨by decide +kernel, by decide +kernel, eq_next_after (by decide +kernel), by decide +kernel, by decide +kernel,
    by decide +kernel, by decide +kernel, by decide +kernel, by decide +kernel⟩

theorem wit_HeaderRoundTrip_invalid :
    (on .hdrDec ([0xFF] ++ be32 0x80000000 ++ []) 0 0).source = some ([0xFF] ++ be32 0x80000000 ++ []) ∧
    2 ^ 31 ≤ (0x80000000 : Word).toNat ∧ (on .hdrDec ([0xFF] ++ be32 0x80000000 ++ []) 0 0).latch.ops.src.wraps = false ∧
    (on .hdrDec ([0xFF] ++ be32 1 ++ [0x00] ++ []) 0 0).source = some ([0xFF] ++ be32 1 ++ [0x00] ++ []) ∧
    (on .hdrDec ([0xFF] ++ be32 1 ++ [0x00] ++ []) 0 0).latch.ops.src.wraps = false := by decide +kernel

theorem wit_HeaderRoundTrip_folder :
    let s := on .hdrEfold [0x64] 7 0
    let t := after (exec .hdrEfold s)
    let u := on .hdrDec (output t) 0 0
    s.source = some [0x64] ∧ exec .hdrEfold s = .next t ∧ t.status.err = false ∧ u.latch.ops.src.wraps = false ∧
    u.source = some (t.mem.readRegion ⟨s.latch.ops.dstAddr.toNat, t.res.len.toNat⟩) :=
  ⟨by decide +kernel, eq_next_after (by decide +kernel), by decide +kernel, by decide +kernel, by decide +kernel⟩

/-- JPEG.C of the gray image into five bytes, the last of which is not MEM_OK. -/
def grayToSmall : State :=
  { busyOn (encode .jpegC) ⟨0x1000, 203, 0x10FC, 5, 0, 0, 0, 0⟩ (Memory.write [] 0x1000 grayFile) with
    plat := { platformDefault with backed := [⟨0x1000, 256⟩] } }

/-- An append of bytes one at a time is BUS_ERROR at the byte with room that is not MEM_OK, whatever follows it, and
DST_OVERFLOW where the room ends before that byte (R96, R300). -/
theorem test_putEach :
    (Sink.start grayToSmall).putEach grayContainer = .error .busError ∧
    (Sink.start { grayToSmall with latch := ⟨0x40, ⟨0x1000, 203, 0x10FC, 4, 0, 0, 0, 0⟩⟩ }).putEach grayContainer =
      .error .dstOverflow :=
  ⟨Sink.putEach_error.mpr (.inl ⟨by decide +kernel, rfl⟩),
    Sink.putEach_error.mpr (.inr ⟨by decide +kernel, by decide +kernel, rfl⟩)⟩

theorem wit_JpegCompressCompletes :
    regionsOk .jpegC grayState.latch.ops = true ∧ parsePpm grayState.plat.maxPixels grayState.srcCells = .ok grayImage ∧
    grayState.room (jpegEncode grayState.plat grayImage).length = true ∧
    (regionsOk .jpegC (on .jpegC grayFile 7 0).latch.ops = true ∧
      (on .jpegC grayFile 7 0).srcCells = grayState.srcCells ∧
      (on .jpegC grayFile 7 0).latch.ops.dstCap.toNat < (jpegEncode platformDefault grayImage).length ∧
      ∀ k, k < 7 → (on .jpegC grayFile 7 0).plat.memOk (0x2000 + k) = true) ∧
    (regionsOk .jpegC grayToSmall.latch.ops = true ∧ grayToSmall.srcCells = grayState.srcCells ∧
      4 < (jpegEncode platformDefault grayImage).length ∧ 4 < grayToSmall.latch.ops.dstCap.toNat ∧
      grayToSmall.latch.ops.dstCap.toNat < (jpegEncode platformDefault grayImage).length ∧
      grayToSmall.plat.memOk (0x10FC + 4) = false) ∧
    parsePpm 1048576 (on .jpegC fourA 48 0).srcCells = .error .badImageHeader := by
  rw [show grayState.plat = platformDefault from rfl, test_gray_container]
  refine ⟨by decide +kernel, gray_source, by decide +kernel, ⟨by decide +kernel, by decide +kernel, by decide +kernel,
    by decide +kernel⟩, ⟨by decide +kernel, by decide +kernel, by decide +kernel, by decide +kernel, by decide +kernel,
    by decide +kernel⟩, rfl⟩

/-- The outcome of JPEG.D's parse of the gray container, without its error cases. -/
def grayParsed : ContainerHeader × List ChannelDec × List SrcCell :=
  match parseContainer 1048576 (grayContainer.map some) with
  | .ok r => r
  | .error _ => (⟨0, 0, 0, 0, 0, []⟩, [], [])

theorem wit_JpegDecompressCompletes :
    regionsOk .jpegD (on .jpegD grayContainer 203 0).latch.ops = true ∧
    parseContainer 1048576 (on .jpegD grayContainer 203 0).srcCells = .ok grayParsed ∧
    (on .jpegD grayContainer 203 0).room
      (imageFile platformDefault grayParsed.1.width grayParsed.1.height grayParsed.1.maxVal
        (grayParsed.2.1.map (·.coeffs))).length = true ∧
    (on .jpegD grayContainer 7 0).latch.ops.dstCap.toNat <
      (imageFile platformDefault grayParsed.1.width grayParsed.1.height grayParsed.1.maxVal
        (grayParsed.2.1.map (·.coeffs))).length ∧
    parseContainer 1048576 (on .jpegD fourA 48 0).srcCells = .error .badImageHeader :=
  ⟨by decide +kernel, eq_ok_of_endsWith (by decide +kernel), by decide +kernel, by decide +kernel, rfl⟩

theorem wit_WrittenImageHeaderParses :
    grayImage.wf ∧ grayImage.width < 2 ^ 31 ∧ grayImage.height < 2 ^ 31 ∧ grayImage.width * grayImage.height ≤ 64 ∧
    63 < grayImage.width * grayImage.height ∧ 191 < grayImage.px.length := by
  refine ⟨⟨?_, ?_, ?_, ?_, ?_⟩, ?_, ?_, ?_, ?_, ?_⟩ <;> decide +kernel

theorem wit_RunLengthPairsCoverTheBlock :
    (List.replicate 64 (0 : Int)).length = 64 ∧ (List.replicate 128 (7 : Int)).length = 64 * 2 := by decide +kernel

theorem wit_HuffmanCodesArePrefixFree :
    [(⟨0, 1⟩ : Pair), ⟨0, 2⟩] ≠ [] ∧ (⟨0, 1⟩ : Pair) ∈ [(⟨0, 1⟩ : Pair), ⟨0, 2⟩] ∧
    (⟨0, 2⟩ : Pair) ∈ [(⟨0, 1⟩ : Pair), ⟨0, 2⟩] ∧ (⟨0, 1⟩ : Pair) ≠ ⟨0, 2⟩ ∧
    (∀ t ∈ [(⟨15, 0⟩ : Pair), ⟨15, 0⟩], t = ⟨15, 0⟩) := by decide

theorem wit_EntropyStageIsLossless :
    1 ≤ 1 ∧ (-2147483648 :: List.replicate 63 (2147483647 : Int)).length = 64 * 1 ∧
    (∀ c ∈ (-2147483648 :: List.replicate 63 (2147483647 : Int)), -2147483648 ≤ c ∧ c ≤ 2147483647) := by
  decide +kernel

theorem wit_JpegRoundTripKeepsDimensions :
    let t := grayState.complete
      (codecFinish ((Sink.start grayState).extend grayContainer) grayState.latch.ops.srcLen.toNat
        (.imgEnc (planesOf grayState.plat grayImage) (encodeChannels grayState.plat grayImage)))
    let u := on .jpegD grayContainer 203 0
    parsePpm grayState.plat.maxPixels grayState.srcCells = .ok grayImage ∧ exec .jpegC grayState = .next t ∧
    t.status.err = false ∧ t.res.len.toNat < 2 ^ 31 ∧
    u.source = some (t.mem.readRegion ⟨grayState.latch.ops.dstAddr.toNat, t.res.len.toNat⟩) ∧
    grayImage.width * grayImage.height ≤ u.plat.maxPixels ∧ regionsOk .jpegD u.latch.ops = true ∧
    u.room (imageFile u.plat grayImage.width grayImage.height grayImage.maxVal
      (imageCoeffs grayState.plat grayImage)).length = true := by
  refine ⟨gray_source, gray_exec, by decide +kernel, by decide +kernel, by decide +kernel, by decide +kernel,
    by decide +kernel, ?_⟩
  rw [imageCoeffs, show grayState.plat = platformDefault from rfl, gray_channels]
  decide +kernel

theorem wit_MidGrayIsReproduced :
    (platformDefault.colourFwd = colourFwdDefault ∧ 1 ≤ 1 ∧ 1 ≤ 9) ∧
    (platformDefault.colourInv = colourInvDefault ∧ platformDefault.qtable = qtableDefault ∧
      platformDefault.roundHalf = .away ∧ 1 ≤ 8 ∧ 8 % 8 = 0 ∧ 1 ≤ 16 ∧ 16 % 8 = 0) := by decide

theorem wit_RoundIsToNearest :
    (F64.exp ⟨5, 0⟩ = ((0 : Nat) : Int)) ∧ (F64.exp ⟨-5, -1⟩ = -((1 : Nat) : Int)) ∧
    2 * ((-5 : Int) - F64.round .away ⟨-5, -1⟩ * 2 ^ 1).natAbs = 2 ^ 1 := by decide

theorem wit_Binary64RoundsToNearestEven :
    (F64.mk 3 0).man ≠ 0 ∧
    2 * ((2 ^ 54 + 2 : Int) - (F64.roundTo53 (2 ^ 54 + 2) 0).man * 2 ^ 2).natAbs = 2 ^ 2 := by decide +kernel

/-- The invariant and a step from a state that has it: the reset state, and a running command. -/
theorem wit_StepKeepsTheInvariant :
    (on .lz78C fourA 8 0).Inv ∧ step (on .lz78C fourA 8 0) = .next (after (step (on .lz78C fourA 8 0))) :=
  ⟨⟨by decide +kernel, fun _ => ⟨rfl, rfl, rfl, rfl, rfl⟩, fun _ => rfl, fun h => (nomatch h), by decide,
    fun h => (nomatch h)⟩, eq_next_after (by decide +kernel)⟩

theorem wit_ParametersAndOperandsAreTheHosts :
    step { State.reset with host := HostAsm.wr (.name .arg3) 7 } =
      .next (after (step { State.reset with host := HostAsm.wr (.name .arg3) 7 })) ∧
    (after (step { State.reset with host := HostAsm.wr (.name .arg3) 7 })).ops ≠ State.reset.ops :=
  ⟨eq_next_after (by decide), by decide⟩

/-! ## The archive layout (95_test_vectors T-SRC-3, R339) -/

/-- The tree of T-SRC-3. -/
def srcTree : Archive :=
  .folder [0x74, 0x6F, 0x70]
    (.folder [0x65, 0x6D, 0x70, 0x74, 0x79] .done
      (.file [0x61, 0x2E, 0x74, 0x78, 0x74] 4 [0x4C, 0x5A, 0x53, 0x53] [0x08, 0x41, 0x41, 0x41, 0x41, 0x00, 0x00] .done))
    .done

/-- The 47 bytes of T-SRC-3 after the size field of "top". -/
def srcTail : List Byte :=
  [0x74, 0x6F, 0x70, 0x00, 0xFF, 0x00, 0x00, 0x00, 0x00, 0x65, 0x6D, 0x70, 0x74, 0x79, 0x00,
   0x00, 0x00, 0x00, 0x00, 0x07, 0x61, 0x2E, 0x74, 0x78, 0x74, 0x00, 0x00, 0x00, 0x00, 0x04,
   0x4C, 0x5A, 0x53, 0x53, 0x00, 0x08, 0x41, 0x41, 0x41, 0x41, 0x00, 0x00]

theorem test_archive_bytes : srcTree.bytes = [0xFF, 0x00, 0x00, 0x00, 0x26] ++ srcTail := by decide +kernel
/-- The content tree of T-SRC-3, packed with LZSS (R334, R335). -/
theorem test_archive_pack :
    FileTree.archive platformDefault (.folder [0x74, 0x6F, 0x70] (.folder [0x65, 0x6D, 0x70, 0x74, 0x79] .done
      (.file [0x61, 0x2E, 0x74, 0x78, 0x74] [0x4C, 0x5A, 0x53, 0x53] fourA .done)) .done) = some srcTree := by
  decide +kernel
theorem test_archive_unpack : unpackFile ([0xFF, 0x00, 0x00, 0x00, 0x26] ++ srcTail) = some srcTree := by decide +kernel

/-- An unpatched placeholder with entries behind it is corrupt. -/
theorem test_archive_placeholder : unpackFile ([0xFF, 0x00, 0x00, 0x00, 0x00] ++ srcTail) = none := by decide +kernel

end Sys2Proof.Tests
end

namespace Sys2Proof.Machine

/-! ## A magnitude under the sign of its number -/

theorem withSign_of_neg {m : Int} (h : m < 0) (n : Nat) : withSign m n = -(n : Int) := if_pos h

theorem withSign_of_nonneg {m : Int} (h : 0 ≤ m) (n : Nat) : withSign m n = n := if_neg (by omega)

@[simp] theorem withSign_natAbs (m : Int) (n : Nat) : (withSign m n).natAbs = n := by
  unfold withSign
  split <;> omega

@[simp] theorem withSign_zero (m : Int) : withSign m 0 = 0 := by
  unfold withSign
  split <;> rfl

theorem withSign_self (m : Int) : withSign m m.natAbs = m := by
  unfold withSign
  split <;> omega

theorem withSign_mod_two (m : Int) {n : Nat} (h : n % 2 = 0) : withSign m n % 2 = 0 := by
  have := withSign_natAbs m n
  omega

theorem withSign_withSign (m : Int) {q : Nat} (n : Nat) (h : 0 < q) : withSign (withSign m q) n = withSign m n := by
  rcases Int.lt_or_le m 0 with hm | hm
  · rw [withSign_of_neg hm, withSign_of_neg hm, withSign_of_neg (by omega)]
  · rw [withSign_of_nonneg hm, withSign_of_nonneg hm, withSign_of_nonneg (by omega)]

theorem withSign_eq_sign_mul {m : Int} (h : m ≠ 0) (n : Nat) : withSign m n = m.sign * n := by
  rcases Int.lt_or_gt_of_ne h with hm | hm
  · rw [withSign_of_neg hm, Int.sign_eq_neg_one_of_neg hm]
    omega
  · rw [withSign_of_nonneg (Int.le_of_lt hm), Int.sign_eq_one_of_pos hm]
    omega

/-- A multiple put under the sign of a number is as far from the number as the magnitudes are from each other. -/
theorem natAbs_sub_withSign (m : Int) (n : Nat) (p : Int) :
    (m - withSign m n * p).natAbs = (m.natAbs - n * p).natAbs := by
  rcases Int.lt_or_le m 0 with h | h
  · rw [withSign_of_neg h, Int.neg_mul]
    omega
  · rw [withSign_of_nonneg h]
    omega

/-- A quotient put under the sign of its two numbers is off by as much as the quotient of the magnitudes. -/
theorem natAbs_sub_withSign_mul {a b : Int} (ha : a ≠ 0) (hb : b ≠ 0) (x : Int) (n : Nat) (p : Int) :
    (a * x - withSign (a * b) n * b * p).natAbs = (a.natAbs * x - n * b.natAbs * p).natAbs := by
  have hsign : withSign (a * b) n * b = a.sign * (n * b.natAbs) := by
    rw [withSign_eq_sign_mul (Int.mul_ne_zero ha hb), Int.sign_mul, ← Int.mul_sign_self b]
    ac_rfl
  have h : a * x - withSign (a * b) n * b * p = a.sign * (a.natAbs * x - n * b.natAbs * p) := by
    rw [hsign, Int.mul_sub, ← Int.mul_assoc a.sign a.natAbs, Int.sign_mul_natAbs, Int.mul_assoc a.sign]
  rw [h, Int.natAbs_mul, Int.natAbs_sign_of_ne_zero ha, Nat.one_mul]

/-! ## Rounding to an integer (R15, R241) -/

/-- What the integer quotient with halves going up leaves is at least minus half a unit and below half a unit. -/
theorem halfUp_bounds (m : Int) {d : Int} (hd : 0 < d) :
    -d ≤ 2 * (m - (2 * m + d) / (2 * d) * d) ∧ 2 * (m - (2 * m + d) / (2 * d) * d) < d := by
  have h1 := Int.emod_nonneg (2 * m + d) (b := 2 * d) (by omega)
  have h2 := Int.emod_lt_of_pos (2 * m + d) (b := 2 * d) (by omega)
  have h3 := Int.mul_ediv_add_emod (2 * m + d) (2 * d)
  rw [Int.mul_assoc, Int.mul_comm d] at h3
  omega

/-- The quotient with halves going up is nearest, and where it is exactly half away it lies above. -/
theorem halfUp_nearest (m : Int) (k : Nat) :
    2 * (m - (2 * m + 2 ^ k) / (2 * 2 ^ k) * 2 ^ k).natAbs ≤ 2 ^ k ∧
    (2 * (m - (2 * m + 2 ^ k) / (2 * 2 ^ k) * 2 ^ k).natAbs = 2 ^ k → m < (2 * m + 2 ^ k) / (2 * 2 ^ k) * 2 ^ k) := by
  have hp : 0 < 2 ^ k := Nat.two_pow_pos k
  rw [show (2 : Int) ^ k = (2 ^ k : Nat) from (Int.natCast_pow 2 k).symm]
  generalize 2 ^ k = p at *
  have h := halfUp_bounds m (d := p) (by omega)
  omega

namespace F64

theorem round_of_exp_nonneg (mode : RoundHalf) {x : F64} {k : Nat} (h : x.exp = k) :
    x.round mode = x.man * 2 ^ k := by
  rw [round, if_pos (by omega), h, Int.toNat_natCast, Int.natCast_pow]
  rfl

theorem round_up {x : F64} {k : Nat} (h : x.exp = -(k : Int)) (hk : 0 < k) :
    x.round .up = (2 * x.man + 2 ^ k) / (2 * 2 ^ k) := by
  rw [round, if_neg (by omega), h, Int.neg_neg, Int.toNat_natCast]
  push_cast
  rfl

theorem round_away {x : F64} {k : Nat} (h : x.exp = -(k : Int)) (hk : 0 < k) :
    x.round .away = withSign x.man ((2 * x.man.natAbs + 2 ^ k) / (2 * 2 ^ k)) := by
  rw [round, if_neg (by omega), h, Int.neg_neg, Int.toNat_natCast]

end F64

/-- Settles O57: below the point, both modes are the quotient with halves going up, of the value or of its magnitude. -/
theorem roundIsToNearest : Obligations.RoundIsToNearest := by
  refine fun mode x => ⟨fun k hk => F64.round_of_exp_nonneg mode hk, fun k hk => ?_⟩
  rcases Nat.eq_zero_or_pos k with rfl | hpos
  · rw [F64.round_of_exp_nonneg mode (k := 0) (by omega)]
    omega
  cases mode with
  | up =>
    rw [F64.round_up hk hpos]
    exact halfUp_nearest x.man k
  | away =>
    have h := halfUp_nearest x.man.natAbs k
    have hcast : ((2 * x.man.natAbs + 2 ^ k : Nat) : Int) = 2 * (x.man.natAbs : Int) + 2 ^ k := by
      rw [Int.natCast_add, Int.natCast_mul, Int.natCast_pow]
      rfl
    have hq : (((2 * x.man.natAbs + 2 ^ k) / (2 * 2 ^ k) : Nat) : Int) * 2 ^ k =
        (2 * (x.man.natAbs : Int) + 2 ^ k) / (2 * 2 ^ k) * 2 ^ k := by
      push_cast
      rfl
    rw [F64.round_away hk hpos, natAbs_sub_withSign, hq, Int.natAbs_mul, withSign_natAbs]
    refine ⟨h.1, fun ht => ?_⟩
    have hlt := h.2 ht
    rw [← hq] at hlt
    exact_mod_cast hlt

/-! ## Rounding to 53 bits (R15) -/

theorem bitLength_le {n c : Nat} (h : n < 2 ^ c) : bitLength n ≤ c := by
  by_cases hn : n = 0
  · rw [hn]
    exact Nat.zero_le c
  · have := (Nat.pow_lt_pow_iff_right (a := 2) (by decide)).mp (Nat.lt_of_le_of_lt (two_pow_bitLength_le hn) h)
    omega

/-- The bits that a rounding to 53 bits drops from a magnitude. -/
def droppedBits (n : Nat) : Nat := bitLength n - 53

theorem lt_of_droppedBits (n : Nat) : n < 2 ^ 53 * 2 ^ droppedBits n := by
  rw [← Nat.pow_add]
  exact Nat.lt_of_lt_of_le (lt_two_pow_bitLength n)
    (Nat.pow_le_pow_right (by decide) (by unfold droppedBits; omega))

theorem le_of_droppedBits {n : Nat} (h : 0 < droppedBits n) : 2 ^ 52 * 2 ^ droppedBits n ≤ n := by
  have hn : n ≠ 0 := by rintro rfl; exact absurd h (by decide)
  rw [← Nat.pow_add]
  refine Nat.le_trans (Nat.pow_le_pow_right (by decide) ?_) (two_pow_bitLength_le hn)
  unfold droppedBits at h ⊢
  omega

theorem droppedBits_eq_zero {n : Nat} (h : n < 2 ^ 53) : droppedBits n = 0 :=
  Nat.sub_eq_zero_of_le (bitLength_le h)

/-- `shiftRne` answers a nearest quotient, the even one of two. -/
theorem shiftRne_nearest (n sh : Nat) :
    2 * ((n : Int) - shiftRne n sh * 2 ^ sh).natAbs ≤ 2 ^ sh ∧
    (2 * ((n : Int) - shiftRne n sh * 2 ^ sh).natAbs = 2 ^ sh → shiftRne n sh % 2 = 0) := by
  have hr := Nat.mod_lt n (y := 2 ^ sh) (Nat.two_pow_pos sh)
  have hn := Nat.div_add_mod' n (2 ^ sh)
  rw [show (2 : Int) ^ sh = (2 ^ sh : Nat) from (Int.natCast_pow 2 sh).symm]
  simp only [shiftRne]
  generalize 2 ^ sh = p at *
  generalize n / p = q at *
  generalize n % p = r at *
  subst hn
  split
  · have : ((q * p + r : Nat) : Int) - (q + 1 : Nat) * (p : Nat) = r - p := by
      rw [← Int.natCast_mul, Nat.succ_mul]
      omega
    rw [this]
    omega
  · have : ((q * p + r : Nat) : Int) - (q : Nat) * (p : Nat) = r := by
      rw [← Int.natCast_mul]
      omega
    rw [this]
    omega

theorem shiftRne_le {n sh c : Nat} (h : n < c * 2 ^ sh) : shiftRne n sh ≤ c := by
  have := (Nat.div_lt_iff_lt_mul (Nat.two_pow_pos sh)).mpr h
  simp only [shiftRne]
  split <;> omega

@[simp] theorem shiftRne_zero (n : Nat) : shiftRne n 0 = n := by
  simp only [shiftRne, Nat.pow_zero, Nat.div_one, Nat.mod_one]
  exact if_neg (by omega)

@[simp] theorem zero_shiftRne (sh : Nat) : shiftRne 0 sh = 0 := by
  have := Nat.two_pow_pos sh
  simp only [shiftRne, Nat.zero_div, Nat.zero_mod]
  exact if_neg (by omega)

namespace F64

/-- Rounding to 53 bits drops the surplus bits of the magnitude, none where there is no surplus. -/
theorem roundTo53_eq (m e : Int) : roundTo53 m e =
    ⟨withSign m (shiftRne m.natAbs (droppedBits m.natAbs)), e + droppedBits m.natAbs⟩ := by
  simp only [roundTo53]
  split
  · rename_i h
    have h : droppedBits m.natAbs = 0 := h
    rw [h, shiftRne_zero, withSign_self, Int.natCast_zero, Int.add_zero]
  · rfl

theorem roundTo53_isRounded (m e : Int) : (roundTo53 m e).IsRounded m e := by
  have hn := shiftRne_nearest m.natAbs (droppedBits m.natAbs)
  rw [← natAbs_sub_withSign] at hn
  rw [roundTo53_eq]
  refine ⟨droppedBits m.natAbs, rfl, ?_, hn.1, le_of_droppedBits, fun ht => withSign_mod_two m (hn.2 ht)⟩
  rw [withSign_natAbs]
  exact shiftRne_le (lt_of_droppedBits _)

theorem ofInt_exact {n : Int} (h : n.natAbs < 2 ^ 53) : ofInt n = ⟨n, 0⟩ := by
  rw [ofInt, roundTo53_eq, droppedBits_eq_zero h, shiftRne_zero, withSign_self]
  rfl

/-- A sum is taken on the lower of the two exponents and rounded once. -/
theorem add_isRounded (a b : F64) : (a.add b).IsRounded
    (a.man * 2 ^ (a.exp - min a.exp b.exp).toNat + b.man * 2 ^ (b.exp - min a.exp b.exp).toNat)
    (min a.exp b.exp) := by
  simp only [add, Int.natCast_pow]
  exact roundTo53_isRounded _ _

theorem sub_isRounded (a b : F64) : (a.sub b).IsRounded
    (a.man * 2 ^ (a.exp - min a.exp b.exp).toNat - b.man * 2 ^ (b.exp - min a.exp b.exp).toNat)
    (min a.exp b.exp) := by
  rw [Int.sub_eq_add_neg, ← Int.neg_mul]
  exact add_isRounded a (neg b)

end F64

/-! ## The quotient with a sticky bit (R15) -/

/-- Twice the integer quotient, and a sticky bit for a remainder. -/
def stickyQuot (n d : Nat) : Nat := 2 * (n / d) + if n % d = 0 then 0 else 1

theorem stickyQuot_mul_of_dvd {n d : Nat} (h : n % d = 0) : stickyQuot n d * d = 2 * n := by
  have := Nat.div_add_mod' n d
  rw [stickyQuot, if_pos h, Nat.add_zero, Nat.mul_assoc]
  omega

theorem stickyQuot_mul_of_not_dvd {n d : Nat} (h : n % d ≠ 0) :
    stickyQuot n d * d + 2 * (n % d) = 2 * n + d := by
  have := Nat.div_add_mod' n d
  rw [stickyQuot, if_neg h, Nat.succ_mul, Nat.mul_assoc]
  omega

theorem stickyQuot_odd {n d : Nat} (h : n % d ≠ 0) : stickyQuot n d % 2 = 1 := by
  rw [stickyQuot, if_neg h]
  omega

/-- An even bound on the sticky quotient bounds the exact one. -/
theorem mul_le_of_le_stickyQuot {n d c : Nat} (h : 2 * c ≤ stickyQuot n d) : c * d ≤ n := by
  refine Nat.le_trans (Nat.mul_le_mul_right d ?_) (Nat.div_mul_le_self n d)
  unfold stickyQuot at h
  split at h <;> omega

/-- With two or more bits dropped, a remainder leaves the sticky quotient odd and so strictly nearer than half a unit;
what the sticky bit is off by does not make up for that. -/
theorem shiftRne_stickyQuot_nearer {n d sh : Nat} (hr : n % d ≠ 0) (hd : 0 < d) (hs : 2 ≤ sh) :
    2 * (2 * (n : Int) - shiftRne (stickyQuot n d) sh * d * 2 ^ sh).natAbs < d * 2 ^ sh := by
  obtain ⟨p, hp⟩ : (4 : Nat) ∣ 2 ^ sh := Nat.pow_dvd_pow 2 hs
  have hp' : (2 : Int) ^ sh = 4 * p := by exact_mod_cast hp
  have hq := stickyQuot_mul_of_not_dvd hr
  have hodd := stickyQuot_odd hr
  have hlt := Nat.mod_lt n hd
  have hle := (shiftRne_nearest (stickyQuot n d) sh).1
  rw [hp, hp'] at *
  generalize shiftRne (stickyQuot n d) sh = R at *
  generalize stickyQuot n d = q at *
  have hsplit : 2 * (n : Int) - R * d * (4 * p) = d * (q - R * (4 * p)) + (2 * (n % d : Nat) - d) := by
    have hn : (q : Int) * d + 2 * (n % d : Nat) = 2 * n + d := by exact_mod_cast hq
    rw [Int.mul_sub, Int.mul_comm (d : Int) q, Int.mul_right_comm (R : Int), Int.mul_comm (d : Int) (R * (4 * p))]
    omega
  have hnear : 2 * ((q : Int) - R * (4 * p)).natAbs + 2 ≤ 4 * p := by
    rw [Int.mul_left_comm] at hle ⊢
    omega
  calc 2 * (2 * (n : Int) - R * d * (4 * p)).natAbs
      ≤ 2 * (d * ((q : Int) - R * (4 * p)).natAbs + (2 * ((n % d : Nat) : Int) - d).natAbs) := by
        rw [hsplit]
        refine Nat.mul_le_mul_left 2 (Nat.le_trans (Int.natAbs_add_le _ _) (Nat.le_of_eq ?_))
        rw [Int.natAbs_mul, Int.natAbs_natCast]
    _ < d * (2 * ((q : Int) - R * (4 * p)).natAbs + 2) := by
        rw [Nat.mul_add, Nat.mul_add, Nat.mul_left_comm 2 d]
        omega
    _ ≤ d * (4 * p) := Nat.mul_le_mul_left d hnear

/-- With two or more bits dropped, rounding the sticky quotient rounds the exact one: to nearest, the even one of two. -/
theorem shiftRne_stickyQuot_nearest {n d sh : Nat} (hd : 0 < d) (hs : 2 ≤ sh) :
    2 * (2 * (n : Int) - shiftRne (stickyQuot n d) sh * d * 2 ^ sh).natAbs ≤ d * 2 ^ sh ∧
    (2 * (2 * (n : Int) - shiftRne (stickyQuot n d) sh * d * 2 ^ sh).natAbs = d * 2 ^ sh →
      shiftRne (stickyQuot n d) sh % 2 = 0) := by
  by_cases hr : n % d = 0
  · obtain ⟨hle, htie⟩ := shiftRne_nearest (stickyQuot n d) sh
    have hq : 2 * (n : Int) - shiftRne (stickyQuot n d) sh * d * 2 ^ sh =
        d * (stickyQuot n d - shiftRne (stickyQuot n d) sh * 2 ^ sh) := by
      have hn : (stickyQuot n d : Int) * d = 2 * n := by exact_mod_cast stickyQuot_mul_of_dvd hr
      rw [← hn, Int.mul_sub, Int.mul_right_comm, Int.mul_comm _ (d : Int), Int.mul_comm _ (d : Int)]
    rw [hq, Int.natAbs_mul, Int.natAbs_natCast, Nat.mul_left_comm]
    exact ⟨Nat.mul_le_mul_left d hle, fun h => htie (Nat.eq_of_mul_eq_mul_left hd h)⟩
  · have h := shiftRne_stickyQuot_nearer hr hd hs
    exact ⟨Nat.le_of_lt h, fun ht => absurd ht (Nat.ne_of_lt h)⟩

namespace F64

/-- By how many bits a division scales its dividend. -/
def divScale (b : F64) : Nat := 56 + bitLength b.man.natAbs

/-- The sticky quotient that a division rounds. -/
def divQuot (a b : F64) : Nat := stickyQuot (a.man.natAbs * 2 ^ divScale b) b.man.natAbs

theorem div_eq {b : F64} (a : F64) (h : b.man ≠ 0) :
    a.div b = roundTo53 (withSign (a.man * b.man) (divQuot a b)) (a.exp - b.exp - divScale b - 1) := by
  rw [div, if_neg (by omega)]
  rfl

/-- The sticky quotient is long enough that the rounding drops the sticky bit and another. -/
theorem two_le_droppedBits_divQuot {a b : F64} (ha : a.man ≠ 0) (hb : b.man ≠ 0) : 2 ≤ droppedBits (divQuot a b) := by
  have hq : 2 ^ 56 ≤ a.man.natAbs * 2 ^ divScale b / b.man.natAbs := by
    rw [Nat.le_div_iff_mul_le (by omega), divScale, Nat.pow_add]
    calc 2 ^ 56 * b.man.natAbs ≤ 1 * (2 ^ 56 * 2 ^ bitLength b.man.natAbs) := by
          rw [Nat.one_mul]
          exact Nat.mul_le_mul_left _ (Nat.le_of_lt (lt_two_pow_bitLength _))
      _ ≤ a.man.natAbs * (2 ^ 56 * 2 ^ bitLength b.man.natAbs) := Nat.mul_le_mul_right _ (by omega)
  have hlt := lt_of_droppedBits (divQuot a b)
  have hge : 2 ^ 57 ≤ divQuot a b := by
    unfold divQuot stickyQuot
    omega
  refine Nat.le_of_not_lt fun hlow => ?_
  have : 2 ^ droppedBits (divQuot a b) ≤ 2 ^ 1 := Nat.pow_le_pow_right (by decide) (by omega)
  omega

theorem div_exp {b : F64} (a : F64) (h : b.man ≠ 0) :
    (a.div b).exp = a.exp - b.exp - divScale b - 1 + droppedBits (divQuot a b) := by
  rw [div_eq a h, roundTo53_eq, withSign_natAbs]

theorem div_man {a b : F64} (ha : a.man ≠ 0) (hb : b.man ≠ 0) :
    (a.div b).man = withSign (a.man * b.man) (shiftRne (divQuot a b) (droppedBits (divQuot a b))) := by
  have hq := le_of_droppedBits (Nat.lt_of_succ_lt (two_le_droppedBits_divQuot ha hb))
  rw [div_eq a hb, roundTo53_eq, withSign_natAbs]
  exact withSign_withSign _ _ (Nat.lt_of_lt_of_le (Nat.mul_pos (by decide) (Nat.two_pow_pos _)) hq)

theorem zero_div_man {a b : F64} (ha : a.man = 0) (hb : b.man ≠ 0) : (a.div b).man = 0 := by
  have hq : divQuot a b = 0 := by
    rw [divQuot, ha, Int.natAbs_zero, Nat.zero_mul, stickyQuot, Nat.zero_div, Nat.zero_mod, if_pos rfl]
  rw [div_eq a hb, roundTo53_eq, hq, withSign_natAbs]
  simp only [zero_shiftRne, withSign_zero]

/-- The quotient, on the scale of its sticky form: within half a unit, with 53 bits where it is inexact, even where it is
half away. -/
theorem div_nearest (a : F64) {b : F64} (hb : b.man ≠ 0) :
    let sh := droppedBits (divQuot a b)
    let err := (a.man * 2 ^ (divScale b + 1) - (a.div b).man * b.man * 2 ^ sh).natAbs
    (a.div b).man.natAbs ≤ 2 ^ 53 ∧ 2 * err ≤ b.man.natAbs * 2 ^ sh ∧
    (err ≠ 0 → 2 ^ 52 * b.man.natAbs * 2 ^ sh ≤ a.man.natAbs * 2 ^ (divScale b + 1)) ∧
    (2 * err = b.man.natAbs * 2 ^ sh → (a.div b).man % 2 = 0) := by
  by_cases ha : a.man = 0
  · simp [zero_div_man ha hb, ha]
  have hsh := two_le_droppedBits_divQuot ha hb
  have hbits := le_of_droppedBits (Nat.lt_of_succ_lt hsh)
  have hnear := shiftRne_stickyQuot_nearest (n := a.man.natAbs * 2 ^ divScale b) (Int.natAbs_pos.mpr hb) hsh
  have hscale : 2 * ((a.man.natAbs * 2 ^ divScale b : Nat) : Int) = a.man.natAbs * 2 ^ (divScale b + 1) := by
    rw [Int.natCast_mul, Int.natCast_pow, Int.pow_succ, Int.mul_comm, Int.mul_assoc]
    rfl
  rw [hscale, ← divQuot, ← natAbs_sub_withSign_mul ha hb] at hnear
  rw [div_man ha hb]
  refine ⟨?_, hnear.1, fun _ => ?_, fun ht => withSign_mod_two _ (hnear.2 ht)⟩
  · rw [withSign_natAbs]
    exact shiftRne_le (lt_of_droppedBits _)
  · have : 2 ^ 51 * 2 ^ droppedBits (divQuot a b) * b.man.natAbs ≤ a.man.natAbs * 2 ^ divScale b :=
      mul_le_of_le_stickyQuot (show _ ≤ divQuot a b by omega)
    rw [Nat.pow_succ 2 (divScale b), Nat.mul_right_comm, ← Nat.mul_assoc]
    rw [Nat.mul_assoc] at this ⊢
    omega

end F64

/-- Settles O58: every operation is one `roundTo53`, of the exact result or, for the quotient, of its sticky form. -/
theorem binary64RoundsToNearestEven : Obligations.Binary64RoundsToNearestEven := by
  refine ⟨F64.roundTo53_isRounded, fun a b => ?_, fun a b => F64.roundTo53_isRounded _ _,
    fun n => ⟨F64.roundTo53_isRounded n 0, F64.ofInt_exact⟩, fun a b hb => ?_⟩
  · exact ⟨min a.exp b.exp, (a.exp - min a.exp b.exp).toNat, (b.exp - min a.exp b.exp).toNat, by omega, by omega,
      F64.add_isRounded a b, F64.sub_isRounded a b⟩
  · refine ⟨F64.divScale b + 1, droppedBits (F64.divQuot a b), ?_, F64.div_nearest a hb⟩
    rw [F64.div_exp a hb]
    omega

/-! ## What the turns leave of the parameters and the operand registers (R8, R9, R36) -/

theorem offset_of_regAt {off : Nat} {r : RegName} (h : regAt off = some r) : r.offset = off := by
  unfold regAt at h
  split at h <;> cases h <;> rfl

theorem hardwareReset_plat (s : State) : s.hardwareReset.plat = s.plat := by
  unfold State.hardwareReset
  split <;> rfl

/-- A command keeps the parameters and the operand registers, however it completes (R155, R355). -/
theorem exec_keeps_plat_ops {i : Instr} {s t : State} (h : exec i s = .next t) : t.plat = s.plat ∧ t.ops = s.ops := by
  obtain ⟨_, he⟩ | ⟨d, _, _, he⟩ | ⟨e, _, _, he⟩ := exec_cases i s <;> rw [he] at h <;> cases h <;> simp

theorem engineStep_keeps_plat_ops {s t : State} (h : engineStep s = .next t) : t.plat = s.plat ∧ t.ops = s.ops := by
  obtain ⟨_, he⟩ | ⟨_, _, _, he⟩ | ⟨_, _, _, _, he⟩ | ⟨_, i, _, _, he⟩ := engineStep_cases s <;> rw [he] at h
  · cases h; simp
  · cases h; simp
  · cases h; simp
  · exact exec_keeps_plat_ops h

theorem writeCtrl_keeps (w : Word) (s : State) :
    (s.writeCtrl w).plat = s.plat ∧ ((s.writeCtrl w).ops ≠ s.ops → w.getLsbD 1 = true) := by
  simp only [State.writeCtrl]
  split
  · rename_i hreset
    refine ⟨?_, fun _ => hreset⟩
    split <;> rfl
  · simp

theorem writeCmd_keeps (w : Word) (s : State) : (s.writeCmd w).plat = s.plat ∧ (s.writeCmd w).ops = s.ops := by
  unfold State.writeCmd
  cases s.isBusy <;> simp

/-- A store to a register keeps the parameters, and changes an operand register only where it is one or soft-resets
(R36, R381). -/
theorem writeReg_keeps (s : State) (w : Word) (r : RegName) :
    (s.writeReg w r).plat = s.plat ∧
    ((s.writeReg w r).ops ≠ s.ops → r ∈ operandRegs ∨ (r = .ctrl ∧ w.getLsbD 1 = true)) := by
  cases r with
  | ctrl => exact ⟨(writeCtrl_keeps w s).1, fun h => .inr ⟨rfl, (writeCtrl_keeps w s).2 h⟩⟩
  | cmd => exact ⟨(writeCmd_keeps w s).1, fun h => absurd (writeCmd_keeps w s).2 h⟩
  | _ => simp [State.writeReg, operandRegs]

/-- The host operations that R36, R380 and R381 let change an operand register. -/
def HostOp.MayChangeOps (op : HostOp) : Prop :=
  op = .hwReset ∨ (∃ v, op = .regWrite 0x04 4 v ∧ v.getLsbD 1 = true) ∨
    ∃ r v, r ∈ operandRegs ∧ op = .regWrite r.offset 4 v

theorem hostRegWrite_keeps {off bytes : Nat} {v : Word} {s t : State} (h : hostRegWrite off bytes v s = .next t) :
    t.plat = s.plat ∧ (t.ops ≠ s.ops → (HostOp.regWrite off bytes v).MayChangeOps) := by
  unfold hostRegWrite at h
  split at h
  · rename_i hok
    obtain rfl : bytes = 4 := by simp [regAccessOk] at hok; exact hok.1.1
    split at h
    · rename_i r hr
      obtain rfl := offset_of_regAt hr
      cases h
      refine ⟨(writeReg_keeps s v r).1, fun hops => ?_⟩
      rcases (writeReg_keeps s v r).2 hops with hmem | ⟨rfl, hv⟩
      · exact .inr (.inr ⟨r, v, hmem, rfl⟩)
      · exact .inr (.inl ⟨v, rfl, hv⟩)
    · cases h; simp
  · cases h

/-- An operation that goes on keeps the parameters, and changes an operand register only if it may. -/
theorem hostOp_keeps {op : HostOp} {s t : State} (h : hostOp op s = .next t) :
    t.plat = s.plat ∧ (t.ops ≠ s.ops → op.MayChangeOps) := by
  cases op with
  | regRead off bytes =>
    simp only [hostOp, hostRegRead] at h
    split at h <;> cases h
    simp
  | regWrite off bytes v => exact hostRegWrite_keeps h
  | wait =>
    cases h
    unfold State.pollDone
    cases s.status.done <;> simp
  | memRead a n =>
    obtain ⟨_, _, _, rfl⟩ := hostAccess_next h
    simp
  | check a n bs =>
    obtain ⟨_, _, _, rfl⟩ := hostAccess_next h
    simp
  | memWrite a bs =>
    obtain ⟨_, _, _, rfl⟩ := hostAccess_next h
    simp
  | hwReset =>
    cases h
    exact ⟨hardwareReset_plat s, fun _ => .inl rfl⟩

/-- Settles O60: the engine's turn keeps both, and the host's does what its oldest operation does. -/
theorem parametersAndOperandsAreTheHosts : Obligations.ParametersAndOperandsAreTheHosts := by
  intro s t h
  cases hturn : s.turn with
  | engine =>
    rw [step_engine hturn] at h
    obtain ⟨hp, ho⟩ := engineStep_keeps_plat_ops h
    exact ⟨hp, fun hne => absurd ho hne⟩
  | host =>
    rw [step_host hturn] at h
    obtain ⟨_, he⟩ | ⟨op, rest, hhost, he⟩ := hostStep_cases s.popSched <;> rw [he] at h
    · cases h
      simp
    · obtain ⟨hp, ho⟩ := hostOp_keeps h
      exact ⟨hp, fun hne => ⟨op, rest, hhost, ho hne⟩⟩

/-! ## An output's free values are read only on a device (R83, log 12) -/

/-- A sequence needs its rest only for what its first part can answer. -/
theorem bind_congr_ok {ε α β : Type} {x : Except ε α} {f g : α → Except ε β} (h : ∀ a, x = .ok a → f a = g a) :
    x >>= f = x >>= g := by
  cases x with
  | error e => rfl
  | ok a => exact h a rfl

theorem map_ok {ε α β : Type} (f : α → β) (a : α) : f <$> (.ok a : Except ε α) = .ok (f a) := rfl

namespace Sink

/-- The same output with the free values after other draws. -/
def withDraws (n : Nat) (k : Sink) : Sink := { k with draws := n }

@[simp] theorem withDraws_plat (n : Nat) (k : Sink) : (k.withDraws n).plat = k.plat := rfl
@[simp] theorem withDraws_base (n : Nat) (k : Sink) : (k.withDraws n).base = k.base := rfl
@[simp] theorem withDraws_outlen (n : Nat) (k : Sink) : (k.withDraws n).outlen = k.outlen := rfl

theorem putBytes_withDraws (n : Nat) (k : Sink) (bs : List Byte) :
    (k.withDraws n).putBytes bs = withDraws n <$> k.putBytes bs := by
  simp only [putBytes, map_bind]
  rfl

theorem putEach_withDraws (n : Nat) (k : Sink) (bs : List Byte) :
    (k.withDraws n).putEach bs = withDraws n <$> k.putEach bs := by
  simp only [putEach, putBytes_withDraws, map_bind]
  rfl

theorem putChunks_withDraws (n : Nat) (cs : List (List Byte)) (k : Sink) :
    putChunks cs (k.withDraws n) = withDraws n <$> putChunks cs k := by
  induction cs generalizing k with
  | nil => rfl
  | cons c cs ih => simp only [putChunks, putBytes_withDraws, map_bind, bind_map_left, ih]

/-- No byte of the destination is a device's. -/
def Ordinary (k : Sink) : Prop := ∀ p, p < k.cap → k.plat.isDevice (k.base + p) = false

theorem Ordinary.of_putBytes {k k' : Sink} {bs : List Byte} (h : k.Ordinary) (hk : k.putBytes bs = .ok k') :
    k'.Ordinary := by
  obtain ⟨_, _, rfl⟩ := putBytes_ok.mp hk
  exact h

theorem Ordinary.of_copyBack {off len : Nat} {k k' : Sink} (h : k.Ordinary) (hk : copyBack off len k = .ok k') :
    k'.Ordinary := by
  induction len generalizing k with
  | zero => cases hk; exact h
  | succ len ih =>
    obtain ⟨k₁, h₁, h₂⟩ := bind_ok.mp hk
    exact ih (h.of_putBytes h₁) h₂

/-- A byte read back and appended: inside an ordinary destination it is no free value, and past the destination there is
no room for it (R99, R100). -/
theorem put_outAt_withDraws (n : Nat) {k : Sink} (h : k.Ordinary) (off : Nat) :
    (k.withDraws n).put ((k.withDraws n).outAt (k.outlen - off)) =
      withDraws n <$> k.put (k.outAt (k.outlen - off)) := by
  rw [put, put, putBytes_withDraws]
  by_cases hp : k.outlen - off < k.cap
  · have : (k.withDraws n).outAt (k.outlen - off) = k.outAt (k.outlen - off) := by
      simp only [outAt, withDraws_plat, withDraws_base, h _ hp]
      rfl
    rw [this]
  · have full (b : Byte) : k.putBytes [b] = .error .dstOverflow :=
      putBytes_error.mpr (.inl ⟨by simp only [List.length_singleton]; omega, rfl⟩)
    rw [full, full]

theorem copyBack_withDraws (n : Nat) {off len : Nat} {k : Sink} (h : k.Ordinary) :
    copyBack off len (k.withDraws n) = withDraws n <$> copyBack off len k := by
  induction len generalizing k with
  | zero => rfl
  | succ len ih =>
    simp only [copyBack, withDraws_outlen, put_outAt_withDraws n h, map_bind, bind_map_left]
    exact bind_congr_ok fun k' hk => ih (h.of_putBytes hk)

end Sink

theorem emitSized_withDraws (n arg0 : Nat) (k : Sink) (bs : List Byte) :
    emitSized arg0 (k.withDraws n) bs = Sink.withDraws n <$> emitSized arg0 k bs := by
  simp only [emitSized, Sink.putBytes_withDraws, map_bind]
  rfl

theorem drive_withDraws (n : Nat) (c : Compressor) (src : List SrcCell) (t : TrieState) (k : Sink) :
    c.drive src t (k.withDraws n) = (fun r => (r.1, r.2.withDraws n)) <$> c.drive src t k := by
  induction src generalizing t k with
  | nil =>
    simp only [Compressor.drive, Sink.putChunks_withDraws, map_bind, bind_map_left]
    rfl
  | cons cell rest ih => simp only [Compressor.drive, Sink.putChunks_withDraws, map_bind, bind_map_left, ih]

theorem lz78Loop_withDraws (n arg0 fuel : Nat) (src : List SrcCell) (table : List (List Byte)) (k : Sink) :
    lz78Loop arg0 fuel src table (k.withDraws n) =
      (fun r => (r.1, r.2.withDraws n)) <$> lz78Loop arg0 fuel src table k := by
  induction fuel generalizing src table k with
  | zero => rfl
  | succ fuel ih =>
    simp only [lz78Loop, emitSized_withDraws, map_bind, bind_map_left, ih, apply_ite (Functor.map _), map_ok]

theorem lzwLoop_withDraws (n arg0 fuel : Nat) (src : List SrcCell) (table : List (List Byte))
    (prev : Option (List Byte)) (k : Sink) :
    lzwLoop arg0 fuel src table prev (k.withDraws n) =
      (fun r => (r.1, r.2.1, r.2.2.withDraws n)) <$> lzwLoop arg0 fuel src table prev k := by
  induction fuel generalizing src table prev k with
  | zero => rfl
  | succ fuel ih =>
    simp only [lzwLoop, emitSized_withDraws, map_bind, bind_map_left, ih, apply_ite (Functor.map _), map_ok]

/-- Only the read-back of LZSS.D could meet a free value; on an ordinary destination it does not (R101, R198). -/
theorem lzssLoop_withDraws (n arg0 fuel : Nat) (flags : List Bool) (src : List SrcCell) {k : Sink} (h : k.Ordinary) :
    lzssLoop arg0 fuel flags src (k.withDraws n) =
      (fun r => (r.1, r.2.withDraws n)) <$> lzssLoop arg0 fuel flags src k := by
  induction fuel generalizing flags src k with
  | zero => rfl
  | succ fuel ih =>
    match flags with
    | [] => simp only [lzssLoop, map_bind, ih _ _ h]
    | false :: flags =>
      simp only [lzssLoop, Sink.put, Sink.putBytes_withDraws, Sink.withDraws_outlen, map_bind, bind_map_left]
      exact bind_congr fun r => bind_congr fun _ => bind_congr_ok fun k' hk => ih _ _ (h.of_putBytes hk)
    | true :: flags =>
      simp only [lzssLoop, Sink.copyBack_withDraws n h, Sink.withDraws_outlen, map_bind, bind_map_left,
        apply_ite (Functor.map _), map_ok]
      refine bind_congr fun r => ite_congr rfl (fun _ => rfl) fun _ => ?_
      exact bind_congr fun _ => bind_congr fun _ => bind_congr_ok fun k' hk => ih _ _ (h.of_copyBack hk)

/-! ## What a command's outcome depends on (R19) -/

/-- Two states give command `i` the same inputs: the parameters, the latched operands, the cells it reads, and, where a
device is in the destination, the free values. -/
structure SameInputs (i : Instr) (s t : State) : Prop where
  plat : t.plat = s.plat
  ops : t.latch.ops = s.latch.ops
  src : (uses i).src = true → t.srcCells = s.srcCells
  codec : (uses i).codec = true → t.cells s.latch.ops.codec = s.cells s.latch.ops.codec
  patched : i = .hdrPatch → t.cells s.latch.ops.dst = s.cells s.latch.ops.dst
  draws : (uses i).dst = true → t.draws = s.draws ∨ (Sink.start s).Ordinary

theorem start_eq_withDraws {s t : State} (hp : t.plat = s.plat) (ho : t.latch.ops = s.latch.ops) :
    Sink.start t = (Sink.start s).withDraws t.draws := by
  simp only [Sink.start, Sink.withDraws, hp, ho]

/-- A header's store reads no free value (R321, R322). -/
theorem storeHeader_congr {s t : State} (hp : t.plat = s.plat) (ho : t.latch.ops = s.latch.ops) (h : List Byte) :
    storeHeader t h = storeHeader s h := by
  simp only [storeHeader, start_eq_withDraws hp ho, ho]
  rfl

theorem lzssDBody_congr {s t : State} (h : SameInputs .lzssD s t) : lzssDBody t = lzssDBody s := by
  simp only [lzssDBody, h.ops, h.src rfl, start_eq_withDraws h.plat h.ops]
  rcases h.draws rfl with hd | hd
  · rw [hd]
    rfl
  · simp only [lzssLoop_withDraws _ _ _ _ _ hd, bind_map_left]
    rfl

theorem cell_congr {s t : State} {r : Region} (h : s.cells r = t.cells r) {i : Nat} (hi : i < r.len) :
    s.cell (r.base + i) = t.cell (r.base + i) :=
  List.map_inj_left.mp h i (List.mem_range.mpr hi)

theorem patchBody_congr {s t : State} (h : SameInputs .hdrPatch s t) : patchBody t = patchBody s := by
  simp only [patchBody, h.ops, h.plat]
  refine bind_congr_ok fun _ hfit => ?_
  have hfit : s.latch.ops.arg1.toNat + 5 ≤ s.latch.ops.dst.len := by simpa using check_ok.mp hfit
  rw [cell_congr (h.patched rfl) (by omega)]

/-- Every body is a function of its command's inputs (R19). -/
theorem bodyOf_congr {i : Instr} {s t : State} (h : SameInputs i s t) : bodyOf i t = bodyOf i s := by
  have hstart := start_eq_withDraws h.plat h.ops
  cases i with
  | nop => rfl
  | lz78C =>
    simp only [bodyOf, lz78CBody, h.src rfl, h.ops, hstart, drive_withDraws, bind_map_left]
    rfl
  | lzwC =>
    simp only [bodyOf, lzwCBody, h.src rfl, h.ops, hstart, drive_withDraws, bind_map_left]
    rfl
  | lzssC =>
    simp only [bodyOf, lzssCBody, h.src rfl, h.ops, hstart, Sink.putChunks_withDraws, bind_map_left]
    rfl
  | lz78D =>
    simp only [bodyOf, lz78DBody, h.src rfl, h.ops, hstart, lz78Loop_withDraws, bind_map_left]
    rfl
  | lzwD =>
    simp only [bodyOf, lzwDBody, h.src rfl, h.ops, hstart, lzwLoop_withDraws, bind_map_left]
    rfl
  | lzssD => simp only [bodyOf, lzssDBody_congr h]
  | jpegC =>
    simp only [bodyOf, jpegCBody, h.src rfl, h.ops, h.plat, hstart, Sink.putEach_withDraws, bind_map_left]
    rfl
  | jpegD =>
    simp only [bodyOf, jpegDBody, h.src rfl, h.plat, hstart, Sink.putBytes_withDraws, bind_map_left]
    rfl
  | hdrEfile => simp only [bodyOf, efileBody, h.src rfl, h.ops, h.codec rfl, storeHeader_congr h.plat h.ops]
  | hdrEfold => simp only [bodyOf, efoldBody, h.src rfl, h.ops, storeHeader_congr h.plat h.ops]
  | hdrDec => simp only [bodyOf, decBody, h.src rfl]
  | hdrPatch => exact patchBody_congr h
  | regLookup => simp only [bodyOf, lookupBody, h.src rfl]
  | regExtmap => simp only [bodyOf, extmapBody, h.src rfl]

/-- A used region lies off the devices, or the command touches one. -/
theorem touchesDevice_or {i : Instr} {s : State} {r : Region} (hr : r ∈ usedRegions i s.latch.ops) :
    s.touchesDevice i = true ∨ s.plat.devices.any r.overlaps = false := by
  cases h : s.touchesDevice i with
  | true => exact .inl rfl
  | false => exact .inr (Bool.eq_false_iff.mpr (List.any_eq_false.mp h r hr))

theorem src_mem_readRegions {i : Instr} (o : Operands) (h : (uses i).src = true) : o.src ∈ readRegions i o := by
  simp [readRegions, h]

theorem codec_mem_readRegions {i : Instr} (o : Operands) (h : (uses i).codec = true) : o.codec ∈ readRegions i o := by
  simp [readRegions, h]

theorem dst_mem_usedRegions {i : Instr} (o : Operands) (h : (uses i).dst = true) : o.dst ∈ usedRegions i o := by
  simp [usedRegions, h]

theorem mem_usedRegions_of_read {i : Instr} {o : Operands} {r : Region} (h : r ∈ readRegions i o) :
    r ∈ usedRegions i o :=
  List.mem_append_left _ h

theorem start_ordinary {s : State} (h : s.plat.devices.any s.latch.ops.dst.overlaps = false) :
    (Sink.start s).Ordinary :=
  fun _ hp => isDevice_of_dstOrdinary (by simp [State.dstOrdinary, h]) hp

/-- Agreement on the parameters, the operands, the bytes read and a touched device's free values is agreement on the
inputs. -/
theorem sameInputs_of_agree {i : Instr} {s t : State} (hp : s.plat = t.plat) (ho : s.latch.ops = t.latch.ops)
    (hread : ∀ r ∈ readRegions i s.latch.ops, ∀ x, r.contains x = true → s.mem.read x = t.mem.read x)
    (hpatch : i = .hdrPatch → ∀ x, s.latch.ops.dst.contains x = true → s.mem.read x = t.mem.read x)
    (hdev : s.touchesDevice i = true → s.draws = t.draws) : SameInputs i s t := by
  have hdraws {r : Region} (hr : r ∈ usedRegions i s.latch.ops) :
      s.draws = t.draws ∨ s.plat.devices.any r.overlaps = false := (touchesDevice_or hr).imp_left hdev
  have hcells {r : Region} (hr : r ∈ readRegions i s.latch.ops) : t.cells r = s.cells r :=
    (cells_congr hp (hread r hr) (hdraws (mem_usedRegions_of_read hr))).symm
  exact
    { plat := hp.symm
      ops := ho.symm
      src := fun h => by
        rw [State.srcCells, ← ho]
        exact hcells (src_mem_readRegions _ h)
      codec := fun h => hcells (codec_mem_readRegions _ h)
      patched := fun h => (cells_congr hp (hpatch h) (hdraws (dst_mem_usedRegions _ (h ▸ rfl)))).symm
      draws := fun h => (hdraws (dst_mem_usedRegions _ h)).imp Eq.symm start_ordinary }

/-- Settles O28: the region check and the body are functions of the inputs, and the completion of what they answer. -/
theorem outcomeDependsOnlyOnOperandsAndSource : Obligations.OutcomeDependsOnlyOnOperandsAndSource := by
  intro i s₁ s₂ t₁ t₂ hp ho hread hpatch hdev h₁ h₂
  have hbody := bodyOf_congr (sameInputs_of_agree hp ho hread hpatch hdev)
  obtain ⟨hr, he⟩ | ⟨d, hr, hb, he⟩ | ⟨e, hr, hb, he⟩ := exec_cases i s₁
  · rw [he] at h₁
    rw [exec_of_region_error (ho ▸ hr)] at h₂
    cases h₁
    cases h₂
    simp
  · rw [he] at h₁
    rw [exec_of_body_ok (ho ▸ hr) (hbody.trans hb)] at h₂
    cases h₁
    cases h₂
    exact ⟨rfl, rfl, rfl, rfl, fun _ => ⟨d.addr, d.bytes, rfl, rfl⟩⟩
  · rw [he] at h₁
    rw [exec_of_body_error (ho ▸ hr) (hbody.trans hb)] at h₂
    cases h₁
    cases h₂
    simp

end Sys2Proof.Machine

namespace Sys2Proof.Machine

/-! ## An output only grows, inside its capacity (R89, R96 to R101) -/

namespace Sink

/-- `k'` is `k` after appends that each found room. -/
def GrowsTo (k k' : Sink) : Prop := ∃ bs, k' = k.extend bs ∧ (k.outlen ≤ k.cap → k'.outlen ≤ k.cap)

theorem GrowsTo.refl (k : Sink) : k.GrowsTo k := ⟨[], (extend_nil k).symm, id⟩

theorem GrowsTo.trans {k k₁ k₂ : Sink} (h₁ : k.GrowsTo k₁) (h₂ : k₁.GrowsTo k₂) : k.GrowsTo k₂ := by
  obtain ⟨bs, rfl, hroom₁⟩ := h₁
  obtain ⟨cs, rfl, hroom₂⟩ := h₂
  exact ⟨bs ++ cs, extend_extend k bs cs, fun h => hroom₂ (hroom₁ h)⟩

theorem GrowsTo.of_putBytes {k k' : Sink} {bs : List Byte} (h : k.putBytes bs = .ok k') : k.GrowsTo k' := by
  obtain ⟨hroom, _, rfl⟩ := putBytes_ok.mp h
  exact ⟨bs, rfl, fun _ => hroom⟩

theorem GrowsTo.of_putEach {k k' : Sink} {bs : List Byte} (h : k.putEach bs = .ok k') : k.GrowsTo k' := by
  obtain ⟨hroom, _, rfl⟩ := putEach_ok.mp h
  exact ⟨bs, rfl, fun _ => hroom⟩

theorem GrowsTo.of_putChunks {cs : List (List Byte)} {k k' : Sink} (h : putChunks cs k = .ok k') : k.GrowsTo k' := by
  obtain ⟨rfl, _, hroom⟩ := putChunks_ok h
  exact ⟨cs.flatten, rfl, hroom⟩

theorem GrowsTo.of_copyBack {off n : Nat} {k k' : Sink} (h : copyBack off n k = .ok k') : k.GrowsTo k' := by
  induction n generalizing k with
  | zero => cases h; exact .refl _
  | succ n ih =>
    obtain ⟨k₁, h₁, h₂⟩ := bind_ok.mp h
    exact (of_putBytes h₁).trans (ih h₂)

end Sink

theorem growsTo_of_emitSized {arg0 : Nat} {k k' : Sink} {bs : List Byte} (h : emitSized arg0 k bs = .ok k') :
    k.GrowsTo k' := by
  obtain ⟨_, _, h⟩ := bind_ok.mp h
  exact .of_putBytes h

theorem growsTo_of_drive {c : Compressor} {src : List SrcCell} {t t' : TrieState} {k k' : Sink}
    (h : c.drive src t k = .ok (t', k')) : k.GrowsTo k' := by
  induction src generalizing t k with
  | nil =>
    obtain ⟨k₁, hput, h⟩ := bind_ok.mp h
    cases h
    exact .of_putChunks hput
  | cons cell rest ih =>
    obtain ⟨b, _, h⟩ := bind_ok.mp h
    obtain ⟨k₁, hput, h⟩ := bind_ok.mp h
    exact (Sink.GrowsTo.of_putChunks hput).trans (ih h)

theorem growsTo_of_lz78Loop {arg0 fuel : Nat} {src : List SrcCell} {table table' : List (List Byte)} {k k' : Sink}
    (h : lz78Loop arg0 fuel src table k = .ok (table', k')) : k.GrowsTo k' := by
  induction fuel generalizing src table k with
  | zero => cases h; exact .refl _
  | succ fuel ih =>
    rw [lz78Loop] at h
    split at h
    · cases h; exact .refl _
    obtain ⟨⟨c, src₁⟩, _, h⟩ := bind_ok.mp h
    dsimp only at h
    split at h
    · exact ih h
    split at h
    · obtain ⟨_, _, h⟩ := bind_ok.mp h
      obtain ⟨k₁, hemit, h⟩ := bind_ok.mp h
      cases h
      exact growsTo_of_emitSized hemit
    · obtain ⟨⟨b, src₂⟩, _, h⟩ := bind_ok.mp h
      obtain ⟨_, _, h⟩ := bind_ok.mp h
      obtain ⟨_, _, h⟩ := bind_ok.mp h
      obtain ⟨k₁, hemit, h⟩ := bind_ok.mp h
      exact (growsTo_of_emitSized hemit).trans (ih h)

theorem growsTo_of_lzwLoop {arg0 fuel : Nat} {src : List SrcCell} {table : List (List Byte)}
    {prev : Option (List Byte)} {k : Sink} {r : List (List Byte) × Option (List Byte) × Sink}
    (h : lzwLoop arg0 fuel src table prev k = .ok r) : k.GrowsTo r.2.2 := by
  induction fuel generalizing src table prev k with
  | zero => cases h; exact .refl _
  | succ fuel ih =>
    rw [lzwLoop] at h
    split at h
    · cases h; exact .refl _
    obtain ⟨⟨c, src₁⟩, _, h⟩ := bind_ok.mp h
    dsimp only at h
    split at h
    · exact ih h
    · obtain ⟨⟨str, table₁⟩, _, h⟩ := bind_ok.mp h
      obtain ⟨k₁, hemit, h⟩ := bind_ok.mp h
      exact (growsTo_of_emitSized hemit).trans (ih h)

theorem growsTo_of_lzssLoop {arg0 fuel : Nat} {flags : List Bool} {src src' : List SrcCell} {k k' : Sink}
    (h : lzssLoop arg0 fuel flags src k = .ok (src', k')) : k.GrowsTo k' := by
  induction fuel generalizing flags src k with
  | zero => cases h
  | succ fuel ih =>
    match flags with
    | [] =>
      obtain ⟨⟨ctrl, src₁⟩, _, h⟩ := bind_ok.mp h
      exact ih h
    | false :: flags =>
      obtain ⟨⟨b, src₁⟩, _, h⟩ := bind_ok.mp h
      obtain ⟨_, _, h⟩ := bind_ok.mp h
      obtain ⟨k₁, hput, h⟩ := bind_ok.mp h
      exact (Sink.GrowsTo.of_putBytes hput).trans (ih h)
    | true :: flags =>
      obtain ⟨⟨w, src₁⟩, _, h⟩ := bind_ok.mp h
      dsimp only at h
      split at h
      · obtain ⟨_, _, h⟩ := bind_ok.mp h
        cases h
        exact .refl _
      · obtain ⟨_, _, h⟩ := bind_ok.mp h
        obtain ⟨_, _, h⟩ := bind_ok.mp h
        obtain ⟨k₁, hcopy, h⟩ := bind_ok.mp h
        exact (Sink.GrowsTo.of_copyBack hcopy).trans (ih h)

/-! ## A body stores inside its command's destination (R85, R153) -/

/-- What a body stores lies in the region. -/
def Finish.StoresIn (d : Finish) (r : Region) : Prop := r.base ≤ d.addr ∧ d.addr + d.bytes.length ≤ r.base + r.len

theorem registerFinish_storesIn (r : Results) (n : Nat) : (registerFinish r n).StoresIn ⟨0, 0⟩ :=
  ⟨Nat.le_refl 0, Nat.le_refl 0⟩

/-- A codec's output starts at the destination's start and stays inside its capacity (R89, R154). -/
theorem codecFinish_storesIn {s : State} {k : Sink} (h : (Sink.start s).GrowsTo k) (n : Nat) (u : UnitWork) :
    (codecFinish k n u).StoresIn s.latch.ops.dst := by
  obtain ⟨bs, rfl, hroom⟩ := h
  have hlen : bs.length ≤ s.latch.ops.dstCap.toNat := by simpa using hroom (Nat.zero_le _)
  exact ⟨Nat.le_refl _, by simpa [codecFinish, Operands.dst] using hlen⟩

theorem lz78CBody_storesIn {s : State} {d : Finish} (h : lz78CBody s = .ok d) : d.StoresIn s.latch.ops.dst := by
  obtain ⟨⟨t, k⟩, hdrive, h⟩ := bind_ok.mp h
  cases h
  exact codecFinish_storesIn (growsTo_of_drive hdrive) _ _

theorem lzwCBody_storesIn {s : State} {d : Finish} (h : lzwCBody s = .ok d) : d.StoresIn s.latch.ops.dst := by
  obtain ⟨⟨t, k⟩, hdrive, h⟩ := bind_ok.mp h
  cases h
  exact codecFinish_storesIn (growsTo_of_drive hdrive) _ _

theorem lzssCBody_storesIn {s : State} {d : Finish} (h : lzssCBody s = .ok d) : d.StoresIn s.latch.ops.dst := by
  obtain ⟨input, _, h⟩ := bind_ok.mp h
  obtain ⟨k, hput, h⟩ := bind_ok.mp h
  cases h
  exact codecFinish_storesIn (.of_putChunks hput) _ _

theorem lz78DBody_storesIn {s : State} {d : Finish} (h : lz78DBody s = .ok d) : d.StoresIn s.latch.ops.dst := by
  obtain ⟨_, _, h⟩ := bind_ok.mp h
  obtain ⟨⟨table, k⟩, hloop, h⟩ := bind_ok.mp h
  obtain ⟨_, _, h⟩ := bind_ok.mp h
  cases h
  exact codecFinish_storesIn (growsTo_of_lz78Loop hloop) _ _

theorem lzwDBody_storesIn {s : State} {d : Finish} (h : lzwDBody s = .ok d) : d.StoresIn s.latch.ops.dst := by
  obtain ⟨_, _, h⟩ := bind_ok.mp h
  obtain ⟨⟨table, prev, k⟩, hloop, h⟩ := bind_ok.mp h
  obtain ⟨_, _, h⟩ := bind_ok.mp h
  cases h
  exact codecFinish_storesIn (growsTo_of_lzwLoop hloop) _ _

theorem lzssDBody_storesIn {s : State} {d : Finish} (h : lzssDBody s = .ok d) : d.StoresIn s.latch.ops.dst := by
  obtain ⟨_, _, h⟩ := bind_ok.mp h
  obtain ⟨⟨src, k⟩, hloop, h⟩ := bind_ok.mp h
  cases h
  exact codecFinish_storesIn (growsTo_of_lzssLoop hloop) _ _

theorem jpegCBody_storesIn {s : State} {d : Finish} (h : jpegCBody s = .ok d) : d.StoresIn s.latch.ops.dst := by
  obtain ⟨img, _, h⟩ := bind_ok.mp h
  obtain ⟨k, hput, h⟩ := bind_ok.mp h
  cases h
  exact codecFinish_storesIn (.of_putEach hput) _ _

theorem jpegDBody_storesIn {s : State} {d : Finish} (h : jpegDBody s = .ok d) : d.StoresIn s.latch.ops.dst := by
  obtain ⟨⟨hd, ch, src⟩, _, h⟩ := bind_ok.mp h
  obtain ⟨k₁, hhead, h⟩ := bind_ok.mp h
  obtain ⟨k₂, hpix, h⟩ := bind_ok.mp h
  cases h
  exact codecFinish_storesIn ((Sink.GrowsTo.of_putBytes hhead).trans (.of_putBytes hpix)) _ _

/-- A header is stored from the destination's start on, where it has room (R321, R322). -/
theorem storeHeader_storesIn {s : State} {bs : List Byte} {d : Finish} (h : storeHeader s bs = .ok d) :
    d.StoresIn s.latch.ops.dst := by
  obtain ⟨_, hroom, h⟩ := bind_ok.mp h
  obtain ⟨_, _, h⟩ := bind_ok.mp h
  cases h
  have hlen : bs.length ≤ s.latch.ops.dstCap.toNat := by simpa using check_ok.mp hroom
  exact ⟨Nat.le_refl _, Nat.add_le_add_left hlen _⟩

theorem efileBody_storesIn {s : State} {d : Finish} (h : efileBody s = .ok d) : d.StoresIn s.latch.ops.dst := by
  obtain ⟨_, _, h⟩ := bind_ok.mp h
  obtain ⟨name, _, h⟩ := bind_ok.mp h
  obtain ⟨codec, _, h⟩ := bind_ok.mp h
  exact storeHeader_storesIn h

theorem efoldBody_storesIn {s : State} {d : Finish} (h : efoldBody s = .ok d) : d.StoresIn s.latch.ops.dst := by
  obtain ⟨_, _, h⟩ := bind_ok.mp h
  obtain ⟨name, _, h⟩ := bind_ok.mp h
  exact storeHeader_storesIn h

/-- The patched size field ends inside the destination by the first check (R329). -/
theorem patchBody_storesIn {s : State} {d : Finish} (h : patchBody s = .ok d) : d.StoresIn s.latch.ops.dst := by
  obtain ⟨_, hfit, h⟩ := bind_ok.mp h
  obtain ⟨_, _, h⟩ := bind_ok.mp h
  obtain ⟨t, _, h⟩ := bind_ok.mp h
  obtain ⟨_, _, h⟩ := bind_ok.mp h
  obtain ⟨_, _, h⟩ := bind_ok.mp h
  cases h
  have hfit : s.latch.ops.arg1.toNat + 5 ≤ s.latch.ops.dst.len := by simpa using check_ok.mp hfit
  simp only [Finish.StoresIn, be32_length]
  omega

theorem decBody_storesIn {s : State} {d : Finish} (h : decBody s = .ok d) : d.StoresIn ⟨0, 0⟩ := by
  obtain ⟨r, _, h⟩ := bind_ok.mp h
  cases h
  exact ⟨Nat.le_refl 0, Nat.le_refl 0⟩

theorem lookupBody_storesIn {s : State} {d : Finish} (h : lookupBody s = .ok d) : d.StoresIn ⟨0, 0⟩ := by
  obtain ⟨name, _, h⟩ := bind_ok.mp h
  split at h
  · cases h
    exact registerFinish_storesIn _ _
  · cases h

theorem extmapBody_storesIn {s : State} {d : Finish} (h : extmapBody s = .ok d) : d.StoresIn ⟨0, 0⟩ := by
  obtain ⟨ext, _, h⟩ := bind_ok.mp h
  cases h
  exact registerFinish_storesIn _ _

/-- Every body that ends normally has stored inside the destination its command uses (R89, R126). -/
theorem bodyOf_storesIn {i : Instr} {s : State} {d : Finish} (h : bodyOf i s = .ok d) :
    d.StoresIn (dstRegion i s.latch.ops) := by
  cases i with
  | nop =>
    cases h
    exact registerFinish_storesIn _ _
  | lz78C => exact lz78CBody_storesIn (wrapCause_ok.mp h)
  | lz78D => exact lz78DBody_storesIn (wrapCause_ok.mp h)
  | lzssC => exact lzssCBody_storesIn (wrapCause_ok.mp h)
  | lzssD => exact lzssDBody_storesIn (wrapCause_ok.mp h)
  | lzwC => exact lzwCBody_storesIn (wrapCause_ok.mp h)
  | lzwD => exact lzwDBody_storesIn (wrapCause_ok.mp h)
  | jpegC => exact jpegCBody_storesIn (wrapCause_ok.mp h)
  | jpegD => exact jpegDBody_storesIn (wrapCause_ok.mp h)
  | hdrEfile => exact efileBody_storesIn h
  | hdrEfold => exact efoldBody_storesIn h
  | hdrDec => exact decBody_storesIn h
  | hdrPatch => exact patchBody_storesIn h
  | regLookup => exact lookupBody_storesIn h
  | regExtmap => exact extmapBody_storesIn h

/-! ## The register accesses, case by case (R30 to R39, R381) -/

theorem isBusy_of_busy {s : State} (h : s.seq = .busy) : s.isBusy = true := decide_eq_true h

theorem isBusy_of_idle {s : State} (h : s.seq = .idle) : s.isBusy = false := by simp [State.isBusy, h]

theorem hardwareReset_of_idle {s : State} (h : s.seq = .idle) : s.hardwareReset = s.resetRegs := by
  rw [State.hardwareReset, isBusy_of_idle h]
  rfl

theorem hardwareReset_eq_resetRegs (s : State) : ∃ u : State, s.hardwareReset = u.resetRegs := by
  unfold State.hardwareReset
  split
  · exact ⟨_, rfl⟩
  · exact ⟨s, rfl⟩

theorem hardwareReset_seq (s : State) : s.hardwareReset.seq = .idle := by
  obtain ⟨u, hu⟩ := hardwareReset_eq_resetRegs s
  rw [hu]
  rfl

theorem writeCtrl_of_clear {s : State} {w : Word} (hw : w.getLsbD 1 = false) :
    s.writeCtrl w = { s with ie := w.getLsbD 0 } := by
  simp only [State.writeCtrl, hw, Bool.false_eq_true, if_false]

theorem writeCtrl_of_busy {s : State} {w : Word} (hw : w.getLsbD 1 = true) (h : s.seq = .busy) :
    s.writeCtrl w = { s with ie := w.getLsbD 0, status := s.status.overrun } := by
  simp only [State.writeCtrl, State.isBusy, hw, h, decide_true, if_true]

theorem writeCtrl_of_idle {s : State} {w : Word} (hw : w.getLsbD 1 = true) (h : s.seq = .idle) :
    s.writeCtrl w = s.resetRegs := by
  simp only [State.writeCtrl, State.isBusy, hw, h, if_true]
  rfl

theorem writeCmd_of_busy {s : State} (w : Word) (h : s.seq = .busy) :
    s.writeCmd w = { s with status := s.status.overrun } := by
  rw [State.writeCmd, isBusy_of_busy h]
  rfl

theorem writeCmd_of_idle {s : State} (w : Word) (h : s.seq = .idle) : s.writeCmd w = s.startCommand w := by
  rw [State.writeCmd, isBusy_of_idle h]
  rfl

theorem regAccessOk_iff (off bytes : Nat) : regAccessOk off bytes = true ↔ bytes = 4 ∧ off % 4 = 0 ∧ off < 256 := by
  simp [regAccessOk, and_assoc]

theorem regAt_offset (r : RegName) : regAt r.offset = some r := by cases r <;> rfl

theorem offset_aligned (r : RegName) : r.offset % 4 = 0 ∧ r.offset < 0x50 := by cases r <;> decide

theorem regAt_of_reserved {off : Nat} (h : 0x50 ≤ off) : regAt off = none := by
  cases hr : regAt off with
  | none => rfl
  | some r =>
    have := (offset_aligned r).2
    have := offset_of_regAt hr
    omega

theorem regAccessOk_offset (r : RegName) : regAccessOk r.offset 4 = true := by
  obtain ⟨halign, hlt⟩ := offset_aligned r
  exact (regAccessOk_iff _ _).mpr ⟨rfl, halign, by omega⟩

theorem hostRegRead_offset (r : RegName) (s : State) :
    hostRegRead r.offset 4 s = .next { s with rdWord := s.readReg r } := by
  simp only [hostRegRead, regAccessOk_offset, regAt_offset, if_true]

theorem hostRegWrite_offset (r : RegName) (w : Word) (s : State) :
    hostRegWrite r.offset 4 w s = .next (s.writeReg w r) := by
  simp only [hostRegWrite, regAccessOk_offset, regAt_offset, if_true]

/-- All a store that goes on can do: write a register, or nothing at a reserved slot. -/
theorem hostRegWrite_next {off bytes : Nat} {v : Word} {s t : State} (h : hostRegWrite off bytes v s = .next t) :
    t = s ∨ ∃ r, t = s.writeReg v r := by
  unfold hostRegWrite at h
  split at h
  · split at h
    · cases h
      exact .inr ⟨_, rfl⟩
    · cases h
      exact .inl rfl
  · cases h

/-- A load that goes on changes only what the host last read. -/
theorem hostRegRead_next {off bytes : Nat} {s t : State} (h : hostRegRead off bytes s = .next t) :
    t = { s with rdWord := t.rdWord } := by
  unfold hostRegRead at h
  split at h <;> cases h
  rfl

/-- A race needs a running command (R108). -/
theorem busy_of_racesWith {s : State} {r : Region} (h : s.racesWith r = true) : s.seq = .busy := by
  cases hq : s.seq with
  | busy => rfl
  | idle => simp [State.racesWith, State.running, isBusy_of_idle hq] at h

/-! ## What a step can do to the running command -/

/-- `t` is `s` after a step that neither starts nor ends a command nor resets: what belongs to the running command, if
there is one, is kept. A STATUS write may have cleared flags (R34), and a memory write may have marked a race (R108). -/
structure State.KeepsCommand (t s : State) : Prop where
  seq : t.seq = s.seq
  latch : t.latch = s.latch
  cmd : t.cmd = s.cmd
  res : t.res = s.res
  errcode : t.status.errcode = s.status.errcode
  cause : t.status.cause = s.status.cause
  done : t.status.done = true → s.status.done = true
  err : t.status.err = true → s.status.err = true
  raced : t.raced = true → s.raced = true ∨ s.seq = .busy
  memWf : s.mem.wf = true → t.mem.wf = true

/-- `t` is `s` after the completion of its command, with or without an error (R155, R355). -/
structure State.EndsCommand (t s : State) : Prop where
  idle : t.seq = .idle
  latch : t.latch = s.latch
  cmd : t.cmd = s.cmd
  raced : t.raced = false
  status : ∃ f : Status, t.status = f.completeOk ∨ ∃ e, t.status = f.completeErr e
  memWf : s.mem.wf = true → t.mem.wf = true

namespace State.KeepsCommand

theorem of_eq {t s : State} (seq : t.seq = s.seq := by rfl) (latch : t.latch = s.latch := by rfl)
    (cmd : t.cmd = s.cmd := by rfl) (res : t.res = s.res := by rfl) (status : t.status = s.status := by rfl)
    (raced : t.raced = s.raced := by rfl) (mem : t.mem = s.mem := by rfl) : t.KeepsCommand s where
  seq := seq
  latch := latch
  cmd := cmd
  res := res
  errcode := by rw [status]
  cause := by rw [status]
  done := by rw [status]; exact id
  err := by rw [status]; exact id
  raced := by rw [raced]; exact .inl
  memWf := by rw [mem]; exact id

theorem trans {t u s : State} (h₁ : t.KeepsCommand u) (h₂ : u.KeepsCommand s) : t.KeepsCommand s where
  seq := h₁.seq.trans h₂.seq
  latch := h₁.latch.trans h₂.latch
  cmd := h₁.cmd.trans h₂.cmd
  res := h₁.res.trans h₂.res
  errcode := h₁.errcode.trans h₂.errcode
  cause := h₁.cause.trans h₂.cause
  done := h₂.done ∘ h₁.done
  err := h₂.err ∘ h₁.err
  raced := fun h => (h₁.raced h).elim h₂.raced fun hq => .inr (h₂.seq ▸ hq)
  memWf := h₁.memWf ∘ h₂.memWf

end State.KeepsCommand

theorem State.EndsCommand.trans_keeps {t u s : State} (h₁ : t.EndsCommand u) (h₂ : u.KeepsCommand s) :
    t.EndsCommand s :=
  { h₁ with
    latch := h₁.latch.trans h₂.latch
    cmd := h₁.cmd.trans h₂.cmd
    memWf := h₁.memWf ∘ h₂.memWf }

theorem State.EndsCommand.done {t s : State} (h : t.EndsCommand s) : t.status.done = true := by
  obtain ⟨f, hf | ⟨e, hf⟩⟩ := h.status <;> rw [hf] <;> rfl

theorem keepsCommand_acknowledge (w : Word) (s : State) : (s.acknowledge w).KeepsCommand s where
  seq := rfl
  latch := rfl
  cmd := rfl
  res := rfl
  errcode := rfl
  cause := rfl
  done := fun h => (Bool.and_eq_true_iff.mp h).1
  err := fun h => (Bool.and_eq_true_iff.mp h).1
  raced := .inl
  memWf := id

theorem keepsCommand_overrun (b : Bool) (s : State) :
    ({ s with ie := b, status := s.status.overrun } : State).KeepsCommand s :=
  ⟨rfl, rfl, rfl, rfl, rfl, rfl, id, id, .inl, id⟩

/-- A host write below 2^32 keeps memory's canonical form, and races only with a running command (R108). -/
theorem keepsCommand_writeMem {s : State} {a : Nat} {bs : List Byte} (h : a + bs.length ≤ 2 ^ 32) :
    (s.writeMem a bs).KeepsCommand s where
  seq := rfl
  latch := rfl
  cmd := rfl
  res := rfl
  errcode := rfl
  cause := rfl
  done := id
  err := id
  raced := fun hr => (Bool.or_eq_true_iff.mp hr).imp_right busy_of_racesWith
  memWf := fun hw => writeMem_wf hw h

theorem keepsCommand_pollDone (s : State) : s.pollDone.KeepsCommand s := by
  unfold State.pollDone
  split
  · exact .of_eq
  · exact .of_eq

/-- All a register store can do: it leaves the command alone, starts one, or resets, the last two from idle only
(R35, R381). -/
theorem writeReg_cases (s : State) (w : Word) (r : RegName) :
    (s.writeReg w r).KeepsCommand s ∨ (s.seq = .idle ∧ s.writeReg w r = s.startCommand w) ∨
    (s.seq = .idle ∧ s.writeReg w r = s.hardwareReset) := by
  cases r with
  | ctrl =>
    cases hw : w.getLsbD 1 with
    | false => exact .inl (by rw [State.writeReg, writeCtrl_of_clear hw]; exact .of_eq)
    | true =>
      cases hq : s.seq with
      | idle => exact .inr (.inr ⟨rfl, by rw [State.writeReg, writeCtrl_of_idle hw hq, hardwareReset_of_idle hq]⟩)
      | busy => exact .inl (by rw [State.writeReg, writeCtrl_of_busy hw hq]; exact keepsCommand_overrun _ s)
  | cmd =>
    cases hq : s.seq with
    | idle => exact .inr (.inl ⟨rfl, writeCmd_of_idle w hq⟩)
    | busy => exact .inl (by rw [State.writeReg, writeCmd_of_busy w hq]; exact keepsCommand_overrun s.ie s)
  | status => exact .inl (keepsCommand_acknowledge w s)
  | _ => exact .inl .of_eq

/-- All a host operation can do to the command: it leaves it alone, starts one, or resets; a reset of a busy machine is
the reset input's (R380, R381). -/
theorem hostOp_cases {op : HostOp} {s t : State} (h : hostOp op s = .next t) :
    t.KeepsCommand s ∨ (s.seq = .idle ∧ ∃ w, t = s.startCommand w) ∨
    (t = s.hardwareReset ∧ (s.seq = .idle ∨ op = .hwReset)) := by
  cases op with
  | regRead off bytes =>
    rw [hostRegRead_next h]
    exact .inl .of_eq
  | regWrite off bytes v =>
    obtain rfl | ⟨r, rfl⟩ := hostRegWrite_next h
    · exact .inl .of_eq
    · obtain hkeep | ⟨hq, he⟩ | ⟨hq, he⟩ := writeReg_cases s v r
      · exact .inl hkeep
      · exact .inr (.inl ⟨hq, v, he⟩)
      · exact .inr (.inr ⟨he, .inl hq⟩)
  | wait =>
    cases h
    exact .inl (keepsCommand_pollDone s)
  | memRead a n =>
    obtain ⟨_, _, _, rfl⟩ := hostAccess_next h
    exact .inl .of_eq
  | check a n bs =>
    obtain ⟨_, _, _, rfl⟩ := hostAccess_next h
    exact .inl .of_eq
  | memWrite a bs =>
    obtain ⟨hwraps, _, _, rfl⟩ := hostAccess_next h
    exact .inl (keepsCommand_writeMem (by simpa [Region.wraps] using hwraps))
  | hwReset =>
    cases h
    exact .inr (.inr ⟨rfl, .inr rfl⟩)

theorem endsCommand_raiseError {s : State} {e : Err} {dst : Region} (hd : dst.base < 2 ^ 32) :
    (s.raiseError e dst).EndsCommand s :=
  ⟨rfl, by simp, by simp, rfl, ⟨s.status, .inr ⟨e, by simp⟩⟩, fun h => raiseError_wf h hd⟩

theorem endsCommand_drawOutcome {s : State} {dst : Region} (hd : dst.base < 2 ^ 32) :
    (s.drawOutcome dst).EndsCommand s where
  idle := rfl
  latch := rfl
  cmd := rfl
  raced := rfl
  status := by
    rw [State.drawOutcome_status]
    split
    · exact ⟨_, .inl rfl⟩
    · exact ⟨_, .inr ⟨_, rfl⟩⟩
  memWf := fun h => drawOutcome_wf h hd

theorem endsCommand_complete {s : State} {d : Finish} (hd : d.addr + d.bytes.length ≤ 2 ^ 32) :
    (s.complete d).EndsCommand s :=
  ⟨rfl, rfl, rfl, rfl, ⟨s.status, .inl rfl⟩, fun h => complete_wf h hd⟩

/-- A command ends, whatever it is: a body that ends normally has stored below 2^32, because its destination passed the
region check (R85). -/
theorem exec_endsCommand {i : Instr} {s t : State} (h : exec i s = .next t) : t.EndsCommand s := by
  obtain ⟨_, he⟩ | ⟨d, hr, hb, he⟩ | ⟨e, _, _, he⟩ := exec_cases i s <;> rw [he] at h <;> cases h
  · exact endsCommand_raiseError (dstRegion_base_lt _ _)
  · exact endsCommand_complete (Nat.le_trans (bodyOf_storesIn hb).2 (dstRegion_fits hr))
  · exact endsCommand_raiseError (dstRegion_base_lt _ _)

/-- An idle engine does nothing, and a busy one ends its command. -/
theorem engineStep_next {s t : State} (h : engineStep s = .next t) :
    t.KeepsCommand s ∨ (s.seq = .busy ∧ t.EndsCommand s) := by
  obtain ⟨_, he⟩ | ⟨hq, _, _, he⟩ | ⟨hq, _, _, _, he⟩ | ⟨hq, i, _, _, he⟩ := engineStep_cases s <;> rw [he] at h
  · cases h
    exact .inl .of_eq
  · cases h
    exact .inr ⟨hq, endsCommand_raiseError (by decide)⟩
  · cases h
    exact .inr ⟨hq, endsCommand_drawOutcome (dstRegion_base_lt _ _)⟩
  · exact .inr ⟨hq, exec_endsCommand h⟩

/-- All a step can do to the command: leave it alone, end it, start one on an idle machine, or reset; `u` is the state
without the taken turn and the taken operation. A busy machine is reset by the reset input only (R381). -/
theorem step_cases {s t : State} (h : step s = .next t) :
    t.KeepsCommand s ∨ (s.seq = .busy ∧ t.EndsCommand s) ∨
    ∃ u : State, u.KeepsCommand s ∧ ((s.seq = .idle ∧ ∃ w, t = u.startCommand w) ∨
      (t = u.hardwareReset ∧ (s.seq = .idle ∨ ∃ rest, s.host = .hwReset :: rest))) := by
  have hpop : s.popSched.KeepsCommand s := .of_eq
  cases hturn : s.turn with
  | engine =>
    rw [step_engine hturn] at h
    obtain hkeep | ⟨hq, hend⟩ := engineStep_next h
    · exact .inl (hkeep.trans hpop)
    · exact .inr (.inl ⟨hq, hend.trans_keeps hpop⟩)
  | host =>
    rw [step_host hturn] at h
    obtain ⟨_, he⟩ | ⟨op, rest, hhost, he⟩ := hostStep_cases s.popSched <;> rw [he] at h
    · cases h
      exact .inl hpop
    · have htake : ({ s.popSched with host := rest } : State).KeepsCommand s := .of_eq
      obtain hkeep | hstart | ⟨ht, hwhy⟩ := hostOp_cases h
      · exact .inl (hkeep.trans htake)
      · exact .inr (.inr ⟨_, htake, .inl hstart⟩)
      · exact .inr (.inr ⟨_, htake, .inr ⟨ht, hwhy.imp_right fun (hop : op = .hwReset) => ⟨rest, hop ▸ hhost⟩⟩⟩)

/-! ## The invariant (R386) -/

theorem legalCodes_of_err (e : Err) : legalCodes e.code e.causeCode = true := by
  cases e with
  | codecInternal c => cases c <;> rfl
  | _ => rfl

theorem Err.code_ne_zero (e : Err) : e.code ≠ 0 := by cases e <;> simp [Err.code]

theorem State.KeepsCommand.inv {t s : State} (h : t.KeepsCommand s) (hi : s.Inv) : t.Inv where
  memWf := h.memWf hi.memWf
  busyClear := fun hq => by
    obtain ⟨hdone, herr, hcode, hcause, hres⟩ := hi.busyClear (h.seq ▸ hq)
    exact ⟨Bool.eq_false_iff.mpr fun hd => by simp [h.done hd] at hdone,
      Bool.eq_false_iff.mpr fun he => by simp [h.err he] at herr,
      h.errcode.trans hcode, h.cause.trans hcause, h.res.trans hres⟩
  latchCmd := fun hq => by rw [h.latch, h.cmd, hi.latchCmd (h.seq ▸ hq)]
  racedBusy := fun hr => h.seq.trans ((h.raced hr).elim hi.racedBusy id)
  codes := by rw [h.errcode, h.cause]; exact hi.codes
  errHasCode := fun he => by rw [h.errcode]; exact hi.errHasCode (h.err he)

/-- A completion leaves an idle machine with the codes of no error or of one. -/
theorem State.EndsCommand.inv {t s : State} (h : t.EndsCommand s) (hi : s.Inv) : t.Inv where
  memWf := h.memWf hi.memWf
  busyClear := fun hq => by simp [h.idle] at hq
  latchCmd := fun hq => by simp [h.idle] at hq
  racedBusy := fun hr => by simp [h.raced] at hr
  codes := by
    obtain ⟨f, hf | ⟨e, hf⟩⟩ := h.status <;> rw [hf]
    · rfl
    · exact legalCodes_of_err e
  errHasCode := fun he => by
    obtain ⟨f, hf | ⟨e, hf⟩⟩ := h.status <;> rw [hf] at he ⊢
    · cases he
    · exact e.code_ne_zero

theorem startCommand_inv {s : State} (h : s.mem.wf = true) (w : Word) : (s.startCommand w).Inv where
  memWf := h
  busyClear := fun _ => ⟨rfl, rfl, rfl, rfl, rfl⟩
  latchCmd := fun _ => rfl
  racedBusy := fun _ => rfl
  codes := rfl
  errHasCode := fun he => by cases he

theorem resetRegs_inv {s : State} (h : s.mem.wf = true) : s.resetRegs.Inv where
  memWf := h
  busyClear := fun hq => by cases hq
  latchCmd := fun hq => by cases hq
  racedBusy := fun hr => by cases hr
  codes := rfl
  errHasCode := fun he => by cases he

theorem hardwareReset_inv {s : State} (h : s.mem.wf = true) : s.hardwareReset.Inv := by
  have hwf := hardwareReset_wf h
  obtain ⟨u, hu⟩ := hardwareReset_eq_resetRegs s
  rw [hu] at hwf ⊢
  exact resetRegs_inv hwf

/-- Settles O59: each of the things a step can do to the command keeps the invariant. -/
theorem stepKeepsTheInvariant : Obligations.StepKeepsTheInvariant := by
  intro s t hi h
  obtain hkeep | ⟨_, hend⟩ | ⟨u, hu, ⟨_, w, rfl⟩ | ⟨rfl, _⟩⟩ := step_cases h
  · exact hkeep.inv hi
  · exact hend.inv hi
  · exact startCommand_inv (hu.memWf hi.memWf) w
  · exact hardwareReset_inv (hu.memWf hi.memWf)

/-- Settles O19: of the things a step can do, a start and a soft reset need an idle machine. -/
theorem runningCommandEndsOnlyByCompletionOrReset : Obligations.RunningCommandEndsOnlyByCompletionOrReset := by
  intro s t hbusy h
  have hnot : s.seq ≠ .idle := by simp [hbusy]
  obtain hkeep | ⟨_, hend⟩ | ⟨u, _, ⟨hidle, _⟩ | ⟨rfl, hidle | hinput⟩⟩ := step_cases h
  · exact .inl ⟨hkeep.seq.trans hbusy, hkeep.latch, hkeep.cmd, hkeep.res,
      fun hdone => Bool.eq_false_iff.mpr fun hd => by simp [hkeep.done hd] at hdone⟩
  · exact .inr (.inl ⟨hend.idle, hend.done, hend.latch, hend.cmd⟩)
  · exact absurd hidle hnot
  · exact absurd hidle hnot
  · exact .inr (.inr ⟨hardwareReset_seq u, hinput⟩)

/-! ## Reset (R70) -/

theorem resetRegs_atReset (s : State) : s.resetRegs.AtReset where
  id := rfl
  others := fun r hr => by
    cases r with
    | id => exact absurd rfl hr
    | ctrl => exact (by decide : (0 : BitVec 31) ++ flagBit false = 0)
    | status => exact (by decide : statusWord .idle .zero = 0)
    | _ => rfl
  idle := rfl
  irq := rfl

theorem hardwareReset_atReset (s : State) : s.hardwareReset.AtReset := by
  obtain ⟨u, hu⟩ := hardwareReset_eq_resetRegs s
  rw [hu]
  exact resetRegs_atReset u

theorem read_hardwareReset_outside {s : State} {x : Nat} (h : s.busyDst.contains x = false) :
    s.hardwareReset.mem.read x = s.mem.read x := by
  unfold State.hardwareReset
  split
  · exact read_drawRegion_outside h
  · rfl

/-- Settles O1: both resets write the reset values, and only the draw of an abandoned destination changes memory. -/
theorem resetLeavesTheStatedValues : Obligations.ResetLeavesTheStatedValues := by
  refine ⟨resetRegs_atReset State.reset, fun s => ⟨hardwareReset_atReset s, fun x => read_hardwareReset_outside⟩,
    fun s w hidle hw => ?_⟩
  rw [writeCtrl_of_idle hw hidle]
  exact ⟨resetRegs_atReset s, rfl⟩

/-- Settles O2: the machine at reset is a machine after a reset of its registers, with nothing in memory. -/
theorem resetStateMeetsTheInvariant : Obligations.ResetStateMeetsTheInvariant :=
  resetRegs_inv (s := State.reset) rfl

/-! ## The registers as the host finds them (R30 to R39) -/

theorem ctrlReg_eq (s : State) : s.ctrlReg = if s.ie then 1 else 0 := by
  unfold State.ctrlReg
  cases s.ie <;> decide

/-- The bits of CTRL above IE are 0 (R33). -/
theorem ctrlReg_reserved (s : State) : s.ctrlReg.extractLsb' 2 30 = 0 := by
  rw [ctrlReg_eq]
  cases s.ie <;> decide

/-- Settles O3: a register's offset is aligned, decodes to it alone, and is read and written as the register. -/
theorem registerMapIsAsStated : Obligations.RegisterMapIsAsStated := by
  refine ⟨fun s => ?_, fun s w => ?_, fun r => ⟨regAt_offset r, offset_aligned r⟩, fun _ _ => offset_of_regAt,
    hostRegRead_offset, fun _ => rfl, fun s w r hr => ?_⟩
  · rw [← ctrlReg_eq]
    simp only [List.forall_mem_cons]
    exact ⟨hostRegRead_offset .id s, hostRegRead_offset .ctrl s, hostRegRead_offset .status s,
      hostRegRead_offset .cmd s, hostRegRead_offset .srcAddr s, hostRegRead_offset .srcLen s,
      hostRegRead_offset .dstAddr s, hostRegRead_offset .dstCap s, hostRegRead_offset .arg0 s,
      hostRegRead_offset .arg1 s, hostRegRead_offset .arg2 s, hostRegRead_offset .arg3 s,
      hostRegRead_offset .resLen s, hostRegRead_offset .res0 s, hostRegRead_offset .res1 s,
      hostRegRead_offset .res2 s, hostRegRead_offset .res3 s, hostRegRead_offset .res4 s,
      hostRegRead_offset .res5 s, hostRegRead_offset .res6 s, fun _ h => absurd h List.not_mem_nil⟩
  · refine ⟨hostRegWrite_offset .srcAddr w s, hostRegWrite_offset .srcLen w s, hostRegWrite_offset .dstAddr w s,
      hostRegWrite_offset .dstCap w s, hostRegWrite_offset .arg0 w s, hostRegWrite_offset .arg1 w s,
      hostRegWrite_offset .arg2 w s, hostRegWrite_offset .arg3 w s, ?_⟩
    simp only [List.forall_mem_cons]
    exact ⟨hostRegWrite_offset .id w s, hostRegWrite_offset .resLen w s, hostRegWrite_offset .res0 w s,
      hostRegWrite_offset .res1 w s, hostRegWrite_offset .res2 w s, hostRegWrite_offset .res3 w s,
      hostRegWrite_offset .res4 w s, hostRegWrite_offset .res5 w s, hostRegWrite_offset .res6 w s,
      fun _ h => absurd h List.not_mem_nil⟩
  · simp only [List.mem_cons, List.not_mem_nil, or_false] at hr
    rcases hr with rfl | rfl | rfl | rfl | rfl | rfl | rfl | rfl | rfl <;> rfl

/-! ## The fields of STATUS (R34) -/

section
variable (q : Seq) (f : Status)

theorem statusWord_flags : (statusWord q f).getLsbD 0 = decide (q = .busy) ∧ (statusWord q f).getLsbD 1 = f.done ∧
    (statusWord q f).getLsbD 2 = f.err ∧ (statusWord q f).getLsbD 3 = f.ovr := by
  simp only [statusWord, flagBit, BitVec.getLsbD_append, BitVec.getLsbD_ofBool]
  simp

theorem statusWord_reservedLow : (statusWord q f).extractLsb' 4 4 = 0 := by
  simp (disch := decide) only [statusWord, BitVec.extractLsb'_append_eq_of_le, BitVec.extractLsb'_append_eq_of_add_le]
  decide

theorem statusWord_errcode : (statusWord q f).extractLsb' 8 8 = f.errcode := by
  simp (disch := decide) only [statusWord, BitVec.extractLsb'_append_eq_of_le, BitVec.extractLsb'_append_eq_of_add_le]
  exact BitVec.extractLsb'_eq_self

theorem statusWord_cause : (statusWord q f).extractLsb' 16 8 = f.cause := by
  simp (disch := decide) only [statusWord, BitVec.extractLsb'_append_eq_of_le, BitVec.extractLsb'_append_eq_of_add_le]
  exact BitVec.extractLsb'_eq_self

theorem statusWord_reservedHigh : (statusWord q f).extractLsb' 24 8 = 0 := by
  simp (disch := decide) only [statusWord, BitVec.extractLsb'_append_eq_of_le]
  decide

end

/-- Settles O6: a field is where the word was put together from it, and a store to STATUS acknowledges. -/
theorem statusWordLayout : Obligations.StatusWordLayout := by
  intro s w
  obtain ⟨hbusy, hdone, herr, hovr⟩ := statusWord_flags s.seq s.status
  exact ⟨⟨hbusy, hdone, herr, hovr, statusWord_reservedLow _ _, statusWord_errcode _ _, statusWord_cause _ _,
    statusWord_reservedHigh _ _⟩, hostRegWrite_offset .status w s⟩

/-! ## Reserved slots and bits (R39) -/

theorem hostRegRead_reserved {off : Nat} (h : 0x50 ≤ off) (hok : regAccessOk off 4 = true) (s : State) :
    hostRegRead off 4 s = .next { s with rdWord := 0 } := by
  simp only [hostRegRead, hok, regAt_of_reserved h, if_true]

theorem hostRegWrite_reserved {off : Nat} (h : 0x50 ≤ off) (hok : regAccessOk off 4 = true) (v : Word) (s : State) :
    hostRegWrite off 4 v s = .next s := by
  simp only [hostRegWrite, hok, regAt_of_reserved h, if_true]

/-- Settles O4: no register has a reserved offset, and a store reads only the bits that its register defines. -/
theorem reservedSlotsAndBitsReadZero : Obligations.ReservedSlotsAndBitsReadZero := by
  refine ⟨fun off v s h hlt halign => ?_,
    fun s => ⟨ctrlReg_reserved s, statusWord_reservedLow _ _, statusWord_reservedHigh _ _⟩, fun s v w => ⟨?_, ?_⟩⟩
  · have hok := (regAccessOk_iff off 4).mpr ⟨rfl, halign, hlt⟩
    exact ⟨hostRegRead_reserved h hok s, hostRegWrite_reserved h hok v s⟩
  · rintro ⟨h0, h1⟩
    simp only [State.writeCtrl, h0, h1]
  · rintro ⟨h1, h2, h3⟩
    simp only [State.acknowledge, Status.w1c, h1, h2, h3]

/-! ## Aligned 32-bit accesses (R30) -/

theorem hostRegWrite_of_ok {off bytes : Nat} (h : regAccessOk off bytes = true) (v : Word) (s : State) :
    ∃ t, hostRegWrite off bytes v s = .next t := by
  simp only [hostRegWrite, h, if_true]
  split <;> exact ⟨_, rfl⟩

/-- Settles O5: the access check is the rule's condition, and nothing else stops a register access. -/
theorem registerAccessIsAlignedWords : Obligations.RegisterAccessIsAlignedWords := by
  refine fun off bytes v s => ⟨fun h => ?_, fun h => ?_⟩ <;> rw [← regAccessOk_iff] at h
  · exact ⟨⟨_, if_pos h⟩, hostRegWrite_of_ok h v s⟩
  · exact ⟨if_neg h, if_neg h⟩

/-! ## Operand registers (R36) -/

theorem mem_operandRegs {r : RegName} : r ∈ operandRegs ↔ r = .srcAddr ∨ r = .srcLen ∨ r = .dstAddr ∨ r = .dstCap ∨
    r = .arg0 ∨ r = .arg1 ∨ r = .arg2 ∨ r = .arg3 := by
  simp [operandRegs]

/-- A store to an operand register changes the operands only. -/
theorem writeReg_operand {r : RegName} (h : r ∈ operandRegs) (s : State) (w : Word) :
    s.writeReg w r = { s with ops := (s.writeReg w r).ops } := by
  rcases mem_operandRegs.mp h with rfl | rfl | rfl | rfl | rfl | rfl | rfl | rfl <;> rfl

theorem readReg_writeReg_same {r : RegName} (h : r ∈ operandRegs) (s : State) (w : Word) :
    (s.writeReg w r).readReg r = w := by
  rcases mem_operandRegs.mp h with rfl | rfl | rfl | rfl | rfl | rfl | rfl | rfl <;> rfl

/-- A register that is no operand does not show the operands. -/
theorem readReg_of_not_operand {q : RegName} (h : q ∉ operandRegs) (s : State) (o : Operands) :
    ({ s with ops := o } : State).readReg q = s.readReg q := by
  cases q <;> simp [operandRegs] at h <;> rfl

/-- Two operand registers are two fields, and the other registers show none of them. -/
theorem readReg_writeReg_of_ne {r q : RegName} (h : r ∈ operandRegs) (hne : q ≠ r) (s : State) (w : Word) :
    (s.writeReg w r).readReg q = s.readReg q := by
  by_cases hq : q ∈ operandRegs
  · rcases mem_operandRegs.mp h with rfl | rfl | rfl | rfl | rfl | rfl | rfl | rfl <;>
      rcases mem_operandRegs.mp hq with rfl | rfl | rfl | rfl | rfl | rfl | rfl | rfl <;>
      simp at hne <;> rfl
  · rw [writeReg_operand h, readReg_of_not_operand hq]

/-- Settles O7: the store changes one field of the operands. -/
theorem operandRegistersReadBack : Obligations.OperandRegistersReadBack := fun s w r q h =>
  ⟨readReg_writeReg_same h s w, fun hne => readReg_writeReg_of_ne h hne s w, by rw [writeReg_operand h]⟩

end Sys2Proof.Machine

namespace Sys2Proof.Machine

/-! ## The command word and the command (R120, R121, R123) -/

/-- A word is its three fields, ZERO at the top (R120). -/
theorem word_eq_fields (w : Word) : w = cmdZero w ++ cmdUnit w ++ cmdFunc w := by
  rw [cmdZero, cmdUnit, cmdFunc, BitVec.extractLsb'_append_extractLsb'_eq_extractLsb' (show 8 = 4 + 4 from rfl),
    BitVec.extractLsb'_append_extractLsb'_eq_extractLsb' (show 4 = 0 + 4 from rfl)]
  exact BitVec.extractLsb'_eq_self.symm

/-- The opcode map has a command only at the command's own UNIT and FUNC (R121). -/
theorem unitFunc_of_decodeOp {u f : Nat} {i : Instr} (h : decodeOp u f = some i) :
    u = (unitFunc i).1.toNat ∧ f = (unitFunc i).2.toNat := by
  unfold decodeOp at h
  split at h <;> cases h <;> exact ⟨rfl, rfl⟩

theorem fields_of_decode {w : Word} {i : Instr} (h : decode w = .ok i) :
    cmdZero w = 0 ∧ decodeOp (cmdUnit w).toNat (cmdFunc w).toNat = some i := by
  unfold decode at h
  split at h
  · rename_i hzero
    split at h <;> cases h
    rename_i hop
    exact ⟨hzero, hop⟩
  · cases h

theorem decode_encode (i : Instr) : decode (encode i) = .ok i := by cases i <;> rfl

/-- Settles O13: the fields of a word that decodes are those of the command's word, and a word is its fields. -/
theorem decodeAgreesWithEncode : Obligations.DecodeAgreesWithEncode := by
  refine fun w i => ⟨fun h => ?_, fun h => h ▸ decode_encode i⟩
  obtain ⟨hzero, hop⟩ := fields_of_decode h
  obtain ⟨hunit, hfunc⟩ := unitFunc_of_decodeOp hop
  rw [word_eq_fields w, hzero, BitVec.eq_of_toNat_eq hunit, BitVec.eq_of_toNat_eq hfunc, encode]

/-- Settles O12: each of the fifteen words is its command's word. -/
theorem writtenCommandWordsDecode : Obligations.WrittenCommandWordsDecode := by
  simp only [Obligations.WrittenCommandWordsDecode, decodeAgreesWithEncode _ _]
  decide

/-! ## A busy engine's turn ends the command and keeps the other registers (R155, R355) -/

theorem keepsRegisters_complete (d : Finish) (s : State) : (s.complete d).KeepsRegisters s := by constructor <;> rfl

theorem keepsRegisters_raiseError (e : Err) (dst : Region) (s : State) : (s.raiseError e dst).KeepsRegisters s := by
  constructor <;> simp

theorem keepsRegisters_drawOutcome (dst : Region) (s : State) : (s.drawOutcome dst).KeepsRegisters s := by
  constructor
  case ovr =>
    rw [State.drawOutcome_status]
    split <;> rfl
  all_goals rfl

/-- Every command goes on to a next state, with what no command changes kept. -/
theorem exec_keepsRegisters (i : Instr) (s : State) : ∃ t, exec i s = .next t ∧ t.KeepsRegisters s := by
  obtain ⟨_, he⟩ | ⟨d, _, _, he⟩ | ⟨e, _, _, he⟩ := exec_cases i s
  · exact ⟨_, he, keepsRegisters_raiseError _ _ s⟩
  · exact ⟨_, he, keepsRegisters_complete d s⟩
  · exact ⟨_, he, keepsRegisters_raiseError e _ s⟩

/-- A busy engine's turn ends the command, whatever the latched word and whether or not the host raced. -/
theorem engineStep_endsCommand {s : State} (h : s.seq = .busy) :
    ∃ t, engineStep s = .next t ∧ t.EndsCommand s ∧ t.KeepsRegisters s := by
  obtain ⟨hidle, _⟩ | ⟨_, _, _, he⟩ | ⟨_, i, _, _, he⟩ | ⟨_, i, _, _, he⟩ := engineStep_cases s
  · exact absurd (h.symm.trans hidle) (by decide)
  · exact ⟨_, he, endsCommand_raiseError (by decide), keepsRegisters_raiseError _ _ s⟩
  · exact ⟨_, he, endsCommand_drawOutcome (dstRegion_base_lt _ _), keepsRegisters_drawOutcome _ s⟩
  · obtain ⟨t, hexec, hkeep⟩ := exec_keepsRegisters i s
    exact ⟨t, he.trans hexec, exec_endsCommand hexec, hkeep⟩

/-! ## The default turns and a polled command (R131, R390; log 3) -/

theorem turn_of_busy {s : State} (hs : s.sched = []) (h : s.seq = .busy) : s.turn = .engine := by
  simp [State.turn, hs, isBusy_of_busy h]

theorem turn_of_idle {s : State} (hs : s.sched = []) (h : s.seq = .idle) : s.turn = .host := by
  simp [State.turn, hs, isBusy_of_idle h]

theorem popSched_of_nil {s : State} (hs : s.sched = []) : s.popSched = s := by
  cases s
  cases hs
  rfl

/-- With no turns listed, a busy machine's step ends its command. -/
theorem step_of_busy {s : State} (hs : s.sched = []) (h : s.seq = .busy) :
    ∃ t, step s = .next t ∧ t.EndsCommand s ∧ t.KeepsRegisters s := by
  rw [step_engine (turn_of_busy hs h), popSched_of_nil hs]
  exact engineStep_endsCommand h

/-- With no turns listed, an idle machine's step is its host's oldest pending operation. -/
theorem step_of_idle {s : State} {op : HostOp} {rest : List HostOp} (hs : s.sched = []) (h : s.seq = .idle)
    (hhost : s.host = op :: rest) : step s = hostOp op { s with host := rest } := by
  rw [step_host (turn_of_idle hs h), popSched_of_nil hs, hostStep, hhost]

/-- The store to CMD that `run` expands to (R131) starts the command. -/
theorem hostOp_cmd_of_idle {s : State} (w : Word) (h : s.seq = .idle) :
    hostOp (.regWrite RegName.cmd.offset 4 w) s = .next (s.startCommand w) := by
  rw [hostOp, hostRegWrite_offset, State.writeReg, writeCmd_of_idle w h]

/-- The polling loop ends at the first read of DONE = 1 (R131). -/
theorem step_wait_of_done {s : State} {rest : List HostOp} (hs : s.sched = []) (h : s.seq = .idle)
    (hhost : s.host = .wait :: rest) (hdone : s.status.done = true) :
    step s = .next { s with host := rest, rdWord := s.statusReg } := by
  rw [step_of_idle hs h hhost]
  simp only [hostOp, State.pollDone, hdone, if_true]
  rfl

theorem run_succ {M : Host.Core} {s t : M.State} (h : M.step s = .next t) (k : Nat) : M.run (k + 1) s = M.run k t := by
  rw [Host.Core.run, h]

/-- Settles O17: the store starts the command, the engine's turn ends it, and the read of STATUS finds DONE = 1. -/
theorem polledCommandCompletes : Obligations.PolledCommandCompletes := by
  intro s w hidle hsched hhost
  have hstart : step s = .next (({ s with host := HostAsm.wait } : State).startCommand w) :=
    (step_of_idle hsched hidle hhost).trans (hostOp_cmd_of_idle w hidle)
  obtain ⟨t, hrun, hend, hkeep⟩ :=
    step_of_busy (s := ({ s with host := HostAsm.wait } : State).startCommand w) hsched rfl
  have hpoll := step_wait_of_done (hkeep.sched.trans hsched) hend.idle hkeep.host hend.done
  refine ⟨_, (run_succ hstart 2).trans ((run_succ hrun 1).trans (run_succ hpoll 0)), ?_⟩
  exact ⟨rfl, hend.idle, hend.done, (statusWord_flags _ _).2.1.trans hend.done, hend.cmd⟩

/-! ## A body that ends normally stores exactly what it reports (R126, R127, R154) -/

/-- `d` is a codec's normal end (R154), after appends to the empty output. -/
def State.CodecEnd (s : State) (d : Finish) : Prop :=
  ∃ k n u, (Sink.start s).GrowsTo k ∧ d = codecFinish k n u

theorem lz78CBody_codecEnd {s : State} {d : Finish} (h : lz78CBody s = .ok d) : s.CodecEnd d := by
  obtain ⟨⟨t, k⟩, hdrive, h⟩ := bind_ok.mp h
  cases h
  exact ⟨_, _, _, growsTo_of_drive hdrive, rfl⟩

theorem lzwCBody_codecEnd {s : State} {d : Finish} (h : lzwCBody s = .ok d) : s.CodecEnd d := by
  obtain ⟨⟨t, k⟩, hdrive, h⟩ := bind_ok.mp h
  cases h
  exact ⟨_, _, _, growsTo_of_drive hdrive, rfl⟩

theorem lzssCBody_codecEnd {s : State} {d : Finish} (h : lzssCBody s = .ok d) : s.CodecEnd d := by
  obtain ⟨input, _, h⟩ := bind_ok.mp h
  obtain ⟨k, hput, h⟩ := bind_ok.mp h
  cases h
  exact ⟨_, _, _, .of_putChunks hput, rfl⟩

theorem lz78DBody_codecEnd {s : State} {d : Finish} (h : lz78DBody s = .ok d) : s.CodecEnd d := by
  obtain ⟨_, _, h⟩ := bind_ok.mp h
  obtain ⟨⟨table, k⟩, hloop, h⟩ := bind_ok.mp h
  obtain ⟨_, _, h⟩ := bind_ok.mp h
  cases h
  exact ⟨_, _, _, growsTo_of_lz78Loop hloop, rfl⟩

theorem lzwDBody_codecEnd {s : State} {d : Finish} (h : lzwDBody s = .ok d) : s.CodecEnd d := by
  obtain ⟨_, _, h⟩ := bind_ok.mp h
  obtain ⟨⟨table, prev, k⟩, hloop, h⟩ := bind_ok.mp h
  obtain ⟨_, _, h⟩ := bind_ok.mp h
  cases h
  exact ⟨_, _, _, growsTo_of_lzwLoop hloop, rfl⟩

theorem lzssDBody_codecEnd {s : State} {d : Finish} (h : lzssDBody s = .ok d) : s.CodecEnd d := by
  obtain ⟨_, _, h⟩ := bind_ok.mp h
  obtain ⟨⟨src, k⟩, hloop, h⟩ := bind_ok.mp h
  cases h
  exact ⟨_, _, _, growsTo_of_lzssLoop hloop, rfl⟩

theorem jpegCBody_codecEnd {s : State} {d : Finish} (h : jpegCBody s = .ok d) : s.CodecEnd d := by
  obtain ⟨img, _, h⟩ := bind_ok.mp h
  obtain ⟨k, hput, h⟩ := bind_ok.mp h
  cases h
  exact ⟨_, _, _, .of_putEach hput, rfl⟩

theorem jpegDBody_codecEnd {s : State} {d : Finish} (h : jpegDBody s = .ok d) : s.CodecEnd d := by
  obtain ⟨⟨hd, ch, src⟩, _, h⟩ := bind_ok.mp h
  obtain ⟨k₁, hhead, h⟩ := bind_ok.mp h
  obtain ⟨k₂, hpix, h⟩ := bind_ok.mp h
  cases h
  exact ⟨_, _, _, (Sink.GrowsTo.of_putBytes hhead).trans (.of_putBytes hpix), rfl⟩

/-- A count within a capacity fits its result register. -/
theorem toNat_ofNat_of_le_cap {n : Nat} {cap : Word} (h : n ≤ cap.toNat) : (BitVec.ofNat 32 n).toNat = n := by
  rw [BitVec.toNat_ofNat, Nat.mod_eq_of_lt (Nat.lt_of_le_of_lt h cap.isLt)]

/-- A codec has stored RES_LEN bytes from the destination's start on; a capacity is below 2^32, so RES_LEN holds the
whole count (R154). -/
theorem State.CodecEnd.storesIn {s : State} {d : Finish} (h : s.CodecEnd d) :
    d.StoresIn ⟨s.latch.ops.dst.base, d.results.len.toNat⟩ := by
  obtain ⟨_, _, _, ⟨bs, rfl, hroom⟩, rfl⟩ := h
  have hlen : bs.length ≤ s.latch.ops.dstCap.toNat := by simpa using hroom (Nat.zero_le _)
  refine ⟨Nat.le_refl _, Nat.add_le_add_left ?_ _⟩
  simpa [codecFinish] using Nat.le_of_eq (toNat_ofNat_of_le_cap hlen).symm

/-- A header's end has stored RES_LEN bytes from the destination's start on (R321, R322). -/
theorem storeHeader_storesReported {s : State} {bs : List Byte} {d : Finish} (h : storeHeader s bs = .ok d) :
    d.StoresIn ⟨s.latch.ops.dst.base, d.results.len.toNat⟩ := by
  obtain ⟨_, hroom, h⟩ := bind_ok.mp h
  obtain ⟨_, _, h⟩ := bind_ok.mp h
  cases h
  have hlen : bs.length ≤ s.latch.ops.dstCap.toNat := by simpa using check_ok.mp hroom
  exact ⟨Nat.le_refl _, Nat.add_le_add_left (Nat.le_of_eq (toNat_ofNat_of_le_cap hlen).symm) _⟩

theorem efileBody_storesReported {s : State} {d : Finish} (h : efileBody s = .ok d) :
    d.StoresIn ⟨s.latch.ops.dst.base, d.results.len.toNat⟩ := by
  obtain ⟨_, _, h⟩ := bind_ok.mp h
  obtain ⟨name, _, h⟩ := bind_ok.mp h
  obtain ⟨codec, _, h⟩ := bind_ok.mp h
  exact storeHeader_storesReported h

theorem efoldBody_storesReported {s : State} {d : Finish} (h : efoldBody s = .ok d) :
    d.StoresIn ⟨s.latch.ops.dst.base, d.results.len.toNat⟩ := by
  obtain ⟨_, _, h⟩ := bind_ok.mp h
  obtain ⟨name, _, h⟩ := bind_ok.mp h
  exact storeHeader_storesReported h

/-- The four bytes after the type byte are the patched size field (R329). -/
theorem patchBody_storesSizeField {s : State} {d : Finish} (h : patchBody s = .ok d) :
    d.StoresIn ⟨s.latch.ops.dst.base + s.latch.ops.arg1.toNat + 1, 4⟩ := by
  obtain ⟨_, _, h⟩ := bind_ok.mp h
  obtain ⟨_, _, h⟩ := bind_ok.mp h
  obtain ⟨t, _, h⟩ := bind_ok.mp h
  obtain ⟨_, _, h⟩ := bind_ok.mp h
  obtain ⟨_, _, h⟩ := bind_ok.mp h
  cases h
  exact ⟨Nat.le_refl _, Nat.le_refl _⟩

/-- Every body that ends normally has stored inside the output it reports. -/
theorem bodyOf_storesIn_storedRegion {i : Instr} {s : State} {d : Finish} (h : bodyOf i s = .ok d) :
    d.StoresIn (storedRegion i s.latch.ops d.results) := by
  cases i with
  | nop => exact bodyOf_storesIn h
  | lz78C => exact (lz78CBody_codecEnd (wrapCause_ok.mp h)).storesIn
  | lz78D => exact (lz78DBody_codecEnd (wrapCause_ok.mp h)).storesIn
  | lzssC => exact (lzssCBody_codecEnd (wrapCause_ok.mp h)).storesIn
  | lzssD => exact (lzssDBody_codecEnd (wrapCause_ok.mp h)).storesIn
  | lzwC => exact (lzwCBody_codecEnd (wrapCause_ok.mp h)).storesIn
  | lzwD => exact (lzwDBody_codecEnd (wrapCause_ok.mp h)).storesIn
  | jpegC => exact (jpegCBody_codecEnd (wrapCause_ok.mp h)).storesIn
  | jpegD => exact (jpegDBody_codecEnd (wrapCause_ok.mp h)).storesIn
  | hdrEfile => exact efileBody_storesReported h
  | hdrEfold => exact efoldBody_storesReported h
  | hdrDec => exact bodyOf_storesIn h
  | hdrPatch => exact patchBody_storesSizeField h
  | regLookup => exact bodyOf_storesIn h
  | regExtmap => exact bodyOf_storesIn h

/-- A completion changes no byte outside a region that holds what the body stored (R155). -/
theorem read_complete_outside {s : State} {d : Finish} {r : Region} {x : Nat} (h : d.StoresIn r)
    (hx : r.contains x = false) : (s.complete d).mem.read x = s.mem.read x := by
  obtain ⟨hlo, hhi⟩ := h
  have hout : ¬(r.base ≤ x ∧ x < r.base + r.len) := by simp [← Region.contains_iff, hx]
  rw [State.complete_mem]
  exact Memory.read_write_outside (by omega)

/-- Settles O22: of the ways a command can end, only the completion with the body's result leaves ERR = 0. -/
theorem successStoresOnlyItsOutput : Obligations.SuccessStoresOnlyItsOutput := by
  intro i s t h herr x hx
  obtain ⟨_, he⟩ | ⟨d, _, hb, he⟩ | ⟨e, _, _, he⟩ := exec_cases i s <;> rw [he] at h <;> cases h
  · simp at herr
  · exact read_complete_outside (bodyOf_storesIn_storedRegion hb) hx
  · simp at herr

end Sys2Proof.Machine

namespace Sys2Proof.Machine

/-! ## The two ends of a command, as the statements name them (R155, R355) -/

theorem completedFrom_complete (d : Finish) (s : State) :
    (s.complete d).CompletedFrom s d.results d.addr d.bytes where
  res := rfl
  status := rfl
  idle := rfl
  mem := Memory.read_write s.mem d.addr d.bytes
  keeps := keepsRegisters_complete d s

theorem failedFrom_raiseError (i : Instr) (e : Err) (s : State) :
    (s.raiseError e (dstRegion i s.latch.ops)).FailedFrom s i e where
  res := rfl
  status := State.raiseError_status s e _
  idle := rfl
  outside := fun _ => read_raiseError_outside
  untouched := by
    rintro (rfl | rfl) <;> rfl
  keeps := keepsRegisters_raiseError e _ s

theorem runsTo_of_body_ok {i : Instr} {s : State} {d : Finish} (hr : regionsOk i s.latch.ops = true)
    (hb : bodyOf i s = .ok d) : s.RunsTo i d.results d.addr d.bytes :=
  ⟨_, exec_of_body_ok hr hb, completedFrom_complete d s⟩

theorem failsWith_of_body_error {i : Instr} {s : State} {e : Err} (hr : regionsOk i s.latch.ops = true)
    (hb : bodyOf i s = .error e) : s.FailsWith i e :=
  ⟨_, exec_of_body_error hr hb, failedFrom_raiseError i e s⟩

theorem failsWith_regionError {i : Instr} {s : State} (hr : regionsOk i s.latch.ops = false) :
    s.FailsWith i .regionError :=
  ⟨_, exec_of_region_error hr, failedFrom_raiseError i .regionError s⟩

/-! ## The engine's turn, case by case (R151, R375) -/

theorem engineStep_of_idle {s : State} (h : s.seq = .idle) : engineStep s = .next s := by
  rw [engineStep, isBusy_of_idle h]
  rfl

theorem engineStep_of_illegal {s : State} {e : DecodeError} (h : s.seq = .busy) (hd : decode s.latch.cmd = .error e) :
    engineStep s = .next (s.raiseError .illegalCommand ⟨0, 0⟩) := by
  simp only [engineStep, isBusy_of_busy h, hd, if_true]

theorem engineStep_of_decode {s : State} {i : Instr} (h : s.seq = .busy) (hd : decode s.latch.cmd = .ok i)
    (hr : s.raced = false) : engineStep s = exec i s := by
  simp only [engineStep, isBusy_of_busy h, hd, hr, if_true, Bool.false_eq_true, if_false]

theorem step_of_illegal {s : State} {e : DecodeError} (ht : s.turn = .engine) (h : s.seq = .busy)
    (hd : decode s.latch.cmd = .error e) : step s = .next (s.popSched.raiseError .illegalCommand ⟨0, 0⟩) :=
  (step_engine ht).trans (engineStep_of_illegal (s := s.popSched) h hd)

/-- Settles O16: a busy engine's turn ends the command, and the end of a command sets DONE. -/
theorem everyAcceptedCommandCompletes : Obligations.EveryAcceptedCommandCompletes := by
  intro s hturn hbusy
  obtain ⟨t, hstep, hend, _⟩ := engineStep_endsCommand (s := s.popSched) hbusy
  exact ⟨t, (step_engine hturn).trans hstep, hend.idle, hend.done⟩

/-- Settles O14: the turn is taken first, and changes nothing the engine reads. -/
theorem stepRunsTheDecodedCommand : Obligations.StepRunsTheDecodedCommand := fun s hturn =>
  ⟨fun _ hbusy hd hraced => (step_engine hturn).trans (engineStep_of_decode (s := s.popSched) hbusy hd hraced),
    fun hidle => (step_engine hturn).trans (engineStep_of_idle (s := s.popSched) hidle)⟩

/-- Settles O8: the store to CMD is a command start from idle and an overrun while busy. -/
theorem commandStartLatchesAndClears : Obligations.CommandStartLatchesAndClears := by
  refine fun s w => ⟨fun hidle => ⟨s.startCommand w, ?_, rfl, rfl, rfl, rfl, rfl, rfl, rfl, rfl, rfl⟩, fun hbusy => ?_⟩
  · exact (hostRegWrite_offset .cmd w s).trans (congrArg _ (writeCmd_of_idle w hidle))
  · exact (hostRegWrite_offset .cmd w s).trans (congrArg _ (writeCmd_of_busy w hbusy))

/-! ## Illegal words (R123, R151) -/

/-- The UNIT and FUNC of a command lie in the table of R121. -/
theorem decodeOp_bounds {u f : Nat} {i : Instr} (h : decodeOp u f = some i) :
    u ≤ 6 ∧ (u = 0 → f = 0) ∧ (u ≤ 4 → f < 2) ∧ f < 4 ∧ (u = 6 → f < 2) := by
  obtain ⟨rfl, rfl⟩ := unitFunc_of_decodeOp h
  cases i <;> decide

/-- Settles O15: no command's word has such fields, so the word does not decode. -/
theorem illegalWordCompletesWithItsError : Obligations.IllegalWordCompletesWithItsError := by
  intro s hturn hbusy hill
  cases hd : decode s.latch.cmd with
  | ok i =>
    obtain ⟨hzero, hop⟩ := fields_of_decode hd
    have hbounds := decodeOp_bounds hop
    rw [cmdUnit, cmdFunc] at hbounds
    have hnot := hill.resolve_left (not_not_intro hzero)
    dsimp only at hnot
    omega
  | error e =>
    refine ⟨_, step_of_illegal hturn hbusy hd, State.raiseError_status _ _ _, rfl, rfl, rfl,
      keepsRegisters_raiseError _ _ _, ?_⟩
    simp [State.irq]

/-! ## NOP (R157) -/

theorem Memory.write_zero_nil (m : Memory) : m.write 0 [] = m := by
  have hlow : m.filter (fun c => decide (c.1 < 0)) = [] :=
    List.filter_eq_nil_iff.mpr fun c _ h => Nat.not_lt_zero c.1 (of_decide_eq_true h)
  have hhigh : m.filter (fun c => decide (0 + ([] : List Byte).length ≤ c.1)) = m :=
    List.filter_eq_self.mpr fun c _ => decide_eq_true (Nat.zero_le c.1)
  rw [Memory.write, hlow, hhigh]
  rfl

/-- Settles O29: NOP uses no region, and its body stores nothing. -/
theorem nopCompletes : Obligations.NopCompletes := by
  refine ⟨rfl, fun s => ⟨_, exec_of_body_ok (i := .nop) rfl rfl, completedFrom_complete _ s,
    Memory.write_zero_nil s.mem, fun hovr => ?_⟩⟩
  show statusWord .idle ⟨true, false, s.status.ovr, 0, 0⟩ = 2
  rw [hovr]
  decide

/-! ## The registry (R158, R159) -/

/-- A command that uses its source only passes the region check exactly when the source does not wrap (R85). -/
theorem regionsOk_of_srcOnly {i : Instr} (h : uses i = ⟨true, false, false⟩) (o : Operands) :
    regionsOk i o = !o.src.wraps := by
  simp [regionsOk, usedRegions, readRegions, dstRegion, h, Region.overlaps]

theorem regionsOk_of_src_fits {i : Instr} {o : Operands} (h : uses i = ⟨true, false, false⟩)
    (hw : o.src.wraps = false) : regionsOk i o = true := by
  rw [regionsOk_of_srcOnly h, hw]
  rfl

theorem regionsOk_of_src_wraps {i : Instr} {o : Operands} (h : uses i = ⟨true, false, false⟩)
    (hw : o.src.wraps = true) : regionsOk i o = false := by
  rw [regionsOk_of_srcOnly h, hw]
  rfl

theorem readAll_of_source {ε : Type} (bus : ε) {s : State} {bs : List Byte} (h : s.source = some bs) :
    readAll bus s.srcCells = .ok bs :=
  readAll_ok.mpr (source_eq_some.mp h)

theorem readAll_of_no_source {ε : Type} (bus : ε) {s : State} (h : s.source = none) :
    readAll bus s.srcCells = .error bus := by
  cases hall : readAll bus s.srcCells with
  | ok bs => simp [source_eq_some.mpr (readAll_ok.mp hall)] at h
  | error e => rw [(readAll_error.mp hall).1]

theorem lookupBody_of_known {s : State} {name : List Byte} {id : Nat} (h : s.source = some name)
    (hid : codecId name = some id) : lookupBody s = .ok (registerFinish { r0 := BitVec.ofNat 32 id } 0) :=
  bind_ok.mpr ⟨name, readAll_of_source _ h, by simp only [hid]⟩

theorem lookupBody_of_unknown {s : State} {name : List Byte} (h : s.source = some name) (hid : codecId name = none) :
    lookupBody s = .error .codecNotFound :=
  bind_error.mpr (.inr ⟨name, readAll_of_source _ h, by simp only [hid]⟩)

theorem lookupBody_of_no_source {s : State} (h : s.source = none) : lookupBody s = .error .busError :=
  bind_error.mpr (.inl (readAll_of_no_source _ h))

theorem codecId_eq_none {name : List Byte} (h : name ∉ [nameLz78, nameLzss, nameLzw, nameJpeg]) :
    codecId name = none := by
  simp only [List.mem_cons, List.not_mem_nil, or_false, not_or] at h
  obtain ⟨h1, h2, h3, h4⟩ := h
  rw [codecId, if_neg h1, if_neg h2, if_neg h3, if_neg h4]

/-- REG.LOOKUP answers the codec id and nothing else (R158). -/
theorem regLookup_runsTo {s : State} {name : List Byte} {id : Nat} (hr : regionsOk .regLookup s.latch.ops = true)
    (h : s.source = some name) (hid : codecId name = some id) :
    s.RunsTo .regLookup ⟨0, BitVec.ofNat 32 id, 0, 0, 0, 0, 0, 0⟩ 0 [] :=
  runsTo_of_body_ok (i := .regLookup) hr (lookupBody_of_known h hid)

/-- Settles O30: the region check leaves the wrapping source, and the body is the table of names. -/
theorem regLookupMapsStableNames : Obligations.RegLookupMapsStableNames := by
  intro s
  refine ⟨fun hw => failsWith_regionError (regionsOk_of_src_wraps rfl hw), fun hw => ?_⟩
  have hr : regionsOk .regLookup s.latch.ops = true := regionsOk_of_src_fits rfl hw
  refine ⟨fun name hsrc => ?_, fun hsrc => failsWith_of_body_error hr (lookupBody_of_no_source hsrc)⟩
  exact ⟨fun hname => regLookup_runsTo hr hsrc (hname ▸ rfl), fun hname => regLookup_runsTo hr hsrc (hname ▸ rfl),
    fun hname => regLookup_runsTo hr hsrc (hname ▸ rfl), fun hname => regLookup_runsTo hr hsrc (hname ▸ rfl),
    fun hname => failsWith_of_body_error hr (lookupBody_of_unknown hsrc (codecId_eq_none hname))⟩

theorem extmapBody_of_source {s : State} {ext : List Byte} (h : s.source = some ext) :
    extmapBody s = .ok (registerFinish
      { r0 := BitVec.ofNat 32 (codecMask (allowedCodecs ext))
        r1 := BitVec.ofNat 32 (codecPack (allowedCodecs ext))
        r2 := BitVec.ofNat 32 (allowedCodecs ext).length } 0) :=
  bind_ok.mpr ⟨ext, readAll_of_source _ h, rfl⟩

theorem extmapBody_of_no_source {s : State} (h : s.source = none) : extmapBody s = .error .busError :=
  bind_error.mpr (.inl (readAll_of_no_source _ h))

/-- Settles O31: an extension has one of two codec lists, whose mask, packing and length are computed. -/
theorem regExtmapListsAllowedCodecs : Obligations.RegExtmapListsAllowedCodecs := by
  intro s
  refine ⟨fun hw => failsWith_regionError (regionsOk_of_src_wraps rfl hw), fun hw => ?_⟩
  have hr : regionsOk .regExtmap s.latch.ops = true := regionsOk_of_src_fits rfl hw
  refine ⟨fun ext hsrc => ?_, fun hsrc => failsWith_of_body_error hr (extmapBody_of_no_source hsrc)⟩
  have hbody : bodyOf .regExtmap s = _ := extmapBody_of_source hsrc
  refine ⟨fun hppm => ?_, fun hother => ?_⟩
  · rw [show allowedCodecs ext = [4, 2, 1, 3] from if_pos hppm] at hbody
    exact runsTo_of_body_ok hr hbody
  · rw [show allowedCodecs ext = [2, 1, 3] from if_neg hother] at hbody
    exact runsTo_of_body_ok hr hbody

/-! ## The errors a body raises (R353, R354) -/

/-- Every error the computation can end with is listed. -/
def RaisesOnly {ε α : Type} (es : List ε) (x : Except ε α) : Prop := ∀ e, x = .error e → e ∈ es

namespace RaisesOnly

theorem ok {ε α : Type} {es : List ε} {a : α} : RaisesOnly es (.ok a) := fun _ h => by cases h

theorem error {ε α : Type} {es : List ε} {e : ε} (he : e ∈ es) : RaisesOnly es (.error e : Except ε α) :=
  fun _ h => by cases h; exact he

theorem bind {ε α β : Type} {es : List ε} {x : Except ε α} {f : α → Except ε β} (hx : RaisesOnly es x)
    (hf : ∀ a, RaisesOnly es (f a)) : RaisesOnly es (x >>= f) := fun e h =>
  (bind_error.mp h).elim (hx e) fun ⟨a, _, ha⟩ => hf a e ha

theorem ite {ε α : Type} {es : List ε} {c : Prop} [Decidable c] {x y : Except ε α} (hx : RaisesOnly es x)
    (hy : RaisesOnly es y) : RaisesOnly es (if c then x else y) := by
  split
  · exact hx
  · exact hy

theorem check {ε : Type} {es : List ε} {b : Bool} {e : ε} (he : e ∈ es) : RaisesOnly es (check b e) :=
  fun _ h => (check_error.mp h).2 ▸ he

theorem readCell {ε : Type} {es : List ε} {bus : ε} {c : SrcCell} (hbus : bus ∈ es) :
    RaisesOnly es (readCell bus c) := by
  cases c with
  | none => exact .error hbus
  | some b => exact .ok

theorem readAll {ε : Type} {es : List ε} {bus : ε} {cs : List SrcCell} (hbus : bus ∈ es) :
    RaisesOnly es (readAll bus cs) := fun _ h => (readAll_error.mp h).1 ▸ hbus

end RaisesOnly

section
variable {es : List Err} (hhdr : .headerInvalid ∈ es) (hbus : .busError ∈ es)
include hhdr hbus

theorem noZero_raises (cs : List SrcCell) : RaisesOnly es (noZero cs) := by
  induction cs with
  | nil => exact .ok
  | cons c cs ih => exact .bind (.readCell hbus) fun _ => .bind (.check hhdr) fun _ => ih

theorem findZero_raises (cs : List SrcCell) : RaisesOnly es (findZero cs) := by
  induction cs with
  | nil => exact .error hhdr
  | cons c cs ih => exact .bind (.readCell hbus) fun _ => .ite .ok (.bind ih fun _ => .ok)

theorem hdrAt_raises (all : List SrcCell) (p : Nat) : RaisesOnly es (hdrAt all p) := by
  unfold hdrAt
  split
  · exact .readCell hbus
  · exact .error hhdr

theorem hdrAt32_raises (all : List SrcCell) (p : Nat) : RaisesOnly es (hdrAt32 all p) :=
  .bind (hdrAt_raises hhdr hbus _ _) fun _ => .bind (hdrAt_raises hhdr hbus _ _) fun _ =>
    .bind (hdrAt_raises hhdr hbus _ _) fun _ => .bind (hdrAt_raises hhdr hbus _ _) fun _ => .ok

theorem decodeFileTail_raises (all : List SrcCell) (size : Word) (z : Nat) :
    RaisesOnly es (decodeFileTail all size z) :=
  .bind (.check hhdr) fun _ => .bind (hdrAt32_raises hhdr hbus _ _) fun _ => .bind (.check hhdr) fun _ =>
    .bind (findZero_raises hhdr hbus _) fun _ => .ok

theorem decodeHeader_raises (all : List SrcCell) : RaisesOnly es (decodeHeader all) :=
  .bind (.check hhdr) fun _ => .bind (hdrAt_raises hhdr hbus _ _) fun _ => .bind (.check hhdr) fun _ =>
    .bind (hdrAt32_raises hhdr hbus _ _) fun _ => .bind (.check hhdr) fun _ =>
    .bind (hdrAt_raises hhdr hbus _ _) fun _ => .bind (.check hhdr) fun _ =>
    .bind (findZero_raises hhdr hbus _) fun _ => .ite .ok (decodeFileTail_raises hhdr hbus _ _ _)

theorem validateFolder_raises (o : Operands) (name : List SrcCell) : RaisesOnly es (validateFolder o name) :=
  .bind (.check hhdr) fun _ => .bind (.check hhdr) fun _ => noZero_raises hhdr hbus _

theorem validateFile_raises (o : Operands) (name codec : List SrcCell) :
    RaisesOnly es (validateFile o name codec) :=
  .bind (.check hhdr) fun _ => .bind (.check hhdr) fun _ => .bind (noZero_raises hhdr hbus _) fun _ =>
    noZero_raises hhdr hbus _

end

theorem storeHeader_raises {es : List Err} (hroom : .dstOverflow ∈ es) (hbus : .busError ∈ es) (s : State)
    (h : List Byte) : RaisesOnly es (storeHeader s h) :=
  .bind (.check hroom) fun _ => .bind (.check hbus) fun _ => .ok

theorem efileBody_raises (s : State) : RaisesOnly [.headerInvalid, .busError, .dstOverflow] (efileBody s) :=
  .bind (validateFile_raises (by simp) (by simp) _ _ _) fun _ => .bind (.readAll (by simp)) fun _ =>
    .bind (.readAll (by simp)) fun _ => storeHeader_raises (by simp) (by simp) _ _

theorem efoldBody_raises (s : State) : RaisesOnly [.headerInvalid, .busError, .dstOverflow] (efoldBody s) :=
  .bind (validateFolder_raises (by simp) (by simp) _ _) fun _ => .bind (.readAll (by simp)) fun _ =>
    storeHeader_raises (by simp) (by simp) _ _

theorem decBody_raises (s : State) : RaisesOnly [.headerInvalid, .busError] (decBody s) :=
  .bind (decodeHeader_raises (by simp) (by simp) _) fun _ => .ok

theorem patchBody_raises (s : State) : RaisesOnly [.bufferBounds, .headerInvalid, .busError] (patchBody s) :=
  .bind (.check (by simp)) fun _ => .bind (.check (by simp)) fun _ => .bind (.readCell (by simp)) fun _ =>
    .bind (.check (by simp)) fun _ => .bind (.check (by simp)) fun _ => .ok

theorem lookupBody_raises (s : State) : RaisesOnly [.codecNotFound, .busError] (lookupBody s) := by
  refine .bind (.readAll (by simp)) fun name => ?_
  cases codecId name with
  | some id => exact .ok
  | none => exact .error (by simp)

theorem extmapBody_raises (s : State) : RaisesOnly [.busError] (extmapBody s) :=
  .bind (.readAll (by simp)) fun _ => .ok

/-! ## The destination after an error (R156) -/

theorem beforeAccess_of_raisesOnly {α : Type} {es : List Err} {x : Except Err α} {e : Err} (hx : RaisesOnly es x)
    (h : x = .error e) (hes : ∀ e ∈ es, e.beforeAccess = false) : e.beforeAccess = false :=
  hes e (hx e h)

theorem beforeAccess_of_wrapCause {α : Type} {x : Except Cause α} {e : Err} (h : wrapCause x = .error e) :
    e.beforeAccess = false := by
  obtain ⟨c, _, rfl⟩ := wrapCause_error.mp h
  rfl

/-- The errors found before any access are not a body's: the decoder and the region check raise them (R151, R152). -/
theorem bodyOf_error_beforeAccess {i : Instr} {s : State} {e : Err} (h : bodyOf i s = .error e) :
    e.beforeAccess = false := by
  cases i with
  | nop => cases h
  | hdrEfile => exact beforeAccess_of_raisesOnly (efileBody_raises s) h (by decide)
  | hdrEfold => exact beforeAccess_of_raisesOnly (efoldBody_raises s) h (by decide)
  | hdrDec => exact beforeAccess_of_raisesOnly (decBody_raises s) h (by decide)
  | hdrPatch => exact beforeAccess_of_raisesOnly (patchBody_raises s) h (by decide)
  | regLookup => exact beforeAccess_of_raisesOnly (lookupBody_raises s) h (by decide)
  | regExtmap => exact beforeAccess_of_raisesOnly (extmapBody_raises s) h (by decide)
  | _ => exact beforeAccess_of_wrapCause h

theorem Err.code_ne_of_not_beforeAccess {e : Err} (h : e.beforeAccess = false) : e.code ≠ 0x13 := by
  cases e with
  | regionError => cases h
  | _ => simp [Err.code]

/-- A body's error makes the whole destination free values, because it lies below 2^32 (R85, R156). -/
theorem read_raiseError_inside {i : Instr} {s : State} {e : Err} {x : Nat} (hr : regionsOk i s.latch.ops = true)
    (he : e.beforeAccess = false) (hx : (dstRegion i s.latch.ops).contains x = true) :
    (s.raiseError e (dstRegion i s.latch.ops)).mem.read x = Config.freeByte s.draws x := by
  have hfits := dstRegion_fits hr
  obtain ⟨_, hlt⟩ := (Region.contains_iff _ _).mp hx
  rw [State.raiseError_mem, he]
  exact read_drawRegion_inside hx (by omega)

/-- Settles O23: REGION_ERROR and ILLEGAL_COMMAND come before any access, and a body's errors draw its destination. -/
theorem errorLeavesDestinationFree : Obligations.ErrorLeavesDestinationFree := by
  refine ⟨fun i s t h herr => ?_, fun s e hturn hbusy hd => ?_⟩
  · obtain ⟨_, he⟩ | ⟨d, _, _, he⟩ | ⟨e, hr, hb, he⟩ := exec_cases i s <;> rw [he] at h <;> cases h
    · exact ⟨rfl, fun _ => rfl, fun hcode => absurd (by simp [Err.code]) hcode⟩
    · simp at herr
    · have hlate := bodyOf_error_beforeAccess hb
      refine ⟨rfl, fun hcode => ?_, fun _ => ⟨fun x => read_raiseError_outside, s.draws,
        fun x => read_raiseError_inside hr hlate⟩⟩
      rw [State.raiseError_status] at hcode
      exact absurd hcode (Err.code_ne_of_not_beforeAccess hlate)
  · exact ⟨_, step_of_illegal hturn hbusy hd, rfl, rfl⟩

end Sys2Proof.Machine

namespace Sys2Proof.Machine

/-! ## Appends under originalSize (R177, R198, R226) -/

/-- originalSize admits `n` more bytes, and the destination has room and backing for them. -/
structure Sink.Fits (k : Sink) (arg0 n : Nat) : Prop where
  size : k.outlen + n ≤ arg0
  cap : arg0 ≤ k.cap
  backed : k.writable n = true

/-- originalSize is not passed yet, and the destination has room and backing up to it. -/
def Sink.FitsAll (k : Sink) (arg0 : Nat) : Prop := k.Fits arg0 (arg0 - k.outlen)

namespace Sink

variable {k : Sink} {arg0 n : Nat} {bs : List Byte}

theorem Fits.mono {m : Nat} (h : k.Fits arg0 n) (hm : m ≤ n) : k.Fits arg0 m :=
  ⟨by have := h.size; omega, h.cap, writable_of_le h.backed hm⟩

theorem Fits.extend (h : k.Fits arg0 (bs.length + n)) : (k.extend bs).Fits arg0 n :=
  ⟨by simpa [Nat.add_assoc] using h.size, h.cap, ((writable_add k bs n).mp h.backed).2⟩

theorem Fits.putBytes (h : k.Fits arg0 bs.length) : k.putBytes bs = .ok (k.extend bs) :=
  putBytes_ok.mpr ⟨Nat.le_trans h.size h.cap, h.backed, rfl⟩

theorem FitsAll.fits (h : k.FitsAll arg0) (hn : k.outlen + n ≤ arg0) : k.Fits arg0 n :=
  Fits.mono h (by omega)

theorem FitsAll.extend (h : k.FitsAll arg0) (hn : k.outlen + bs.length ≤ arg0) : (k.extend bs).FitsAll arg0 := by
  refine Fits.extend (bs := bs) (h.fits ?_)
  rw [extend_outlen]
  omega

theorem fits_start {s : State} (hn : n ≤ arg0) (hcap : arg0 ≤ s.latch.ops.dstCap.toNat) (hroom : s.room n = true) :
    (Sink.start s).Fits arg0 n :=
  ⟨by simpa using hn, hcap, (room_iff.mp hroom).2⟩

theorem fitsAll_start {s : State} (hroom : s.room arg0 = true) : (Sink.start s).FitsAll arg0 :=
  fits_start (Nat.sub_le _ _) (room_iff.mp hroom).1 hroom

end Sink

theorem emitSized_of_fits {arg0 : Nat} {k : Sink} {bs : List Byte} (h : k.Fits arg0 bs.length) :
    emitSized arg0 k bs = .ok (k.extend bs) := by
  rw [emitSized, decide_eq_true h.size]
  exact h.putBytes

theorem emitSized_of_over {arg0 : Nat} {k : Sink} {bs : List Byte} (h : arg0 < k.outlen + bs.length) :
    emitSized arg0 k bs = .error .sizeMismatch := by
  rw [emitSized, decide_eq_false (by omega)]
  rfl

/-- What a decoder answers that has `bs` still to write: it writes them all where originalSize admits them, and ends
in SIZE_MISMATCH where it does not. `out` is the output in the decoder's answer. -/
def Writes {ρ : Type} (out : ρ → Sink) (arg0 : Nat) (k : Sink) (bs : List Byte) (x : Except Cause ρ) : Prop :=
  (k.outlen + bs.length ≤ arg0 → ∃ r, x = .ok r ∧ out r = k.extend bs) ∧
  (arg0 < k.outlen + bs.length → x = .error .sizeMismatch)

theorem Writes.done {ρ : Type} {out : ρ → Sink} {arg0 : Nat} {k : Sink} {r : ρ} (hk : k.FitsAll arg0)
    (hr : out r = k) : Writes out arg0 k [] (.ok r) := by
  have hsize := hk.size
  exact ⟨fun _ => ⟨r, rfl, by rw [hr, Sink.extend_nil]⟩, fun h => by simp at h; omega⟩

/-- A decoder emits a string and goes on with the rest. -/
theorem Writes.emit {ρ : Type} {out : ρ → Sink} {arg0 : Nat} {k : Sink} {bs cs : List Byte}
    {f : Sink → Except Cause ρ} (hk : k.FitsAll arg0)
    (hf : (k.extend bs).FitsAll arg0 → Writes out arg0 (k.extend bs) cs (f (k.extend bs))) :
    Writes out arg0 k (bs ++ cs) (emitSized arg0 k bs >>= f) := by
  by_cases hbs : k.outlen + bs.length ≤ arg0
  · obtain ⟨hok, hover⟩ := hf (hk.extend hbs)
    rw [emitSized_of_fits (hk.fits hbs)]
    rw [Sink.extend_outlen, Nat.add_assoc, ← List.length_append] at hok hover
    exact ⟨fun h => Sink.extend_extend k bs cs ▸ hok h, hover⟩
  · rw [emitSized_of_over (by omega)]
    exact ⟨fun h => by rw [List.length_append] at h; omega, fun _ => rfl⟩

/-! ## The frame of LZ78.D and LZW.D (R177, R226) -/

/-- What LZ78.D and LZW.D do around their loops: the capacity check before any access, and the check of the output's
length after the loop. -/
def sizedDecode {ρ : Type} (out : ρ → Sink) (unit : ρ → UnitWork) (s : State) (loop : Except Cause ρ) :
    Except Cause Finish := do
  let arg0 := s.latch.ops.arg0.toNat
  check (decide (arg0 ≤ s.latch.ops.dstCap.toNat)) .dstOverflow
  let r ← loop
  check (decide ((out r).outlen = arg0)) .sizeMismatch
  .ok (codecFinish (out r) s.latch.ops.srcLen.toNat (unit r))

theorem bodyOf_lz78D (s : State) : bodyOf .lz78D s = wrapCause (sizedDecode (·.2) (fun r => .lz78Dec r.1) s
    (lz78Loop s.latch.ops.arg0.toNat s.srcCells.length s.srcCells lz78Table (Sink.start s))) := rfl

theorem bodyOf_lzwD (s : State) : bodyOf .lzwD s = wrapCause (sizedDecode (·.2.2) (fun r => .lzwDec r.1 r.2.1) s
    (lzwLoop s.latch.ops.arg0.toNat s.srcCells.length s.srcCells lzwTable none (Sink.start s))) := rfl

/-- A body that ends in an internal error completes the command with it (R153, R353). -/
theorem failsWith_of_cause {i : Instr} {s : State} {x : Except Cause Finish} {c : Cause}
    (hr : regionsOk i s.latch.ops = true) (hbody : bodyOf i s = wrapCause x) (hx : x = .error c) :
    s.FailsWith i (.codecInternal c) :=
  failsWith_of_body_error hr (by rw [hbody, hx]; rfl)

/-- A codec's normal end, as the statements name it (R154). -/
theorem runsTo_of_codecFinish {i : Instr} {s : State} {x : Except Cause Finish} {bs : List Byte} {n : Nat}
    {u : UnitWork} (hr : regionsOk i s.latch.ops = true) (hbody : bodyOf i s = wrapCause x)
    (hx : x = .ok (codecFinish ((Sink.start s).extend bs) n u)) :
    s.RunsTo i (lengthResult bs.length) s.latch.ops.dstAddr.toNat bs := by
  have h := runsTo_of_body_ok hr (hbody.trans (by rw [hx]; rfl))
  simpa [codecFinish, lengthResult] using h

section
variable {ρ : Type} {out : ρ → Sink} {unit : ρ → UnitWork} {i : Instr} {s : State} {loop : Except Cause ρ}
  (hr : regionsOk i s.latch.ops = true) (hbody : bodyOf i s = wrapCause (sizedDecode out unit s loop))
include hr hbody

theorem sizedDecode_dstOverflow (hcap : s.latch.ops.dstCap.toNat < s.latch.ops.arg0.toNat) :
    s.FailsWith i (.codecInternal .dstOverflow) :=
  failsWith_of_cause hr hbody (by rw [sizedDecode, decide_eq_false (by omega)]; rfl)

variable (hcap : s.latch.ops.arg0.toNat ≤ s.latch.ops.dstCap.toNat)
include hcap

theorem sizedDecode_error {c : Cause} (hloop : loop = .error c) : s.FailsWith i (.codecInternal c) :=
  failsWith_of_cause hr hbody (by rw [sizedDecode, decide_eq_true hcap, hloop]; rfl)

theorem sizedDecode_sizeMismatch {r : ρ} (hloop : loop = .ok r) (hlen : (out r).outlen ≠ s.latch.ops.arg0.toNat) :
    s.FailsWith i (.codecInternal .sizeMismatch) := by
  refine failsWith_of_cause hr hbody ?_
  rw [sizedDecode, decide_eq_true hcap, hloop]
  show (check (decide ((out r).outlen = _)) Cause.sizeMismatch >>= _) = _
  rw [decide_eq_false hlen]
  rfl

theorem sizedDecode_runsTo {r : ρ} {bs : List Byte} (hloop : loop = .ok r)
    (hout : out r = (Sink.start s).extend bs) (hlen : s.latch.ops.arg0.toNat = bs.length) :
    s.RunsTo i (lengthResult bs.length) s.latch.ops.dstAddr.toNat bs := by
  refine runsTo_of_codecFinish (n := s.latch.ops.srcLen.toNat) (u := unit r) hr hbody ?_
  rw [sizedDecode, decide_eq_true hcap, hloop]
  show (check (decide ((out r).outlen = _)) Cause.sizeMismatch >>= _) = _
  rw [hout, decide_eq_true (by simp [hlen])]
  rfl

/-- A loop that writes `bs` completes the command under originalSize = the length of `bs`. -/
theorem sizedDecode_runsTo_of_writes {bs : List Byte} (hlen : s.latch.ops.arg0.toNat = bs.length)
    (hloop : Writes out s.latch.ops.arg0.toNat (Sink.start s) bs loop) :
    s.RunsTo i (lengthResult bs.length) s.latch.ops.dstAddr.toNat bs := by
  obtain ⟨r, hr', hout⟩ := hloop.1 (by simp [hlen])
  exact sizedDecode_runsTo hr hbody hcap hr' hout hlen

/-- A loop that writes `bs` ends in SIZE_MISMATCH under every other originalSize: it passes it, or ends short of it. -/
theorem sizedDecode_sizeMismatch_of_writes {bs : List Byte} (hlen : s.latch.ops.arg0.toNat ≠ bs.length)
    (hloop : Writes out s.latch.ops.arg0.toNat (Sink.start s) bs loop) :
    s.FailsWith i (.codecInternal .sizeMismatch) := by
  obtain ⟨hok, hover⟩ := hloop
  by_cases hle : s.latch.ops.arg0.toNat < (Sink.start s).outlen + bs.length
  · exact sizedDecode_error hr hbody hcap (hover hle)
  · obtain ⟨r, hr', hout⟩ := hok (by omega)
    exact sizedDecode_sizeMismatch hr hbody hcap hr' (by simp [hout, Ne.symm hlen])

end

/-! ## A compressor over the source region writes its stream (R173, R223) -/

/-- The trie state a compressor ends in. -/
def Compressor.last (c : Compressor) (t : TrieState) (bs : List Byte) : TrieState :=
  bs.foldl (fun t b => (c.feed t b).1) t

theorem Sink.putChunks_append (cs ds : List (List Byte)) (k : Sink) :
    putChunks (cs ++ ds) k = putChunks cs k >>= putChunks ds := by
  induction cs generalizing k with
  | nil => rfl
  | cons c cs ih =>
    simp only [List.cons_append, putChunks, bind_assoc]
    exact bind_congr ih

/-- Over readable bytes the compressor's appends are those it makes on the byte string. -/
theorem drive_map_some (c : Compressor) (bs : List Byte) (t : TrieState) (k : Sink) :
    c.drive (bs.map some) t k = (fun k' => (c.last t bs, k')) <$> Sink.putChunks (c.chunks t bs) k := by
  induction bs generalizing t k with
  | nil => rfl
  | cons b bs ih =>
    simp only [Compressor.chunks, Sink.putChunks_append, map_bind]
    exact bind_congr fun k' => ih (c.feed t b).1 k'

/-- With room for the stream, the compressor writes it. -/
theorem drive_of_room {c : Compressor} {s : State} {t : TrieState} {bs : List Byte} (hsrc : s.source = some bs)
    (hroom : s.room (c.stream t bs).length = true) :
    c.drive s.srcCells t (Sink.start s) = .ok (c.last t bs, (Sink.start s).extend (c.stream t bs)) := by
  rw [source_eq_some.mp hsrc, drive_map_some, putChunks_start hroom]
  rfl

/-- A compressor that ends normally has written its stream, which had room. -/
theorem drive_ok {c : Compressor} {s : State} {t : TrieState} {bs : List Byte} {r : TrieState × Sink}
    (hsrc : s.source = some bs) (h : c.drive s.srcCells t (Sink.start s) = .ok r) :
    r.2 = (Sink.start s).extend (c.stream t bs) ∧ (c.stream t bs).length ≤ s.latch.ops.dstCap.toNat := by
  rw [source_eq_some.mp hsrc, drive_map_some] at h
  cases hput : Sink.putChunks (c.chunks t bs) (Sink.start s) with
  | error e => rw [hput] at h; cases h
  | ok k =>
    rw [hput] at h
    cases h
    obtain ⟨hk, _, hcap⟩ := Sink.putChunks_ok hput
    rw [Sink.start_outlen, Nat.zero_add] at hcap
    exact ⟨hk, hcap (Nat.zero_le _)⟩

/-- Settles O32: over a readable source the appends are those of the stream, and they have room. -/
theorem lz78CompressCompletes : Obligations.Lz78CompressCompletes := by
  intro s bs hr hsrc hroom
  refine runsTo_of_codecFinish (x := lz78CBody s) (n := s.latch.ops.srcLen.toNat)
    (u := .lz78Enc (lz78Compressor.last lz78Start bs)) hr rfl ?_
  rw [lz78CBody, drive_of_room hsrc hroom]
  rfl

end Sys2Proof.Machine

namespace Sys2Proof.Machine

/-! ## Sixteen-bit items in the source (R91, R172, R222) -/

theorem inGet16_be16 {v : Nat} (h : v < 65536) (src : List SrcCell) :
    inGet16 ((be16 v).map some ++ src) = .ok (v, src) := by
  rw [be16, List.map_cons, List.map_cons, List.map_nil, List.cons_append, List.cons_append, List.nil_append,
    inGet16_some, rdBE16_be16 h]

/-! ## The strings a trie spells (R63, R176) -/

theorem getD_append_of_lt {strs : List (List Byte)} {c : Nat} (h : c < strs.length) (ts : List (List Byte)) :
    (strs ++ ts).getD c [] = strs.getD c [] := by
  rw [List.getD_eq_getElem?_getD, List.getD_eq_getElem?_getD, List.getElem?_append_left h]

theorem getD_append_length (strs : List (List Byte)) (str : List Byte) :
    (strs ++ [str]).getD strs.length [] = str := by
  rw [List.getD_eq_getElem?_getD, List.getElem?_concat_length]
  rfl

/-- The string of a node, by the strings of the codes: the root's is empty. -/
def spelled (strs : List (List Byte)) : Option Nat → List Byte
  | none => []
  | some c => strs.getD c []

/-- The codes' strings are those the trie's nodes spell, one for each code below `next`. -/
structure TrieState.Spells (t : TrieState) (strs : List (List Byte)) : Prop where
  next : t.next = strs.length
  current : ∀ c, t.node = some c → c < strs.length
  code : ∀ n ∈ t.nodes, n.code < strs.length
  parent : ∀ n ∈ t.nodes, ∀ c, n.parent = some c → c < strs.length
  child : ∀ n ∈ t.nodes, strs.getD n.code [] = spelled strs n.parent ++ [n.sym]

theorem mem_of_trieChild {nodes : List TrieNode} {node : Option Nat} {b : Byte} {c : Nat}
    (h : trieChild nodes node b = some c) : ∃ n ∈ nodes, n.parent = node ∧ n.sym = b ∧ n.code = c := by
  induction nodes with
  | nil => cases h
  | cons n rest ih =>
    rw [trieChild] at h
    split at h
    · cases h
      exact ⟨n, List.mem_cons_self, by simp_all⟩
    · obtain ⟨m, hm, h⟩ := ih h
      exact ⟨m, List.mem_cons_of_mem _ hm, h⟩

theorem spelled_append {strs : List (List Byte)} {node : Option Nat} (h : ∀ c, node = some c → c < strs.length)
    (ts : List (List Byte)) : spelled (strs ++ ts) node = spelled strs node := by
  cases node with
  | none => rfl
  | some c => exact getD_append_of_lt (h c rfl) ts

/-- Descending to a child appends its symbol to the current string. -/
theorem TrieState.Spells.descend {t : TrieState} {strs : List (List Byte)} {b : Byte} {c : Nat}
    (h : t.Spells strs) (hc : trieChild t.nodes t.node b = some c) :
    { t with node := some c }.Spells strs ∧ strs.getD c [] = spelled strs t.node ++ [b] := by
  obtain ⟨n, hn, hparent, hsym, hcode⟩ := mem_of_trieChild hc
  refine ⟨{ h with current := fun c' hc' => ?_ }, ?_⟩
  · cases hc'
    exact hcode ▸ h.code n hn
  · rw [← hcode, h.child n hn, hparent, hsym]

/-- The trie with a new child of the current node under the next code, back at the root. -/
def TrieState.insert (t : TrieState) (b : Byte) : TrieState := ⟨⟨t.node, b, t.next⟩ :: t.nodes, none, t.next + 1⟩

/-- Inserting the extension of the current string gives the next code to it. -/
theorem TrieState.Spells.insert {t : TrieState} {strs : List (List Byte)} (h : t.Spells strs) (b : Byte) :
    (t.insert b).Spells (strs ++ [spelled strs t.node ++ [b]]) where
  next := by simp [TrieState.insert, h.next]
  current := fun c hc => by cases hc
  code := by
    simp only [TrieState.insert, List.forall_mem_cons, List.length_append, List.length_singleton, h.next]
    exact ⟨Nat.lt_succ_self _, fun n hn => Nat.lt_succ_of_lt (h.code n hn)⟩
  parent := by
    simp only [TrieState.insert, List.forall_mem_cons, List.length_append, List.length_singleton]
    exact ⟨fun c hc => Nat.lt_succ_of_lt (h.current c hc), fun n hn c hc => Nat.lt_succ_of_lt (h.parent n hn c hc)⟩
  child := by
    simp only [TrieState.insert, List.forall_mem_cons]
    refine ⟨?_, fun n hn => ?_⟩
    · rw [h.next, getD_append_length, spelled_append h.current]
    · rw [getD_append_of_lt (h.code n hn), spelled_append (h.parent n hn), h.child n hn]

/-! ## The items of LZ78, one round each (R172, R177) -/

section
variable (arg0 fuel : Nat) (src : List SrcCell) (table : List (List Byte)) (k : Sink)

theorem lz78Loop_nil : lz78Loop arg0 fuel [] table k = .ok (table, k) := by
  cases fuel <;> rfl

variable {c : Nat}

theorem lz78Loop_sentinel (hs : c = sentinelCode) :
    lz78Loop arg0 (fuel + 1) ((be16 c).map some ++ src) table k = lz78Loop arg0 fuel src lz78Table k := by
  rw [lz78Loop, if_neg (by simp [inRemaining, be16]), inGet16_be16 (by rw [hs, sentinelCode]; omega)]
  exact if_pos hs

variable (hc : c < 65536) (hs : c ≠ sentinelCode)
include hc hs

theorem lz78Loop_final : lz78Loop arg0 (fuel + 1) ((be16 c).map some) table k = (do
    check (decide (c < table.length)) .badCode
    let k ← emitSized arg0 k (table.getD c [])
    .ok (table, k)) := by
  have h16 := inGet16_be16 hc []
  rw [List.append_nil] at h16
  rw [lz78Loop, if_neg (by simp [inRemaining, be16]), h16]
  exact if_neg hs

theorem lz78Loop_record (b : Byte) : lz78Loop arg0 (fuel + 1) ((be16 c).map some ++ some b :: src) table k = (do
    check (decide (c < table.length)) .badCode
    check (decide (table.length ≠ codeLimit)) .badCode
    let k ← emitSized arg0 k (table.getD c [] ++ [b])
    lz78Loop arg0 fuel src (table ++ [table.getD c [] ++ [b]]) k) := by
  rw [lz78Loop, if_neg (by simp [inRemaining, be16]), inGet16_be16 hc]
  exact (if_neg hs).trans (if_neg (by simp [inRemaining]))

end

/-- A record that the table admits is emitted and inserted (R176). -/
theorem lz78Loop_record_of_lt {c : Nat} {table : List (List Byte)} (hc : c < table.length)
    (hfull : table.length < codeLimit) (arg0 fuel : Nat) (src : List SrcCell) (k : Sink) (b : Byte) :
    lz78Loop arg0 (fuel + 1) ((be16 c).map some ++ some b :: src) table k =
      emitSized arg0 k (table.getD c [] ++ [b]) >>= fun k =>
        lz78Loop arg0 fuel src (table ++ [table.getD c [] ++ [b]]) k := by
  rw [codeLimit] at hfull
  rw [lz78Loop_record _ _ _ _ _ (by omega) (by rw [sentinelCode]; omega), decide_eq_true hc,
    decide_eq_true (by rw [codeLimit]; omega)]
  rfl

/-- A final item that the table admits is emitted (R177). -/
theorem lz78Loop_final_of_lt {c : Nat} {table : List (List Byte)} (hc : c < table.length)
    (hfull : table.length ≤ codeLimit) (arg0 fuel : Nat) (k : Sink) :
    lz78Loop arg0 (fuel + 1) ((be16 c).map some) table k =
      emitSized arg0 k (table.getD c []) >>= fun k => .ok (table, k) := by
  rw [codeLimit] at hfull
  rw [lz78Loop_final _ _ _ _ (by omega) (by rw [sentinelCode]; omega), decide_eq_true hc]
  rfl

/-! ## The stream of LZ78, byte by byte (R173, R174) -/

theorem Compressor.stream_cons (c : Compressor) (t : TrieState) (b : Byte) (bs : List Byte) :
    c.stream t (b :: bs) = (c.feed t b).2.flatten ++ c.stream (c.feed t b).1 bs :=
  List.flatten_append

section
variable {t : TrieState} {b : Byte} (bs : List Byte)

theorem lz78Stream_of_child {c : Nat} (h : trieChild t.nodes t.node b = some c) :
    lz78Compressor.stream t (b :: bs) = lz78Compressor.stream { t with node := some c } bs := by
  rw [Compressor.stream_cons, show lz78Compressor.feed t b = ({ t with node := some c }, []) by
    simp only [lz78Compressor, lz78Feed, h]]
  rfl

theorem lz78Stream_of_last (h : trieChild t.nodes t.node b = none) (hlast : t.next + 1 = codeLimit) :
    lz78Compressor.stream t (b :: bs) =
      be16 (nodeCode t.node) ++ b :: (be16 sentinelCode ++ lz78Compressor.stream lz78Start bs) := by
  rw [Compressor.stream_cons, show lz78Compressor.feed t b =
      (lz78Start, [be16 (nodeCode t.node), [b], be16 sentinelCode]) by
    simp only [lz78Compressor, lz78Feed, h, if_pos hlast]
    rfl]
  simp

theorem lz78Stream_of_new (h : trieChild t.nodes t.node b = none) (hlast : t.next + 1 ≠ codeLimit) :
    lz78Compressor.stream t (b :: bs) = be16 (nodeCode t.node) ++ b :: lz78Compressor.stream (t.insert b) bs := by
  rw [Compressor.stream_cons, show lz78Compressor.feed t b = (t.insert b, [be16 (nodeCode t.node), [b]]) by
    simp only [lz78Compressor, lz78Feed, h, if_neg hlast]
    rfl]
  simp

end

/-! ## LZ78.D inverts LZ78.C's stream (R178) -/

/-- The decoder's table is the strings the encoder's trie spells (R176). -/
structure Lz78Sim (t : TrieState) (table : List (List Byte)) : Prop where
  spells : t.Spells table
  root : table.getD 0 [] = []
  nonempty : 0 < table.length
  room : table.length < codeLimit

theorem lz78Sim_start : Lz78Sim lz78Start lz78Table :=
  ⟨⟨rfl, fun _ h => (by cases h), fun _ h => absurd h List.not_mem_nil, fun _ h => absurd h List.not_mem_nil,
    fun _ h => absurd h List.not_mem_nil⟩, rfl, by decide, by decide⟩

section
variable {t : TrieState} {table : List (List Byte)} (h : Lz78Sim t table)
include h

theorem Lz78Sim.nodeCode_lt : nodeCode t.node < table.length := by
  cases hn : t.node with
  | none => exact h.nonempty
  | some c => exact h.spells.current c hn

theorem Lz78Sim.getD_nodeCode : table.getD (nodeCode t.node) [] = spelled table t.node := by
  cases t.node with
  | none => exact h.root
  | some c => rfl

end

theorem Lz78Sim.insert {t : TrieState} {table : List (List Byte)} (h : Lz78Sim t table) {b : Byte}
    (hroom : t.next + 1 ≠ codeLimit) :
    Lz78Sim (t.insert b) (table ++ [spelled table t.node ++ [b]]) where
  spells := h.spells.insert b
  root := by rw [getD_append_of_lt h.nonempty, h.root]
  nonempty := by simp
  room := by
    have := h.room
    have := h.spells.next
    rw [List.length_append, List.length_singleton]
    omega

/-- The decoder's round on the record of the encoder's current node (R176). -/
theorem lz78Loop_nodeRecord {t : TrieState} {table : List (List Byte)} (h : Lz78Sim t table) (arg0 fuel : Nat)
    (src : List SrcCell) (k : Sink) (b : Byte) :
    lz78Loop arg0 (fuel + 1) ((be16 (nodeCode t.node)).map some ++ some b :: src) table k =
      emitSized arg0 k (spelled table t.node ++ [b]) >>= fun k =>
        lz78Loop arg0 fuel src (table ++ [spelled table t.node ++ [b]]) k := by
  rw [lz78Loop_record_of_lt h.nodeCode_lt h.room, h.getD_nodeCode]

/-- The end of the stream: a final item for a current node other than the root, else nothing (R175). -/
theorem lz78Loop_end_writes {t : TrieState} {table : List (List Byte)} (h : Lz78Sim t table) {arg0 fuel : Nat}
    {k : Sink} (hk : k.FitsAll arg0) (hfuel : (lz78Compressor.stream t []).length ≤ fuel) :
    Writes (·.2) arg0 k (spelled table t.node ++ [])
      (lz78Loop arg0 fuel ((lz78Compressor.stream t []).map some) table k) := by
  rw [show lz78Compressor.stream t [] = (lz78End t).flatten from rfl, lz78End] at *
  cases hn : t.node with
  | none =>
    rw [List.flatten_nil, List.map_nil, lz78Loop_nil]
    exact .done hk rfl
  | some c =>
    rw [hn] at hfuel
    obtain ⟨fuel, rfl⟩ := Nat.exists_eq_add_of_le' (show 1 ≤ fuel by simp [be16] at hfuel; omega)
    rw [List.flatten_singleton, lz78Loop_final_of_lt (h.spells.current c hn) (Nat.le_of_lt h.room)]
    exact .emit hk fun hk => .done hk rfl

/-- From related states, the decoder writes the string the encoder has matched and the input still to come. -/
theorem lz78Loop_writes {t : TrieState} {table : List (List Byte)} (h : Lz78Sim t table) {arg0 fuel : Nat} {k : Sink}
    (hk : k.FitsAll arg0) (bs : List Byte) (hfuel : (lz78Compressor.stream t bs).length ≤ fuel) :
    Writes (·.2) arg0 k (spelled table t.node ++ bs)
      (lz78Loop arg0 fuel ((lz78Compressor.stream t bs).map some) table k) := by
  induction bs generalizing t table fuel k with
  | nil => exact lz78Loop_end_writes h hk hfuel
  | cons b bs ih =>
    rw [List.append_cons]
    cases hc : trieChild t.nodes t.node b with
    | some c =>
      rw [lz78Stream_of_child bs hc] at *
      obtain ⟨hspells, hstr⟩ := h.spells.descend hc
      rw [← hstr]
      exact ih (t := { t with node := some c }) ⟨hspells, h.root, h.nonempty, h.room⟩ hk hfuel
    | none =>
      by_cases hlast : t.next + 1 = codeLimit
      · rw [lz78Stream_of_last bs hc hlast] at *
        obtain ⟨fuel, rfl⟩ := Nat.exists_eq_add_of_le' (show 2 ≤ fuel by simp [be16] at hfuel; omega)
        rw [List.map_append, List.map_cons, List.map_append, lz78Loop_nodeRecord h]
        simp only [lz78Loop_sentinel _ _ _ _ _ rfl]
        exact .emit hk fun hk => ih lz78Sim_start hk (by simp [be16] at hfuel; omega)
      · rw [lz78Stream_of_new bs hc hlast] at *
        obtain ⟨fuel, rfl⟩ := Nat.exists_eq_add_of_le' (show 1 ≤ fuel by simp [be16] at hfuel; omega)
        rw [List.map_append, List.map_cons, lz78Loop_nodeRecord h]
        exact .emit hk fun hk => ih (h.insert hlast) hk (by simp [be16] at hfuel; omega)

/-- LZ78.D's loop on the stream of a byte string writes the byte string, as far as originalSize admits it. -/
theorem lz78Loop_encode_writes {s : State} {bs : List Byte} (hsrc : s.source = some (lz78Encode bs))
    (hroom : s.room s.latch.ops.arg0.toNat = true) :
    Writes (·.2) s.latch.ops.arg0.toNat (Sink.start s) bs
      (lz78Loop s.latch.ops.arg0.toNat s.srcCells.length s.srcCells lz78Table (Sink.start s)) := by
  rw [source_eq_some.mp hsrc, List.length_map]
  exact lz78Loop_writes lz78Sim_start (Sink.fitsAll_start hroom) bs (Nat.le_refl _)

/-- LZ78.D completes on the stream of a byte string and writes the byte string (R177, R178). -/
theorem lz78D_encode_runsTo {s : State} {bs : List Byte} (hr : regionsOk .lz78D s.latch.ops = true)
    (hsrc : s.source = some (lz78Encode bs)) (hlen : s.latch.ops.arg0.toNat = bs.length)
    (hroom : s.room bs.length = true) :
    s.RunsTo .lz78D (lengthResult bs.length) s.latch.ops.dstAddr.toNat bs :=
  sizedDecode_runsTo_of_writes hr (bodyOf_lz78D s) (hlen ▸ (room_iff.mp hroom).1) hlen
    (lz78Loop_encode_writes hsrc (hlen ▸ hroom))

/-! ## A compressor's output in memory (R154, R178) -/

/-- A command that left ERR = 0 completed with its body's result. -/
theorem body_ok_of_no_error {i : Instr} {s t : State} (h : exec i s = .next t) (herr : t.status.err = false) :
    ∃ d, bodyOf i s = .ok d ∧ t = s.complete d := by
  obtain ⟨_, he⟩ | ⟨d, _, hb, he⟩ | ⟨e, _, _, he⟩ := exec_cases i s <;> rw [he] at h <;> cases h
  · simp at herr
  · exact ⟨d, hb, rfl⟩
  · simp at herr

/-- The RES_LEN bytes at the destination are the output that a codec's normal end stored. -/
theorem readRegion_complete_codecFinish {s : State} {bs : List Byte} {n : Nat} {u : UnitWork}
    (hcap : bs.length ≤ s.latch.ops.dstCap.toNat) :
    let t := s.complete (codecFinish ((Sink.start s).extend bs) n u)
    t.mem.readRegion ⟨s.latch.ops.dstAddr.toNat, t.res.len.toNat⟩ = bs := by
  have hres : (BitVec.ofNat 32 ((Sink.start s).extend bs).outlen).toNat = bs.length := by
    rw [Sink.extend_outlen, Sink.start_outlen, Nat.zero_add, toNat_ofNat_of_le_cap hcap]
  simp only [State.complete_mem, State.complete_res, codecFinish, hres, Sink.extend_base, Sink.start_base,
    Sink.extend_bytes, Sink.start_bytes, List.nil_append, Memory.readRegion_write]

/-- LZ78.C without error leaves the stream of its source at the destination. -/
theorem readRegion_lz78C {s t : State} {input : List Byte} (hsrc : s.source = some input)
    (h : exec .lz78C s = .next t) (herr : t.status.err = false) :
    t.mem.readRegion ⟨s.latch.ops.dstAddr.toNat, t.res.len.toNat⟩ = lz78Encode input := by
  obtain ⟨d, hbody, rfl⟩ := body_ok_of_no_error h herr
  obtain ⟨⟨t', k⟩, hdrive, hd⟩ := bind_ok.mp (wrapCause_ok.mp hbody)
  cases hd
  obtain ⟨hk, hcap⟩ := drive_ok hsrc hdrive
  rw [show k = _ from hk]
  exact readRegion_complete_codecFinish hcap

/-- Settles O40: the decoder's table follows the encoder's trie, byte by byte of the input. -/
theorem lz78RoundTrip : Obligations.Lz78RoundTrip := by
  intro s t u input hsrc hexec herr husrc hr hlen hroom
  rw [readRegion_lz78C hsrc hexec herr] at husrc
  exact lz78D_encode_runsTo hr husrc hlen hroom

end Sys2Proof.Machine

namespace Sys2Proof.Machine

/-! ## The length of LZ78's stream (R173) -/

/-- How many items the end of input still writes: one, for a match that the input ended. -/
def TrieState.pending (t : TrieState) : Nat := if t.node = none then 0 else 1

theorem TrieState.pending_of_none {t : TrieState} (h : t.node = none) : t.pending = 0 := if_pos h

theorem TrieState.pending_of_some {t : TrieState} {c : Nat} (h : t.node = some c) : t.pending = 1 :=
  if_neg (by simp [h])

/-- Every record takes an input byte and assigns a code, and a sentinel comes after code 32766. -/
theorem lz78Stream_length_le (t : TrieState) (bs : List Byte) : (lz78Compressor.stream t bs).length ≤
    3 * (bs.length + t.pending) + 2 * ((t.next + (bs.length + t.pending) - 1) / 32766) := by
  induction bs generalizing t with
  | nil =>
    rw [show lz78Compressor.stream t [] = (lz78End t).flatten from rfl, lz78End]
    cases hn : t.node with
    | none => exact Nat.zero_le _
    | some c =>
      rw [TrieState.pending_of_some hn, List.flatten_singleton, be16_length, List.length_nil]
      omega
  | cons b bs ih =>
    rw [List.length_cons]
    cases hc : trieChild t.nodes t.node b with
    | some c =>
      rw [lz78Stream_of_child bs hc]
      have := ih { t with node := some c }
      rw [TrieState.pending_of_some rfl] at this
      dsimp only at this
      omega
    | none =>
      by_cases hlast : t.next + 1 = codeLimit
      · have := ih lz78Start
        rw [TrieState.pending_of_none rfl, lz78Start] at this
        rw [lz78Stream_of_last bs hc hlast, lz78Start]
        simp only [List.length_append, List.length_cons, be16_length]
        rw [codeLimit] at hlast
        dsimp only at this
        omega
      · have := ih (t.insert b)
        rw [TrieState.pending_of_none rfl] at this
        rw [lz78Stream_of_new bs hc hlast]
        simp only [List.length_append, List.length_cons, be16_length]
        simp only [TrieState.insert] at this ⊢
        omega

/-! ## The stream of LZW, byte by byte (R223, R224) -/

/-- The match starts again with the byte `b` alone. -/
def TrieState.restart (t : TrieState) (b : Byte) : TrieState := { t with node := trieChild t.nodes none b }

section
variable {t : TrieState} {b : Byte} (bs : List Byte)

theorem lzwStream_of_child {c : Nat} (h : trieChild t.nodes t.node b = some c) :
    lzwCompressor.stream t (b :: bs) = lzwCompressor.stream { t with node := some c } bs := by
  rw [Compressor.stream_cons, show lzwCompressor.feed t b = ({ t with node := some c }, []) by
    simp only [lzwCompressor, lzwFeed, h]]
  rfl

theorem lzwStream_of_last (h : trieChild t.nodes t.node b = none) (hlast : t.next + 1 = codeLimit) :
    lzwCompressor.stream t (b :: bs) =
      be16 (nodeCode t.node) ++ (be16 sentinelCode ++ lzwCompressor.stream (lzwStart.restart b) bs) := by
  rw [Compressor.stream_cons, show lzwCompressor.feed t b =
      (lzwStart.restart b, [be16 (nodeCode t.node), be16 sentinelCode]) by
    simp only [lzwCompressor, lzwFeed, lzwInsert, h, if_pos hlast]
    rfl]
  simp

theorem lzwStream_of_new (h : trieChild t.nodes t.node b = none) (hlast : t.next + 1 ≠ codeLimit) :
    lzwCompressor.stream t (b :: bs) =
      be16 (nodeCode t.node) ++ lzwCompressor.stream ((t.insert b).restart b) bs := by
  rw [Compressor.stream_cons, show lzwCompressor.feed t b = ((t.insert b).restart b, [be16 (nodeCode t.node)]) by
    simp only [lzwCompressor, lzwFeed, lzwInsert, h, if_neg hlast]
    rfl]
  simp

end

/-! ## The base set stays in LZW's trie (R64, R221) -/

/-- Every byte has a child of the root. -/
def TrieState.Rooted (t : TrieState) : Prop := ∀ b, ∃ c, trieChild t.nodes none b = some c

theorem trieChild_of_mem {nodes : List TrieNode} {n : TrieNode} (h : n ∈ nodes) :
    ∃ c, trieChild nodes n.parent n.sym = some c := by
  induction nodes with
  | nil => cases h
  | cons m rest ih =>
    rw [trieChild]
    split
    · exact ⟨_, rfl⟩
    · next hne =>
      rcases List.mem_cons.mp h with rfl | h
      · exact absurd ⟨rfl, rfl⟩ hne
      · exact ih h

theorem rooted_lzwStart : lzwStart.Rooted := fun b =>
  trieChild_of_mem (n := ⟨none, b, b.toNat⟩) (List.mem_map.mpr ⟨b.toNat, List.mem_range.mpr b.isLt, by simp⟩)

theorem TrieState.Rooted.insert {t : TrieState} (h : t.Rooted) (b : Byte) : (t.insert b).Rooted := fun b' => by
  rw [TrieState.insert, trieChild]
  split
  · exact ⟨_, rfl⟩
  · exact h b'

theorem TrieState.Rooted.restart {t : TrieState} (h : t.Rooted) (b : Byte) : (t.restart b).Rooted := h

/-- From the root every byte descends, so a byte that does not ends a match. -/
theorem TrieState.Rooted.matched {t : TrieState} {b : Byte} (h : t.Rooted)
    (hc : trieChild t.nodes t.node b = none) : ∃ c, t.node = some c := by
  cases hn : t.node with
  | none =>
    obtain ⟨c, hb⟩ := h b
    rw [hn, hb] at hc
    cases hc
  | some c => exact ⟨c, rfl⟩

/-! ## The length of LZW's stream (R223) -/

theorem TrieState.Rooted.pending_restart {t : TrieState} (h : t.Rooted) (b : Byte) : (t.restart b).pending = 1 := by
  obtain ⟨c, hc⟩ := h b
  exact TrieState.pending_of_some hc

/-- Every code ends a match of one byte or more and assigns a code, and a sentinel comes after code 32766. -/
theorem lzwStream_length_le {t : TrieState} (h : t.Rooted) (bs : List Byte) : (lzwCompressor.stream t bs).length ≤
    2 * (bs.length + t.pending) + 2 * ((t.next + bs.length - 256) / 32511) := by
  induction bs generalizing t with
  | nil =>
    rw [show lzwCompressor.stream t [] = (lzwEnd t).flatten from rfl, lzwEnd]
    cases hn : t.node with
    | none => exact Nat.zero_le _
    | some c =>
      rw [TrieState.pending_of_some hn, List.flatten_singleton, be16_length, List.length_nil]
      omega
  | cons b bs ih =>
    rw [List.length_cons]
    cases hc : trieChild t.nodes t.node b with
    | some c =>
      rw [lzwStream_of_child bs hc]
      have := ih (t := { t with node := some c }) h
      rw [TrieState.pending_of_some rfl] at this
      dsimp only at this
      omega
    | none =>
      obtain ⟨c, hn⟩ := h.matched hc
      rw [TrieState.pending_of_some hn]
      by_cases hlast : t.next + 1 = codeLimit
      · have := ih (rooted_lzwStart.restart b)
        rw [rooted_lzwStart.pending_restart, show (lzwStart.restart b).next = 256 from rfl] at this
        rw [lzwStream_of_last bs hc hlast]
        simp only [List.length_append, be16_length]
        rw [codeLimit] at hlast
        omega
      · have := ih ((h.insert b).restart b)
        rw [(h.insert b).pending_restart, show ((t.insert b).restart b).next = t.next + 1 from rfl] at this
        rw [lzwStream_of_new bs hc hlast]
        simp only [List.length_append, be16_length]
        omega

/-! ## LZSS's tokens (R192, R193) -/

theorem matchLen_le (mx : Nat) (xs ys : List Byte) : matchLen mx xs ys ≤ mx ∧ matchLen mx xs ys ≤ ys.length := by
  fun_induction matchLen mx xs ys with
  | case1 mx x xs ys ih => simp only [List.length_cons]; omega
  | case2 => exact ⟨Nat.zero_le _, Nat.zero_le _⟩
  | case3 => exact ⟨Nat.zero_le _, Nat.zero_le _⟩

/-- A candidate for a match (R192): none, or a length that the maximum and the input admit, at an offset in the
window. -/
def MatchWithin (cur : List Byte) (w : Nat) (m : Nat × Nat) : Prop :=
  m.2 ≤ lzssMax ∧ m.2 ≤ cur.length ∧ (m.2 ≠ 0 → 1 ≤ m.1 ∧ m.1 ≤ w)

theorem bestMatch_within {cur : List Byte} {w n : Nat} {hay : List Byte} {best : Nat × Nat} (hn : n ≤ w)
    (h : MatchWithin cur w best) : MatchWithin cur w (bestMatch cur n hay n best) := by
  induction n generalizing hay best with
  | zero => exact h
  | succ n ih =>
    obtain ⟨hmax, hlen⟩ := matchLen_le lzssMax hay cur
    rw [bestMatch]
    refine ih (by omega) ?_
    generalize hl : (if hay.head? = cur.head? then matchLen lzssMax hay cur else 0) = l
    have hle : l ≤ matchLen lzssMax hay cur := by
      rw [← hl]
      split
      · exact Nat.le_refl _
      · exact Nat.zero_le _
    split
    · exact ⟨Nat.le_trans hle hmax, Nat.le_trans hle hlen, fun _ => ⟨Nat.succ_pos n, hn⟩⟩
    · exact h

theorem lzssSearch_within (input : List Byte) (p : Nat) :
    MatchWithin (input.drop p) (min p lzssWindow) (lzssSearch input p) :=
  bestMatch_within (Nat.le_refl _) ⟨Nat.zero_le _, Nat.zero_le _, fun h0 => absurd rfl h0⟩

/-- What the decoder admits at output length `p` (R198), in the sixteen bits of R194. -/
def Token.ValidAt (p : Nat) : Token → Prop
  | .lit _ => True
  | .copy off len => 1 ≤ off ∧ off ≤ p ∧ off ≤ 4095 ∧ 3 ≤ len ∧ len ≤ 18
  | .sentinel => False

theorem lzssToken_of_three_le {input : List Byte} {p : Nat} (h : 3 ≤ p) : lzssToken input p =
    if lzssMin ≤ (lzssSearch input p).2 then .copy (lzssSearch input p).1 (lzssSearch input p).2
    else .lit ((input.drop p).headD 0) := by
  rw [lzssToken, if_pos h]

theorem lzssToken_of_lt_three {input : List Byte} {p : Nat} (h : p < 3) :
    lzssToken input p = .lit ((input.drop p).headD 0) := by
  rw [lzssToken, if_neg (show ¬3 ≤ p by omega)]
  exact if_neg (by decide)

/-- A token of the input is valid where it stands and stays inside the input. -/
theorem lzssToken_validAt {input : List Byte} {p : Nat} (hp : p < input.length) :
    (lzssToken input p).ValidAt p ∧ p + (lzssToken input p).width ≤ input.length := by
  by_cases h3 : 3 ≤ p
  · rw [lzssToken_of_three_le h3]
    split
    · next hlen =>
      obtain ⟨hmax, hcur, hoff⟩ := lzssSearch_within input p
      rw [List.length_drop] at hcur
      rw [lzssMin] at hlen
      rw [lzssMax] at hmax
      rw [lzssWindow] at hoff
      have := hoff (by omega)
      simp only [Token.ValidAt, Token.width]
      omega
    · exact ⟨trivial, hp⟩
  · rw [lzssToken_of_lt_three (by omega)]
    exact ⟨trivial, hp⟩

/-- A token list that a decoder follows from output length `p` to output length `n` (R193, R196). -/
inductive TokensTo (n : Nat) : Nat → List Token → Prop
  | sentinel : TokensTo n n [.sentinel]
  | token {p : Nat} {t : Token} {ts : List Token} (ht : t.ValidAt p) (hts : TokensTo n (p + t.width) ts) :
      TokensTo n p (t :: ts)

theorem Token.ValidAt.width_pos {p : Nat} {t : Token} (h : t.ValidAt p) : 1 ≤ t.width := by
  cases t with
  | lit b => exact Nat.le_refl 1
  | copy off len =>
    obtain ⟨_, _, _, hlen, _⟩ := h
    exact Nat.le_trans (by decide) hlen
  | sentinel => cases h

theorem lzssTokens_to {input : List Byte} {fuel p : Nat} (hp : p ≤ input.length) (hfuel : input.length ≤ p + fuel) :
    TokensTo input.length p (lzssTokens input fuel p) := by
  induction fuel generalizing p with
  | zero =>
    obtain rfl : p = input.length := by omega
    exact .sentinel
  | succ fuel ih =>
    rw [lzssTokens]
    split
    · next hlt =>
      obtain ⟨hvalid, hin⟩ := lzssToken_validAt hlt
      have := hvalid.width_pos
      exact .token hvalid (ih hin (by omega))
    · obtain rfl : p = input.length := by omega
      exact .sentinel

/-! ## LZSS's stream, token by token (R195, R196) -/

/-- The control byte of the group that starts with these tokens. -/
def lzssControl (toks : List Token) : Byte := BitVec.ofNat 8 (controlValue 7 (toks.take 8))

/-- The stream of tokens of which the first `r` belong to a group whose control byte has been written. -/
def lzssGrouped : Nat → List Token → List Byte
  | _, [] => []
  | 0, t :: ts => lzssControl (t :: ts) :: (t.encoding ++ lzssGrouped 7 ts)
  | r + 1, t :: ts => t.encoding ++ lzssGrouped r ts

theorem lzssGrouped_nil (r : Nat) : lzssGrouped r [] = [] := by cases r <;> rfl

theorem lzssGrouped_zero {toks : List Token} (h : toks ≠ []) :
    lzssGrouped 0 toks = lzssControl toks :: lzssGrouped 8 toks := by
  cases toks with
  | nil => exact absurd rfl h
  | cons t ts => rfl

theorem lzssGrouped_eq_group (r : Nat) (toks : List Token) :
    lzssGrouped r toks = ((toks.take r).map Token.encoding).flatten ++ lzssGrouped 0 (toks.drop r) := by
  induction r generalizing toks with
  | zero => rfl
  | succ r ih =>
    cases toks with
    | nil => rfl
    | cons t ts => simp [lzssGrouped, ih]

theorem lzssChunks_flatten {fuel : Nat} {toks : List Token} (h : toks.length ≤ fuel) :
    (lzssChunks fuel toks).flatten = lzssGrouped 0 toks := by
  induction fuel generalizing toks with
  | zero =>
    rw [List.eq_nil_of_length_eq_zero (Nat.le_zero.mp h)]
    rfl
  | succ fuel ih =>
    by_cases hnil : toks = []
    · rw [hnil]
      rfl
    · have hpos := List.length_pos_iff.mpr hnil
      rw [lzssChunks, if_neg hnil, lzssGrouped_zero hnil, lzssGrouped_eq_group,
        ← ih (by rw [List.length_drop]; omega)]
      simp [lzssControl]

theorem lzssEncode_eq_grouped (bs : List Byte) : lzssEncode bs = lzssGrouped 0 (lzssTokens bs bs.length 0) :=
  lzssChunks_flatten (Nat.le_refl _)

/-! ## The length of LZSS's stream (R196) -/

/-- One control byte for each eight tokens after the first `r`. -/
theorem lzssGrouped_length (r : Nat) (toks : List Token) :
    (lzssGrouped r toks).length = (toks.map Token.encoding).flatten.length + (toks.length - r + 7) / 8 := by
  induction toks generalizing r with
  | nil => simp [lzssGrouped_nil]
  | cons t ts ih =>
    cases r with
    | zero =>
      simp only [lzssGrouped, List.length_cons, List.length_append, ih, List.map_cons, List.flatten_cons]
      omega
    | succ r =>
      simp only [lzssGrouped, List.length_cons, List.length_append, ih, List.map_cons, List.flatten_cons]
      omega

/-- A valid token is written in no more bytes than it stands for. -/
theorem Token.ValidAt.encoding_length_le {p : Nat} {t : Token} (h : t.ValidAt p) : t.encoding.length ≤ t.width := by
  cases t with
  | lit b => exact Nat.le_refl 1
  | copy off len =>
    obtain ⟨_, _, _, hlen, _⟩ := h
    exact Nat.le_trans (Nat.le_succ 2) hlen
  | sentinel => cases h

theorem TokensTo.length_le {n p : Nat} {toks : List Token} (h : TokensTo n p toks) :
    p + toks.length ≤ n + 1 ∧ p + (toks.map Token.encoding).flatten.length ≤ n + 2 := by
  induction h with
  | sentinel => exact ⟨Nat.le_refl _, Nat.le_refl _⟩
  | token ht _ ih =>
    have := ht.width_pos
    have := ht.encoding_length_le
    simp only [List.length_cons, List.map_cons, List.flatten_cons, List.length_append]
    omega

/-- Settles O36: a code or record, with its share of the sentinels, is paid for by the input bytes that it takes. -/
theorem streamLengthsAreBounded : Obligations.StreamLengthsAreBounded := by
  refine fun bs => ⟨?_, ?_, ?_⟩
  · have := lz78Stream_length_le lz78Start bs
    rwa [TrieState.pending_of_none rfl, Nat.add_zero, show lz78Start.next = 1 from rfl,
      Nat.add_sub_cancel_left] at this
  · obtain ⟨htoks, henc⟩ := (lzssTokens_to (Nat.zero_le _) (Nat.le_add_left bs.length 0)).length_le
    rw [lzssEncode_eq_grouped, lzssGrouped_length]
    omega
  · have := lzwStream_length_le rooted_lzwStart bs
    rwa [TrieState.pending_of_none rfl, Nat.add_zero, show lzwStart.next = 256 from rfl,
      Nat.add_sub_cancel_left] at this

end Sys2Proof.Machine

namespace Sys2Proof.Machine

/-! ## The control byte and its flags (R194, R195, R197) -/

/-- The flag of a token, as a decoder reads it. -/
def Token.flagged : Token → Bool
  | .lit _ => false
  | .copy _ _ => true
  | .sentinel => true

theorem Token.flag_eq (t : Token) : t.flag = t.flagged.toNat := by cases t <;> rfl

theorem controlValue_lt {bit : Nat} {toks : List Token} (h : toks.length ≤ bit + 1) :
    controlValue bit toks < 2 ^ (bit + 1) := by
  induction toks generalizing bit with
  | nil => exact Nat.two_pow_pos _
  | cons t ts ih =>
    have hflag : t.flag * 2 ^ bit ≤ 2 ^ bit := by
      rw [t.flag_eq]
      exact Nat.le_trans (Nat.mul_le_mul_right _ (Bool.toNat_le _)) (Nat.le_of_eq (Nat.one_mul _))
    rw [List.length_cons] at h
    rw [controlValue]
    cases bit with
    | zero =>
      rw [List.eq_nil_of_length_eq_zero (show ts.length = 0 by omega), controlValue]
      omega
    | succ bit =>
      have := ih (bit := bit) (by omega)
      rw [Nat.add_sub_cancel]
      omega

/-- The flag of token `i` of a group stands `i` bits below the group's first. -/
theorem testBit_controlValue {bit i : Nat} {toks : List Token} (h : toks.length ≤ bit + 1) (hi : i < toks.length) :
    (controlValue bit toks).testBit (bit - i) = toks[i].flagged := by
  induction toks generalizing bit i with
  | nil => exact absurd hi (Nat.not_lt_zero i)
  | cons t ts ih =>
    rw [List.length_cons] at h hi
    cases bit with
    | zero =>
      obtain rfl : i = 0 := by omega
      obtain rfl : ts = [] := List.eq_nil_of_length_eq_zero (by omega)
      show _ = t.flagged
      rw [controlValue, controlValue, t.flag_eq]
      cases t.flagged <;> decide
    | succ bit =>
      have hlt := controlValue_lt (bit := bit) (toks := ts) (by omega)
      rw [controlValue, Nat.add_sub_cancel, Nat.mul_comm, Nat.testBit_two_pow_mul_add _ hlt, t.flag_eq]
      cases i with
      | zero =>
        show _ = t.flagged
        cases t.flagged <;> simp
      | succ i =>
        rw [if_pos (by omega), show bit + 1 - (i + 1) = bit - i by omega]
        exact ih (by omega) (by omega)

theorem controlFlags_eq_map (b : Byte) : controlFlags b = (List.range 8).map fun i => b.getLsbD (7 - i) := rfl

/-- A control byte's flags start with those of its group's tokens. -/
theorem controlFlags_lzssControl (toks : List Token) :
    (toks.take 8).map Token.flagged <+: controlFlags (lzssControl toks) := by
  rw [controlFlags_eq_map, List.prefix_iff_getElem?]
  intro i hi
  rw [List.length_map, List.length_take] at hi
  rw [List.getElem?_map, List.getElem?_range (by omega), List.getElem_map, lzssControl, Option.map_some,
    BitVec.getLsbD_ofNat, testBit_controlValue (by rw [List.length_take]; omega)
      (by rw [List.length_take]; omega), decide_eq_true (show 7 - i < 8 by omega), Bool.true_and]

/-! ## The rounds of LZSS.D (R198) -/

/-- The output after a token, as the decoder's read-back finds it (R101). -/
def Token.emit : Token → Sink → Sink
  | .lit b, k => k.extend [b]
  | .copy off len, k => k.extend (Sink.copied off len k)
  | .sentinel, k => k

/-- The output after a list of tokens. -/
def emitTokens (toks : List Token) (k : Sink) : Sink := toks.foldl (fun k t => t.emit k) k

theorem Token.emit_eq_extend (t : Token) (k : Sink) : ∃ bs, bs.length = t.width ∧ t.emit k = k.extend bs := by
  cases t with
  | lit b => exact ⟨[b], rfl, rfl⟩
  | copy off len => exact ⟨_, Sink.copied_length off len k, rfl⟩
  | sentinel => exact ⟨[], rfl, (Sink.extend_nil k).symm⟩

section
variable (arg0 fuel : Nat) (flags : List Bool) (src : List SrcCell) (k : Sink)

theorem lzssLoop_control (b : Byte) :
    lzssLoop arg0 (fuel + 1) [] (some b :: src) k = lzssLoop arg0 fuel (controlFlags b) src k := rfl

theorem lzssLoop_lit (b : Byte) : lzssLoop arg0 (fuel + 1) (false :: flags) (some b :: src) k = (do
    check (decide (k.outlen + 1 ≤ arg0)) .sizeMismatch
    let k ← k.put b
    lzssLoop arg0 fuel flags src k) := rfl

theorem lzssLoop_code (b0 b1 : Byte) : lzssLoop arg0 (fuel + 1) (true :: flags) (some b0 :: some b1 :: src) k =
    if rdBE16 b0 b1 / 16 = 0 then (do
      check (decide (k.outlen = arg0)) .sizeMismatch
      .ok (src, k))
    else (do
      check (decide (rdBE16 b0 b1 / 16 ≤ k.outlen)) .badOffset
      check (decide (k.outlen + (rdBE16 b0 b1 % 16 + 3) ≤ arg0)) .sizeMismatch
      let k ← k.copyBack (rdBE16 b0 b1 / 16) (rdBE16 b0 b1 % 16 + 3)
      lzssLoop arg0 fuel flags src k) := rfl

variable {w : Nat} (hw : w < 65536)
include hw

theorem lzssLoop_copy (hoff : w / 16 ≠ 0) :
    lzssLoop arg0 (fuel + 1) (true :: flags) ((be16 w).map some ++ src) k = (do
      check (decide (w / 16 ≤ k.outlen)) .badOffset
      check (decide (k.outlen + (w % 16 + 3) ≤ arg0)) .sizeMismatch
      let k ← k.copyBack (w / 16) (w % 16 + 3)
      lzssLoop arg0 fuel flags src k) := by
  rw [be16, List.map_cons, List.map_singleton, List.cons_append, List.singleton_append, lzssLoop_code, rdBE16_be16 hw,
    if_neg hoff]

theorem lzssLoop_sentinel (hoff : w / 16 = 0) :
    lzssLoop arg0 (fuel + 1) (true :: flags) ((be16 w).map some ++ src) k = (do
      check (decide (k.outlen = arg0)) .sizeMismatch
      .ok (src, k)) := by
  rw [be16, List.map_cons, List.map_singleton, List.cons_append, List.singleton_append, lzssLoop_code, rdBE16_be16 hw,
    if_pos hoff]

end

section
variable {arg0 : Nat} {t : Token} {k : Sink} (ht : t.ValidAt k.outlen) (fuel : Nat) (flags : List Bool)
  (src : List SrcCell)
include ht

/-- A valid token that originalSize admits is written. -/
theorem lzssLoop_token (hk : k.Fits arg0 t.width) :
    lzssLoop arg0 (fuel + 1) (t.flagged :: flags) (t.encoding.map some ++ src) k =
      lzssLoop arg0 fuel flags src (t.emit k) := by
  cases t with
  | lit b =>
    have hsize : k.outlen + 1 ≤ arg0 := hk.size
    rw [Token.encoding, Token.flagged, List.map_singleton, List.singleton_append, lzssLoop_lit, decide_eq_true hsize,
      Sink.put, Sink.Fits.putBytes (bs := [b]) hk]
    rfl
  | copy off len =>
    obtain ⟨h1, hp, hoff, h3, h18⟩ := ht
    obtain ⟨hsize, hcap, hback⟩ := hk
    dsimp only [Token.width] at hsize hback
    rw [Token.encoding, Token.flagged, lzssLoop_copy _ _ _ _ _ (by omega) (by omega),
      show (off * 16 + (len - 3)) / 16 = off by omega, show (off * 16 + (len - 3)) % 16 + 3 = len by omega,
      decide_eq_true hp, decide_eq_true hsize, Sink.copyBack_of_room (Nat.le_trans hsize hcap) hback]
    rfl
  | sentinel => cases ht

/-- A valid token that would pass originalSize ends the command (R198). -/
theorem lzssLoop_token_over (hover : arg0 < k.outlen + t.width) :
    lzssLoop arg0 (fuel + 1) (t.flagged :: flags) (t.encoding.map some ++ src) k = .error .sizeMismatch := by
  cases t with
  | lit b =>
    have hsize : ¬k.outlen + 1 ≤ arg0 := Nat.not_le_of_lt hover
    rw [Token.encoding, Token.flagged, List.map_singleton, List.singleton_append, lzssLoop_lit, decide_eq_false hsize]
    rfl
  | copy off len =>
    obtain ⟨h1, hp, hoff, h3, h18⟩ := ht
    have hsize : ¬k.outlen + len ≤ arg0 := Nat.not_le_of_lt hover
    rw [Token.encoding, Token.flagged, lzssLoop_copy _ _ _ _ _ (by omega) (by omega),
      show (off * 16 + (len - 3)) / 16 = off by omega, show (off * 16 + (len - 3)) % 16 + 3 = len by omega,
      decide_eq_true hp, decide_eq_false hsize]
    rfl
  | sentinel => cases ht

end

/-! ## LZSS.D on a token list (R198, R199) -/

/-- What LZSS.D's loop answers on tokens that stand for `n` output bytes and leave the output `k'`: the output and no
source byte where `n` is originalSize, else SIZE_MISMATCH. -/
def LzssAnswers (arg0 n : Nat) (k' : Sink) (x : Except Cause (List SrcCell × Sink)) : Prop :=
  (n = arg0 → x = .ok ([], k')) ∧ (n ≠ arg0 → x = .error .sizeMismatch)

/-- LZSS.D's loop answers so on the tokens, whatever is left of the current control byte. -/
def LzssDecodes (arg0 n : Nat) (toks : List Token) (k : Sink) : Prop :=
  ∀ (flags : List Bool) (fuel : Nat), (toks.take flags.length).map Token.flagged <+: flags →
    (lzssGrouped flags.length toks).length ≤ fuel →
    LzssAnswers arg0 n (emitTokens toks k)
      (lzssLoop arg0 fuel flags ((lzssGrouped flags.length toks).map some) k)

/-- It is enough to follow a token in the middle of a group: at the start of one, its control byte is read first. -/
theorem LzssDecodes.of_flagged {arg0 n : Nat} {t : Token} {ts : List Token} {k : Sink}
    (h : ∀ (flags : List Bool) (fuel : Nat), (ts.take flags.length).map Token.flagged <+: flags →
      (lzssGrouped (flags.length + 1) (t :: ts)).length ≤ fuel →
      LzssAnswers arg0 n (emitTokens (t :: ts) k) (lzssLoop arg0 fuel (t.flagged :: flags)
        ((t.encoding ++ lzssGrouped flags.length ts).map some) k)) : LzssDecodes arg0 n (t :: ts) k := by
  have hflagged : ∀ (flags : List Bool) (fuel : Nat), flags ≠ [] →
      ((t :: ts).take flags.length).map Token.flagged <+: flags →
      (lzssGrouped flags.length (t :: ts)).length ≤ fuel → LzssAnswers arg0 n (emitTokens (t :: ts) k)
        (lzssLoop arg0 fuel flags ((lzssGrouped flags.length (t :: ts)).map some) k) := by
    intro flags fuel hne hpre hfuel
    cases flags with
    | nil => exact absurd rfl hne
    | cons f flags =>
      obtain ⟨rfl, hrest⟩ := List.cons_prefix_cons.mp hpre
      exact h flags fuel hrest hfuel
  intro flags fuel hpre hfuel
  cases flags with
  | nil =>
    rw [List.length_nil, lzssGrouped_zero (List.cons_ne_nil t ts)] at *
    obtain ⟨fuel, rfl⟩ := Nat.exists_eq_add_of_le' (show 1 ≤ fuel by simp at hfuel; omega)
    rw [List.map_cons, lzssLoop_control]
    exact hflagged (controlFlags _) fuel (List.cons_ne_nil _ _) (controlFlags_lzssControl _)
      (Nat.le_of_succ_le_succ hfuel)
  | cons f flags => exact hflagged (f :: flags) fuel (List.cons_ne_nil f flags) hpre hfuel

theorem Token.encoding_length_pos (t : Token) : 1 ≤ t.encoding.length := by
  cases t <;> exact Nat.succ_pos _

theorem TokensTo.le {n p : Nat} {toks : List Token} (h : TokensTo n p toks) : p ≤ n := by
  induction h with
  | sentinel => exact Nat.le_refl _
  | token _ _ ih => omega

/-- The loop follows every token list that a compressor can write. -/
theorem lzssLoop_decodes {arg0 n p : Nat} {toks : List Token} (h : TokensTo n p toks) {k : Sink} (hp : k.outlen = p)
    (hk : k.FitsAll arg0) : LzssDecodes arg0 n toks k := by
  induction h generalizing k with
  | sentinel =>
    refine .of_flagged fun flags fuel _ hfuel => ?_
    rw [lzssGrouped, lzssGrouped_nil, Token.encoding, List.append_nil, be16_length] at hfuel
    obtain ⟨fuel, rfl⟩ := Nat.exists_eq_add_of_le' (show 1 ≤ fuel by omega)
    rw [lzssGrouped_nil, Token.encoding, Token.flagged, List.map_append,
      lzssLoop_sentinel _ _ _ _ _ (by decide) (by decide), hp]
    refine ⟨fun hn => ?_, fun hn => ?_⟩
    · rw [decide_eq_true hn]
      rfl
    · rw [decide_eq_false hn]
      rfl
  | @token p t ts ht hts ih =>
    refine .of_flagged fun flags fuel hpre hfuel => ?_
    have hpos := t.encoding_length_pos
    rw [lzssGrouped, List.length_append] at hfuel
    obtain ⟨fuel, rfl⟩ := Nat.exists_eq_add_of_le' (show 1 ≤ fuel by omega)
    have ht : t.ValidAt k.outlen := hp ▸ ht
    rw [List.map_append]
    by_cases hsize : k.outlen + t.width ≤ arg0
    · rw [lzssLoop_token ht _ _ _ (hk.fits hsize)]
      obtain ⟨bs, hlen, hemit⟩ := t.emit_eq_extend k
      refine ih (k := t.emit k) ?_ ?_ flags fuel hpre (by omega)
      · rw [hemit, Sink.extend_outlen, hlen, hp]
      · rw [hemit]
        exact hk.extend (hlen ▸ hsize)
    · have := hts.le
      rw [lzssLoop_token_over ht _ _ _ (by omega)]
      exact ⟨fun hn => absurd hsize (by omega), fun _ => rfl⟩

/-- The output after the tokens of a byte string. -/
def lzssDecoded (s : State) (bs : List Byte) : Sink := emitTokens (lzssTokens bs bs.length 0) (Sink.start s)

/-- LZSS.D's loop on the stream of a byte string. -/
theorem lzssLoop_encode_answers {s : State} (bs : List Byte) (hroom : s.room s.latch.ops.arg0.toNat = true) :
    LzssAnswers s.latch.ops.arg0.toNat bs.length (lzssDecoded s bs)
      (lzssLoop s.latch.ops.arg0.toNat (lzssEncode bs).length [] ((lzssEncode bs).map some) (Sink.start s)) := by
  rw [lzssEncode_eq_grouped]
  exact lzssLoop_decodes (lzssTokens_to (Nat.zero_le _) (Nat.le_add_left bs.length 0)) rfl (Sink.fitsAll_start hroom)
    [] _ (List.nil_prefix) (Nat.le_refl _)

/-! ## LZSS.D on a part of its source (R198) -/

/-- A loop that ends inside `q` needs more than what stands before `q`. -/
theorem lzssLoop_truncated {arg0 fuel fuel' : Nat} {flags : List Bool} {p q src' : List SrcCell} {k k' : Sink}
    (h : lzssLoop arg0 fuel flags (p ++ q) k = .ok (src', k')) (hq : src'.length < q.length) :
    lzssLoop arg0 fuel' flags p k = .error .srcUnderrun := by
  induction fuel generalizing fuel' flags p k with
  | zero => cases h
  | succ fuel ih =>
    cases fuel' with
    | zero => rfl
    | succ fuel' =>
      match flags, p with
      | [], [] => rfl
      | false :: _, [] => rfl
      | true :: _, [] => rfl
      | true :: _, [_] => rfl
      | [], none :: _ => cases h
      | false :: _, none :: _ => cases h
      | true :: _, none :: _ :: _ => cases h
      | true :: _, some _ :: none :: _ => cases h
      | [], some b :: p => exact ih (flags := controlFlags b) (p := p) h
      | false :: flags, some b :: p =>
        rw [List.cons_append, lzssLoop_lit] at h
        obtain ⟨_, hsize, h⟩ := bind_ok.mp h
        obtain ⟨k₁, hput, h⟩ := bind_ok.mp h
        rw [lzssLoop_lit, hsize, hput]
        exact ih h
      | true :: flags, some b0 :: some b1 :: p =>
        rw [List.cons_append, List.cons_append, lzssLoop_code] at h
        split at h
        · obtain ⟨_, _, h⟩ := bind_ok.mp h
          cases h
          rw [List.length_append] at hq
          omega
        · next hoff =>
          obtain ⟨_, hback, h⟩ := bind_ok.mp h
          obtain ⟨_, hsize, h⟩ := bind_ok.mp h
          obtain ⟨k₁, hcopy, h⟩ := bind_ok.mp h
          rw [lzssLoop_code, if_neg hoff, hback, hsize, hcopy]
          exact ih h

end Sys2Proof.Machine

namespace Sys2Proof.Machine

/-! ## The codes of LZW, one round each (R222, R226) -/

section
variable (arg0 fuel : Nat) (src : List SrcCell) (table : List (List Byte)) (prev : Option (List Byte)) (k : Sink)

theorem lzwLoop_nil : lzwLoop arg0 fuel [] table prev k = .ok (table, prev, k) := by
  cases fuel <;> rfl

variable {c : Nat}

theorem lzwLoop_sentinel (hs : c = sentinelCode) :
    lzwLoop arg0 (fuel + 1) ((be16 c).map some ++ src) table prev k = lzwLoop arg0 fuel src lzwTable none k := by
  rw [lzwLoop, if_neg (by simp [inRemaining, be16]), inGet16_be16 (by rw [hs, sentinelCode]; omega)]
  exact if_pos hs

theorem lzwLoop_code (hc : c < 65536) (hs : c ≠ sentinelCode) :
    lzwLoop arg0 (fuel + 1) ((be16 c).map some ++ src) table prev k = (do
      let (str, table) ← lzwDecodeCode table prev c
      let k ← emitSized arg0 k str
      lzwLoop arg0 fuel src table (some str) k) := by
  rw [lzwLoop, if_neg (by simp [inRemaining, be16]), inGet16_be16 hc]
  exact if_neg hs

end

/-! ## LZW.D follows LZW.C's trie (R225, R227) -/

theorem lzwTable_length : lzwTable.length = 256 := by simp [lzwTable]

theorem lzwTable_getD {b : Nat} (h : b < 256) : lzwTable.getD b [] = [BitVec.ofNat 8 b] := by
  rw [lzwTable, List.getD_eq_getElem?_getD, List.getElem?_map, List.getElem?_range h]
  rfl

theorem spells_lzwStart : lzwStart.Spells lzwTable := by
  have hbase : ∀ n ∈ lzwStart.nodes, ∃ b < 256, n = ⟨none, BitVec.ofNat 8 b, b⟩ := by
    intro n hn
    obtain ⟨b, hb, rfl⟩ := List.mem_map.mp hn
    exact ⟨b, List.mem_range.mp hb, rfl⟩
  refine ⟨lzwTable_length.symm, fun _ h => (by cases h), fun n hn => ?_, fun n hn c hc => ?_, fun n hn => ?_⟩
  · obtain ⟨b, hb, rfl⟩ := hbase n hn
    exact lzwTable_length ▸ hb
  · obtain ⟨b, hb, rfl⟩ := hbase n hn
    cases hc
  · obtain ⟨b, hb, rfl⟩ := hbase n hn
    exact lzwTable_getD hb

/-- Starting a match with one byte: the node of that byte under the root. -/
theorem TrieState.Spells.restart {t : TrieState} {strs : List (List Byte)} (h : t.Spells strs) (hr : t.Rooted)
    (hroot : t.node = none) (b : Byte) :
    (t.restart b).Spells strs ∧ spelled strs (t.restart b).node = [b] := by
  obtain ⟨c, hc⟩ := hr b
  rw [TrieState.restart, hc]
  obtain ⟨hspells, hstr⟩ := h.descend (hroot.symm ▸ hc)
  exact ⟨hspells, by rw [spelled, hstr, hroot]; rfl⟩

/-- What the decoder knows of the encoder's strings: all of them before the first code, and later all but the newest,
which is the previous string with the first byte of the encoder's current match (R225). -/
def LzwKnows (table : List (List Byte)) (strs : List (List Byte)) (cur : List Byte) : Option (List Byte) → Prop
  | none => table = strs ∧ strs.length = lzwFirstCode
  | some p => p ≠ [] ∧ cur ≠ [] ∧ strs = table ++ [p ++ cur.take 1]

/-- The encoder's trie spells `strs`, and the decoder's table lags at most one string behind. -/
structure LzwSim (t : TrieState) (strs table : List (List Byte)) (prev : Option (List Byte)) : Prop where
  spells : t.Spells strs
  rooted : t.Rooted
  room : strs.length < codeLimit
  matched : ∀ c, t.node = some c → spelled strs t.node ≠ []
  knows : LzwKnows table strs (spelled strs t.node) prev

theorem LzwKnows.append {table strs : List (List Byte)} {cur : List Byte} {prev : Option (List Byte)}
    (h : LzwKnows table strs cur prev) (bs : List Byte) : LzwKnows table strs (cur ++ bs) prev := by
  cases prev with
  | none => exact h
  | some p =>
    obtain ⟨hp, hcur, hstrs⟩ := h
    refine ⟨hp, List.append_ne_nil_of_left_ne_nil hcur bs, ?_⟩
    rwa [List.take_append_of_le_length (List.length_pos_iff.mpr hcur)]

/-- The decoder finds the string of a code, the newest one included, and then knows all the strings (R225, R226). -/
theorem lzwDecodeCode_of_knows {table strs : List (List Byte)} {prev : Option (List Byte)} {c : Nat}
    (h : LzwKnows table strs (strs.getD c []) prev) (hc : c < strs.length) (hroom : strs.length < codeLimit) :
    lzwDecodeCode table prev c = .ok (strs.getD c [], strs) := by
  cases prev with
  | none =>
    obtain ⟨rfl, hlen⟩ := h
    rw [lzwDecodeCode, decide_eq_true (hlen ▸ hc)]
    rfl
  | some p =>
    obtain ⟨hp, hcur, hstrs⟩ := h
    have hlen : strs.length = table.length + 1 := by
      rw [hstrs]
      simp
    have hstr : (if c < table.length then table.getD c [] else p ++ p.take 1) = strs.getD c [] := by
      split
      · next hlt => rw [hstrs, getD_append_of_lt hlt]
      · obtain rfl : c = table.length := by omega
        have hnew : strs.getD table.length [] = p ++ (strs.getD table.length []).take 1 :=
          (congrArg (List.getD · table.length []) hstrs).trans (getD_append_length _ _)
        obtain ⟨x, p, rfl⟩ := List.exists_cons_of_ne_nil hp
        have hfirst : (strs.getD table.length []).take 1 = (x :: p).take 1 := by
          rw [hnew]
          rfl
        rw [← hfirst, ← hnew]
    rw [lzwDecodeCode, decide_eq_true (show c ≤ table.length by omega)]
    show (check (decide (table.length ≠ codeLimit)) Cause.badCode >>= fun _ => Except.ok
      ((if c < table.length then table.getD c [] else p ++ p.take 1),
        table ++ [p ++ (if c < table.length then table.getD c [] else p ++ p.take 1).take 1])) = _
    rw [hstr, ← hstrs, decide_eq_true (show table.length ≠ codeLimit by omega)]
    rfl

/-- The decoder's round on the code of the encoder's current match. -/
theorem LzwSim.round {t : TrieState} {strs table : List (List Byte)} {prev : Option (List Byte)} {c : Nat}
    (h : LzwSim t strs table prev) (hn : t.node = some c) (arg0 fuel : Nat) (src : List SrcCell) (k : Sink) :
    lzwLoop arg0 (fuel + 1) ((be16 (nodeCode t.node)).map some ++ src) table prev k =
      emitSized arg0 k (spelled strs t.node) >>= fun k =>
        lzwLoop arg0 fuel src strs (some (spelled strs t.node)) k := by
  have hc := h.spells.current c hn
  have hroom := h.room
  have hknows := h.knows
  rw [hn] at *
  rw [spelled] at hknows ⊢
  rw [nodeCode]
  rw [codeLimit] at hroom
  rw [lzwLoop_code _ _ _ _ _ _ (by omega) (by rw [sentinelCode]; omega), lzwDecodeCode_of_knows hknows hc h.room]
  rfl

theorem lzwSim_start : LzwSim lzwStart lzwTable lzwTable none :=
  ⟨spells_lzwStart, rooted_lzwStart, by rw [lzwTable_length]; decide, fun _ h => (by cases h), rfl, lzwTable_length⟩

theorem LzwSim.descend {t : TrieState} {strs table : List (List Byte)} {prev : Option (List Byte)} {b : Byte} {c : Nat}
    (h : LzwSim t strs table prev) (hc : trieChild t.nodes t.node b = some c) :
    LzwSim { t with node := some c } strs table prev := by
  obtain ⟨hspells, hstr⟩ := h.spells.descend hc
  refine ⟨hspells, h.rooted, h.room, fun _ _ => ?_, ?_⟩
  · rw [spelled, hstr]
    exact List.append_ne_nil_of_right_ne_nil _ (List.cons_ne_nil b [])
  · rw [spelled, hstr]
    exact h.knows.append [b]

/-- After a code the decoder's previous string is the match, and the encoder's newest string extends it (R223). -/
theorem LzwSim.insert {t : TrieState} {strs table : List (List Byte)} {prev : Option (List Byte)} {c : Nat}
    (h : LzwSim t strs table prev) (hn : t.node = some c) (hlast : t.next + 1 ≠ codeLimit) (b : Byte) :
    LzwSim ((t.insert b).restart b) (strs ++ [spelled strs t.node ++ [b]]) strs (some (spelled strs t.node)) := by
  obtain ⟨hspells, hstr⟩ := (h.spells.insert b).restart (h.rooted.insert b) rfl b
  refine ⟨hspells, (h.rooted.insert b).restart b, ?_, fun _ _ => ?_, ?_⟩
  · have := h.room
    have := h.spells.next
    rw [List.length_append, List.length_singleton]
    omega
  · rw [hstr]
    exact List.cons_ne_nil b []
  · rw [hstr]
    exact ⟨h.matched c hn, List.cons_ne_nil b [], rfl⟩

/-- After a sentinel both sides start from the base set, the encoder with the unconsumed byte (R224). -/
theorem lzwSim_restart (b : Byte) : LzwSim (lzwStart.restart b) lzwTable lzwTable none := by
  obtain ⟨hspells, hstr⟩ := spells_lzwStart.restart rooted_lzwStart rfl b
  refine ⟨hspells, rooted_lzwStart.restart b, lzwSim_start.room, fun _ _ => ?_, rfl, lzwTable_length⟩
  rw [hstr]
  exact List.cons_ne_nil b []

/-- The end of the stream: the code of a match that the input ended, else nothing (R223). -/
theorem lzwLoop_end_writes {t : TrieState} {strs table : List (List Byte)} {prev : Option (List Byte)}
    (h : LzwSim t strs table prev) {arg0 fuel : Nat} {k : Sink} (hk : k.FitsAll arg0)
    (hfuel : (lzwCompressor.stream t []).length ≤ fuel) :
    Writes (·.2.2) arg0 k (spelled strs t.node ++ [])
      (lzwLoop arg0 fuel ((lzwCompressor.stream t []).map some) table prev k) := by
  rw [show lzwCompressor.stream t [] = (lzwEnd t).flatten from rfl, lzwEnd] at *
  cases hn : t.node with
  | none =>
    rw [List.flatten_nil, List.map_nil, lzwLoop_nil]
    exact .done hk rfl
  | some c =>
    rw [hn] at hfuel
    obtain ⟨fuel, rfl⟩ := Nat.exists_eq_add_of_le' (show 1 ≤ fuel by simp [be16] at hfuel; omega)
    have hround := h.round hn arg0 fuel [] k
    rw [List.append_nil, hn, nodeCode] at hround
    rw [List.flatten_singleton, hround]
    exact .emit hk fun hk => by
      rw [lzwLoop_nil]
      exact .done hk rfl

/-- From related states, the decoder writes the string the encoder has matched and the input still to come. -/
theorem lzwLoop_writes {t : TrieState} {strs table : List (List Byte)} {prev : Option (List Byte)}
    (h : LzwSim t strs table prev) {arg0 fuel : Nat} {k : Sink} (hk : k.FitsAll arg0) (bs : List Byte)
    (hfuel : (lzwCompressor.stream t bs).length ≤ fuel) :
    Writes (·.2.2) arg0 k (spelled strs t.node ++ bs)
      (lzwLoop arg0 fuel ((lzwCompressor.stream t bs).map some) table prev k) := by
  induction bs generalizing t strs table prev fuel k with
  | nil => exact lzwLoop_end_writes h hk hfuel
  | cons b bs ih =>
    cases hc : trieChild t.nodes t.node b with
    | some c =>
      rw [lzwStream_of_child bs hc] at *
      rw [List.append_cons, ← (h.spells.descend hc).2]
      exact ih (h.descend hc) hk hfuel
    | none =>
      obtain ⟨c, hn⟩ := h.rooted.matched hc
      by_cases hlast : t.next + 1 = codeLimit
      · rw [lzwStream_of_last bs hc hlast] at *
        obtain ⟨fuel, rfl⟩ := Nat.exists_eq_add_of_le' (show 2 ≤ fuel by simp [be16] at hfuel; omega)
        rw [List.map_append, List.map_append, h.round hn]
        simp only [lzwLoop_sentinel _ _ _ _ _ _ rfl]
        refine .emit hk fun hk => ?_
        have hrest := ih (lzwSim_restart b) hk (fuel := fuel) (by simp [be16] at hfuel; omega)
        rwa [(spells_lzwStart.restart rooted_lzwStart rfl b).2] at hrest
      · rw [lzwStream_of_new bs hc hlast] at *
        obtain ⟨fuel, rfl⟩ := Nat.exists_eq_add_of_le' (show 1 ≤ fuel by simp [be16] at hfuel; omega)
        rw [List.map_append, h.round hn]
        refine .emit hk fun hk => ?_
        have hrest := ih (h.insert hn hlast b) hk (fuel := fuel) (by simp [be16] at hfuel; omega)
        rwa [((h.spells.insert b).restart (h.rooted.insert b) rfl b).2] at hrest

/-- LZW.D's loop on the stream of a byte string writes the byte string, as far as originalSize admits it. -/
theorem lzwLoop_encode_writes {s : State} {bs : List Byte} (hsrc : s.source = some (lzwEncode bs))
    (hroom : s.room s.latch.ops.arg0.toNat = true) :
    Writes (·.2.2) s.latch.ops.arg0.toNat (Sink.start s) bs
      (lzwLoop s.latch.ops.arg0.toNat s.srcCells.length s.srcCells lzwTable none (Sink.start s)) := by
  rw [source_eq_some.mp hsrc, List.length_map]
  exact lzwLoop_writes lzwSim_start (Sink.fitsAll_start hroom) bs (Nat.le_refl _)

end Sys2Proof.Machine

namespace Sys2Proof.Machine

/-! ## The frame of LZSS.D (R198) -/

theorem lzssDBody_of_overflow {s : State} (h : s.latch.ops.dstCap.toNat < s.latch.ops.arg0.toNat) :
    lzssDBody s = .error .dstOverflow := by
  rw [lzssDBody, decide_eq_false (by omega)]
  rfl

section
variable {s : State} (hcap : s.latch.ops.arg0.toNat ≤ s.latch.ops.dstCap.toNat)
include hcap

theorem lzssDBody_of_error {c : Cause}
    (h : lzssLoop s.latch.ops.arg0.toNat s.srcCells.length [] s.srcCells (Sink.start s) = .error c) :
    lzssDBody s = .error c := by
  rw [lzssDBody, decide_eq_true hcap, h]
  rfl

theorem lzssDBody_of_ok {src : List SrcCell} {k : Sink}
    (h : lzssLoop s.latch.ops.arg0.toNat s.srcCells.length [] s.srcCells (Sink.start s) = .ok (src, k)) :
    lzssDBody s = .ok (codecFinish k (s.srcCells.length - src.length) .none) := by
  rw [lzssDBody, decide_eq_true hcap, h]
  rfl

end

/-! ## Sources without output: empty ones and sentinels alone (R177, R226) -/

theorem srcCells_of_empty {s : State} (h : s.latch.ops.srcLen = 0) : s.srcCells = [] :=
  List.eq_nil_of_length_eq_zero (by rw [srcCells_length, h]; rfl)

theorem room_zero (s : State) : s.room 0 = true := room_iff.mpr ⟨Nat.zero_le _, rfl⟩

theorem cells_sentinels_succ (n : Nat) : (List.replicate (n + 1) [0x7F, 0xFF]).flatten.map some =
    (be16 sentinelCode).map some ++ (List.replicate n ([0x7F, 0xFF] : List Byte)).flatten.map some := by
  rw [List.replicate_succ, List.flatten_cons, List.map_append]
  rfl

theorem lz78Loop_sentinels {n fuel : Nat} (h : n ≤ fuel) (arg0 : Nat) (k : Sink) :
    lz78Loop arg0 fuel ((List.replicate n [0x7F, 0xFF]).flatten.map some) lz78Table k = .ok (lz78Table, k) := by
  induction n generalizing fuel with
  | zero => exact lz78Loop_nil _ _ _ _
  | succ n ih =>
    obtain ⟨fuel, rfl⟩ := Nat.exists_eq_add_of_le' (show 1 ≤ fuel by omega)
    rw [cells_sentinels_succ, lz78Loop_sentinel _ _ _ _ _ rfl]
    exact ih (by omega)

theorem lzwLoop_sentinels {n fuel : Nat} (h : n ≤ fuel) (arg0 : Nat) (k : Sink) :
    lzwLoop arg0 fuel ((List.replicate n [0x7F, 0xFF]).flatten.map some) lzwTable none k = .ok (lzwTable, none, k) := by
  induction n generalizing fuel with
  | zero => exact lzwLoop_nil _ _ _ _ _
  | succ n ih =>
    obtain ⟨fuel, rfl⟩ := Nat.exists_eq_add_of_le' (show 1 ≤ fuel by omega)
    rw [cells_sentinels_succ, lzwLoop_sentinel _ _ _ _ _ _ rfl]
    exact ih (by omega)

section
variable {s : State} {n : Nat} (hsrc : s.source = some (List.replicate n [0x7F, 0xFF]).flatten)
include hsrc

theorem lz78Loop_source_sentinels (arg0 : Nat) (k : Sink) :
    lz78Loop arg0 s.srcCells.length s.srcCells lz78Table k = .ok (lz78Table, k) := by
  rw [source_eq_some.mp hsrc]
  exact lz78Loop_sentinels (by simp; omega) arg0 k

theorem lzwLoop_source_sentinels (arg0 : Nat) (k : Sink) :
    lzwLoop arg0 s.srcCells.length s.srcCells lzwTable none k = .ok (lzwTable, none, k) := by
  rw [source_eq_some.mp hsrc]
  exact lzwLoop_sentinels (by simp; omega) arg0 k

variable (harg : s.latch.ops.arg0 = 0)
include harg

theorem lz78D_sentinels_runsTo (hr : regionsOk .lz78D s.latch.ops = true) :
    s.RunsTo .lz78D (lengthResult 0) s.latch.ops.dstAddr.toNat [] :=
  sizedDecode_runsTo hr (bodyOf_lz78D s) (by simp [harg]) (lz78Loop_source_sentinels hsrc _ _)
    (Sink.extend_nil _).symm (by simp [harg])

theorem lzwD_sentinels_runsTo (hr : regionsOk .lzwD s.latch.ops = true) :
    s.RunsTo .lzwD (lengthResult 0) s.latch.ops.dstAddr.toNat [] :=
  sizedDecode_runsTo hr (bodyOf_lzwD s) (by simp [harg]) (lzwLoop_source_sentinels hsrc _ _)
    (Sink.extend_nil _).symm (by simp [harg])

end

section
variable {s : State} (h : s.latch.ops.srcLen = 0)
include h

theorem source_of_empty : s.source = some (List.replicate 0 [0x7F, 0xFF]).flatten :=
  source_eq_some.mpr (srcCells_of_empty h)

theorem lz78D_empty_sizeMismatch (hr : regionsOk .lz78D s.latch.ops = true)
    (hcap : s.latch.ops.arg0.toNat ≤ s.latch.ops.dstCap.toNat) (harg : s.latch.ops.arg0 ≠ 0) :
    s.FailsWith .lz78D (.codecInternal .sizeMismatch) :=
  sizedDecode_sizeMismatch hr (bodyOf_lz78D s) hcap (lz78Loop_source_sentinels (source_of_empty h) _ _)
    fun h0 => harg (BitVec.eq_of_toNat_eq h0.symm)

theorem lzwD_empty_sizeMismatch (hr : regionsOk .lzwD s.latch.ops = true)
    (hcap : s.latch.ops.arg0.toNat ≤ s.latch.ops.dstCap.toNat) (harg : s.latch.ops.arg0 ≠ 0) :
    s.FailsWith .lzwD (.codecInternal .sizeMismatch) :=
  sizedDecode_sizeMismatch hr (bodyOf_lzwD s) hcap (lzwLoop_source_sentinels (source_of_empty h) _ _)
    fun h0 => harg (BitVec.eq_of_toNat_eq h0.symm)

theorem lzssD_empty_srcUnderrun (hr : regionsOk .lzssD s.latch.ops = true)
    (hcap : s.latch.ops.arg0.toNat ≤ s.latch.ops.dstCap.toNat) :
    s.FailsWith .lzssD (.codecInternal .srcUnderrun) :=
  failsWith_of_cause hr rfl (lzssDBody_of_error hcap (by rw [srcCells_of_empty h]; rfl))

end

/-- LZSS.D on its sentinel alone, which is the stream of the empty byte string (R196, R198). -/
theorem lzssD_sentinel_runsTo {s : State} (hr : regionsOk .lzssD s.latch.ops = true)
    (hsrc : s.source = some [0x80, 0x00, 0x00]) (harg : s.latch.ops.arg0 = 0) :
    s.RunsTo .lzssD (lengthResult 0) s.latch.ops.dstAddr.toNat [] := by
  have harg0 : s.latch.ops.arg0.toNat = 0 := by rw [harg]; rfl
  have hloop := (lzssLoop_encode_answers (s := s) [] (harg0 ▸ room_zero s)).1 harg0.symm
  have hsrc' : s.source = some (lzssEncode []) := hsrc
  rw [show lzssDecoded s [] = (Sink.start s).extend [] from (Sink.extend_nil _).symm] at hloop
  refine runsTo_of_codecFinish (bs := []) hr rfl (lzssDBody_of_ok (src := []) (harg0 ▸ Nat.zero_le _) ?_)
  rw [source_eq_some.mp hsrc', List.length_map]
  exact hloop

/-! ## LZ78.D after literals (R177) -/

theorem length_flatMap_const {f : Byte → List Byte} {n : Nat} (h : ∀ b, (f b).length = n) (bs : List Byte) :
    (bs.flatMap f).length = n * bs.length := by
  induction bs with
  | nil => rfl
  | cons b bs ih => rw [List.flatMap_cons, List.length_append, h, ih, List.length_cons, Nat.mul_succ, Nat.add_comm]

/-- A literal of LZ78 is a record with code 0, the root. -/
theorem cells_lz78Literals_cons (b : Byte) (lits : List Byte) :
    ((b :: lits).flatMap fun b => [0x00, 0x00, b]).map some =
      (be16 0).map some ++ some b :: (lits.flatMap fun b => [0x00, 0x00, b]).map some := rfl

/-- Literals decode to themselves, and each takes a place in the table. -/
theorem lz78Loop_literals {arg0 : Nat} {k : Sink} {lits : List Byte} {table : List (List Byte)}
    (hroot : table.getD 0 [] = []) (hpos : 0 < table.length) (hfull : table.length + lits.length ≤ codeLimit)
    (hk : k.Fits arg0 lits.length) (fuel : Nat) (src : List SrcCell) :
    lz78Loop arg0 (lits.length + fuel) ((lits.flatMap fun b => [0x00, 0x00, b]).map some ++ src) table k =
      lz78Loop arg0 fuel src (table ++ lits.map fun b => [b]) (k.extend lits) := by
  induction lits generalizing table k with
  | nil => simp
  | cons b lits ih =>
    rw [List.length_cons] at hfull
    rw [List.length_cons, Nat.add_comm lits.length 1] at hk
    rw [cells_lz78Literals_cons, List.append_assoc, List.cons_append, List.length_cons, Nat.add_right_comm,
      lz78Loop_record_of_lt hpos (by omega), hroot, List.nil_append,
      emitSized_of_fits (bs := [b]) (hk.mono (Nat.le_add_right 1 _))]
    refine (ih (table := table ++ [[b]]) ?_ ?_ ?_ (Sink.Fits.extend (bs := [b]) hk)).trans ?_
    · rw [getD_append_of_lt hpos, hroot]
    · simp
    · simp only [List.length_append, List.length_singleton]
      omega
    · simp

section
variable {arg0 fuel : Nat} {table : List (List Byte)} {k : Sink}

/-- A code that the table does not hold, or any record with the table full, is BAD_CODE. -/
theorem lz78Loop_badCode {c : Nat} {rest : List Byte} (hc : c < 65536) (hs : c ≠ sentinelCode)
    (h : table.length ≤ c ∨ (table.length = codeLimit ∧ rest ≠ [])) :
    lz78Loop arg0 (fuel + 1) ((be16 c).map some ++ rest.map some) table k = .error .badCode := by
  cases rest with
  | nil =>
    have hout : ¬c < table.length := by
      rcases h with h | ⟨_, h⟩
      · omega
      · exact absurd rfl h
    rw [List.map_nil, List.append_nil, lz78Loop_final _ _ _ _ hc hs, decide_eq_false hout]
    rfl
  | cons b rest =>
    rw [List.map_cons, lz78Loop_record _ _ _ _ _ hc hs]
    by_cases hout : c < table.length
    · have hfull : ¬table.length ≠ codeLimit := fun hne => by
        rcases h with h | ⟨h, _⟩
        · omega
        · exact hne h
      rw [decide_eq_true hout, decide_eq_false hfull]
      rfl
    · rw [decide_eq_false hout]
      rfl

end

section
variable {s : State} {lits : List Byte} (hcap : s.latch.ops.arg0.toNat ≤ s.latch.ops.dstCap.toNat)
  (hsize : lits.length ≤ s.latch.ops.arg0.toNat) (hroom : s.room lits.length = true)
include hcap hsize hroom

/-- LZ78.D's loop on literals and more: with as much fuel as there are bytes, enough is left after the literals. -/
theorem lz78Loop_source_literals {src : List Byte} (hlits : lits.length ≤ 32766)
    (hsrc : s.source = some (lits.flatMap (fun b => [0x00, 0x00, b]) ++ src)) (hne : src ≠ []) :
    ∃ fuel table, table.length = 1 + lits.length ∧
      lz78Loop s.latch.ops.arg0.toNat s.srcCells.length s.srcCells lz78Table (Sink.start s) =
        lz78Loop s.latch.ops.arg0.toNat (fuel + 1) (src.map some) table ((Sink.start s).extend lits) := by
  have hlen := List.length_pos_iff.mpr hne
  have hflat : (lits.flatMap fun b => ([0x00, 0x00, b] : List Byte)).length = 3 * lits.length :=
    length_flatMap_const (f := fun b => [0x00, 0x00, b]) (fun _ => rfl) lits
  refine ⟨2 * lits.length + src.length - 1, lz78Table ++ lits.map fun b => [b], ?_, ?_⟩
  · rw [List.length_append, List.length_map]
    rfl
  · rw [source_eq_some.mp hsrc, List.length_map, List.length_append, hflat, List.map_append,
      show 3 * lits.length + src.length = lits.length + (2 * lits.length + src.length - 1 + 1) by omega]
    refine lz78Loop_literals rfl (by decide) ?_ (Sink.fits_start hsize hcap hroom) _ _
    rw [codeLimit, show lz78Table.length = 1 from rfl]
    omega

theorem lz78D_badCode {c : Nat} {rest : List Byte} (hlits : lits.length ≤ 32766) (hc : c < 2 ^ 16) (hs : c ≠ 0x7FFF)
    (h : lits.length < c ∨ (lits.length = 32766 ∧ rest ≠ []))
    (hreads : s.Reads .lz78D (lits.flatMap (fun b => [0x00, 0x00, b]) ++ be16 c ++ rest)) :
    s.FailsWith .lz78D (.codecInternal .badCode) := by
  obtain ⟨hr, hsrc⟩ := hreads
  rw [List.append_assoc] at hsrc
  obtain ⟨fuel, table, htable, hloop⟩ := lz78Loop_source_literals hcap hsize hroom hlits hsrc (List.cons_ne_nil _ _)
  refine sizedDecode_error hr (bodyOf_lz78D s) hcap (hloop.trans ?_)
  rw [List.map_append]
  refine lz78Loop_badCode hc hs (h.imp (fun h => ?_) fun ⟨hfull, hrest⟩ => ⟨?_, hrest⟩)
  · omega
  · rw [codeLimit]
    omega

theorem lz78D_oddByte {x : Byte} (hlits : lits.length ≤ 32766)
    (hreads : s.Reads .lz78D (lits.flatMap (fun b => [0x00, 0x00, b]) ++ [x])) :
    s.FailsWith .lz78D (.codecInternal .srcUnderrun) := by
  obtain ⟨hr, hsrc⟩ := hreads
  obtain ⟨fuel, table, _, hloop⟩ := lz78Loop_source_literals hcap hsize hroom hlits hsrc (List.cons_ne_nil x [])
  exact sizedDecode_error hr (bodyOf_lz78D s) hcap hloop

end

/-! ## LZW.D after literals (R226) -/

/-- The decoder after `n` literals: the table still starts with the base set, and each literal but the first has
added a string. -/
def LzwAfter (n : Nat) (table : List (List Byte)) : Option (List Byte) → Prop
  | none => n = 0 ∧ table = lzwTable
  | some _ => lzwTable <+: table ∧ table.length + 1 = 256 + n

theorem getD_of_lzwTable_prefix {table : List (List Byte)} (h : lzwTable <+: table) (b : Byte) :
    table.getD b.toNat [] = [b] := by
  obtain ⟨rest, rfl⟩ := h
  rw [getD_append_of_lt (lzwTable_length ▸ b.isLt), lzwTable_getD b.isLt, BitVec.ofNat_toNat,
    BitVec.setWidth_eq]

theorem lzwDecodeCode_literal {n : Nat} {table : List (List Byte)} {prev : Option (List Byte)}
    (h : LzwAfter n table prev) (hn : n < 32512) (b : Byte) :
    ∃ table', lzwDecodeCode table prev b.toNat = .ok ([b], table') ∧ LzwAfter (n + 1) table' (some [b]) := by
  have hb := b.isLt
  cases prev with
  | none =>
    obtain ⟨rfl, rfl⟩ := h
    refine ⟨lzwTable, ?_, List.prefix_refl _, by rw [lzwTable_length]⟩
    rw [lzwDecodeCode, getD_of_lzwTable_prefix (List.prefix_refl _),
      decide_eq_true (show b.toNat < lzwFirstCode from hb)]
    rfl
  | some p =>
    obtain ⟨hpre, hlen⟩ := h
    have h256 := lzwTable_length ▸ hpre.length_le
    refine ⟨table ++ [p ++ [b]], ?_, hpre.trans (List.prefix_append _ _), by simp; omega⟩
    rw [lzwDecodeCode, getD_of_lzwTable_prefix hpre, decide_eq_true (show b.toNat ≤ table.length by omega),
      decide_eq_true (show table.length ≠ codeLimit by rw [codeLimit]; omega)]
    simp only [if_pos (show b.toNat < table.length by omega)]
    rfl

/-- A code above what the table admits, or any code with the table full, is BAD_CODE. -/
theorem lzwDecodeCode_badCode {n c : Nat} {table : List (List Byte)} {prev : Option (List Byte)}
    (h : LzwAfter n table prev) (hc : 256 + n ≤ c ∨ n = 32512) : lzwDecodeCode table prev c = .error .badCode := by
  cases prev with
  | none =>
    obtain ⟨rfl, rfl⟩ := h
    rw [lzwDecodeCode, decide_eq_false (show ¬c < lzwFirstCode by rw [lzwFirstCode]; omega)]
    rfl
  | some p =>
    obtain ⟨_, hlen⟩ := h
    rw [lzwDecodeCode]
    by_cases hout : c ≤ table.length
    · rw [decide_eq_true hout, decide_eq_false (show ¬table.length ≠ codeLimit by rw [codeLimit]; omega)]
      rfl
    · rw [decide_eq_false hout]
      rfl

/-- A literal of LZW is the byte's own code. -/
theorem cells_lzwLiterals_cons (b : Byte) (lits : List Byte) :
    ((b :: lits).flatMap fun b => [0x00, b]).map some =
      (be16 b.toNat).map some ++ (lits.flatMap fun b => [0x00, b]).map some := by
  have hb : be16 b.toNat = [0x00, b] := by
    rw [be16, Nat.div_eq_of_lt b.isLt, BitVec.ofNat_toNat, BitVec.setWidth_eq]
    rfl
  rw [List.flatMap_cons, List.map_append, hb]

/-- Literals decode to themselves, and each but the first takes a place in the table. -/
theorem lzwLoop_literals {arg0 n : Nat} {k : Sink} {lits : List Byte} {table : List (List Byte)}
    {prev : Option (List Byte)} (h : LzwAfter n table prev) (hn : n + lits.length ≤ 32512)
    (hk : k.Fits arg0 lits.length) (fuel : Nat) (src : List SrcCell) :
    ∃ table' prev', LzwAfter (n + lits.length) table' prev' ∧
      lzwLoop arg0 (lits.length + fuel) ((lits.flatMap fun b => [0x00, b]).map some ++ src) table prev k =
        lzwLoop arg0 fuel src table' prev' (k.extend lits) := by
  induction lits generalizing n table prev k with
  | nil => exact ⟨table, prev, h, by simp⟩
  | cons b lits ih =>
    have hb := b.isLt
    rw [List.length_cons] at hn
    rw [List.length_cons, Nat.add_comm lits.length 1] at hk
    obtain ⟨table₁, hdecode, h₁⟩ := lzwDecodeCode_literal h (by omega) b
    obtain ⟨table', prev', h', hloop⟩ := ih h₁ (by omega) (Sink.Fits.extend (bs := [b]) hk)
    refine ⟨table', prev', by rwa [List.length_cons, Nat.add_comm lits.length 1, ← Nat.add_assoc], ?_⟩
    rw [cells_lzwLiterals_cons, List.append_assoc, List.length_cons, Nat.add_right_comm,
      lzwLoop_code _ _ _ _ _ _ (by omega) (by rw [sentinelCode]; omega), hdecode]
    show (emitSized arg0 k [b] >>= _) = _
    rw [emitSized_of_fits (bs := [b]) (hk.mono (Nat.le_add_right 1 _))]
    exact hloop.trans (by rw [Sink.extend_extend, List.singleton_append])

section
variable {s : State} {lits : List Byte} (hcap : s.latch.ops.arg0.toNat ≤ s.latch.ops.dstCap.toNat)
  (hsize : lits.length ≤ s.latch.ops.arg0.toNat) (hroom : s.room lits.length = true)
include hcap hsize hroom

/-- LZW.D's loop on literals and more: with as much fuel as there are bytes, enough is left after the literals. -/
theorem lzwLoop_source_literals {src : List Byte} (hlits : lits.length ≤ 32512)
    (hsrc : s.source = some (lits.flatMap (fun b => [0x00, b]) ++ src)) (hne : src ≠ []) :
    ∃ fuel table prev, LzwAfter lits.length table prev ∧
      lzwLoop s.latch.ops.arg0.toNat s.srcCells.length s.srcCells lzwTable none (Sink.start s) =
        lzwLoop s.latch.ops.arg0.toNat (fuel + 1) (src.map some) table prev ((Sink.start s).extend lits) := by
  have hlen := List.length_pos_iff.mpr hne
  have hflat : (lits.flatMap fun b => ([0x00, b] : List Byte)).length = 2 * lits.length :=
    length_flatMap_const (f := fun b => [0x00, b]) (fun _ => rfl) lits
  rw [source_eq_some.mp hsrc, List.length_map, List.length_append, hflat, List.map_append,
    show 2 * lits.length + src.length = lits.length + (lits.length + src.length - 1 + 1) by omega]
  obtain ⟨table, prev, h, hloop⟩ := lzwLoop_literals (n := 0) (table := lzwTable) (prev := none) ⟨rfl, rfl⟩
    (by omega) (Sink.fits_start hsize hcap hroom) (lits.length + src.length - 1 + 1) (src.map some)
  exact ⟨_, table, prev, Nat.zero_add lits.length ▸ h, hloop⟩

theorem lzwD_badCode {c : Nat} {rest : List Byte} (hlits : lits.length ≤ 32512) (hc : c < 2 ^ 16) (hs : c ≠ 0x7FFF)
    (h : 256 + lits.length ≤ c ∨ lits.length = 32512)
    (hreads : s.Reads .lzwD (lits.flatMap (fun b => [0x00, b]) ++ be16 c ++ rest)) :
    s.FailsWith .lzwD (.codecInternal .badCode) := by
  obtain ⟨hr, hsrc⟩ := hreads
  rw [List.append_assoc] at hsrc
  obtain ⟨fuel, table, prev, hafter, hloop⟩ :=
    lzwLoop_source_literals hcap hsize hroom hlits hsrc (List.cons_ne_nil _ _)
  refine sizedDecode_error hr (bodyOf_lzwD s) hcap (hloop.trans ?_)
  rw [List.map_append, lzwLoop_code _ _ _ _ _ _ hc hs, lzwDecodeCode_badCode hafter h]
  rfl

theorem lzwD_oddByte {x : Byte} (hlits : lits.length ≤ 32512)
    (hreads : s.Reads .lzwD (lits.flatMap (fun b => [0x00, b]) ++ [x])) :
    s.FailsWith .lzwD (.codecInternal .srcUnderrun) := by
  obtain ⟨hr, hsrc⟩ := hreads
  obtain ⟨fuel, table, prev, _, hloop⟩ :=
    lzwLoop_source_literals hcap hsize hroom hlits hsrc (List.cons_ne_nil x [])
  exact sizedDecode_error hr (bodyOf_lzwD s) hcap hloop

end

/-! ## LZSS.D after literals, and on a part of a stream (R198) -/

theorem lzssLoop_literals {arg0 : Nat} {k : Sink} {lits : List Byte} (hk : k.Fits arg0 lits.length) (fuel : Nat)
    (flags : List Bool) (src : List SrcCell) :
    lzssLoop arg0 (lits.length + fuel) (List.replicate lits.length false ++ flags) (lits.map some ++ src) k =
      lzssLoop arg0 fuel flags src (k.extend lits) := by
  induction lits generalizing k with
  | nil => simp
  | cons b lits ih =>
    rw [List.length_cons, Nat.add_comm lits.length 1] at hk
    have hb : k.Fits arg0 (Token.lit b).width := hk.mono (Nat.le_add_right 1 _)
    rw [List.length_cons, Nat.add_right_comm, List.replicate_succ, List.map_cons, List.cons_append, List.cons_append]
    refine (lzssLoop_token (t := .lit b) trivial _ _ _ hb).trans ((ih (Sink.Fits.extend (bs := [b]) hk)).trans ?_)
    rw [Sink.extend_extend, List.singleton_append]

/-- The flags of a control byte whose first 1 is at place `n`. -/
theorem controlFlags_of_first {x : Byte} {n : Nat} (hn : n < 8) (hlow : ∀ k, k < n → x.getLsbD (7 - k) = false)
    (hbit : x.getLsbD (7 - n) = true) : List.replicate n false ++ [true] <+: controlFlags x := by
  rw [controlFlags_eq_map, List.prefix_iff_getElem?]
  intro i hi
  rw [List.length_append, List.length_replicate, List.length_singleton] at hi
  rw [List.getElem?_map, List.getElem?_range (by omega), Option.map_some]
  by_cases hlt : i < n
  · rw [hlow i hlt, List.getElem_append_left (by rwa [List.length_replicate]), List.getElem_replicate]
  · obtain rfl : i = n := by omega
    rw [hbit, List.getElem_append_right (Nat.le_of_eq List.length_replicate)]
    simp

theorem lzssD_badOffset {s : State} {lits rest : List Byte} {c : Nat} {x : Byte}
    (hcap : s.latch.ops.arg0.toNat ≤ s.latch.ops.dstCap.toNat) (hsize : lits.length ≤ s.latch.ops.arg0.toNat)
    (hroom : s.room lits.length = true) (hn : lits.length < 8)
    (hlow : ∀ k, k < lits.length → x.getLsbD (7 - k) = false) (hbit : x.getLsbD (7 - lits.length) = true)
    (hc : c < 2 ^ 16) (hoff : lits.length < c / 16) (hreads : s.Reads .lzssD ([x] ++ lits ++ be16 c ++ rest)) :
    s.FailsWith .lzssD (.codecInternal .badOffset) := by
  obtain ⟨hr, hsrc⟩ := hreads
  obtain ⟨flags, hflags⟩ := controlFlags_of_first hn hlow hbit
  refine failsWith_of_cause hr rfl (lzssDBody_of_error hcap ?_)
  have hfuel : ([x] ++ lits ++ be16 c ++ rest).length = lits.length + (rest.length + 1 + 1) + 1 := by
    simp [be16]
  rw [source_eq_some.mp hsrc, List.length_map, hfuel, List.append_assoc, List.append_assoc, List.singleton_append,
    List.map_cons, lzssLoop_control, ← hflags, List.append_assoc, List.map_append,
    lzssLoop_literals (Sink.fits_start hsize hcap hroom), List.map_append, List.singleton_append,
    lzssLoop_copy _ _ _ _ _ hc (by omega),
    decide_eq_false (show ¬c / 16 ≤ ((Sink.start s).extend lits).outlen by simp; omega)]
  rfl

/-- LZSS.D on a stream that is cut short lacks the rest: on the whole stream it would read every byte. -/
theorem lzssD_truncated {s : State} {bs : List Byte} {k : Nat} (hlen : s.latch.ops.arg0.toNat = bs.length)
    (hroom : s.room bs.length = true) (hk : k < (lzssEncode bs).length)
    (hreads : s.Reads .lzssD ((lzssEncode bs).take k)) : s.FailsWith .lzssD (.codecInternal .srcUnderrun) := by
  obtain ⟨hr, hsrc⟩ := hreads
  have hwhole := (lzssLoop_encode_answers bs (hlen ▸ hroom)).1 hlen.symm
  have hsplit : (lzssEncode bs).map some = ((lzssEncode bs).take k).map some ++ ((lzssEncode bs).drop k).map some := by
    rw [← List.map_append, List.take_append_drop]
  refine failsWith_of_cause hr rfl (lzssDBody_of_error (hlen ▸ (room_iff.mp hroom).1) ?_)
  rw [source_eq_some.mp hsrc]
  refine lzssLoop_truncated (hsplit ▸ hwhole) ?_
  rw [List.length_map, List.length_drop, List.length_nil]
  omega

/-! ## A stream under another originalSize (R177, R198, R226) -/

section
variable {s : State} {bs : List Byte} (hlen : s.latch.ops.arg0.toNat ≠ bs.length)
  (hroom : s.room s.latch.ops.arg0.toNat = true)
include hlen hroom

theorem lz78D_otherSize (hreads : s.Reads .lz78D (lz78Encode bs)) :
    s.FailsWith .lz78D (.codecInternal .sizeMismatch) :=
  sizedDecode_sizeMismatch_of_writes hreads.1 (bodyOf_lz78D s) (room_iff.mp hroom).1 hlen
    (lz78Loop_encode_writes hreads.2 hroom)

theorem lzwD_otherSize (hreads : s.Reads .lzwD (lzwEncode bs)) : s.FailsWith .lzwD (.codecInternal .sizeMismatch) :=
  sizedDecode_sizeMismatch_of_writes hreads.1 (bodyOf_lzwD s) (room_iff.mp hroom).1 hlen
    (lzwLoop_encode_writes hreads.2 hroom)

theorem lzssD_otherSize (hreads : s.Reads .lzssD (lzssEncode bs)) :
    s.FailsWith .lzssD (.codecInternal .sizeMismatch) := by
  obtain ⟨hr, hsrc⟩ := hreads
  refine failsWith_of_cause hr rfl (lzssDBody_of_error (room_iff.mp hroom).1 ?_)
  rw [source_eq_some.mp hsrc, List.length_map]
  exact (lzssLoop_encode_answers bs hroom).2 hlen.symm

end

/-- Settles O38: each clause is the loop's answer on the source that it describes, in the command's frame. -/
theorem decompressorEdgeCases : Obligations.DecompressorEdgeCases := by
  refine ⟨fun s => ⟨fun hover => ⟨fun hr => ?_, fun hr => ?_, fun hr => ?_⟩,
      fun hcap hempty => ⟨?_, ?_, ?_, ?_, ?_⟩, lzssD_sentinel_runsTo⟩,
    fun s lits rest c x hcap hsize hroom => ⟨fun hlits => ⟨?_, ?_⟩, fun hlits => ⟨?_, ?_⟩, ?_⟩,
    fun s bs hlen hroom => ⟨lz78D_otherSize hlen hroom, lzssD_otherSize hlen hroom, lzwD_otherSize hlen hroom⟩,
    fun s bs k hlen hroom => lzssD_truncated hlen hroom,
    fun s n harg => ⟨fun h => lz78D_sentinels_runsTo h.2 harg h.1, fun h => lzwD_sentinels_runsTo h.2 harg h.1⟩⟩
  · exact sizedDecode_dstOverflow hr (bodyOf_lz78D s) hover
  · exact failsWith_of_cause hr rfl (lzssDBody_of_overflow hover)
  · exact sizedDecode_dstOverflow hr (bodyOf_lzwD s) hover
  · exact fun hr harg => lz78D_sentinels_runsTo (source_of_empty hempty) harg hr
  · exact fun hr harg => lzwD_sentinels_runsTo (source_of_empty hempty) harg hr
  · exact fun hr => lz78D_empty_sizeMismatch hempty hr hcap
  · exact fun hr => lzwD_empty_sizeMismatch hempty hr hcap
  · exact fun hr => lzssD_empty_srcUnderrun hempty hr hcap
  · exact lz78D_badCode hcap hsize hroom hlits
  · exact lz78D_oddByte hcap hsize hroom hlits
  · exact lzwD_badCode hcap hsize hroom hlits
  · exact lzwD_oddByte hcap hsize hroom hlits
  · exact lzssD_badOffset hcap hsize hroom

end Sys2Proof.Machine

namespace Sys2Proof.Machine

/-! ## LZSS.C writes its stream (R196) -/

theorem lzssCBody_of_source {s : State} {bs : List Byte} (hsrc : s.source = some bs) :
    lzssCBody s = Sink.putChunks (lzssOutput bs) (Sink.start s) >>= fun k =>
      .ok (codecFinish k s.latch.ops.srcLen.toNat (lzssLast bs)) := by
  rw [lzssCBody, readAll_of_source _ hsrc]
  rfl

/-- Settles O33: over a readable source the appends are those of the stream, and they have room. -/
theorem lzssCompressCompletes : Obligations.LzssCompressCompletes := by
  intro s bs hr hsrc hroom
  refine runsTo_of_codecFinish (x := lzssCBody s) (n := s.latch.ops.srcLen.toNat) (u := lzssLast bs) hr rfl ?_
  rw [lzssCBody_of_source hsrc, putChunks_start hroom]
  rfl

/-! ## The length of a match (R192) -/

/-- The `n` bytes from position `p` on are those from `off` bytes further back on, which may run past `p`. -/
def AgreesAt (input : List Byte) (p off n : Nat) : Prop := ∀ k, k < n → input[p - off + k]? = input[p + k]?

theorem le_matchLen_iff {n mx : Nat} {xs ys : List Byte} :
    n ≤ matchLen mx xs ys ↔ n ≤ mx ∧ n ≤ ys.length ∧ ∀ k, k < n → xs[k]? = ys[k]? := by
  cases n with
  | zero => simp
  | succ n =>
    fun_induction matchLen mx xs ys generalizing n with
    | case1 mx x xs ys ih =>
      cases n with
      | zero => simp
      | succ n =>
        rw [Nat.succ_le_succ_iff, ih, Nat.succ_le_succ_iff, List.length_cons, Nat.succ_le_succ_iff]
        refine and_congr_right fun _ => and_congr_right fun _ => ⟨fun h k hk => ?_, fun h k hk => ?_⟩
        · cases k with
          | zero => rfl
          | succ k => exact h k (Nat.lt_of_succ_lt_succ hk)
        · exact h (k + 1) (Nat.succ_lt_succ hk)
    | case2 mx x xs y ys hne =>
      refine ⟨fun h => absurd h (Nat.not_succ_le_zero n), fun ⟨_, _, h⟩ => absurd (h 0 (Nat.succ_pos n)) ?_⟩
      simpa using hne
    | case3 mx xs ys hshort =>
      refine ⟨fun h => absurd h (Nat.not_succ_le_zero n), fun ⟨hmx, hlen, h⟩ => ?_⟩
      match mx, xs, ys with
      | 0, _, _ => exact absurd hmx (Nat.not_succ_le_zero n)
      | _, _, [] => exact absurd hlen (Nat.not_succ_le_zero n)
      | _, [], y :: ys => cases h 0 (Nat.succ_pos n)
      | mx + 1, x :: xs, y :: ys => exact absurd rfl (hshort mx x xs y ys rfl rfl)

/-- The length of the match of position `p` with the candidate `off` bytes back. -/
def matchAt (input : List Byte) (p off : Nat) : Nat := matchLen lzssMax (input.drop (p - off)) (input.drop p)

theorem le_matchAt_iff {input : List Byte} {p off n : Nat} :
    n ≤ matchAt input p off ↔ n ≤ lzssMax ∧ n ≤ input.length - p ∧ AgreesAt input p off n := by
  simp only [matchAt, le_matchLen_iff, List.length_drop, List.getElem?_drop, AgreesAt]

/-- The first-byte filter of the candidate queues (R192) drops only candidates that agree in no byte. -/
theorem matchLen_of_head?_ne (mx : Nat) {xs ys : List Byte} (h : xs.head? ≠ ys.head?) : matchLen mx xs ys = 0 := by
  refine Nat.eq_zero_of_not_pos fun hpos => h ?_
  obtain ⟨_, _, hagree⟩ := le_matchLen_iff.mp hpos
  simpa [List.head?_eq_getElem?] using hagree 0 Nat.one_pos

/-! ## The candidate scan keeps the longest, and the oldest among equals (R192) -/

/-- Of the candidates that lie more than `lo` and at most `hi` bytes back, with these match lengths, `m` is the
longest, and the furthest back among the longest. -/
structure IsBestMatch (len : Nat → Nat) (lo hi : Nat) (m : Nat × Nat) : Prop where
  found : m.2 ≠ 0 → lo < m.1 ∧ len m.1 = m.2
  longest : ∀ off, lo < off → off ≤ hi → len off ≤ m.2
  oldest : ∀ off, lo < off → off ≤ hi → len off = m.2 → m.2 ≠ 0 → off ≤ m.1

/-- Nearer candidates come later, so the next one replaces the best only where it is strictly longer. -/
theorem IsBestMatch.step {len : Nat → Nat} {lo hi : Nat} {m : Nat × Nat} (h : IsBestMatch len (lo + 1) hi m) :
    IsBestMatch len lo hi (if m.2 < len (lo + 1) then (lo + 1, len (lo + 1)) else m) := by
  obtain ⟨hfound, hlongest, holdest⟩ := h
  split
  · next hlt =>
    refine ⟨fun _ => ⟨Nat.lt_succ_self lo, rfl⟩, fun off hlo hhi => ?_, fun off hlo hhi heq _ => ?_⟩
    · rcases Nat.eq_or_lt_of_le (Nat.succ_le_of_lt hlo) with rfl | hlo
      · exact Nat.le_refl _
      · exact Nat.le_trans (hlongest off hlo hhi) (Nat.le_of_lt hlt)
    · refine Nat.le_of_not_lt fun hgt => ?_
      have := hlongest off hgt hhi
      dsimp only at heq
      omega
  · next hle =>
    refine ⟨fun hne => (hfound hne).imp_left Nat.lt_of_succ_lt, fun off hlo hhi => ?_, fun off hlo hhi heq hne => ?_⟩
    · rcases Nat.eq_or_lt_of_le (Nat.succ_le_of_lt hlo) with rfl | hlo
      · exact Nat.le_of_not_lt hle
      · exact hlongest off hlo hhi
    · rcases Nat.eq_or_lt_of_le (Nat.succ_le_of_lt hlo) with rfl | hlo
      · exact Nat.le_of_lt (hfound hne).1
      · exact holdest off hlo hhi heq hne

theorem bestMatch_succ {input : List Byte} {p n : Nat} (hn : n + 1 ≤ p) (best : Nat × Nat) :
    bestMatch (input.drop p) (n + 1) (input.drop (p - (n + 1))) (n + 1) best =
      bestMatch (input.drop p) n (input.drop (p - n)) n
        (if best.2 < matchAt input p (n + 1) then (n + 1, matchAt input p (n + 1)) else best) := by
  rw [bestMatch, List.tail_drop, show p - (n + 1) + 1 = p - n by omega, Nat.add_sub_cancel, matchAt]
  split
  · rfl
  · next hne => rw [matchLen_of_head?_ne _ hne]

theorem bestMatch_isBestMatch {input : List Byte} {p n hi : Nat} {best : Nat × Nat} (hn : n ≤ p)
    (h : IsBestMatch (matchAt input p) n hi best) :
    IsBestMatch (matchAt input p) 0 hi (bestMatch (input.drop p) n (input.drop (p - n)) n best) := by
  induction n generalizing best with
  | zero => exact h
  | succ n ih =>
    rw [bestMatch_succ hn]
    exact ih (Nat.le_of_succ_le hn) h.step

theorem lzssSearch_isBestMatch (input : List Byte) (p : Nat) :
    IsBestMatch (matchAt input p) 0 (min p lzssWindow) (lzssSearch input p) :=
  bestMatch_isBestMatch (Nat.min_le_left _ _)
    ⟨fun h => absurd rfl h, fun _ hlo hhi => absurd hlo (Nat.not_lt_of_le hhi), fun _ _ _ _ h => absurd rfl h⟩

/-! ## The token at a position (R193, R200) -/

section
variable {input : List Byte} {p : Nat}

theorem lzssToken_eq_copy {off len : Nat} (h : lzssToken input p = .copy off len) :
    3 ≤ p ∧ 3 ≤ len ∧ lzssSearch input p = (off, len) := by
  by_cases h3 : 3 ≤ p
  · rw [lzssToken_of_three_le h3] at h
    split at h
    · next hlen =>
      cases h
      exact ⟨h3, hlen, rfl⟩
    · cases h
  · rw [lzssToken_of_lt_three (by omega)] at h
    cases h

theorem lzssToken_eq_lit {b : Byte} (h : lzssToken input p = .lit b) :
    b = input.getD p 0 ∧ (3 ≤ p → (lzssSearch input p).2 < 3) := by
  have hb : (input.drop p).headD 0 = input.getD p 0 := by
    rw [List.headD_eq_head?_getD, List.head?_drop, List.getD_eq_getElem?_getD]
  by_cases h3 : 3 ≤ p
  · rw [lzssToken_of_three_le h3] at h
    split at h
    · cases h
    · next hlen =>
      cases h
      exact ⟨hb, fun _ => Nat.lt_of_not_le hlen⟩
  · rw [lzssToken_of_lt_three (by omega)] at h
    cases h
    exact ⟨hb, fun hp => absurd hp h3⟩

/-- A match's bytes are those at its offset. -/
theorem agreesAt_of_copy {off len : Nat} (h : lzssToken input p = .copy off len) : AgreesAt input p off len := by
  obtain ⟨_, hlen, hsearch⟩ := lzssToken_eq_copy h
  have hfound := (lzssSearch_isBestMatch input p).found
  rw [hsearch] at hfound
  obtain ⟨_, _, hagree⟩ := le_matchAt_iff.mp (Nat.le_of_eq (hfound (Nat.ne_of_gt (by omega))).2.symm)
  exact hagree

theorem copy_longest_oldest {off len : Nat} (h : lzssToken input p = .copy off len) {off' len' : Nat}
    (h1 : 1 ≤ off') (hw : off' ≤ min p lzssWindow) (hmax : len' ≤ lzssMax) (hin : p + len' ≤ input.length)
    (hagree : AgreesAt input p off' len') : len' < len ∨ (len' = len ∧ off' ≤ off) := by
  obtain ⟨_, hlen, hsearch⟩ := lzssToken_eq_copy h
  obtain ⟨_, hlongest, holdest⟩ := hsearch ▸ lzssSearch_isBestMatch input p
  have hle : len' ≤ matchAt input p off' := le_matchAt_iff.mpr ⟨hmax, by omega, hagree⟩
  have hbest : matchAt input p off' ≤ len := hlongest off' h1 hw
  rcases Nat.lt_or_eq_of_le (Nat.le_trans hle hbest) with hlt | rfl
  · exact .inl hlt
  · exact .inr ⟨rfl, holdest off' h1 hw (Nat.le_antisymm hbest hle) (Nat.ne_of_gt (by omega))⟩

theorem not_agreesAt_of_lit {b : Byte} (h : lzssToken input p = .lit b) (h3 : 3 ≤ p) {off : Nat} (h1 : 1 ≤ off)
    (hw : off ≤ min p lzssWindow) (hin : p + 3 ≤ input.length) : ¬AgreesAt input p off 3 := fun hagree => by
  have hlong : 3 ≤ matchAt input p off := le_matchAt_iff.mpr ⟨by decide, by omega, hagree⟩
  have hbest := (lzssSearch_isBestMatch input p).longest off h1 hw
  have hshort := (lzssToken_eq_lit h).2 h3
  omega

theorem lzssToken_ne_sentinel (hp : p < input.length) : lzssToken input p ≠ .sentinel := fun h => by
  have hvalid := (lzssToken_validAt hp).1
  rw [h] at hvalid
  exact hvalid

end

/-- Settles O37: the candidate scan answers the best match of the window, and the token is a match from 3 bytes on. -/
theorem lzssTakesTheLongestOldestMatch : Obligations.LzssTakesTheLongestOldestMatch := by
  intro input p hp
  refine ⟨fun hlt => ?_, fun off len h => ?_, fun b h => ⟨(lzssToken_eq_lit h).1, fun h3 off' h1 hw hin => ?_⟩,
    lzssToken_ne_sentinel hp⟩
  · have htok := lzssToken_of_lt_three (input := input) hlt
    rw [htok, (lzssToken_eq_lit htok).1]
  · obtain ⟨h3, hlen, _⟩ := lzssToken_eq_copy h
    obtain ⟨hvalid, hin⟩ := lzssToken_validAt hp
    rw [h] at hvalid hin
    obtain ⟨h1, hoff, hwindow, _, hmax⟩ := hvalid
    refine ⟨h3, hlen, hmax, h1, Nat.le_min.mpr ⟨hoff, hwindow⟩, hin, agreesAt_of_copy h, ?_⟩
    intro off' h1' hw' len' hmax' hin' hagree
    exact (copy_longest_oldest h h1' hw' hmax' hin' hagree).imp_right .inl
  · simpa [AgreesAt] using not_agreesAt_of_lit h h3 h1 hw hin

/-! ## LZSS.D writes the input back (R198, R199) -/

/-- Copying from `off` bytes back continues the output with the input's bytes, as far as they agree with those `off`
bytes back. -/
theorem copyBytes_take {input : List Byte} {p off n : Nat} (h1 : 1 ≤ off) (hoff : off ≤ p)
    (hin : p + n ≤ input.length) (h : AgreesAt input p off n) :
    Sink.copyBytes off n (input.take p) = (input.drop p).take n := by
  induction n generalizing p with
  | zero => rfl
  | succ n ih =>
    have hp : p < input.length := by omega
    have hbyte : (input.take p).getD ((input.take p).length - off) 0 = input[p] := by
      have hfirst : input[p - off]? = input[p]? := h 0 (Nat.succ_pos n)
      rw [List.length_take_of_le (by omega), List.getD_eq_getElem?_getD, List.getElem?_take_of_lt (by omega), hfirst,
        List.getElem?_eq_getElem hp]
      rfl
    have hrest : AgreesAt input (p + 1) off n := fun k hk => by
      have := h (k + 1) (Nat.succ_lt_succ hk)
      rwa [show p - off + (k + 1) = p + 1 - off + k by omega, show p + (k + 1) = p + 1 + k by omega] at this
    rw [Sink.copyBytes, hbyte, List.take_append_getElem hp, ih (by omega) (by omega) hrest,
      List.drop_eq_getElem_cons hp, List.take_succ_cons]

/-- On ordinary memory, `p` bytes of the input have been written. -/
structure Sink.Written (k : Sink) (input : List Byte) (p : Nat) : Prop where
  bytes : k.bytes = input.take p
  outlen : k.outlen = p
  ordinary : ∀ q, q < input.length → k.plat.isDevice (k.base + q) = false

theorem Sink.written_start {s : State} {input : List Byte} (hroom : s.room input.length = true)
    (hord : s.dstOrdinary = true) : (Sink.start s).Written input 0 :=
  ⟨rfl, rfl, fun _ hq => isDevice_of_dstOrdinary hord (Nat.lt_of_lt_of_le hq (room_iff.mp hroom).1)⟩

theorem emitTokens_sentinel {k : Sink} {input : List Byte} {p : Nat} (hp : input.length ≤ p) :
    emitTokens [.sentinel] k = k.extend (input.drop p) := by
  rw [List.drop_eq_nil_of_le hp, Sink.extend_nil]
  rfl

section
variable {k : Sink} {input : List Byte} {p : Nat} (hk : k.Written input p)
include hk

theorem Sink.Written.extend {n : Nat} (hin : p + n ≤ input.length) :
    (k.extend ((input.drop p).take n)).Written input (p + n) := by
  obtain ⟨hbytes, houtlen, hord⟩ := hk
  refine ⟨?_, ?_, hord⟩
  · rw [Sink.extend_bytes, hbytes, List.take_add]
  · rw [Sink.extend_outlen, houtlen, List.length_take_of_le (by rw [List.length_drop]; omega)]

/-- The token at position `p` stands for the input's bytes from there on. -/
theorem emit_lzssToken (hp : p < input.length) :
    (lzssToken input p).emit k = k.extend ((input.drop p).take (lzssToken input p).width) := by
  obtain ⟨hvalid, hin⟩ := lzssToken_validAt hp
  cases h : lzssToken input p with
  | lit b =>
    rw [Token.emit, Token.width, (lzssToken_eq_lit h).1, List.drop_eq_getElem_cons hp, List.take_succ_cons,
      List.take_zero, List.getD_eq_getElem?_getD, List.getElem?_eq_getElem hp, Option.getD_some]
  | copy off len =>
    rw [h] at hvalid hin
    obtain ⟨h1, hoff, _⟩ := hvalid
    obtain ⟨hbytes, houtlen, hord⟩ := hk
    rw [Token.width] at hin
    have hrev : k.rev.length = k.outlen := by
      rw [← List.length_reverse, ← Sink.bytes, hbytes, List.length_take_of_le (by omega), houtlen]
    rw [Token.emit, Token.width, Sink.copied_eq_copyBytes hrev h1 (by omega) fun q hq => hord q (by omega), hbytes,
      copyBytes_take h1 hoff hin (agreesAt_of_copy h)]
  | sentinel => exact absurd h (lzssToken_ne_sentinel hp)

theorem emitTokens_lzssTokens {fuel : Nat} (hp : p ≤ input.length) (hfuel : input.length ≤ p + fuel) :
    emitTokens (lzssTokens input fuel p) k = k.extend (input.drop p) := by
  induction fuel generalizing p k with
  | zero => exact emitTokens_sentinel hfuel
  | succ fuel ih =>
    rw [lzssTokens]
    split
    · next hlt =>
      obtain ⟨hvalid, hin⟩ := lzssToken_validAt hlt
      have hpos := hvalid.width_pos
      have htail := ih (hk.extend hin) hin (by omega)
      rw [emitTokens, List.foldl_cons, emit_lzssToken hk hlt, ← emitTokens, htail, Sink.extend_extend,
        ← List.drop_drop, List.take_append_drop]
    · next hge => exact emitTokens_sentinel (Nat.le_of_not_lt hge)

end

/-- On an ordinary destination the tokens of a byte string write the byte string. -/
theorem lzssDecoded_eq {s : State} {bs : List Byte} (hroom : s.room bs.length = true) (hord : s.dstOrdinary = true) :
    lzssDecoded s bs = (Sink.start s).extend bs :=
  emitTokens_lzssTokens (Sink.written_start hroom hord) (Nat.zero_le _) (Nat.le_add_left _ _)

/-- LZSS.D completes on the stream of a byte string and writes what its tokens leave in the output (R198). -/
theorem lzssD_encode_runsTo {s : State} {bs out : List Byte} (hr : regionsOk .lzssD s.latch.ops = true)
    (hsrc : s.source = some (lzssEncode bs)) (hlen : s.latch.ops.arg0.toNat = bs.length)
    (hroom : s.room bs.length = true) (hout : lzssDecoded s bs = (Sink.start s).extend out) :
    s.RunsTo .lzssD (lengthResult out.length) s.latch.ops.dstAddr.toNat out := by
  have hloop := (lzssLoop_encode_answers bs (hlen ▸ hroom)).1 hlen.symm
  rw [hout] at hloop
  refine runsTo_of_codecFinish hr rfl (lzssDBody_of_ok (src := []) (hlen ▸ (room_iff.mp hroom).1) ?_)
  rw [source_eq_some.mp hsrc, List.length_map]
  exact hloop

/-- LZSS.C without error leaves the stream of its source at the destination. -/
theorem readRegion_lzssC {s t : State} {input : List Byte} (hsrc : s.source = some input)
    (h : exec .lzssC s = .next t) (herr : t.status.err = false) :
    t.mem.readRegion ⟨s.latch.ops.dstAddr.toNat, t.res.len.toNat⟩ = lzssEncode input := by
  obtain ⟨d, hbody, rfl⟩ := body_ok_of_no_error h herr
  obtain ⟨k, hput, hd⟩ := bind_ok.mp (lzssCBody_of_source hsrc ▸ wrapCause_ok.mp hbody)
  cases hd
  obtain ⟨rfl, _, hcap⟩ := Sink.putChunks_ok hput
  rw [Sink.start_outlen, Nat.zero_add] at hcap
  exact readRegion_complete_codecFinish (hcap (Nat.zero_le _))

/-- Settles O41: a match copies bytes that the decoder has already written, since they agree with the input's. -/
theorem lzssRoundTrip : Obligations.LzssRoundTrip := by
  refine ⟨fun input p off len hp h => ?_, fun s t u input hsrc hexec herr husrc hr hord hlen hroom => ?_⟩
  · obtain ⟨h1, hoff, _, h3, h18⟩ := h ▸ (lzssToken_validAt hp).1
    exact ⟨h1, hoff, h3, h18⟩
  · rw [readRegion_lzssC hsrc hexec herr] at husrc
    exact lzssD_encode_runsTo hr husrc hlen hroom (lzssDecoded_eq hroom hord)

end Sys2Proof.Machine

namespace Sys2Proof.Machine

/-! ## The frame of LZ78.C and LZW.C (R173, R223) -/

/-- What LZ78.C and LZW.C do around their compressor: from `start` over the whole source, into the destination. -/
def Compressor.body (c : Compressor) (start : TrieState) (unit : TrieState → UnitWork) (s : State) :
    Except Cause Finish := do
  let (t, k) ← c.drive s.srcCells start (Sink.start s)
  .ok (codecFinish k s.latch.ops.srcLen.toNat (unit t))

theorem bodyOf_lzwC (s : State) : bodyOf .lzwC s = wrapCause (lzwCompressor.body lzwStart .lzwEnc s) := rfl

section
variable {c : Compressor} {start : TrieState} {unit : TrieState → UnitWork} {i : Instr} {s : State} {bs : List Byte}
  (hbody : bodyOf i s = wrapCause (c.body start unit s)) (hsrc : s.source = some bs)
include hbody hsrc

/-- Over a readable source, with room for the stream, a compress command completes with the stream (R154). -/
theorem compressor_runsTo (hr : regionsOk i s.latch.ops = true) (hroom : s.room (c.stream start bs).length = true) :
    s.RunsTo i (lengthResult (c.stream start bs).length) s.latch.ops.dstAddr.toNat (c.stream start bs) := by
  refine runsTo_of_codecFinish (n := s.latch.ops.srcLen.toNat) (u := unit (c.last start bs)) hr hbody ?_
  rw [Compressor.body, drive_of_room hsrc hroom]
  rfl

/-- A compress command without error leaves the stream of its source at the destination. -/
theorem readRegion_compressor {t : State} (h : exec i s = .next t) (herr : t.status.err = false) :
    t.mem.readRegion ⟨s.latch.ops.dstAddr.toNat, t.res.len.toNat⟩ = c.stream start bs := by
  obtain ⟨d, hok, rfl⟩ := body_ok_of_no_error h herr
  rw [hbody] at hok
  obtain ⟨⟨t', k⟩, hdrive, hd⟩ := bind_ok.mp (wrapCause_ok.mp hok)
  obtain ⟨rfl, hcap⟩ := drive_ok hsrc hdrive
  cases hd
  exact readRegion_complete_codecFinish hcap

end

/-! ## LZW.C and LZW.D (R223, R226, R227) -/

/-- Settles O34: over a readable source the appends are those of the stream, and they have room. -/
theorem lzwCompressCompletes : Obligations.LzwCompressCompletes :=
  fun s _ hr hsrc hroom => compressor_runsTo (bodyOf_lzwC s) hsrc hr hroom

/-- LZW.D completes on the stream of a byte string and writes the byte string (R226, R227). -/
theorem lzwD_encode_runsTo {s : State} {bs : List Byte} (hr : regionsOk .lzwD s.latch.ops = true)
    (hsrc : s.source = some (lzwEncode bs)) (hlen : s.latch.ops.arg0.toNat = bs.length)
    (hroom : s.room bs.length = true) :
    s.RunsTo .lzwD (lengthResult bs.length) s.latch.ops.dstAddr.toNat bs :=
  sizedDecode_runsTo_of_writes hr (bodyOf_lzwD s) (hlen ▸ (room_iff.mp hroom).1) hlen
    (lzwLoop_encode_writes hsrc (hlen ▸ hroom))

/-- Settles O42: the decoder's table follows the encoder's trie, at most one string behind, and both start again at a
sentinel. -/
theorem lzwRoundTrip : Obligations.LzwRoundTrip := by
  intro s t u input hsrc hexec herr husrc hr hlen hroom
  rw [readRegion_compressor (bodyOf_lzwC s) hsrc hexec herr] at husrc
  exact lzwD_encode_runsTo hr husrc hlen hroom

end Sys2Proof.Machine

namespace Sys2Proof.Machine

/-! ## The zigzag order (R258, R266) -/

/-- Picking from a list by indices. -/
def pick (idx : List Nat) (q : List Int) : List Int := idx.map fun i => q.getD i 0

theorem zigzag_eq_pick (q : List Int) : zigzag q = pick zz q := rfl

theorem unzigzag_eq_pick (z : List Int) : unzigzag z = pick zi z := rfl

/-- Picking by `a` and then by `b` is picking by the composed indices. -/
theorem pick_pick {a b : List Nat} (q : List Int) (hb : ∀ k ∈ b, k < a.length) :
    pick b (pick a q) = pick (b.map fun k => a.getD k 0) q := by
  rw [pick, pick, pick, List.map_map]
  refine List.map_congr_left fun k hk => ?_
  have hlt := hb k hk
  simp [List.getD_eq_getElem?_getD, hlt]

/-- Picking every index in order gives the list back. -/
theorem pick_range (q : List Int) : pick (List.range q.length) q = q := by
  refine List.ext_getElem (by simp [pick]) fun i _ hi => ?_
  simp [pick, hi]

/-- Settles O52: the order is computed from its rule, and `zz` and `zi` are inverse permutations of 0 to 63. -/
theorem zigzagIsUndone : Obligations.ZigzagIsUndone := by
  refine ⟨by decide, fun q hq => ⟨?_, ?_⟩⟩
  · rw [zigzag_eq_pick, unzigzag_eq_pick, pick_pick q (by decide),
      show zi.map (fun k => zz.getD k 0) = List.range 64 by decide, ← hq, pick_range]
  · rw [unzigzag_eq_pick, zigzag_eq_pick, pick_pick q (by decide),
      show zz.map (fun k => zi.getD k 0) = List.range 64 by decide, ← hq, pick_range]

/-! ## Run-length pairs (R259 to R265) -/

theorem expandPairs_nil : expandPairs [] = [] := rfl

theorem expandPairs_cons (q : Pair) (l : List Pair) :
    expandPairs (q :: l) = List.replicate q.run 0 ++ q.val :: expandPairs l := by
  simp [expandPairs]

theorem expandPairs_flatMap {α : Type} (f : α → List Pair) (l : List α) :
    expandPairs (l.flatMap f) = l.flatMap fun a => expandPairs (f a) :=
  List.flatMap_assoc

theorem length_expandPairs (l : List Pair) : (expandPairs l).length = (l.map fun q => q.run + 1).sum := by
  simp [expandPairs, List.length_flatMap]

theorem rleFrom_run_le {run : Nat} {z : List Int} (hrun : run ≤ 15) : ∀ q ∈ rleFrom run z, q.run ≤ 15 := by
  induction z generalizing run with
  | nil => simp [rleFrom]
  | cons c rest ih =>
    rw [rleFrom]
    split
    · exact List.forall_mem_cons.mpr ⟨hrun, ih (Nat.zero_le _)⟩
    · exact ih (by omega)

/-- The pairs from a position on expand to the zeros behind it and the coefficients from it on. -/
theorem expandPairs_rleFrom {z : List Int} (run : Nat) (hz : z ≠ []) :
    expandPairs (rleFrom run z) = List.replicate run 0 ++ z := by
  induction z generalizing run with
  | nil => exact absurd rfl hz
  | cons c rest ih =>
    rw [rleFrom]
    split
    · rw [expandPairs_cons]
      cases rest with
      | nil => rfl
      | cons d rest => rw [ih 0 (List.cons_ne_nil _ _)]; rfl
    · next h =>
      obtain ⟨rfl, hrest, _⟩ : c = 0 ∧ rest ≠ [] ∧ run ≠ 15 := by simpa [not_or] using h
      rw [ih (run + 1) hrest, List.replicate_succ', List.append_assoc]
      rfl

theorem rle_run_le (z : List Int) : ∀ q ∈ rle z, q.run ≤ 15 := rleFrom_run_le (Nat.zero_le _)

theorem expandPairs_rle (z : List Int) : expandPairs (rle z) = z := by
  cases z with
  | nil => rfl
  | cons c rest => exact expandPairs_rleFrom 0 (List.cons_ne_nil _ _)

theorem rle_val_mem {z : List Int} {q : Pair} (hq : q ∈ rle z) : q.val ∈ z := by
  have hmem : q.val ∈ expandPairs (rle z) := List.mem_flatMap.mpr ⟨q, hq, by simp⟩
  rwa [expandPairs_rle] at hmem

/-- A pair with a run of at most 15 stands for 1 to 16 coefficients. -/
theorem length_expandPairs_bounds {l : List Pair} (hrun : ∀ q ∈ l, q.run ≤ 15) :
    l.length ≤ (expandPairs l).length ∧ (expandPairs l).length ≤ 16 * l.length := by
  induction l with
  | nil => exact ⟨Nat.le_refl _, Nat.le_refl _⟩
  | cons q l ih =>
    obtain ⟨hq, hl⟩ := List.forall_mem_cons.mp hrun
    have := ih hl
    simp only [expandPairs_cons, List.length_append, List.length_replicate, List.length_cons]
    omega

/-- `n` pieces of `k` elements are all of a list of `k * n` elements. -/
theorem flatten_pieces {α : Type} {k n : Nat} {l : List α} (hl : l.length = k * n) : (pieces k n l).flatten = l := by
  induction n generalizing l with
  | zero => exact (List.eq_nil_of_length_eq_zero hl).symm
  | succ n ih =>
    rw [pieces, List.flatten_cons, ih (by rw [List.length_drop, hl, Nat.mul_succ, Nat.add_sub_cancel]),
      List.take_append_drop]

theorem pairsOf_run_le (coeffs : List Int) : ∀ q ∈ pairsOf coeffs, q.run ≤ 15 := by
  intro q hq
  obtain ⟨z, _, hq⟩ := List.mem_flatMap.mp hq
  exact rle_run_le z q hq

section
variable {b : Nat} {coeffs : List Int} (hlen : coeffs.length = 64 * b)
include hlen

theorem flatten_blocks : (pieces 64 (coeffs.length / 64) coeffs).flatten = coeffs :=
  flatten_pieces (by omega)

theorem expandPairs_pairsOf : expandPairs (pairsOf coeffs) = coeffs := by
  rw [pairsOf, expandPairs_flatMap]
  simp only [expandPairs_rle, List.flatMap_id']
  exact flatten_blocks hlen

theorem pairsOf_val_mem {q : Pair} (hq : q ∈ pairsOf coeffs) : q.val ∈ coeffs := by
  obtain ⟨z, hz, hq⟩ := List.mem_flatMap.mp hq
  rw [← flatten_blocks hlen]
  exact List.mem_flatten.mpr ⟨z, hz, rle_val_mem hq⟩

/-- Pairs of at most 16 coefficients that cover `b` blocks are `4 b` to `64 b`. -/
theorem length_pairsOf_bounds : 4 * b ≤ (pairsOf coeffs).length ∧ (pairsOf coeffs).length ≤ 64 * b := by
  have := length_expandPairs_bounds (pairsOf_run_le coeffs)
  rw [expandPairs_pairsOf hlen] at this
  omega

end

/-- Settles O51: the runs are at most 15 and the pairs expand to the coefficients, so 4 to 64 of them cover a block. -/
theorem runLengthPairsCoverTheBlock : Obligations.RunLengthPairsCoverTheBlock := by
  refine ⟨fun z hz => ?_, by decide, by decide, fun b coeffs hlen => ?_⟩
  · have hbounds := length_expandPairs_bounds (rle_run_le z)
    rw [expandPairs_rle, hz] at hbounds
    refine ⟨rle_run_le z, expandPairs_rle z, ?_, by omega, hbounds.1⟩
    rw [← length_expandPairs, expandPairs_rle, hz]
  · obtain ⟨hlo, hhi⟩ := length_pairsOf_bounds hlen
    exact ⟨hlo, hhi, expandPairs_pairsOf hlen⟩

end Sys2Proof.Machine

namespace Sys2Proof.Machine

/-! ## Sequences whose first part succeeds -/

@[simp] theorem ok_bind {ε α β : Type} (a : α) (f : α → Except ε β) : (.ok a >>= f) = f a := rfl

/-! ## Decimal numbers (R16, R243, R290) -/

/-- `ds` is a decimal spelling of `n` with no more digits than `n` needs. -/
structure IsDecimal (ds : List Byte) (n : Nat) : Prop where
  digits : ∀ b ∈ ds, isDigit b = true
  nonempty : ds ≠ []
  value : digitsValue ds = n
  short : ∀ k, n < 10 ^ (k + 1) → ds.length ≤ k + 1

theorem toNat_digit {d : Nat} (hd : d < 10) : (BitVec.ofNat 8 (48 + d)).toNat = 48 + d := by
  rw [BitVec.toNat_ofNat, Nat.mod_eq_of_lt (by omega)]

theorem isDigit_digit {d : Nat} (hd : d < 10) : isDigit (BitVec.ofNat 8 (48 + d)) = true := by
  rw [isDigit, toNat_digit hd, Bool.and_eq_true, decide_eq_true_eq, decide_eq_true_eq]
  omega

theorem isDecimal_digit {n : Nat} (hn : n < 10) : IsDecimal [BitVec.ofNat 8 (48 + n % 10)] n := by
  rw [Nat.mod_eq_of_lt hn]
  refine ⟨by simpa using isDigit_digit hn, List.cons_ne_nil _ _, ?_, fun k _ => Nat.le_add_left _ _⟩
  rw [digitsValue, List.foldl_cons, List.foldl_nil, toNat_digit hn]
  omega

theorem IsDecimal.snoc {ds : List Byte} {n : Nat} (h : IsDecimal ds (n / 10)) (hn : n / 10 ≠ 0) :
    IsDecimal (ds ++ [BitVec.ofNat 8 (48 + n % 10)]) n := by
  have hmod : n % 10 < 10 := Nat.mod_lt _ (by decide)
  refine ⟨fun b hb => ?_, by simp, ?_, fun k hk => ?_⟩
  · rcases List.mem_append.mp hb with hb | hb
    · exact h.digits b hb
    · rw [List.mem_singleton.mp hb]
      exact isDigit_digit hmod
  · have hval := h.value
    rw [digitsValue] at hval ⊢
    rw [List.foldl_append, hval, List.foldl_cons, List.foldl_nil, toNat_digit hmod]
    omega
  · cases k with
    | zero => omega
    | succ k =>
      have := h.short k (Nat.div_lt_of_lt_mul (by rwa [Nat.mul_comm, ← Nat.pow_succ]))
      rw [List.length_append, List.length_singleton]
      omega

theorem exists_isDecimal_decDigits {fuel n : Nat} (hfuel : n < fuel) (acc : List Byte) :
    ∃ ds, decDigits fuel n acc = ds ++ acc ∧ IsDecimal ds n := by
  induction fuel generalizing n acc with
  | zero => exact absurd hfuel (Nat.not_lt_zero n)
  | succ fuel ih =>
    rw [decDigits]
    split
    · exact ⟨[_], rfl, isDecimal_digit (by omega)⟩
    · next hn =>
      obtain ⟨ds, hds, hdec⟩ := ih (n := n / 10) (by omega) (BitVec.ofNat 8 (48 + n % 10) :: acc)
      exact ⟨ds ++ [_], by rw [hds, List.append_assoc]; rfl, hdec.snoc hn⟩

theorem isDecimal_dec (n : Nat) : IsDecimal (dec n) n := by
  obtain ⟨ds, hds, hdec⟩ := exists_isDecimal_decDigits (Nat.lt_succ_self n) []
  rw [List.append_nil] at hds
  exact dec.eq_1 n ▸ hds ▸ hdec

theorem IsDecimal.length_le_ten {ds : List Byte} {n : Nat} (h : IsDecimal ds n) (hn : n < 2 ^ 31) : ds.length ≤ 10 :=
  h.short 9 (by omega)

/-- A digit is neither whitespace nor LF. -/
theorem isWs_of_isDigit {b : Byte} (h : isDigit b = true) : isWs b = false := by
  revert h
  revert b
  decide

theorem dec_not_mem {n : Nat} {b : Byte} (hb : isDigit b = false) : b ∉ dec n := fun hmem => by
  rw [(isDecimal_dec n).digits b hmem] at hb
  cases hb

/-! ## The header numbers of an image (R243) -/

theorem skipWs_ws {w : Byte} (hw : isWs w = true) (seen : Bool) (src : List SrcCell) :
    skipWs seen (some w :: src) = skipWs true src := by
  rw [skipWs, readCell_some, ok_bind, if_pos hw]

theorem skipWs_stop {b : Byte} (hb : isWs b = false) (src : List SrcCell) :
    skipWs true (some b :: src) = .ok (some b :: src) := by
  rw [skipWs, readCell_some, ok_bind, hb]
  rfl

theorem readDigits_stop {b : Byte} (hb : isDigit b = false) (count value : Nat) (src : List SrcCell) :
    readDigits count value (some b :: src) = .ok (count, value, some b :: src) := by
  rw [readDigits, readCell_some, ok_bind, hb]
  rfl

theorem readDigits_digit {b : Byte} (hb : isDigit b = true) {count : Nat} (hcount : count < 10) (value : Nat)
    (src : List SrcCell) :
    readDigits count value (some b :: src) = readDigits (count + 1) (value * 10 + (b.toNat - 48)) src := by
  rw [readDigits, readCell_some, ok_bind, if_pos hb, decide_eq_true hcount, check_true, ok_bind]

/-- At most ten digits are read up to the byte behind them. -/
theorem readDigits_digits {ds : List Byte} (hds : ∀ b ∈ ds, isDigit b = true) {e : Byte} (he : isDigit e = false)
    (count value : Nat) (hcount : count + ds.length ≤ 10) (src : List SrcCell) :
    readDigits count value (ds.map some ++ some e :: src) =
      .ok (count + ds.length, ds.foldl (fun v b => v * 10 + (b.toNat - 48)) value, some e :: src) := by
  induction ds generalizing count value with
  | nil => exact readDigits_stop he count value src
  | cons b ds ih =>
    obtain ⟨hb, hds⟩ := List.forall_mem_cons.mp hds
    rw [List.length_cons] at hcount ⊢
    rw [List.map_cons, List.cons_append, readDigits_digit hb (by omega), ih hds _ _ (by omega), List.foldl_cons,
      Nat.add_right_comm count 1, Nat.add_assoc]

/-- A number below 2^31 after one whitespace byte is read up to the byte behind it. -/
theorem readNum_dec {w e : Byte} (hw : isWs w = true) (he : isDigit e = false) {n : Nat} (hn : n < 2 ^ 31)
    (src : List SrcCell) :
    readNum (some w :: ((dec n).map some ++ some e :: src)) = .ok (n, some e :: src) := by
  obtain ⟨hdigits, hne, hvalue, -⟩ := isDecimal_dec n
  have hlen := (isDecimal_dec n).length_le_ten hn
  have hskip : skipWs false (some w :: ((dec n).map some ++ some e :: src)) =
      .ok ((dec n).map some ++ some e :: src) := by
    obtain ⟨b, ds, hb⟩ := List.exists_cons_of_ne_nil hne
    rw [hb] at hdigits ⊢
    rw [skipWs_ws hw]
    exact skipWs_stop (isWs_of_isDigit (hdigits b List.mem_cons_self)) _
  have hread := readDigits_digits hdigits he 0 0 (by omega) src
  rw [← digitsValue, hvalue, Nat.zero_add] at hread
  rw [readNum, hskip, ok_bind, hread, ok_bind]
  dsimp only
  rw [decide_eq_true ⟨List.length_pos_iff.mpr hne, hn⟩, check_true, ok_bind]

theorem expectByte_some {p : Byte → Bool} {b : Byte} (hb : p b = true) (src : List SrcCell) :
    expectByte p (some b :: src) = .ok src := by
  rw [expectByte, readCell_some, ok_bind, hb, check_true, ok_bind]

/-! ## The image header that JPEG.D writes (R243, R244, R293) -/

/-- The parse after the header's values (R244): the pixel count, the bytes there, the bytes. -/
def parsePixels (maxPixels w h mx : Nat) (src : List SrcCell) : Except Cause Image := do
  check (decide (w * h ≤ maxPixels)) .resource
  check (decide (3 * (w * h) ≤ inRemaining src)) .srcUnderrun
  let px ← readAll .busError (src.take (3 * (w * h)))
  .ok ⟨w, h, mx, px⟩

theorem ppmHeader_append (w h mx : Nat) (px : List Byte) : ppmHeader w h mx ++ px =
    0x50 :: 0x36 :: 0x0A :: (dec w ++ 0x20 :: (dec h ++ 0x0A :: (dec mx ++ 0x0A :: px))) := by
  simp [ppmHeader, asciiP6, lf, sp]

/-- Behind the header of R293 only the pixels are left to parse. -/
theorem parsePpm_ppmHeader {w h mx : Nat} (hw : 1 ≤ w ∧ w < 2 ^ 31) (hh : 1 ≤ h ∧ h < 2 ^ 31)
    (hmx : 1 ≤ mx ∧ mx ≤ 255) (maxPixels : Nat) (px : List Byte) :
    parsePpm maxPixels ((ppmHeader w h mx ++ px).map some) = parsePixels maxPixels w h mx (px.map some) := by
  have hmx31 : mx < 2 ^ 31 := by omega
  rw [ppmHeader_append]
  simp only [List.map_cons, List.map_append, parsePpm, ok_bind,
    expectByte_some (p := (· = 0x50)) (b := 0x50) (by decide),
    expectByte_some (p := (· = 0x36)) (b := 0x36) (by decide),
    readNum_dec (w := 0x0A) (e := 0x20) (by decide) (by decide) hw.2,
    readNum_dec (w := 0x20) (e := 0x0A) (by decide) (by decide) hh.2,
    readNum_dec (w := 0x0A) (e := 0x0A) (by decide) (by decide) hmx31,
    expectByte_some (p := isWs) (b := 0x0A) (by decide)]
  rw [decide_eq_true ⟨hw.1, hh.1, hmx⟩, check_true, ok_bind]
  rfl

section
variable {maxPixels w h mx : Nat}

theorem parsePixels_ok {px rest : List Byte} (hmax : w * h ≤ maxPixels) (hpx : px.length = 3 * (w * h)) :
    parsePixels maxPixels w h mx ((px ++ rest).map some) = .ok ⟨w, h, mx, px⟩ := by
  rw [parsePixels, decide_eq_true hmax,
    decide_eq_true (show 3 * (w * h) ≤ inRemaining _ by simp [inRemaining, hpx]), ← hpx, ← List.map_take,
    List.take_left, readAll_map_some]
  rfl

theorem parsePixels_resource {src : List SrcCell} (hmax : maxPixels < w * h) :
    parsePixels maxPixels w h mx src = .error .resource := by
  rw [parsePixels, decide_eq_false (by omega)]
  rfl

theorem parsePixels_srcUnderrun {src : List SrcCell} (hmax : w * h ≤ maxPixels) (hsrc : src.length < 3 * (w * h)) :
    parsePixels maxPixels w h mx src = .error .srcUnderrun := by
  rw [parsePixels, decide_eq_true hmax, decide_eq_false (by rw [inRemaining]; omega)]
  rfl

end

/-- Settles O50: the numbers of the header are read back, and the checks of R244 decide on the bytes behind it. -/
theorem writtenImageHeaderParses : Obligations.WrittenImageHeaderParses := by
  rintro maxPixels ⟨w, h, mx, px⟩ rest ⟨hw, hh, hmx1, hmx2, hpx⟩ hw31 hh31
  have hparse := parsePpm_ppmHeader ⟨hw, hw31⟩ ⟨hh, hh31⟩ ⟨hmx1, hmx2⟩ maxPixels
  refine ⟨fun hmax => ?_, fun hmax => ?_, fun hmax k hk => ?_⟩
  · rw [List.append_assoc, hparse]
    exact parsePixels_ok hmax hpx
  · rw [List.append_assoc, hparse]
    exact parsePixels_resource hmax
  · rw [hparse]
    refine parsePixels_srcUnderrun hmax ?_
    simp only [List.length_map, List.length_take] at hk ⊢
    change px.length = 3 * (w * h) at hpx
    omega

/-! ## What a parsed image satisfies (R243, R244) -/

/-- The header values of an image lie in the ranges of R243 and R290. -/
structure Image.Admitted (img : Image) : Prop where
  values : 1 ≤ img.width ∧ 1 ≤ img.height ∧ 1 ≤ img.maxVal ∧ img.maxVal ≤ 255
  width : img.width < 2 ^ 31
  height : img.height < 2 ^ 31

theorem readNum_lt {src rest : List SrcCell} {n : Nat} (h : readNum src = .ok (n, rest)) : n < 2 ^ 31 := by
  obtain ⟨_, _, h⟩ := bind_ok.mp h
  obtain ⟨⟨count, value, _⟩, _, h⟩ := bind_ok.mp h
  obtain ⟨_, hcheck, h⟩ := bind_ok.mp h
  cases h
  exact (of_decide_eq_true (check_ok.mp hcheck)).2

theorem admitted_of_parsePpm {maxPixels : Nat} {src : List SrcCell} {img : Image}
    (h : parsePpm maxPixels src = .ok img) : img.Admitted := by
  obtain ⟨_, _, h⟩ := bind_ok.mp h
  obtain ⟨_, _, h⟩ := bind_ok.mp h
  obtain ⟨⟨w, _⟩, hw, h⟩ := bind_ok.mp h
  obtain ⟨⟨ht, _⟩, hh, h⟩ := bind_ok.mp h
  obtain ⟨⟨mx, _⟩, _, h⟩ := bind_ok.mp h
  obtain ⟨_, _, h⟩ := bind_ok.mp h
  obtain ⟨_, hvalues, h⟩ := bind_ok.mp h
  obtain ⟨_, _, h⟩ := bind_ok.mp h
  obtain ⟨_, _, h⟩ := bind_ok.mp h
  obtain ⟨px, _, h⟩ := bind_ok.mp h
  cases h
  exact ⟨of_decide_eq_true (check_ok.mp hvalues), readNum_lt hw, readNum_lt hh⟩

end Sys2Proof.Machine

namespace Sys2Proof.Machine

/-! ## The symbols of a channel (R281) -/

theorem Pair.before_iff {a b : Pair} :
    a.before b = true ↔ a.run < b.run ∨ (a.run = b.run ∧ a.val < b.val) := by
  simp [Pair.before]

theorem Pair.before_trans {a b c : Pair} (hab : a.before b = true) (hbc : b.before c = true) :
    a.before c = true := by
  rw [Pair.before_iff] at *
  omega

theorem Pair.before_of_ne {a b : Pair} (hne : a ≠ b) (h : a.before b = false) : b.before a = true := by
  rw [← Bool.not_eq_true, Pair.before_iff] at h
  rw [Pair.before_iff]
  by_cases hrun : a.run = b.run
  · have hval : a.val ≠ b.val := fun hval => hne (congr (congrArg Pair.mk hrun) hval)
    omega
  · omega

/-- A symbol list is in symbol order, each symbol once. -/
def InOrder (l : List Pair) : Prop := l.Pairwise fun a b => a.before b = true

theorem InOrder.nodup {l : List Pair} (h : InOrder l) : l.Nodup :=
  h.imp fun {a b} hab heq => by
    rw [heq, Pair.before_iff] at hab
    omega

theorem mem_countSymbol {s x : Pair} {l : List (Pair × Nat)} :
    x ∈ (countSymbol s l).map (·.1) ↔ x = s ∨ x ∈ l.map (·.1) := by
  induction l with
  | nil => simp [countSymbol]
  | cons p l ih =>
    obtain ⟨t, n⟩ := p
    rw [countSymbol]
    split
    · next hst => simp [hst]
    · split
      · simp
      · simp only [List.map_cons, List.mem_cons, ih, or_left_comm]

theorem InOrder.countSymbol {l : List (Pair × Nat)} (h : InOrder (l.map (·.1))) (s : Pair) :
    InOrder ((countSymbol s l).map (·.1)) := by
  induction l with
  | nil => exact List.pairwise_singleton _ _
  | cons p l ih =>
    obtain ⟨t, n⟩ := p
    obtain ⟨ht, hl⟩ := List.pairwise_cons.mp h
    rw [Machine.countSymbol]
    split
    · exact h
    · next hne =>
      split
      · next hst =>
        have hall : ∀ x ∈ l.map (·.1), s.before x = true := fun x hx => Pair.before_trans hst (ht x hx)
        exact List.pairwise_cons.mpr ⟨List.forall_mem_cons.mpr ⟨hst, hall⟩, h⟩
      · next hst =>
        refine List.pairwise_cons.mpr ⟨fun x hx => ?_, ih hl⟩
        rcases mem_countSymbol.mp hx with rfl | hx
        · exact Pair.before_of_ne hne (Bool.not_eq_true _ ▸ hst)
        · exact ht x hx

theorem foldl_countSymbol {acc : List (Pair × Nat)} (h : InOrder (acc.map (·.1))) (l : List Pair) :
    InOrder ((l.foldl (fun acc s => countSymbol s acc) acc).map (·.1)) ∧
      ∀ x, x ∈ (l.foldl (fun acc s => countSymbol s acc) acc).map (·.1) ↔ x ∈ l ∨ x ∈ acc.map (·.1) := by
  induction l generalizing acc with
  | nil => exact ⟨h, fun x => by simp⟩
  | cons s l ih =>
    obtain ⟨horder, hmem⟩ := ih (h.countSymbol s)
    refine ⟨horder, fun x => (hmem x).trans ?_⟩
    rw [mem_countSymbol, List.mem_cons, or_left_comm, or_assoc]

/-- The symbols of a pair list, in symbol order (R281). -/
def symbolsOf (l : List Pair) : List Pair := (frequencies l).map (·.1)

theorem symbolsOf_nodup (l : List Pair) : (symbolsOf l).Nodup :=
  (foldl_countSymbol (acc := []) List.Pairwise.nil l).1.nodup

theorem mem_symbolsOf {l : List Pair} {s : Pair} : s ∈ symbolsOf l ↔ s ∈ l :=
  ((foldl_countSymbol (acc := []) List.Pairwise.nil l).2 s).trans (by simp)

/-! ## The Huffman tree (R282) -/

/-- The symbols at the leaves of a tree. -/
def HTree.symbols : HTree → List Pair
  | .leaf s => [s]
  | .node a b => a.symbols ++ b.symbols

/-- The symbols at the leaves of the trees in a queue. -/
def queueSymbols (q : List HNode) : List Pair := q.flatMap fun n => n.tree.symbols

theorem queueSymbols_enqueue (n : HNode) (q : List HNode) :
    (queueSymbols (enqueue n q)).Perm (n.tree.symbols ++ queueSymbols q) := by
  induction q with
  | nil => exact .refl _
  | cons m q ih =>
    rw [enqueue]
    split
    · exact .refl _
    · exact (ih.append_left m.tree.symbols).trans (List.perm_append_comm_assoc _ _ _)

theorem length_enqueue (n : HNode) (q : List HNode) : (enqueue n q).length = q.length + 1 := by
  induction q with
  | nil => rfl
  | cons m q ih =>
    rw [enqueue]
    split
    · rfl
    · rw [List.length_cons, ih, List.length_cons]

/-- A merge keeps the leaves, and takes one tree away. -/
theorem mergeLoop_symbols {fuel : Nat} {q : List HNode} (next : Nat) (hq : q ≠ []) (hfuel : q.length ≤ fuel + 1) :
    ∃ t, mergeLoop fuel next q = some t ∧ t.symbols.Perm (queueSymbols q) := by
  induction fuel generalizing next q with
  | zero =>
    match q with
    | [n] => exact ⟨n.tree, rfl, by simp [queueSymbols]⟩
    | _ :: _ :: _ => simp at hfuel
  | succ fuel ih =>
    match q with
    | [n] => exact ⟨n.tree, rfl, by simp [queueSymbols]⟩
    | a :: b :: q =>
      have hlen := length_enqueue ⟨a.weight + b.weight, next, .node a.tree b.tree⟩ q
      simp only [List.length_cons] at hfuel
      obtain ⟨t, ht, hperm⟩ := ih (q := enqueue ⟨a.weight + b.weight, next, .node a.tree b.tree⟩ q) (next + 1)
        (List.ne_nil_of_length_pos (by omega)) (by omega)
      refine ⟨t, by rw [mergeLoop, ht], hperm.trans ((queueSymbols_enqueue _ _).trans ?_)⟩
      simp [HTree.symbols, queueSymbols]

theorem queueSymbols_leaves (i : Nat) (freqs : List (Pair × Nat)) :
    queueSymbols (leaves i freqs) = freqs.map (·.1) := by
  induction freqs generalizing i with
  | nil => rfl
  | cons p freqs ih => exact congrArg (p.1 :: ·) (ih (i + 1))

theorem length_leaves (i : Nat) (freqs : List (Pair × Nat)) : (leaves i freqs).length = freqs.length := by
  induction freqs generalizing i with
  | nil => rfl
  | cons p freqs ih => exact congrArg (· + 1) (ih (i + 1))

theorem foldl_enqueue (l q : List HNode) :
    (queueSymbols (l.foldl (fun q n => enqueue n q) q)).Perm (queueSymbols l ++ queueSymbols q) ∧
      (l.foldl (fun q n => enqueue n q) q).length = l.length + q.length := by
  induction l generalizing q with
  | nil => exact ⟨.refl _, (Nat.zero_add _).symm⟩
  | cons n l ih =>
    obtain ⟨hperm, hlen⟩ := ih (enqueue n q)
    refine ⟨hperm.trans (((queueSymbols_enqueue n q).append_left _).trans ?_), ?_⟩
    · simpa [queueSymbols] using List.perm_append_comm_assoc _ _ _
    · rw [List.foldl_cons, hlen, length_enqueue, List.length_cons]
      omega

/-- The Huffman tree of a frequency list has exactly its symbols at the leaves. -/
theorem huffmanTree_symbols {freqs : List (Pair × Nat)} (h : freqs ≠ []) :
    ∃ t, huffmanTree freqs = some t ∧ t.symbols.Perm (freqs.map (·.1)) := by
  obtain ⟨hperm, hlen⟩ := foldl_enqueue (leaves 0 freqs) []
  rw [length_leaves, List.length_nil, Nat.add_zero] at hlen
  rw [queueSymbols_leaves, show queueSymbols [] = [] from rfl, List.append_nil] at hperm
  obtain ⟨t, ht, hsym⟩ := mergeLoop_symbols (fuel := freqs.length) freqs.length
    (List.ne_nil_of_length_pos (hlen ▸ List.length_pos_iff.mpr h)) (by omega)
  exact ⟨t, ht, hsym.trans hperm⟩

/-! ## The decoder's tree of a frequency list (R283, R291) -/

/-- The decoder's tree with the shape and the leaves of an encoder's tree. -/
def HTree.toCTree : HTree → CTree
  | .leaf s => .leaf s
  | .node a b => .node a.toCTree b.toCTree

namespace CTree

/-- The codes that lead to the leaves of a decoder's tree (R283, R291). -/
def codes : CTree → List (Pair × List Bool)
  | .absent => []
  | .leaf s => [(s, [])]
  | .node a b => (a.codes.map fun c => (c.1, false :: c.2)) ++ (b.codes.map fun c => (c.1, true :: c.2))

/-- The symbols at the leaves of a decoder's tree. -/
def symbols : CTree → List Pair
  | .absent => []
  | .leaf s => [s]
  | .node a b => a.symbols ++ b.symbols

/-- A node with the two children, or no node where there is no child. -/
def join (a b : CTree) : CTree := if a = .absent ∧ b = .absent then .absent else .node a b

/-- What a decoder's tree holds after the records of some of its symbols (R291). -/
def restrict (done : List Pair) : CTree → CTree
  | .absent => .absent
  | .leaf s => if s ∈ done then .leaf s else .absent
  | .node a b => join (a.restrict done) (b.restrict done)

/-- Every node has a leaf below it. -/
def Tight : CTree → Prop
  | .absent => True
  | .leaf _ => True
  | .node a b => a.Tight ∧ b.Tight ∧ ¬(a = .absent ∧ b = .absent)

theorem codes_symbols (t : CTree) : t.codes.map (·.1) = t.symbols := by
  induction t with
  | absent => rfl
  | leaf s => rfl
  | node a b iha ihb => simp [codes, symbols, ← iha, ← ihb, Function.comp_def]

theorem symbol_mem_of_code_mem {t : CTree} {s : Pair} {c : List Bool} (h : (s, c) ∈ t.codes) : s ∈ t.symbols :=
  codes_symbols t ▸ List.mem_map_of_mem h

theorem cons_false_mem_codes {a b : CTree} {s : Pair} {c : List Bool} :
    (s, false :: c) ∈ (node a b).codes ↔ (s, c) ∈ a.codes := by
  simp [codes]

theorem cons_true_mem_codes {a b : CTree} {s : Pair} {c : List Bool} :
    (s, true :: c) ∈ (node a b).codes ↔ (s, c) ∈ b.codes := by
  simp [codes]

/-- Only a leaf has the empty code. -/
theorem eq_leaf_of_nil_mem_codes {t : CTree} {s : Pair} (h : (s, []) ∈ t.codes) : t = .leaf s := by
  cases t with
  | absent => cases h
  | leaf t => simpa [codes, eq_comm] using h
  | node a b => simp [codes] at h

/-- Only a node has a longer code. -/
theorem exists_node_of_cons_mem_codes {t : CTree} {s : Pair} {bit : Bool} {c : List Bool}
    (h : (s, bit :: c) ∈ t.codes) : ∃ a b, t = .node a b := by
  cases t with
  | absent => cases h
  | leaf t => simp [codes] at h
  | node a b => exact ⟨a, b, rfl⟩

theorem join_left {a : CTree} (b : CTree) (h : a ≠ .absent) : join a b = .node a b := if_neg fun hab => h hab.1

theorem join_right (a : CTree) {b : CTree} (h : b ≠ .absent) : join a b = .node a b := if_neg fun hab => h hab.2

theorem join_ne_absent {a b : CTree} (h : a ≠ .absent ∨ b ≠ .absent) : join a b ≠ .absent := by
  rcases h with h | h
  · rw [join_left b h]
    exact CTree.noConfusion
  · rw [join_right a h]
    exact CTree.noConfusion

theorem restrict_nil (t : CTree) : t.restrict [] = .absent := by
  induction t with
  | absent => rfl
  | leaf s => rfl
  | node a b iha ihb =>
    rw [restrict, iha, ihb]
    rfl

theorem restrict_ne_absent {t : CTree} {s : Pair} {done : List Pair} (hs : s ∈ t.symbols) (hd : s ∈ done) :
    t.restrict done ≠ .absent := by
  induction t with
  | absent => cases hs
  | leaf t =>
    rw [restrict, if_pos (List.mem_singleton.mp hs ▸ hd)]
    exact CTree.noConfusion
  | node a b iha ihb => exact join_ne_absent ((List.mem_append.mp hs).imp iha ihb)

/-- A record of a symbol that the tree does not have changes nothing in it. -/
theorem restrict_cons_of_not_mem {t : CTree} {s : Pair} (hs : s ∉ t.symbols) (done : List Pair) :
    t.restrict (s :: done) = t.restrict done := by
  induction t with
  | absent => rfl
  | leaf t =>
    have hne : t ≠ s := fun h => hs (h ▸ List.mem_singleton_self t)
    simp [restrict, hne]
  | node a b iha ihb =>
    obtain ⟨ha, hb⟩ : s ∉ a.symbols ∧ s ∉ b.symbols := by simpa [symbols, not_or] using hs
    rw [restrict, restrict, iha ha, ihb hb]

/-- After the records of all its symbols a tree is complete. -/
theorem restrict_of_all {t : CTree} {done : List Pair} (ht : t.Tight) (hall : ∀ s ∈ t.symbols, s ∈ done) :
    t.restrict done = t := by
  induction t with
  | absent => rfl
  | leaf s => exact if_pos (hall s (List.mem_singleton_self s))
  | node a b iha ihb =>
    obtain ⟨hta, htb, hne⟩ := ht
    rw [restrict, iha hta fun s hs => hall s (List.mem_append_left _ hs),
      ihb htb fun s hs => hall s (List.mem_append_right _ hs)]
    exact if_neg hne

/-- A record under child 0 (R291). -/
theorem insert_join_false (s : Pair) (c : List Bool) (a b : CTree) :
    insert s (false :: c) (join a b) =
      if c = [] then (if a = .absent then some (.node (.leaf s) b) else none)
      else (insert s c a).map fun a => .node a b := by
  by_cases hab : a = .absent ∧ b = .absent
  · obtain ⟨rfl, rfl⟩ := hab
    rw [join, if_pos ⟨rfl, rfl⟩, insert]
    cases insert s c .absent <;> rfl
  · rw [join, if_neg hab, insert]
    cases insert s c a <;> rfl

/-- A record under child 1 (R291). -/
theorem insert_join_true (s : Pair) (c : List Bool) (a b : CTree) :
    insert s (true :: c) (join a b) =
      if c = [] then (if b = .absent then some (.node a (.leaf s)) else none)
      else (insert s c b).map fun b => .node a b := by
  by_cases hab : a = .absent ∧ b = .absent
  · obtain ⟨rfl, rfl⟩ := hab
    rw [join, if_pos ⟨rfl, rfl⟩, insert]
    cases insert s c .absent <;> rfl
  · rw [join, if_neg hab, insert]
    cases insert s c b <;> rfl

/-- The record of a symbol not yet there adds exactly this symbol (R291). -/
theorem insert_restrict {t : CTree} {s : Pair} {c : List Bool} {done : List Pair} (hmem : (s, c) ∈ t.codes)
    (hc : c ≠ []) (hnodup : t.symbols.Nodup) (hs : s ∉ done) :
    insert s c (t.restrict done) = some (t.restrict (s :: done)) := by
  induction c generalizing t with
  | nil => exact absurd rfl hc
  | cons bit c ih =>
    obtain ⟨a, b, rfl⟩ := exists_node_of_cons_mem_codes hmem
    obtain ⟨hna, hnb, hdisj⟩ := List.nodup_append.mp hnodup
    cases bit with
    | false =>
      have hca := cons_false_mem_codes.mp hmem
      have hsa := symbol_mem_of_code_mem hca
      have hsb : s ∉ b.symbols := fun hsb => hdisj s hsa s hsb rfl
      rw [restrict, restrict, restrict_cons_of_not_mem hsb, insert_join_false,
        join_left _ (restrict_ne_absent hsa List.mem_cons_self)]
      split
      · next hnil =>
        obtain rfl := eq_leaf_of_nil_mem_codes (hnil ▸ hca)
        simp [restrict, hs]
      · next hne => rw [ih hca hne hna, Option.map_some]
    | true =>
      have hcb := cons_true_mem_codes.mp hmem
      have hsb := symbol_mem_of_code_mem hcb
      have hsa : s ∉ a.symbols := fun hsa => hdisj s hsa s hsb rfl
      rw [restrict, restrict, restrict_cons_of_not_mem hsa, insert_join_true,
        join_right _ (restrict_ne_absent hsb List.mem_cons_self)]
      split
      · next hnil =>
        obtain rfl := eq_leaf_of_nil_mem_codes (hnil ▸ hcb)
        simp [restrict, hs]
      · next hne => rw [ih hcb hne hnb, Option.map_some]

end CTree

theorem HTree.toCTree_ne_absent (t : HTree) : t.toCTree ≠ .absent := by
  cases t <;> exact CTree.noConfusion

theorem HTree.codes_toCTree (t : HTree) : t.toCTree.codes = t.codes := by
  induction t with
  | leaf s => rfl
  | node a b iha ihb => rw [toCTree, CTree.codes, iha, ihb, codes]

theorem HTree.symbols_toCTree (t : HTree) : t.toCTree.symbols = t.symbols := by
  induction t with
  | leaf s => rfl
  | node a b iha ihb => rw [toCTree, CTree.symbols, iha, ihb, symbols]

theorem HTree.toCTree_tight (t : HTree) : t.toCTree.Tight := by
  induction t with
  | leaf s => trivial
  | node a b iha ihb => exact ⟨iha, ihb, fun h => a.toCTree_ne_absent h.1⟩

/-- `t` is the decoder's tree of a frequency list: its codes are the code map's, its leaves the symbols, and no code is
empty (R283, R291). -/
structure IsCodeTree (freqs : List (Pair × Nat)) (t : CTree) : Prop where
  codes : t.codes = huffmanCodes freqs
  symbols : t.symbols.Perm (freqs.map (·.1))
  tight : t.Tight
  node : ∃ a b, t = .node a b

theorem exists_isCodeTree {freqs : List (Pair × Nat)} (h : freqs ≠ []) : ∃ t, IsCodeTree freqs t := by
  match freqs with
  | [] => exact absurd rfl h
  | [(s, n)] => exact ⟨.node (.leaf s) .absent, rfl, .refl _, ⟨trivial, trivial, by simp⟩, _, _, rfl⟩
  | f :: g :: fs =>
    obtain ⟨t, ht, hsym⟩ := huffmanTree_symbols h
    refine ⟨t.toCTree, ?_, t.symbols_toCTree ▸ hsym, t.toCTree_tight, ?_⟩
    · rw [t.codes_toCTree, huffmanCodes, ht]
      exact fun _ _ h => by simp at h
    · cases t with
      | leaf s => simpa [HTree.symbols] using hsym.length_eq
      | node a b => exact ⟨_, _, rfl⟩

theorem codeOf_mem {codes : List (Pair × List Bool)} {s : Pair} (h : s ∈ codes.map (·.1)) :
    (s, codeOf codes s) ∈ codes := by
  induction codes with
  | nil => cases h
  | cons p codes ih =>
    obtain ⟨t, c⟩ := p
    rw [codeOf]
    split
    · next hts => exact hts ▸ List.mem_cons_self
    · next hts =>
      exact List.mem_cons_of_mem _ (ih ((List.mem_cons.mp h).resolve_left fun hst => hts hst.symm))

section
variable {freqs : List (Pair × Nat)} {t : CTree} {s : Pair} (h : IsCodeTree freqs t) (hs : s ∈ freqs.map (·.1))
include h hs

/-- The code of a symbol leads to its leaf. -/
theorem IsCodeTree.codeOf_mem : (s, codeOf (huffmanCodes freqs) s) ∈ t.codes := by
  rw [← h.codes]
  exact Machine.codeOf_mem (t.codes_symbols ▸ h.symbols.mem_iff.mpr hs)

/-- Every symbol's code has a bit (R283). -/
theorem IsCodeTree.codeOf_ne_nil : codeOf (huffmanCodes freqs) s ≠ [] := by
  intro hnil
  have hmem := h.codeOf_mem hs
  rw [hnil] at hmem
  obtain ⟨a, b, rfl⟩ := h.node
  exact CTree.noConfusion (CTree.eq_leaf_of_nil_mem_codes hmem)

end

end Sys2Proof.Machine

namespace Sys2Proof.Machine

/-! ## The records of a dictionary (R284, R291) -/

/-- A symbol that its record holds whole: the run in a byte, the value in an i32. -/
def Pair.InRange (s : Pair) : Prop := s.run ≤ 15 ∧ -2147483648 ≤ s.val ∧ s.val ≤ 2147483647

theorem asI32_i32Bits {v : Int} (hlo : -2147483648 ≤ v) (hhi : v ≤ 2147483647) : asI32 (i32Bits v) = v := by
  rw [asI32, i32Bits, BitVec.toInt_ofInt, Int.bmod_eq_of_le (by omega) (by omega)]

theorem readCode_asciiBits (c : List Bool) (src : List SrcCell) :
    readCode ((asciiBits c).map some ++ some 0x20 :: src) = .ok (c, some 0x20 :: src) := by
  induction c with
  | nil => rfl
  | cons bit c ih =>
    rw [asciiBits, List.map_cons, ← asciiBits, List.map_cons, List.cons_append, readCode, readCell_some, ok_bind, ih]
    cases bit <;> rfl

theorem dictByte_some (b : Byte) (d : List SrcCell) : dictByte (some b :: d) = .ok (b, d) := rfl

/-- A record is its six fixed bytes, the code's characters and the last separator. -/
theorem dictRecord_append (s : Pair) (c : List Bool) (bs : List Byte) : dictRecord s c ++ bs =
    BitVec.ofNat 8 s.run :: (i32Bits s.val).extractLsb' 24 8 :: (i32Bits s.val).extractLsb' 16 8 ::
      (i32Bits s.val).extractLsb' 8 8 :: (i32Bits s.val).extractLsb' 0 8 :: 0x20 :: (asciiBits c ++ 0x20 :: bs) := by
  simp [dictRecord, be32]

theorem readRecord_dictRecord {s : Pair} {c : List Bool} (hs : s.InRange) (hc : c ≠ []) (bs : List Byte) :
    readRecord ((dictRecord s c ++ bs).map some) = .ok (s, c, bs.map some) := by
  obtain ⟨hrun, hlo, hhi⟩ := hs
  have hrunByte : (BitVec.ofNat 8 s.run).toNat = s.run := by
    rw [BitVec.toNat_ofNat, Nat.mod_eq_of_lt (by omega)]
  rw [readRecord, decide_eq_true (by simp [dictRecord, be32]), check_true, ok_bind, dictRecord_append]
  simp only [List.map_cons, List.map_append, dictByte_some, ok_bind, hrunByte, readCode_asciiBits, rdBE32_be32,
    asI32_i32Bits hlo hhi]
  rw [decide_eq_true ⟨hrun, trivial⟩, decide_eq_true hc]
  rfl

/-- The records of a dictionary in order, each with its symbol's code (R284). -/
def recordsOf (codes : List (Pair × List Bool)) (syms : List Pair) : List Byte :=
  syms.flatMap fun s => dictRecord s (codeOf codes s)

theorem dictionary_eq_recordsOf (freqs : List (Pair × Nat)) (codes : List (Pair × List Bool)) :
    dictionary freqs codes = recordsOf codes (freqs.map (·.1)) := by
  rw [dictionary, recordsOf, List.flatMap_map]

theorem length_recordsOf_lt (codes : List (Pair × List Bool)) (s : Pair) (syms : List Pair) :
    (recordsOf codes syms).length < (recordsOf codes (s :: syms)).length := by
  simp [recordsOf, dictRecord, be32]
  omega

theorem CTree.insert_root (s : Pair) (c : List Bool) :
    CTree.insert s c (.node .absent .absent) = CTree.insert s c .absent := by
  cases c with
  | nil => rfl
  | cons bit c =>
    rw [CTree.insert, CTree.insert]
    cases bit <;> rfl

/-- BUILD starts at an empty root, on which the first record acts as on no node (R291). -/
theorem buildLoop_root {fuel : Nat} (hfuel : 0 < fuel) {d : List SrcCell} (hd : d ≠ []) :
    buildLoop fuel d (.node .absent .absent) = buildLoop fuel d .absent := by
  obtain ⟨fuel, rfl⟩ := Nat.exists_eq_add_of_le' hfuel
  rw [buildLoop, buildLoop, if_neg hd, if_neg hd]
  simp only [CTree.insert_root]

section
variable {freqs : List (Pair × Nat)} {t : CTree} (h : IsCodeTree freqs t) (hnodup : (freqs.map (·.1)).Nodup)
  (hrange : ∀ s ∈ freqs.map (·.1), s.InRange)
include h hnodup hrange

/-- One round of BUILD on the record of a symbol not yet there (R291). -/
theorem buildLoop_record {s : Pair} (hs : s ∈ freqs.map (·.1)) {done : List Pair} (hdone : s ∉ done) (fuel : Nat)
    (bs : List Byte) :
    buildLoop (fuel + 1) ((dictRecord s (codeOf (huffmanCodes freqs) s) ++ bs).map some) (t.restrict done) =
      buildLoop fuel (bs.map some) (t.restrict (s :: done)) := by
  have hne := h.codeOf_ne_nil hs
  rw [buildLoop, if_neg (by simp [dictRecord_append]), readRecord_dictRecord (hrange s hs) hne, ok_bind]
  dsimp only
  rw [CTree.insert_restrict (h.codeOf_mem hs) hne (h.symbols.nodup_iff.mpr hnodup) hdone]

/-- BUILD adds the symbols of the records still to come. -/
theorem buildLoop_recordsOf {todo done : List Pair} (htodo : ∀ s ∈ todo, s ∈ freqs.map (·.1))
    (hdisj : (todo ++ done).Nodup) {fuel : Nat} (hfuel : (recordsOf (huffmanCodes freqs) todo).length ≤ fuel) :
    buildLoop fuel ((recordsOf (huffmanCodes freqs) todo).map some) (t.restrict done) =
      .ok (t.restrict (todo.reverse ++ done)) := by
  induction todo generalizing done fuel with
  | nil => cases fuel <;> rfl
  | cons s todo ih =>
    obtain ⟨hs, htodo⟩ := List.forall_mem_cons.mp htodo
    obtain ⟨hnot, hdisj⟩ := List.nodup_cons.mp hdisj
    have hlen := length_recordsOf_lt (huffmanCodes freqs) s todo
    obtain ⟨fuel, rfl⟩ := Nat.exists_eq_add_of_le' (show 1 ≤ fuel by omega)
    rw [recordsOf, List.flatMap_cons, ← recordsOf, buildLoop_record h hnodup hrange hs
      (fun hd => hnot (List.mem_append_right _ hd)), ih htodo ?_ (by omega), List.reverse_cons,
      List.append_assoc]
    · rfl
    · exact (List.perm_middle.nodup_iff).mpr (List.nodup_cons.mpr ⟨hnot, hdisj⟩)

/-- BUILD on a channel's dictionary gives the decoder's tree of its frequencies. -/
theorem buildTree_dictionary (hfreqs : freqs ≠ []) :
    buildTree ((dictionary freqs (huffmanCodes freqs)).map some) = .ok t := by
  obtain ⟨s, todo, hsyms⟩ := List.exists_cons_of_ne_nil (mt List.map_eq_nil_iff.mp hfreqs)
  have hlen := length_recordsOf_lt (huffmanCodes freqs) s todo
  have hloop := buildLoop_recordsOf h hnodup hrange (done := []) (fun _ hs => hs) (by rwa [List.append_nil])
    (Nat.le_refl _)
  rw [← hsyms, ← dictionary_eq_recordsOf] at hlen
  rw [← dictionary_eq_recordsOf, CTree.restrict_nil, List.append_nil, CTree.restrict_of_all h.tight fun s hs =>
    List.mem_reverse.mpr (h.symbols.mem_iff.mp hs)] at hloop
  have hne : (dictionary freqs (huffmanCodes freqs)).map some ≠ [] :=
    List.ne_nil_of_length_pos (by rw [List.length_map]; omega)
  rw [buildTree, decide_eq_true hne, check_true, ok_bind, List.length_map, buildLoop_root (by omega) hne, hloop]

end

end Sys2Proof.Machine

namespace Sys2Proof.Machine

/-! ## The bits of a stream (R286, R292) -/

/-- The bits of bytes, each byte's most significant first (R286). -/
def bitsOf (bs : List Byte) : List Bool := bs.flatMap cellBits.controlBits

theorem bitsOf_append (a b : List Byte) : bitsOf (a ++ b) = bitsOf a ++ bitsOf b := List.flatMap_append

theorem flatMap_cellBits (bs : List Byte) : (bs.map some).flatMap cellBits = (bitsOf bs).map some := by
  rw [List.flatMap_map, bitsOf, List.map_flatMap]
  rfl

/-- The bits of a packed byte, for all 256 groups of eight. -/
theorem controlBits_packByte_full :
    ∀ b0 b1 b2 b3 b4 b5 b6 b7 : Bool, cellBits.controlBits (packByte [b0, b1, b2, b3, b4, b5, b6, b7]) =
      [b0, b1, b2, b3, b4, b5, b6, b7] := by decide

/-- Missing bits are packed as 0. -/
theorem packByte_pad (bits : List Bool) (n : Nat) : packByte (bits ++ List.replicate n false) = packByte bits := by
  have hget : ∀ i, (bits ++ List.replicate n false).getD i false = bits.getD i false := fun i => by
    rw [List.getD_eq_getElem?_getD, List.getD_eq_getElem?_getD, List.getElem?_append]
    split
    · rfl
    · next hi =>
      rw [List.getElem?_eq_none (Nat.le_of_not_lt hi), List.getElem?_replicate]
      split <;> rfl
  simp only [packByte, hget]

theorem controlBits_packByte {bits : List Bool} (h : bits.length ≤ 8) :
    cellBits.controlBits (packByte bits) = bits ++ List.replicate (8 - bits.length) false := by
  have hlen : (bits ++ List.replicate (8 - bits.length) false).length = 8 := by simp; omega
  rw [← packByte_pad bits (8 - bits.length)]
  generalize bits ++ List.replicate (8 - bits.length) false = l at hlen
  match l, hlen with
  | [b0, b1, b2, b3, b4, b5, b6, b7], _ => exact controlBits_packByte_full b0 b1 b2 b3 b4 b5 b6 b7

/-- PACK (R286) loses no bit, and takes the fewest bytes. -/
theorem packLoop_bits {fuel : Nat} {bits : List Bool} (hfuel : bits.length ≤ fuel) :
    bits <+: bitsOf (packLoop fuel bits) ∧ (packLoop fuel bits).length = (bits.length + 7) / 8 := by
  induction fuel generalizing bits with
  | zero =>
    obtain rfl := List.eq_nil_of_length_eq_zero (Nat.le_zero.mp hfuel)
    exact ⟨List.nil_prefix, rfl⟩
  | succ fuel ih =>
    rw [packLoop]
    split
    · next hnil => exact ⟨hnil ▸ List.nil_prefix, by rw [hnil]; rfl⟩
    · next hne =>
      have hpos := List.length_pos_iff.mpr hne
      obtain ⟨hprefix, hlen⟩ := ih (bits := bits.drop 8) (by rw [List.length_drop]; omega)
      refine ⟨?_, by rw [List.length_cons, hlen, List.length_drop]; omega⟩
      rw [bitsOf, List.flatMap_cons, ← bitsOf, controlBits_packByte (List.length_take_le 8 bits)]
      rcases Nat.lt_or_ge bits.length 8 with hlt | hge
      · rw [List.take_of_length_le (Nat.le_of_lt hlt), List.append_assoc]
        exact List.prefix_append _ _
      · rw [List.length_take_of_le hge, Nat.sub_self, List.replicate_zero, List.append_nil]
        simpa only [List.take_append_drop] using (List.prefix_append_right_inj (bits.take 8)).mpr hprefix

theorem length_packBits (bits : List Bool) : (packBits bits).length = (bits.length + 7) / 8 :=
  (packLoop_bits (Nat.le_refl _)).2

theorem prefix_bitsOf_packBits (bits : List Bool) : bits <+: bitsOf (packBits bits) :=
  (packLoop_bits (Nat.le_refl _)).1

/-! ## The walk over a stream (R292) -/

section
variable {root : CTree} {n count : Nat} {acc : List Int}

theorem walk_done (h : n ≤ count) (bits : List (Option Bool)) (node : CTree) (nb : Nat) :
    walk root n bits node count acc nb = .ok (acc.reverse, nb) := by
  unfold walk
  exact if_pos h

/-- A symbol's code leads from a node to its leaf, and the walk goes on at the root. -/
theorem walk_code {s : Pair} (hs : count + s.run + 1 ≤ n) {c : List Bool} {node : CTree} (hmem : (s, c) ∈ node.codes)
    (hc : c ≠ []) (bits : List (Option Bool)) (nb : Nat) :
    walk root n (c.map some ++ bits) node count acc nb =
      walk root n bits root (count + s.run + 1) (s.val :: (List.replicate s.run 0 ++ acc)) (nb + c.length) := by
  induction c generalizing node nb with
  | nil => exact absurd rfl hc
  | cons bit c ih =>
    obtain ⟨a, b, rfl⟩ := CTree.exists_node_of_cons_mem_codes hmem
    have hchild : (s, c) ∈ ((CTree.node a b).child bit).codes := by
      cases bit with
      | false => exact CTree.cons_false_mem_codes.mp hmem
      | true => exact CTree.cons_true_mem_codes.mp hmem
    rw [List.map_cons, List.cons_append, walk, if_neg (by omega)]
    cases c with
    | nil =>
      rw [CTree.eq_leaf_of_nil_mem_codes hchild]
      exact if_neg (by omega)
    | cons bit' c =>
      obtain ⟨a', b', hnode⟩ := CTree.exists_node_of_cons_mem_codes hchild
      rw [hnode] at hchild ⊢
      have htail := ih hchild (List.cons_ne_nil _ _) (nb + 1)
      rwa [Nat.add_right_comm nb, Nat.add_assoc nb] at htail

/-- The walk over the codes of pairs that the sequence has room for gives their expansion. -/
theorem walk_streamBits {freqs : List (Pair × Nat)} (h : IsCodeTree freqs root) {l : List Pair}
    (hl : ∀ s ∈ l, s ∈ freqs.map (·.1)) (hroom : count + (expandPairs l).length ≤ n) (bits : List (Option Bool))
    (nb : Nat) :
    walk root n ((streamBits (huffmanCodes freqs) l).map some ++ bits) root count acc nb =
      walk root n bits root (count + (expandPairs l).length) ((expandPairs l).reverse ++ acc)
        (nb + (streamBits (huffmanCodes freqs) l).length) := by
  induction l generalizing count acc nb with
  | nil => rfl
  | cons s l ih =>
    obtain ⟨hs, hl⟩ := List.forall_mem_cons.mp hl
    simp only [expandPairs_cons, List.length_append, List.length_replicate, List.length_cons] at hroom
    rw [streamBits, List.flatMap_cons, ← streamBits, List.map_append, List.append_assoc,
      walk_code (by omega) (h.codeOf_mem hs) (h.codeOf_ne_nil hs), ih hl (by omega)]
    simp [expandPairs_cons, Nat.add_assoc, Nat.add_comm]

end

/-- The walk over a packed stream gives the expansion of its pairs and stops at the byte behind the stream. -/
theorem walkChannel_packBits {freqs : List (Pair × Nat)} {root : CTree} (h : IsCodeTree freqs root) {l : List Pair}
    (hl : ∀ s ∈ l, s ∈ freqs.map (·.1)) (rest : List Byte) :
    walkChannel root (expandPairs l).length
        ((packBits (streamBits (huffmanCodes freqs) l) ++ rest).map some) =
      .ok (⟨root, (streamBits (huffmanCodes freqs) l).length, expandPairs l⟩, rest.map some) := by
  obtain ⟨pad, hpad⟩ := prefix_bitsOf_packBits (streamBits (huffmanCodes freqs) l)
  rw [walkChannel, flatMap_cellBits, bitsOf_append, ← hpad, List.append_assoc, List.map_append,
    walk_streamBits h hl (by omega), walk_done (by omega), ok_bind]
  dsimp only
  rw [← List.map_drop, Nat.zero_add, ← length_packBits, List.drop_left, List.append_nil, List.reverse_reverse]

/-! ## A channel is read back (R281 to R286, R291, R292) -/

/-- `d` is what JPEG.D finds of the channel that the encoder wrote for its coefficients: the tree of its dictionary, and
itself at the end of the walk over its stream. -/
structure ChannelDec.ReadsBack (d : ChannelDec) : Prop where
  tree : buildTree ((channelEnc d.coeffs).dict.map some) = .ok d.tree
  walk : ∀ rest : List Byte, walkChannel d.tree d.coeffs.length
    (((channelEnc d.coeffs).stream ++ rest).map some) = .ok (d, rest.map some)

/-- The entropy stage loses nothing of a coefficient sequence of whole blocks. -/
theorem exists_readsBack {b : Nat} {coeffs : List Int} (hb : 1 ≤ b) (hlen : coeffs.length = 64 * b)
    (hrange : ∀ c ∈ coeffs, -2147483648 ≤ c ∧ c ≤ 2147483647) : ∃ d : ChannelDec, d.coeffs = coeffs ∧ d.ReadsBack := by
  have hne : frequencies (pairsOf coeffs) ≠ [] := by
    have := (length_pairsOf_bounds hlen).1
    obtain ⟨s, hs⟩ := List.exists_mem_of_length_pos (l := pairsOf coeffs) (by omega)
    exact fun hnil => List.ne_nil_of_mem (mem_symbolsOf.mpr hs) (List.map_eq_nil_iff.mpr hnil)
  obtain ⟨root, hroot⟩ := exists_isCodeTree hne
  have hinRange : ∀ s ∈ symbolsOf (pairsOf coeffs), s.InRange := fun s hs =>
    ⟨pairsOf_run_le coeffs s (mem_symbolsOf.mp hs), hrange _ (pairsOf_val_mem hlen (mem_symbolsOf.mp hs))⟩
  have hwalk := walkChannel_packBits hroot fun s hs => mem_symbolsOf.mpr hs
  rw [expandPairs_pairsOf hlen] at hwalk
  exact ⟨⟨root, _, coeffs⟩, rfl, ⟨buildTree_dictionary hroot (symbolsOf_nodup _) hinRange hne, hwalk⟩⟩

end Sys2Proof.Machine

namespace Sys2Proof.Machine

/-! ## The container header (R285, R290) -/

/-- Tokens with one space between two of them (R285). -/
def spaced (t : List Byte) (ts : List (List Byte)) : List Byte := t ++ ts.flatMap fun t => sp ++ t

/-- The values of the container header of an image (R285, R290). -/
def headerOf (img : Image) (dictLens : List Nat) : ContainerHeader :=
  ⟨img.width, img.height, img.maxVal, padOf img.width, padOf img.height, dictLens⟩

/-- The numbers of the container header of an image, in order (R285). -/
def headerNumbers (img : Image) (dictLens : List Nat) : List Nat :=
  [img.width, img.height, img.maxVal, padOf img.width, padOf img.height] ++ dictLens

theorem containerHeader_eq (img : Image) (dicts : List (List Byte)) :
    containerHeader img dicts = spaced asciiP6 ((headerNumbers img (dicts.map (·.length))).map dec) ++ lf := by
  simp [containerHeader, spaced, headerNumbers, List.flatMap_map]

theorem readLine_line {line : List Byte} (h : (0x0A : Byte) ∉ line) (bs : List Byte) :
    readLine ((line ++ lf ++ bs).map some) = .ok (line, bs.map some) := by
  induction line with
  | nil => rfl
  | cons b line ih =>
    obtain ⟨hb, hline⟩ : (0x0A : Byte) ≠ b ∧ (0x0A : Byte) ∉ line := by simpa [not_or] using h
    rw [List.cons_append, List.cons_append, List.map_cons, readLine, readCell_some, ok_bind, if_neg hb.symm, ih hline]
    rfl

theorem splitTokens_token {t : List Byte} (h : (0x20 : Byte) ∉ t) : splitTokens t = [t] := by
  induction t with
  | nil => rfl
  | cons b t ih =>
    obtain ⟨hb, ht⟩ : (0x20 : Byte) ≠ b ∧ (0x20 : Byte) ∉ t := by simpa [not_or] using h
    rw [splitTokens, if_neg hb.symm, ih ht]

theorem splitTokens_append_sp {t : List Byte} (h : (0x20 : Byte) ∉ t) (l : List Byte) :
    splitTokens (t ++ (sp ++ l)) = t :: splitTokens l := by
  induction t with
  | nil => rfl
  | cons b t ih =>
    obtain ⟨hb, ht⟩ : (0x20 : Byte) ≠ b ∧ (0x20 : Byte) ∉ t := by simpa [not_or] using h
    rw [List.cons_append, splitTokens, if_neg hb.symm, ih ht]

theorem splitTokens_spaced {t : List Byte} {ts : List (List Byte)} (ht : (0x20 : Byte) ∉ t)
    (hts : ∀ t ∈ ts, (0x20 : Byte) ∉ t) : splitTokens (spaced t ts) = t :: ts := by
  induction ts generalizing t with
  | nil => rw [spaced, List.flatMap_nil, List.append_nil, splitTokens_token ht]
  | cons u ts ih =>
    obtain ⟨hu, hts⟩ := List.forall_mem_cons.mp hts
    rw [spaced, List.flatMap_cons, List.append_assoc, splitTokens_append_sp ht, ← spaced, ih hu hts]

theorem lf_not_mem_spaced_dec (ns : List Nat) : (0x0A : Byte) ∉ spaced asciiP6 (ns.map dec) := by
  have hdec : ∀ n, (0x0A : Byte) ∉ dec n := fun n => dec_not_mem (by decide)
  rw [spaced, List.mem_append, List.mem_flatMap]
  rintro (h | ⟨t, ht, h⟩)
  · exact absurd h (by decide)
  · obtain ⟨n, -, rfl⟩ := List.mem_map.mp ht
    exact hdec n ((List.mem_append.mp h).resolve_left (by decide))

theorem tokenValue_dec {n : Nat} (hn : n < 2 ^ 31) : tokenValue (dec n) = .ok n := by
  obtain ⟨hdigits, hne, hvalue, -⟩ := isDecimal_dec n
  have hlen := (isDecimal_dec n).length_le_ten hn
  rw [tokenValue, decide_eq_true ⟨List.length_pos_iff.mpr hne, hlen⟩, List.all_eq_true.mpr hdigits, hvalue,
    decide_eq_true hn]
  rfl

theorem tokenValues_dec {ns : List Nat} (hns : ∀ n ∈ ns, n < 2 ^ 31) : tokenValues (ns.map dec) = .ok ns := by
  induction ns with
  | nil => rfl
  | cons n ns ih =>
    obtain ⟨hn, hns⟩ := List.forall_mem_cons.mp hns
    rw [List.map_cons, tokenValues, tokenValue_dec hn, ok_bind, ih hns, ok_bind]

theorem padOf_lt (n : Nat) : padOf n < 8 := Nat.mod_lt _ (by decide)

section
variable {img : Image} (himg : img.Admitted)
include himg

theorem Image.Admitted.numbers_lt {dictLens : List Nat} (hdict : ∀ n ∈ dictLens, n < 2 ^ 31) :
    ∀ n ∈ headerNumbers img dictLens, n < 2 ^ 31 := by
  have hw := padOf_lt img.width
  have hh := padOf_lt img.height
  obtain ⟨⟨-, -, -, hmx⟩, hwidth, hheight⟩ := himg
  intro n hn
  simp only [headerNumbers, List.mem_append, List.mem_cons, List.not_mem_nil, or_false] at hn
  rcases hn with (rfl | rfl | rfl | rfl | rfl) | hn
  · exact hwidth
  · exact hheight
  · omega
  · omega
  · omega
  · exact hdict n hn

theorem parseTokens_header {dictLens : List Nat} (hthree : dictLens.length = 3)
    (hdict : ∀ n ∈ dictLens, n < 2 ^ 31) :
    parseTokens (asciiP6 :: (headerNumbers img dictLens).map dec) = .ok (headerOf img dictLens) := by
  obtain ⟨h1, h2, h3, h4⟩ := himg.values
  have hvalues := tokenValues_dec (himg.numbers_lt hdict)
  match dictLens, hthree with
  | [d0, d1, d2], _ =>
    simp only [headerNumbers, List.cons_append, List.nil_append, List.map_cons, List.map_nil] at hvalues ⊢
    rw [parseTokens, decide_eq_true rfl, check_true, ok_bind, hvalues, ok_bind]
    exact bind_ok.mpr ⟨(), check_ok.mpr (decide_eq_true ⟨h1, h2, h3, h4, rfl, rfl⟩), rfl⟩

/-- The header of a container with three dictionaries is read back (R290). -/
theorem parseContainerHeader_header {maxPixels : Nat} (hmax : img.width * img.height ≤ maxPixels)
    {dicts : List (List Byte)} (hthree : dicts.length = 3) (hdict : ∀ d ∈ dicts, d.length < 2 ^ 31)
    (bs : List Byte) :
    parseContainerHeader maxPixels ((containerHeader img dicts ++ bs).map some) =
      .ok (headerOf img (dicts.map (·.length)), bs.map some) := by
  have htokens : ∀ t ∈ (headerNumbers img (dicts.map (·.length))).map dec, (0x20 : Byte) ∉ t := by
    intro t ht
    obtain ⟨n, -, rfl⟩ := List.mem_map.mp ht
    exact dec_not_mem (by decide)
  have hparse := parseTokens_header himg (dictLens := dicts.map (·.length)) (by rw [List.length_map, hthree])
    (List.forall_mem_map.mpr hdict)
  rw [containerHeader_eq, parseContainerHeader, readLine_line (lf_not_mem_spaced_dec _), ok_bind]
  dsimp only
  rw [splitTokens_spaced (by decide) htokens, hparse, ok_bind]
  exact bind_ok.mpr ⟨(), check_ok.mpr (decide_eq_true hmax), rfl⟩

end

/-! ## The three channels of a container (R287, R291, R292) -/

/-- A list of images under a function, each of an element with a property, is the image of a list of such elements. -/
theorem exists_map_eq {α β : Type} {f : β → α} {P : β → Prop} {l : List α} (h : ∀ a ∈ l, ∃ b, f b = a ∧ P b) :
    ∃ bs : List β, bs.map f = l ∧ ∀ b ∈ bs, P b := by
  induction l with
  | nil => exact ⟨[], rfl, fun _ hb => absurd hb List.not_mem_nil⟩
  | cons a l ih =>
    obtain ⟨ha, hl⟩ := List.forall_mem_cons.mp h
    obtain ⟨b, rfl, hb⟩ := ha
    obtain ⟨bs, rfl, hbs⟩ := ih hl
    exact ⟨b :: bs, rfl, List.forall_mem_cons.mpr ⟨hb, hbs⟩⟩

section
variable {ds : List ChannelDec} (h : ∀ d ∈ ds, d.ReadsBack)
include h

theorem buildTrees_dicts (rest : List Byte) :
    buildTrees ((ds.map (·.coeffs)).map fun c => (channelEnc c).dict.length)
        ((((ds.map (·.coeffs)).flatMap fun c => (channelEnc c).dict) ++ rest).map some) =
      .ok (ds.map (·.tree), rest.map some) := by
  induction ds with
  | nil => rfl
  | cons d ds ih =>
    obtain ⟨hd, hds⟩ := List.forall_mem_cons.mp h
    have hfits : (channelEnc d.coeffs).dict.length ≤ inRemaining (((channelEnc d.coeffs).dict ++
        (((ds.map (·.coeffs)).flatMap fun c => (channelEnc c).dict) ++ rest)).map some) := by
      rw [inRemaining, List.length_map, List.length_append]
      exact Nat.le_add_right _ _
    rw [List.map_cons, List.map_cons, List.flatMap_cons, List.append_assoc, buildTrees, decide_eq_true hfits,
      check_true, ok_bind, ← List.map_take, List.take_left, hd.tree, ok_bind, ← List.map_drop, List.drop_left, ih hds]
    rfl

theorem walkChannels_streams {n : Nat} (hn : ∀ c ∈ ds.map (·.coeffs), c.length = n) (rest : List Byte) :
    walkChannels n (ds.map (·.tree))
        ((((ds.map (·.coeffs)).flatMap fun c => (channelEnc c).stream) ++ rest).map some) =
      .ok (ds, rest.map some) := by
  induction ds with
  | nil => rfl
  | cons d ds ih =>
    obtain ⟨hd, hds⟩ := List.forall_mem_cons.mp h
    obtain ⟨hlen, hn⟩ := List.forall_mem_cons.mp hn
    rw [List.map_cons, List.map_cons, List.flatMap_cons, List.append_assoc, walkChannels, ← hlen, hd.walk, ok_bind,
      hlen]
    dsimp only
    rw [ih hds hn]
    rfl

end

/-! ## The coefficients of an image (R251, R256 to R259) -/

theorem length_zigzag (q : List Int) : (zigzag q).length = 64 := List.length_map _

theorem wrap32_range (x : Int) : -2147483648 ≤ wrap32 x ∧ wrap32 x ≤ 2147483647 := by
  unfold wrap32
  omega

theorem zigzag_quantBlock_range (p : Platform) (f : List Int) :
    ∀ c ∈ zigzag (quantBlock p f), -2147483648 ≤ c ∧ c ≤ 2147483647 := by
  intro c hc
  obtain ⟨i, -, rfl⟩ := List.mem_map.mp hc
  rw [List.getD_eq_getElem?_getD]
  cases hget : (quantBlock p f)[i]? with
  | none => decide
  | some v =>
    obtain ⟨t, -, rfl⟩ := List.mem_map.mp (List.mem_of_getElem? hget)
    exact wrap32_range _

theorem length_flatMap_of_length {α β : Type} {f : α → List β} {n : Nat} (l : List α) (hf : ∀ a, (f a).length = n) :
    (l.flatMap f).length = n * l.length := by
  induction l with
  | nil => rfl
  | cons a l ih => rw [List.flatMap_cons, List.length_append, hf, ih, List.length_cons, Nat.mul_succ, Nat.add_comm]

/-- The blocks of a plane of whole blocks (R251). -/
theorem length_blocksOf (wp hp : Nat) (plane : Plane) : (blocksOf wp hp plane).length = wp / 8 * (hp / 8) := by
  rw [blocksOf, length_flatMap_of_length (n := wp / 8) _ fun byy => by rw [List.length_map, List.length_range],
    List.length_range]

theorem imageCoeffs_eq (p : Platform) (img : Image) : imageCoeffs p img = (planesOf p img).map fun plane =>
    (blocksOf (img.width + padOf img.width) (img.height + padOf img.height) plane).flatMap fun f =>
      zigzag (quantBlock p f) := by
  rw [imageCoeffs, encodeChannels, List.map_map]
  rfl

theorem encodeChannels_eq (p : Platform) (img : Image) : encodeChannels p img = (imageCoeffs p img).map channelEnc := by
  rw [imageCoeffs_eq, encodeChannels, List.map_map]
  rfl

theorem length_imageCoeffs (p : Platform) (img : Image) : (imageCoeffs p img).length = 3 := by
  rw [imageCoeffs_eq]
  rfl

/-- Padding makes a dimension a positive multiple of 8 (R246). -/
theorem exists_padded {n : Nat} (hn : 1 ≤ n) : ∃ k, 1 ≤ k ∧ n + padOf n = 8 * k :=
  ⟨(n + 7) / 8, by omega, by unfold padOf; omega⟩

section
variable {p : Platform} {img : Image}

theorem imageCoeffs_range {coeffs : List Int} (h : coeffs ∈ imageCoeffs p img) :
    ∀ c ∈ coeffs, -2147483648 ≤ c ∧ c ≤ 2147483647 := by
  rw [imageCoeffs_eq] at h
  obtain ⟨plane, -, rfl⟩ := List.mem_map.mp h
  intro c hc
  obtain ⟨f, -, hc⟩ := List.mem_flatMap.mp hc
  exact zigzag_quantBlock_range p f c hc

variable (hw : 1 ≤ img.width) (hh : 1 ≤ img.height)
include hw hh

/-- A channel has one coefficient for each sample of the padded plane, in whole blocks. -/
theorem length_of_mem_imageCoeffs {coeffs : List Int} (h : coeffs ∈ imageCoeffs p img) :
    coeffs.length = (img.width + padOf img.width) * (img.height + padOf img.height) ∧
      ∃ b, 1 ≤ b ∧ coeffs.length = 64 * b := by
  rw [imageCoeffs_eq] at h
  obtain ⟨plane, -, rfl⟩ := List.mem_map.mp h
  obtain ⟨i, hi, hwp⟩ := exists_padded hw
  obtain ⟨j, hj, hhp⟩ := exists_padded hh
  have hlen : ((blocksOf (8 * i) (8 * j) plane).flatMap fun f => zigzag (quantBlock p f)).length = 64 * (i * j) := by
    rw [length_flatMap_of_length _ fun f => length_zigzag _, length_blocksOf, Nat.mul_div_cancel_left _ (by decide),
      Nat.mul_div_cancel_left _ (by decide)]
  rw [hwp, hhp, hlen]
  exact ⟨(Nat.mul_mul_mul_comm 8 i 8 j).symm, i * j, Nat.mul_pos hi hj, rfl⟩

theorem exists_readsBack_imageCoeffs :
    ∃ ds : List ChannelDec, ds.map (·.coeffs) = imageCoeffs p img ∧ ∀ d ∈ ds, d.ReadsBack :=
  exists_map_eq fun _ hc =>
    have ⟨_, hb, hlen⟩ := (length_of_mem_imageCoeffs hw hh hc).2
    exists_readsBack hb hlen (imageCoeffs_range hc)

end

/-! ## The container of an image is read back (R287, R301) -/

theorem jpegEncode_eq (p : Platform) (img : Image) : jpegEncode p img =
    containerHeader img ((imageCoeffs p img).map fun c => (channelEnc c).dict) ++
      (((imageCoeffs p img).flatMap fun c => (channelEnc c).dict) ++
        ((imageCoeffs p img).flatMap fun c => (channelEnc c).stream)) := by
  rw [jpegEncode, containerOf, encodeChannels_eq, List.map_map, List.flatMap_map, List.flatMap_map, List.append_assoc]
  rfl

theorem length_dict_le_jpegEncode {p : Platform} {img : Image} {coeffs : List Int} (h : coeffs ∈ imageCoeffs p img) :
    (channelEnc coeffs).dict.length ≤ (jpegEncode p img).length := by
  have hmem : (channelEnc coeffs).dict ∈ (imageCoeffs p img).map fun c => (channelEnc c).dict :=
    List.mem_map_of_mem h
  have hle : (channelEnc coeffs).dict.length ≤ ((imageCoeffs p img).flatMap fun c => (channelEnc c).dict).length :=
    (List.sublist_flatten_of_mem hmem).length_le
  rw [jpegEncode_eq, List.length_append, List.length_append]
  omega

/-- JPEG.D's entropy stage finds in the container of an image its header values and its coefficients. -/
theorem parseContainer_jpegEncode {p : Platform} {img : Image} (himg : img.Admitted) {maxPixels : Nat}
    (hmax : img.width * img.height ≤ maxPixels) (hlen : (jpegEncode p img).length < 2 ^ 31) :
    ∃ dictLens ds, parseContainer maxPixels ((jpegEncode p img).map some) = .ok (headerOf img dictLens, ds, []) ∧
      ds.map (·.coeffs) = imageCoeffs p img := by
  refine ⟨(imageCoeffs p img).map fun c => (channelEnc c).dict.length, ?_⟩
  obtain ⟨hw, hh, -⟩ := himg.values
  obtain ⟨ds, hcoeffs, hds⟩ := exists_readsBack_imageCoeffs (p := p) hw hh
  have hheader := parseContainerHeader_header himg hmax
    (dicts := (imageCoeffs p img).map fun c => (channelEnc c).dict) (by rw [List.length_map, length_imageCoeffs])
    (List.forall_mem_map.mpr fun c hc => Nat.lt_of_le_of_lt (length_dict_le_jpegEncode hc) hlen)
  have htrees := buildTrees_dicts hds
  have hwalks := walkChannels_streams hds
    (fun c hc => (length_of_mem_imageCoeffs hw hh (hcoeffs ▸ hc)).1) []
  rw [hcoeffs] at htrees hwalks
  rw [List.append_nil] at hwalks
  refine ⟨ds, ?_, hcoeffs⟩
  rw [jpegEncode_eq, parseContainer, hheader, ok_bind]
  dsimp only
  rw [headerOf, List.map_map]
  dsimp only [Function.comp_def]
  rw [htrees, ok_bind]
  dsimp only
  rw [hwalks]
  rfl

/-! ## The commands (R300, R301) -/

theorem parseContainer_pads {maxPixels : Nat} {src : List SrcCell}
    {r : ContainerHeader × List ChannelDec × List SrcCell} (h : parseContainer maxPixels src = .ok r) :
    r.1.padW = padOf r.1.width ∧ r.1.padH = padOf r.1.height := by
  obtain ⟨⟨hd, _⟩, hheader, h⟩ := bind_ok.mp h
  obtain ⟨_, _, h⟩ := bind_ok.mp h
  obtain ⟨_, _, h⟩ := bind_ok.mp h
  cases h
  obtain ⟨_, _, h⟩ := bind_ok.mp hheader
  obtain ⟨_, htokens, h⟩ := bind_ok.mp h
  obtain ⟨_, _, h⟩ := bind_ok.mp h
  cases h
  unfold parseTokens at htokens
  split at htokens
  · obtain ⟨_, _, h⟩ := bind_ok.mp htokens
    obtain ⟨_, _, h⟩ := bind_ok.mp h
    obtain ⟨_, hvalues, h⟩ := bind_ok.mp h
    cases h
    obtain ⟨-, -, -, -, hpads⟩ := of_decide_eq_true (check_ok.mp hvalues)
    exact hpads
  · cases htokens

section
variable {s : State} {h : ContainerHeader} {ch : List ChannelDec} {rest : List SrcCell}
  (hparse : parseContainer s.plat.maxPixels s.srcCells = .ok (h, ch, rest))
include hparse

/-- JPEG.D appends the header and the pixels of the image file (R293, R301). -/
theorem imageFile_eq_chunks : imageFile s.plat h.width h.height h.maxVal (ch.map (·.coeffs)) =
    [ppmHeader h.width h.height h.maxVal,
      pixelBytes s.plat h.width h.height (decodePlanes s.plat h ch)].flatten := by
  obtain ⟨hpw, hph⟩ : h.padW = padOf h.width ∧ h.padH = padOf h.height := parseContainer_pads hparse
  rw [imageFile, decodePlanes, hpw, hph, List.map_map]
  simp [Function.comp_def]

/-- JPEG.D on a container that parses writes the image of its coefficients (R301). -/
theorem jpegD_runsTo (hr : regionsOk .jpegD s.latch.ops = true) {out : List Byte}
    (hout : out = imageFile s.plat h.width h.height h.maxVal (ch.map (·.coeffs))) (hroom : s.room out.length = true) :
    s.RunsTo .jpegD (lengthResult out.length) s.latch.ops.dstAddr.toNat out := by
  rw [imageFile_eq_chunks hparse] at hout
  subst hout
  obtain ⟨k, hhead, hk⟩ := bind_ok.mp (putChunks_start hroom)
  obtain ⟨k', hpix, hk'⟩ := bind_ok.mp hk
  cases hk'
  refine runsTo_of_codecFinish (x := jpegDBody s) (n := s.srcCells.length - rest.length)
    (u := .imgDec (decodePlanes s.plat h ch) ch) hr rfl ?_
  rw [jpegDBody, hparse, ok_bind]
  dsimp only
  rw [hhead, ok_bind, hpix, ok_bind]

end

/-- JPEG.C without error leaves the container of its image at the destination. -/
theorem readRegion_jpegC {s t : State} {img : Image} (hparse : parsePpm s.plat.maxPixels s.srcCells = .ok img)
    (h : exec .jpegC s = .next t) (herr : t.status.err = false) :
    t.mem.readRegion ⟨s.latch.ops.dstAddr.toNat, t.res.len.toNat⟩ = jpegEncode s.plat img := by
  obtain ⟨d, hbody, rfl⟩ := body_ok_of_no_error h herr
  obtain ⟨img', hparse', hd⟩ := bind_ok.mp (wrapCause_ok.mp hbody)
  obtain rfl : img' = img := Except.ok.inj (hparse'.symm.trans hparse)
  obtain ⟨k, hput, hd⟩ := bind_ok.mp hd
  cases hd
  obtain ⟨hcap, _, rfl⟩ := Sink.putEach_ok.mp hput
  rw [Sink.start_outlen, Nat.zero_add] at hcap
  exact readRegion_complete_codecFinish hcap

/-- Settles O55: the container in memory parses back to the header values and to the quantized coefficients, since the
decoder's tree is the encoder's and the walk follows its codes. -/
theorem jpegRoundTripKeepsDimensions : Obligations.JpegRoundTripKeepsDimensions := by
  intro s t u img hparse hexec herr hlen husrc hmax hr out hroom
  have hstored := readRegion_jpegC hparse hexec herr
  have hsize : (jpegEncode s.plat img).length < 2 ^ 31 := by
    rwa [← hstored, Memory.readRegion, List.length_map, List.length_range]
  obtain ⟨dictLens, ds, hcontainer, hcoeffs⟩ := parseContainer_jpegEncode (admitted_of_parsePpm hparse) hmax hsize
  rw [hstored, source_eq_some] at husrc
  rw [← husrc] at hcontainer
  exact jpegD_runsTo hcontainer hr (congrArg (imageFile u.plat img.width img.height img.maxVal) hcoeffs.symm) hroom

end Sys2Proof.Machine

namespace Sys2Proof.Machine

/-! ## The codes of a channel (R282, R283) -/

namespace CTree

/-- A code that begins another code of the same tree leads to the same leaf. -/
theorem eq_of_codes_prefix {t : CTree} {s s' : Pair} {c c' : List Bool} (h : (s, c) ∈ t.codes)
    (h' : (s', c') ∈ t.codes) (hpre : c <+: c') : s = s' := by
  induction t generalizing c c' with
  | absent => cases h
  | leaf r =>
    obtain ⟨rfl, -⟩ := Prod.mk.inj (List.mem_singleton.mp h)
    exact (Prod.mk.inj (List.mem_singleton.mp h')).1.symm
  | node a b iha ihb =>
    cases c with
    | nil => cases eq_leaf_of_nil_mem_codes h
    | cons bit c =>
      obtain ⟨e, rfl⟩ := hpre
      rw [List.cons_append] at h'
      cases bit with
      | false => exact iha (cons_false_mem_codes.mp h) (cons_false_mem_codes.mp h') (List.prefix_append c e)
      | true => exact ihb (cons_true_mem_codes.mp h) (cons_true_mem_codes.mp h') (List.prefix_append c e)

end CTree

theorem frequencies_ne_nil {l : List Pair} (h : l ≠ []) : frequencies l ≠ [] := by
  obtain ⟨s, hs⟩ := List.exists_mem_of_ne_nil l h
  exact mt List.map_eq_nil_iff.mpr (List.ne_nil_of_mem (mem_symbolsOf.mpr hs))

/-- A pair list of one symbol counts that symbol alone. -/
theorem exists_frequencies_eq_singleton {l : List Pair} (h : l ≠ []) {s : Pair} (hall : ∀ t ∈ l, t = s) :
    ∃ n, frequencies l = [(s, n)] := by
  have hone : ∀ x ∈ symbolsOf l, x = s := fun x hx => hall x (mem_symbolsOf.mp hx)
  have hnodup := symbolsOf_nodup l
  unfold symbolsOf at hone hnodup
  match hf : frequencies l with
  | [] => exact absurd hf (frequencies_ne_nil h)
  | [(t, n)] =>
    rw [hf] at hone
    exact ⟨n, by rw [hone t (List.mem_singleton_self t)]⟩
  | (t, n) :: (u, m) :: fs =>
    rw [hf] at hone hnodup
    have hne : t ≠ u := fun htu => (List.nodup_cons.mp hnodup).1 (htu ▸ List.mem_cons_self)
    exact absurd ((hone t List.mem_cons_self).trans (hone u (List.mem_cons_of_mem _ List.mem_cons_self)).symm) hne

/-- Settles O53: the codes are those of a tree with a node at its root, whose leaves are the symbols. -/
theorem huffmanCodesArePrefixFree : Obligations.HuffmanCodesArePrefixFree := by
  intro l hl codes
  obtain ⟨t, ht⟩ := exists_isCodeTree (frequencies_ne_nil hl)
  refine ⟨fun s hs => ht.codeOf_ne_nil (mem_symbolsOf.mpr hs), fun s hs s' hs' hne hpre => ?_, fun s hall => ?_⟩
  · exact hne (CTree.eq_of_codes_prefix (ht.codeOf_mem (mem_symbolsOf.mpr hs)) (ht.codeOf_mem (mem_symbolsOf.mpr hs'))
      (List.isPrefixOf_iff_prefix.mp hpre))
  · obtain ⟨n, hn⟩ := exists_frequencies_eq_singleton hl hall
    have hcodes : codes = [(s, [false])] := by
      show huffmanCodes (frequencies l) = _
      rw [hn]
      rfl
    rw [hcodes, codeOf, if_pos rfl]

/-! ## The entropy stage (R281 to R286, R291, R292) -/

/-- Settles O54: the channel that reads back is the one whose tree and bits the statement asks for. -/
theorem entropyStageIsLossless : Obligations.EntropyStageIsLossless := by
  intro b coeffs rest hb hlen hrange
  obtain ⟨⟨root, nb, z⟩, rfl, hread⟩ := exists_readsBack hb hlen hrange
  exact ⟨root, nb, hread.tree, hread.walk rest⟩

/-! ## The outcomes of JPEG.D (R290 to R293, R301) -/

/-- A list of appends that asks for more than the capacity overflows it, where no byte within it stops an append
before (R96, R99). -/
theorem Sink.putChunks_dstOverflow {cs : List (List Byte)} {k : Sink} (hroom : k.outlen ≤ k.cap)
    (hcap : k.cap < k.outlen + cs.flatten.length) (hw : k.writable (k.cap - k.outlen) = true) :
    putChunks cs k = .error .dstOverflow := by
  induction cs generalizing k with
  | nil => exact absurd hcap (Nat.not_lt_of_le hroom)
  | cons c cs ih =>
    rw [List.flatten_cons, List.length_append] at hcap
    rcases Nat.lt_or_ge k.cap (k.outlen + c.length) with hover | hfits
    · exact bind_error.mpr (.inl (putBytes_error.mpr (.inl ⟨hover, rfl⟩)))
    · have hput : k.putBytes c = .ok (k.extend c) :=
        putBytes_ok.mpr ⟨hfits, writable_of_le hw (by omega), rfl⟩
      have hrest : (k.extend c).writable (k.cap - (k.outlen + c.length)) = true := by
        refine ((writable_add k c _).mp ?_).2
        rwa [show c.length + (k.cap - (k.outlen + c.length)) = k.cap - k.outlen by omega]
      rw [putChunks, hput, ok_bind]
      exact ih hfits (by rw [extend_outlen, extend_cap]; omega) hrest

theorem jpegDBody_parse_error {s : State} {c : Cause}
    (h : parseContainer s.plat.maxPixels s.srcCells = .error c) : jpegDBody s = .error c := by
  rw [jpegDBody, h]
  rfl

section
variable {s : State} {h : ContainerHeader} {ch : List ChannelDec} {rest : List SrcCell}
  (hparse : parseContainer s.plat.maxPixels s.srcCells = .ok (h, ch, rest))
include hparse

/-- JPEG.D's body on a container that parses fails as its two appends do. -/
theorem jpegDBody_put_error {c : Cause}
    (hput : Sink.putChunks [ppmHeader h.width h.height h.maxVal,
      pixelBytes s.plat h.width h.height (decodePlanes s.plat h ch)] (Sink.start s) = .error c) :
    jpegDBody s = .error c := by
  rw [jpegDBody, hparse, ok_bind]
  rcases bind_error.mp hput with hhead | ⟨k, hhead, hpix⟩
  · exact bind_error.mpr (.inl hhead)
  · refine bind_error.mpr (.inr ⟨k, hhead, bind_error.mpr (.inl ?_)⟩)
    rcases bind_error.mp hpix with hpix | ⟨_, _, hnil⟩
    · exact hpix
    · cases hnil

/-- An image longer than an all writable destination is DST_OVERFLOW (R301). -/
theorem jpegD_dstOverflow (hr : regionsOk .jpegD s.latch.ops = true)
    (hcap : s.latch.ops.dstCap.toNat <
      (imageFile s.plat h.width h.height h.maxVal (ch.map (·.coeffs))).length)
    (hmem : ∀ x, s.latch.ops.dst.contains x = true → s.plat.memOk x = true) :
    s.FailsWith .jpegD (.codecInternal .dstOverflow) := by
  rw [imageFile_eq_chunks hparse] at hcap
  refine failsWith_of_cause (x := jpegDBody s) hr rfl (jpegDBody_put_error hparse ?_)
  refine Sink.putChunks_dstOverflow (Nat.zero_le _) (by rwa [Sink.start_outlen, Nat.zero_add])
    ((Sink.writable_iff _ _).mpr fun i hi => hmem _ ((Region.contains_iff _ _).mpr ⟨Nat.le_add_right _ _, ?_⟩))
  exact Nat.add_lt_add_left hi _

end

/-- Settles O49: the parse decides, then the room for the two appends. -/
theorem jpegDecompressCompletes : Obligations.JpegDecompressCompletes := by
  intro s hr
  refine ⟨fun h ch rest hparse => ⟨fun hroom => ?_, fun hcap hmem => ?_⟩, fun c hparse => ?_⟩
  · exact jpegD_runsTo hparse hr rfl hroom
  · exact jpegD_dstOverflow hparse hr hcap hmem
  · exact failsWith_of_cause hr rfl (jpegDBody_parse_error hparse)

end Sys2Proof.Machine

namespace Sys2Proof.Machine

namespace F64

/-! ## The number a binary64 form stands for, and how near the operations come to exact arithmetic (R15) -/

/-- The number that a form stands for. -/
def val (x : F64) : ℚ := x.man * 2 ^ x.exp

/-- `q` is `x` up to the relative error of one rounding to 53 bits. -/
def Near (q x : ℚ) : Prop := |q - x| ≤ |x| / 2 ^ 53

theorem Near.error {q x : ℚ} (h : Near q x) {b : ℚ} (hx : |x| ≤ b) : |q - x| ≤ b / 2 ^ 53 :=
  h.trans (by linarith)

theorem Near.abs_le {q x : ℚ} (h : Near q x) {b : ℚ} (hx : |x| ≤ b) : |q| ≤ 2 * b := by
  have herr := h.error hx
  have htri := abs_add_le (q - x) x
  rw [sub_add_cancel] at htri
  linarith [abs_nonneg x]

theorem Near.eq_zero {q : ℚ} (h : Near q 0) : q = 0 := by
  simpa [Near] using h

/-- An integer error small against the exact magnitude stays so on any scale. -/
theorem near_of_natAbs_le {q m : Int} (h : 2 ^ 53 * (m - q).natAbs ≤ m.natAbs) (e : Int) :
    Near (q * 2 ^ e) (m * 2 ^ e) := by
  have hq : (2 : ℚ) ^ 53 * |(m : ℚ) - q| ≤ |(m : ℚ)| := by
    have : ((2 ^ 53 * (m - q).natAbs : Nat) : ℚ) ≤ (m.natAbs : Nat) := Nat.cast_le.mpr h
    rw [Nat.cast_mul, Nat.cast_natAbs, Nat.cast_natAbs, Int.cast_abs, Int.cast_abs, Int.cast_sub] at this
    exact_mod_cast this
  have hpos : (0 : ℚ) < 2 ^ e := zpow_pos (by norm_num) e
  rw [Near, ← sub_mul, abs_mul, abs_mul, abs_of_pos hpos, abs_sub_comm, mul_div_right_comm]
  exact mul_le_mul_of_nonneg_right (by linarith) hpos.le

theorem IsRounded.near {q : F64} {m e : Int} (h : q.IsRounded m e) : Near q.val (m * 2 ^ e) := by
  obtain ⟨sh, hexp, -, herr, hbits, -⟩ := h
  have hval : q.val = (q.man * 2 ^ sh : Int) * (2 : ℚ) ^ e := by
    rw [val, hexp, zpow_add₀ (by norm_num), zpow_natCast]
    push_cast
    ring
  rw [hval]
  refine near_of_natAbs_le ?_ e
  rcases Nat.eq_zero_or_pos sh with rfl | hpos
  · omega
  · have := hbits hpos
    omega

theorem val_neg (a : F64) : a.neg.val = -a.val := by
  simp [val, neg]

theorem val_of_man_zero {a : F64} (h : a.man = 0) : a.val = 0 := by
  rw [val, h, Int.cast_zero, zero_mul]

theorem near_add (a b : F64) : Near (a.add b).val (a.val + b.val) := by
  have hscale : ∀ {x : F64} {e : Int}, e ≤ x.exp → (x.man : ℚ) * 2 ^ (x.exp - e).toNat * 2 ^ e = x.val := by
    intro x e he
    rw [mul_assoc, ← zpow_natCast, ← zpow_add₀ (by norm_num), val]
    congr 2
    omega
  have h := (add_isRounded a b).near
  push_cast at h
  rwa [add_mul, hscale (min_le_left _ _), hscale (min_le_right _ _)] at h

theorem near_sub (a b : F64) : Near (a.sub b).val (a.val - b.val) := by
  have h := near_add a b.neg
  rwa [val_neg, ← sub_eq_add_neg] at h

theorem near_mul (a b : F64) : Near (a.mul b).val (a.val * b.val) := by
  have h := (roundTo53_isRounded (a.man * b.man) (a.exp + b.exp)).near
  rwa [zpow_add₀ (by norm_num), Int.cast_mul, mul_mul_mul_comm] at h

theorem near_ofInt (n : Int) : Near (ofInt n).val n := by
  simpa [ofInt] using (roundTo53_isRounded n 0).near

theorem val_ofInt {n : Int} (h : n.natAbs < 2 ^ 53) : (ofInt n).val = n := by
  simp [ofInt_exact h, val]

/-- The quotient comes back to the dividend up to one rounding. -/
theorem near_div_mul (a : F64) {b : F64} (hb : b.man ≠ 0) : Near ((a.div b).val * b.val) a.val := by
  obtain ⟨-, herr, hbits, -⟩ := div_nearest a hb
  have hexp := div_exp a hb
  generalize droppedBits (divQuot a b) = sh at *
  have hval : (a.div b).val * b.val =
      ((a.div b).man * b.man * 2 ^ sh : Int) * (2 : ℚ) ^ (a.exp - (divScale b + 1)) := by
    have hsum : (a.div b).exp + b.exp = sh + (a.exp - (divScale b + 1)) := by omega
    rw [val, val, mul_mul_mul_comm, ← zpow_add₀ (by norm_num), hsum, zpow_add₀ (by norm_num), zpow_natCast]
    push_cast
    ring
  have hdividend : a.val = (a.man * 2 ^ (divScale b + 1) : Int) * (2 : ℚ) ^ (a.exp - (divScale b + 1)) := by
    have hsum : a.exp = ((divScale b + 1 : Nat) : Int) + (a.exp - (divScale b + 1)) := by omega
    rw [val]
    nth_rewrite 1 [hsum]
    rw [zpow_add₀ (by norm_num), zpow_natCast]
    push_cast
    ring
  rw [hval, hdividend]
  refine near_of_natAbs_le ?_ _
  rw [Int.natAbs_mul a.man, Int.natAbs_pow]
  by_cases hzero : (a.man * 2 ^ (divScale b + 1) - (a.div b).man * b.man * 2 ^ sh).natAbs = 0
  · rw [hzero]
    exact Nat.zero_le _
  · have hle := hbits hzero
    rw [Nat.mul_assoc] at hle
    rw [show (2 : Int).natAbs = 2 from rfl]
    omega

/-- Rounding to an integer is off by at most a half. -/
theorem abs_round_sub_val_le (mode : RoundHalf) (x : F64) : |(x.round mode : ℚ) - x.val| ≤ 1 / 2 := by
  rcases Int.lt_or_le x.exp 0 with hexp | hexp
  · obtain ⟨k, hk⟩ := Int.eq_ofNat_of_zero_le (a := -x.exp) (by omega)
    replace hk : x.exp = -(k : Int) := by omega
    have h := ((roundIsToNearest mode x).2 k hk).1
    have hq : 2 * |(x.man : ℚ) - x.round mode * 2 ^ k| ≤ 2 ^ k := by
      have : ((2 * (x.man - x.round mode * 2 ^ k).natAbs : Nat) : ℚ) ≤ (2 ^ k : Nat) := Nat.cast_le.mpr h
      rw [Nat.cast_mul, Nat.cast_natAbs, Int.cast_abs] at this
      push_cast at this
      exact this
    have hpos : (0 : ℚ) < 2 ^ k := by positivity
    have hval : (x.round mode : ℚ) - x.val = -((x.man : ℚ) - x.round mode * 2 ^ k) / 2 ^ k := by
      rw [val, hk, zpow_neg, zpow_natCast]
      field_simp
      ring
    rw [hval, abs_div, abs_neg, abs_of_pos hpos, div_le_iff₀ hpos]
    linarith
  · obtain ⟨k, hk⟩ := Int.eq_ofNat_of_zero_le hexp
    rw [round_of_exp_nonneg mode hk, val, hk]
    norm_num

/-- A value less than a half from an integer is rounded to it, in both modes. -/
theorem round_eq {x : F64} {n : Int} (h : |x.val - n| < 1 / 2) (mode : RoundHalf) : x.round mode = n := by
  have hr := abs_round_sub_val_le mode x
  have hlt : |((x.round mode - n : Int) : ℚ)| < (1 : Int) := by
    push_cast
    calc |(x.round mode : ℚ) - n| ≤ |(x.round mode : ℚ) - x.val| + |x.val - n| := abs_sub_le _ _ _
      _ < 1 := by linarith
  rw [← Int.cast_abs, Int.cast_lt, Int.abs_lt_one_iff] at hlt
  omega

/-! ## Sums (R254, R267) -/

/-- A sum taken in order is off by less than 2^-32 a term, while the magnitudes stay below 2^20. -/
theorem abs_foldl_add_sub_le {ts : List F64} {acc : F64}
    (hsmall : |acc.val| + (ts.map fun t => |t.val|).sum + ts.length ≤ 2 ^ 20) :
    |(ts.foldl add acc).val - (acc.val + (ts.map val).sum)| ≤ ts.length / 2 ^ 33 := by
  induction ts generalizing acc with
  | nil => simp
  | cons t ts ih =>
    simp only [List.map_cons, List.sum_cons, List.length_cons, Nat.cast_succ] at hsmall ⊢
    have hrest : 0 ≤ (ts.map fun t => |t.val|).sum :=
      List.sum_nonneg (List.forall_mem_map.mpr fun _ _ => abs_nonneg _)
    have hlen : (0 : ℚ) ≤ ts.length := Nat.cast_nonneg _
    have htri := abs_add_le acc.val t.val
    have hadd := (near_add acc t).error (b := 2 ^ 20) (by linarith)
    have habs := abs_sub_abs_le_abs_sub (acc.add t).val (acc.val + t.val)
    have := ih (acc := acc.add t) (by linarith)
    rw [List.foldl_cons]
    calc |(ts.foldl add (acc.add t)).val - (acc.val + (t.val + (ts.map val).sum))|
        ≤ |(ts.foldl add (acc.add t)).val - ((acc.add t).val + (ts.map val).sum)| +
            |(acc.add t).val + (ts.map val).sum - (acc.val + (t.val + (ts.map val).sum))| := abs_sub_le _ _ _
      _ = |(ts.foldl add (acc.add t)).val - ((acc.add t).val + (ts.map val).sum)| +
            |(acc.add t).val - (acc.val + t.val)| := by
          congr 2
          ring
      _ ≤ (ts.length + 1) / 2 ^ 33 := by linarith

end F64

end Sys2Proof.Machine

namespace Sys2Proof.Machine

namespace F64

theorem roundTo53_neg (m e : Int) : roundTo53 (-m) e = (roundTo53 m e).neg := by
  rcases Int.lt_trichotomy m 0 with hm | rfl | hm
  · rw [roundTo53_eq, roundTo53_eq, Int.natAbs_neg, withSign_of_nonneg (by omega), withSign_of_neg hm, neg, Int.neg_neg]
  · rfl
  · rw [roundTo53_eq, roundTo53_eq, Int.natAbs_neg, withSign_of_neg (by omega), withSign_of_nonneg (by omega), neg]

theorem mul_neg (a b : F64) : a.mul b.neg = (a.mul b).neg := by
  rw [mul, mul, neg, Int.mul_neg, roundTo53_neg]

theorem neg_mul (a b : F64) : a.neg.mul b = (a.mul b).neg := by
  rw [mul, mul, neg, Int.neg_mul, roundTo53_neg]

theorem abs_val_le_one {x : F64} (h : x.exp ≤ 0 ∧ x.man.natAbs ≤ 2 ^ (-x.exp).toNat) : |x.val| ≤ 1 := by
  obtain ⟨k, hk⟩ := Int.eq_ofNat_of_zero_le (a := -x.exp) (by omega)
  have hman : (x.man.natAbs : ℚ) ≤ (2 ^ k : Nat) := by
    have hle := h.2
    rw [hk, Int.toNat_natCast] at hle
    exact Nat.cast_le.mpr hle
  rw [Nat.cast_natAbs, Int.cast_abs, Nat.cast_pow, Nat.cast_ofNat] at hman
  rw [val, show x.exp = -(k : Int) by omega, zpow_neg, zpow_natCast, ← div_eq_mul_inv, abs_div, abs_pow, abs_two]
  exact (div_le_one (by positivity)).mpr hman

/-- A product with a factor of at most 1 grows at most by the rounding. -/
theorem abs_val_mul_le {a b : F64} {x : ℚ} (ha : |a.val| ≤ x) (hb : |b.val| ≤ 1) : |(a.mul b).val| ≤ 2 * x := by
  refine (near_mul a b).abs_le ?_
  rw [abs_mul]
  calc |a.val| * |b.val| ≤ |a.val| * 1 := mul_le_mul_of_nonneg_left hb (abs_nonneg _)
    _ ≤ x := by rwa [mul_one]

theorem val_zero : (⟨0, 0⟩ : F64).val = 0 := val_of_man_zero rfl

theorem val_mul_of_left_zero {a : F64} (h : a.val = 0) (b : F64) : (a.mul b).val = 0 := by
  have := near_mul a b
  rw [h, zero_mul] at this
  exact this.eq_zero

theorem val_mul_of_right_zero (a : F64) {b : F64} (h : b.val = 0) : (a.mul b).val = 0 := by
  have := near_mul a b
  rw [h, mul_zero] at this
  exact this.eq_zero

end F64

open F64 (val Near near_add near_sub near_mul near_div_mul near_ofInt val_neg val_ofInt abs_val_le_one
  abs_val_mul_le)

/-! ## The tables (R252, R253) -/

/-- Which row of COS holds, in column `v` > 0, the negative of a row's entry: the row's number with these bits
turned. -/
def mirrorMask (v : Nat) : Nat := if v % 2 = 1 then 7 else if v % 4 = 2 then 3 else 1

theorem cosAt_mirror : ∀ v < 8, v ≠ 0 → ∀ i < 8, cosAt (i ^^^ mirrorMask v) v = (cosAt i v).neg := by
  decide +kernel

theorem perm_mirror : ∀ v < 8, ((List.range 8).map (· ^^^ mirrorMask v)).Perm (List.range 8) := by decide +kernel

theorem cosAt_column_zero : ∀ i < 8, cosAt i 0 = F64.ofBits oneBits := by decide +kernel

theorem cosAt_bound : ∀ i < 8, ∀ v < 8,
    (cosAt i v).exp ≤ 0 ∧ (cosAt i v).man.natAbs ≤ 2 ^ (-(cosAt i v).exp).toNat := by decide +kernel

theorem abs_cosAt_le {i v : Nat} (hi : i < 8) (hv : v < 8) : |(cosAt i v).val| ≤ 1 :=
  abs_val_le_one (cosAt_bound i hi v hv)

theorem abs_cnAt_le (j : Nat) : |(cnAt j).val| ≤ 1 := by
  unfold cnAt
  split <;> exact abs_val_le_one (by decide +kernel)

theorem val_quarter : (F64.ofBits quarterBits).val = 1 / 4 := by
  rw [show F64.ofBits quarterBits = ⟨2 ^ 52, -54⟩ by decide +kernel, val]
  norm_num

theorem val_one : (F64.ofBits oneBits).val = 1 := by
  rw [show F64.ofBits oneBits = ⟨2 ^ 52, -52⟩ by decide +kernel, val]
  norm_num

theorem index8x8_eq_cons : index8x8 = (0, 0) :: index8x8.tail := rfl

theorem lt_of_mem_index8x8 {t : Nat × Nat} (h : t ∈ index8x8) : t.1 < 8 ∧ t.2 < 8 := by
  obtain ⟨i, hi, h⟩ := List.mem_flatMap.mp h
  obtain ⟨j, hj, rfl⟩ := List.mem_map.mp h
  exact ⟨List.mem_range.mp hi, List.mem_range.mp hj⟩

/-! ## The coefficients of a flat block (R254, R256) -/

/-- A list that a sign-changing rearrangement maps onto itself sums to zero. -/
theorem sum_eq_zero_of_perm_neg {α : Type} {l : List α} {σ : α → α} {g : α → ℚ} (hσ : (l.map σ).Perm l)
    (hg : ∀ a ∈ l, g (σ a) = -g a) : (l.map g).sum = 0 := by
  have hperm : ((l.map σ).map g).sum = (l.map g).sum := (hσ.map g).sum_eq
  have hneg : ((l.map σ).map g).sum = -(l.map g).sum := by
    rw [List.map_map, show l.map (g ∘ σ) = l.map (fun a => -g a) from List.map_congr_left hg, List.sum_neg,
      List.map_map]
    rfl
  linarith

theorem perm_mirror_fst {u : Nat} (hu : u < 8) :
    (index8x8.map fun t => (t.1 ^^^ mirrorMask u, t.2)).Perm index8x8 := by
  have h := (perm_mirror u hu).flatMap_right fun i => (List.range 8).map fun j => (i, j)
  rw [List.flatMap_map] at h
  rw [index8x8, List.map_flatMap]
  simpa only [List.map_map, Function.comp_def] using h

theorem perm_mirror_snd {v : Nat} (hv : v < 8) :
    (index8x8.map fun t => (t.1, t.2 ^^^ mirrorMask v)).Perm index8x8 := by
  rw [index8x8, List.map_flatMap]
  refine List.Perm.flatMap_left _ fun i _ => ?_
  have h := (perm_mirror v hv).map fun j => (i, j)
  simpa only [List.map_map, Function.comp_def] using h

/-- The term of R254's sum for the sample `c` at `t`. -/
def dctTerm (u v : Nat) (c : Int) (t : Nat × Nat) : F64 := ((F64.ofInt c).mul (cosAt t.1 u)).mul (cosAt t.2 v)

theorem fdctSum_flat (c : Int) (u v : Nat) :
    fdctSum (List.replicate 64 c) u v = (index8x8.map (dctTerm u v c)).foldl F64.add ⟨0, 0⟩ := by
  rw [fdctSum, show (List.replicate 64 c).zip index8x8 = index8x8.map (fun t => (c, t)) from rfl, List.foldl_map,
    List.foldl_map]
  rfl

theorem dctTerm_mirror_fst {u : Nat} (hu : u < 8) (hu0 : u ≠ 0) {v : Nat} {c : Int} {t : Nat × Nat}
    (ht : t ∈ index8x8) : dctTerm u v c (t.1 ^^^ mirrorMask u, t.2) = (dctTerm u v c t).neg := by
  simp only [dctTerm, cosAt_mirror u hu hu0 t.1 (lt_of_mem_index8x8 ht).1, F64.mul_neg, F64.neg_mul]

theorem dctTerm_mirror_snd {v : Nat} (hv : v < 8) (hv0 : v ≠ 0) {u : Nat} {c : Int} {t : Nat × Nat}
    (ht : t ∈ index8x8) : dctTerm u v c (t.1, t.2 ^^^ mirrorMask v) = (dctTerm u v c t).neg := by
  simp only [dctTerm, cosAt_mirror v hv hv0 t.2 (lt_of_mem_index8x8 ht).2, F64.mul_neg]

section
variable {u v : Nat} (hu : u < 8) (hv : v < 8) {c : Int}
include hu hv

/-- The terms of a flat block cancel at every frequency but (0, 0), and all vanish for a block of zeros. -/
theorem sum_dctTerm_eq_zero (h : (u, v) ≠ (0, 0) ∨ c = 0) :
    (index8x8.map fun t => (dctTerm u v c t).val).sum = 0 := by
  by_cases hc : c = 0
  · have hzero : ∀ x ∈ index8x8.map fun t => (dctTerm u v c t).val, x = 0 := by
      refine List.forall_mem_map.mpr fun t _ => ?_
      rw [hc]
      exact F64.val_mul_of_left_zero (F64.val_mul_of_left_zero (val_ofInt (by decide)) _) _
    exact List.sum_eq_zero hzero
  by_cases hv0 : v = 0
  · have hu0 : u ≠ 0 := fun hu0 => h.elim (fun h => h (Prod.ext hu0 hv0)) hc
    exact sum_eq_zero_of_perm_neg (perm_mirror_fst hu) fun t ht => by rw [dctTerm_mirror_fst hu hu0 ht, val_neg]
  · exact sum_eq_zero_of_perm_neg (perm_mirror_snd hv) fun t ht => by rw [dctTerm_mirror_snd hv hv0 ht, val_neg]

theorem abs_dctTerm_le (hc : c.natAbs ≤ 1024) {t : Nat × Nat} (ht : t ∈ index8x8) :
    |(dctTerm u v c t).val| ≤ 2 ^ 12 := by
  obtain ⟨h1, h2⟩ := lt_of_mem_index8x8 ht
  have hval : |(F64.ofInt c).val| ≤ 1024 := by
    rw [val_ofInt (by omega), ← Int.cast_abs, ← Int.natCast_natAbs]
    exact_mod_cast hc
  exact (abs_val_mul_le (abs_val_mul_le hval (abs_cosAt_le h1 hu)) (abs_cosAt_le h2 hv)).trans (by norm_num)

/-- Where the terms of a flat block cancel, what the roundings leave of their sum is below 2^-27. -/
theorem abs_fdctSum_flat_le (hc : c.natAbs ≤ 1024) (h : (u, v) ≠ (0, 0) ∨ c = 0) :
    |(fdctSum (List.replicate 64 c) u v).val| ≤ 1 / 2 ^ 27 := by
  have hbound : ((index8x8.map (dctTerm u v c)).map fun t => |t.val|).sum ≤ 64 * 2 ^ 12 := by
    have := List.sum_le_card_nsmul ((index8x8.map (dctTerm u v c)).map fun t => |t.val|) (2 ^ 12)
      (List.forall_mem_map.mpr (List.forall_mem_map.mpr fun t ht => abs_dctTerm_le hu hv hc ht))
    simpa [index8x8] using this
  have hlen : (index8x8.map (dctTerm u v c)).length = 64 := rfl
  have hsum := F64.abs_foldl_add_sub_le (ts := index8x8.map (dctTerm u v c)) (acc := ⟨0, 0⟩) (by
    rw [F64.val_zero, abs_zero, zero_add, hlen]
    exact (add_le_add_left hbound _).trans (by norm_num))
  rw [F64.val_zero, List.map_map, Function.comp_def, sum_dctTerm_eq_zero hu hv h, hlen, ← fdctSum_flat] at hsum
  norm_num at hsum ⊢
  exact hsum

end

/-- A coefficient whose sum is next to nothing is quantized to 0 by every table. -/
theorem quantAt_eq_zero (p : Platform) {f : List Int} {u v : Nat} (h : |(fdctSum f u v).val| ≤ 1 / 2 ^ 27) :
    quantAt p f u v = 0 := by
  have hscale : |(((F64.ofBits quarterBits).mul (cnAt u)).mul (cnAt v)).val| ≤ 1 := by
    have hq : |(F64.ofBits quarterBits).val| ≤ 1 / 4 := by
      rw [val_quarter]
      norm_num
    exact (abs_val_mul_le (abs_val_mul_le hq (abs_cnAt_le u)) (abs_cnAt_le v)).trans (by norm_num)
  have hF : |(fdctAt f u v).val| ≤ 2 * (1 / 2 ^ 27) := by
    refine (near_mul _ _).abs_le ?_
    rw [abs_mul]
    exact (mul_le_of_le_one_left (abs_nonneg _) hscale).trans h
  have hround : ∀ n : Nat, ((fdctAt f u v).div (F64.ofInt n)).round p.roundHalf = 0 := by
    intro n
    refine F64.round_eq ?_ p.roundHalf
    rw [Int.cast_zero, sub_zero]
    by_cases hman : (F64.ofInt n).man = 0
    · rw [F64.div, hman, Int.natAbs_zero, if_pos rfl, F64.val_zero]
      norm_num
    · have hn : (1 : ℚ) ≤ n := by
        rcases Nat.eq_zero_or_pos n with rfl | hpos
        · exact absurd rfl hman
        · exact_mod_cast hpos
      have hnear := (near_ofInt n).error (b := (n : ℚ)) (by simp)
      rw [Int.cast_natCast] at hnear
      have hlow : 1 / 2 ≤ |(F64.ofInt n).val| := by
        have := neg_abs_le ((F64.ofInt n).val - n)
        have := le_abs_self (F64.ofInt n).val
        linarith
      have hquot := (near_div_mul (fdctAt f u v) hman).abs_le hF
      rw [abs_mul] at hquot
      have := mul_le_mul_of_nonneg_left hlow (abs_nonneg ((fdctAt f u v).div (F64.ofInt n)).val)
      linarith
  rw [quantAt, hround]
  rfl

/-- The DC coefficient of a flat block. -/
def flatDc (p : Platform) (c : Int) : Int := quantAt p (List.replicate 64 c) 0 0

theorem flatDc_zero (p : Platform) : flatDc p 0 = 0 :=
  quantAt_eq_zero p (abs_fdctSum_flat_le (by decide) (by decide) (by decide) (.inr rfl))

/-- A flat block has no coefficient but the DC one. -/
theorem quantBlock_flat (p : Platform) {c : Int} (hc : c.natAbs ≤ 1024) :
    quantBlock p (List.replicate 64 c) = flatDc p c :: List.replicate 63 0 := by
  rw [quantBlock, index8x8_eq_cons, List.map_cons]
  refine congrArg _ (List.eq_replicate_iff.mpr ⟨rfl, List.forall_mem_map.mpr fun t ht => ?_⟩)
  obtain ⟨hu, hv⟩ := lt_of_mem_index8x8 (List.mem_of_mem_tail ht)
  have hne : t ≠ (0, 0) := by
    rintro rfl
    exact absurd ht (by decide)
  exact quantAt_eq_zero p (abs_fdctSum_flat_le hu hv hc (.inl hne))

theorem zigzag_dc (dc : Int) : zigzag (dc :: List.replicate 63 0) = dc :: List.replicate 63 0 := rfl

theorem unzigzag_dc (dc : Int) : unzigzag (dc :: List.replicate 63 0) = dc :: List.replicate 63 0 := rfl

end Sys2Proof.Machine

namespace Sys2Proof.Machine

open F64 (val Near near_add near_sub near_mul val_neg val_ofInt abs_val_mul_le)

/-! ## The block of a DC coefficient alone (R267, R268) -/

theorem wrap32_of_small {x : Int} (h : x.natAbs ≤ 2 ^ 16) : wrap32 x = x := by
  unfold wrap32
  omega

theorem dequantBlock_dc (p : Platform) (dc : Int) :
    dequantBlock p (dc :: List.replicate 63 0) = wrap32 (dc * (p.qtable.getD 0 1 : Nat)) :: List.replicate 63 0 := by
  rw [dequantBlock, index8x8_eq_cons, List.zipWith_cons_cons,
    show List.replicate 63 (0 : Int) = index8x8.tail.map fun _ => 0 from rfl, List.zipWith_map_left, List.zipWith_self]
  simp only [Int.zero_mul]
  rfl

/-- The term of R267's sum for the coefficient `t.1` at `t.2`. -/
def idctTerm (x y : Nat) (t : Int × Nat × Nat) : F64 :=
  ((((cnAt t.2.1).mul (cnAt t.2.2)).mul (F64.ofInt t.1)).mul (cosAt x t.2.1)).mul (cosAt y t.2.2)

theorem idctSum_dc (d : Int) (x y : Nat) : idctSum (d :: List.replicate 63 0) x y =
    (idctTerm x y (d, 0, 0) :: index8x8.tail.map fun t => idctTerm x y (0, t)).foldl F64.add ⟨0, 0⟩ := by
  rw [idctSum, show (d :: List.replicate 63 0).zip index8x8 = (d, 0, 0) :: index8x8.tail.map (fun t => (0, t)) from rfl,
    List.foldl_cons, List.foldl_cons, List.foldl_map, List.foldl_map]
  rfl

theorem val_idctTerm_zero (x y : Nat) (t : Nat × Nat) : (idctTerm x y (0, t)).val = 0 :=
  F64.val_mul_of_left_zero (F64.val_mul_of_left_zero (F64.val_mul_of_right_zero _ (val_ofInt (by decide))) _) _

/-- CN[0] squared is a half, nearly. -/
theorem abs_cnAt_zero_sq_sub_le : |((cnAt 0).mul (cnAt 0)).val - 1 / 2| ≤ 1 / 2 ^ 50 := by
  rw [show (cnAt 0).mul (cnAt 0) = ⟨4503599627370497, -53⟩ by decide +kernel, val]
  norm_num [abs_le]

/-- The term of a DC coefficient is half of it, nearly. -/
theorem abs_idctTerm_dc_sub_le {x y : Nat} (hx : x < 8) (hy : y < 8) {d : Int} (hd : |(d : ℚ)| ≤ 4096) :
    |(idctTerm x y (d, 0, 0)).val - d / 2| ≤ 1 / 2 ^ 30 := by
  have hsq := abs_cnAt_zero_sq_sub_le
  have hint : (F64.ofInt d).val = d := by
    refine val_ofInt (Nat.lt_of_le_of_lt (m := 4096) ?_ (by norm_num))
    rw [← Int.cast_abs, ← Int.natCast_natAbs] at hd
    exact_mod_cast hd
  rw [idctTerm]
  dsimp only
  rw [cosAt_column_zero x hx, cosAt_column_zero y hy]
  generalize (cnAt 0).mul (cnAt 0) = k at hsq ⊢
  have h1 := near_mul k (F64.ofInt d)
  generalize k.mul (F64.ofInt d) = a at h1 ⊢
  have h2 := near_mul a (F64.ofBits oneBits)
  generalize a.mul (F64.ofBits oneBits) = b at h2 ⊢
  have h3 := near_mul b (F64.ofBits oneBits)
  generalize b.mul (F64.ofBits oneBits) = c at h3 ⊢
  rw [hint] at h1
  rw [val_one, mul_one] at h2 h3
  have hexact : |k.val * d - d / 2| ≤ 1 / 2 ^ 50 * 4096 := by
    rw [show k.val * d - (d : ℚ) / 2 = (k.val - 1 / 2) * d by ring, abs_mul]
    exact mul_le_mul hsq hd (abs_nonneg _) (by norm_num)
  have hhalf : |(d : ℚ) / 2| ≤ 2048 := by
    rw [abs_div, abs_two]
    linarith
  have hk : |k.val * d| ≤ 2 ^ 12 := by
    linarith [abs_sub_abs_le_abs_sub (k.val * d) ((d : ℚ) / 2)]
  have ha := h1.error hk
  have hb := h2.error (h1.abs_le hk)
  have hc := h3.error (h2.abs_le (h1.abs_le hk))
  calc |c.val - d / 2| ≤ |c.val - b.val| + |b.val - d / 2| := abs_sub_le _ _ _
    _ ≤ |c.val - b.val| + (|b.val - a.val| + |a.val - d / 2|) := by gcongr; exact abs_sub_le _ _ _
    _ ≤ |c.val - b.val| + (|b.val - a.val| + (|a.val - k.val * d| + |k.val * d - d / 2|)) := by
        gcongr; exact abs_sub_le _ _ _
    _ ≤ 1 / 2 ^ 30 := by linarith

/-- The sum of R267 over a DC coefficient alone is half of it, nearly. -/
theorem abs_idctSum_dc_sub_le {x y : Nat} (hx : x < 8) (hy : y < 8) {d : Int} (hd : |(d : ℚ)| ≤ 4096) :
    |(idctSum (d :: List.replicate 63 0) x y).val - d / 2| ≤ 1 / 2 ^ 26 := by
  have hterm := abs_idctTerm_dc_sub_le hx hy hd
  have hsmall : |(idctTerm x y (d, 0, 0)).val| ≤ 4096 := by
    have : |(d : ℚ) / 2| ≤ 2048 := by
      rw [abs_div, abs_two]
      linarith
    linarith [abs_sub_abs_le_abs_sub (idctTerm x y (d, 0, 0)).val ((d : ℚ) / 2)]
  have hsum := F64.abs_foldl_add_sub_le (acc := ⟨0, 0⟩)
    (ts := idctTerm x y (d, 0, 0) :: index8x8.tail.map fun t => idctTerm x y (0, t)) (by
      rw [F64.val_zero, List.map_cons, List.map_map, Function.comp_def]
      simp only [val_idctTerm_zero, abs_zero, List.map_const', List.sum_replicate, List.sum_cons, smul_zero]
      rw [show (idctTerm x y (d, 0, 0) :: index8x8.tail.map fun t => idctTerm x y (0, t)).length = 64 from rfl]
      norm_num
      linarith)
  rw [← idctSum_dc, F64.val_zero, List.map_cons, List.map_map, Function.comp_def] at hsum
  simp only [val_idctTerm_zero, List.map_const', List.sum_replicate, List.sum_cons, smul_zero] at hsum
  rw [show (idctTerm x y (d, 0, 0) :: index8x8.tail.map fun t => idctTerm x y (0, t)).length = 64 from rfl, zero_add,
    add_zero] at hsum
  calc |(idctSum (d :: List.replicate 63 0) x y).val - d / 2|
      ≤ |(idctSum (d :: List.replicate 63 0) x y).val - (idctTerm x y (d, 0, 0)).val| +
          |(idctTerm x y (d, 0, 0)).val - d / 2| := abs_sub_le _ _ _
    _ ≤ 1 / 2 ^ 26 := by
        norm_num at hsum hterm ⊢
        linarith

/-- A DC coefficient alone, a multiple of 8 after de-quantization, gives a flat block. -/
theorem idctBlock_dc {p : Platform} {dc m : Int} (hdc : dc * (p.qtable.getD 0 1 : Nat) = 8 * m) (hm : m.natAbs ≤ 512) :
    idctBlock p (dc :: List.replicate 63 0) = List.replicate 64 (m + 128) := by
  have hmabs : |(m : ℚ)| ≤ 512 := by
    rw [← Int.cast_abs, ← Int.natCast_natAbs]
    exact_mod_cast hm
  have hd : |((8 * m : Int) : ℚ)| ≤ 4096 := by
    push_cast
    rw [abs_mul, abs_of_pos (by norm_num : (0 : ℚ) < 8)]
    linarith
  rw [idctBlock, dequantBlock_dc, hdc, wrap32_of_small (by omega)]
  refine List.eq_replicate_iff.mpr ⟨rfl, List.forall_mem_map.mpr fun t ht => ?_⟩
  obtain ⟨hx, hy⟩ := lt_of_mem_index8x8 ht
  have hsum := abs_idctSum_dc_sub_le hx hy hd
  have hround : ((F64.ofBits quarterBits).mul (idctSum ((8 * m) :: List.replicate 63 0) t.1 t.2)).round p.roundHalf =
      m := by
    refine F64.round_eq ?_ _
    generalize idctSum ((8 * m) :: List.replicate 63 0) t.1 t.2 = s at hsum ⊢
    push_cast at hsum
    have hmul := near_mul (F64.ofBits quarterBits) s
    rw [val_quarter] at hmul
    have hexact : |1 / 4 * s.val - m| ≤ 1 / 2 ^ 28 := by
      rw [show 1 / 4 * s.val - (m : ℚ) = 1 / 4 * (s.val - 8 * m / 2) by ring, abs_mul,
        abs_of_pos (by norm_num : (0 : ℚ) < 1 / 4)]
      linarith
    have herr := hmul.error (b := 1024) (by linarith [abs_sub_abs_le_abs_sub (1 / 4 * s.val) (m : ℚ)])
    calc |((F64.ofBits quarterBits).mul s).val - m|
        ≤ |((F64.ofBits quarterBits).mul s).val - 1 / 4 * s.val| + |1 / 4 * s.val - m| := abs_sub_le _ _ _
      _ ≤ 1024 / 2 ^ 53 + 1 / 2 ^ 28 := add_le_add herr hexact
      _ < 1 / 2 := by norm_num
  dsimp only
  rw [hround, wrap32_of_small (x := m) (by omega), wrap32_of_small (by omega)]

end Sys2Proof.Machine

namespace Sys2Proof.Machine

/-! ## Lists of equal pieces -/

theorem flatten_replicate_flatten {α : Type} (m n : Nat) (l : List α) :
    (List.replicate m (List.replicate n l).flatten).flatten = (List.replicate (n * m) l).flatten := by
  induction m with
  | zero => rfl
  | succ m ih =>
    rw [List.replicate_succ, List.flatten_cons, ih, ← List.flatten_append, List.replicate_append_replicate,
      Nat.mul_succ, Nat.add_comm]

/-- A list of `n` equal rows is cut into them. -/
theorem pieces_flatten_replicate {α : Type} {k : Nat} {row : List α} (hrow : row.length = k) (n : Nat) :
    pieces k n (List.replicate n row).flatten = List.replicate n row := by
  induction n with
  | zero => rfl
  | succ n ih =>
    rw [List.replicate_succ, List.flatten_cons, pieces, ← hrow, List.take_left, List.drop_left, hrow, ih]

theorem flatMap_eq_of_forall {α β : Type} {l : List α} {f : α → List β} {b : List β} (h : ∀ a ∈ l, f a = b) :
    l.flatMap f = (List.replicate l.length b).flatten := by
  rw [List.flatMap_def, List.map_congr_left h, List.map_const']

theorem flatMap_replicate {α β : Type} (n : Nat) (a : α) (f : α → List β) :
    (List.replicate n a).flatMap f = (List.replicate n (f a)).flatten := by
  rw [List.flatMap_def, List.map_replicate]

/-! ## A flat image (R243 to R251) -/

/-- The bytes of a pixel (R245). -/
def pixelOf (c : Rgb) : List Byte := [BitVec.ofNat 8 c.r, BitVec.ofNat 8 c.g, BitVec.ofNat 8 c.b]

/-- An image of one colour. -/
def flatImage (w h mx : Nat) (c : Rgb) : Image := ⟨w, h, mx, (List.replicate (w * h) (pixelOf c)).flatten⟩

/-- A plane of one sample. -/
def flatPlane (wp hp : Nat) (c : Int) : Plane := List.replicate hp (List.replicate wp c)

/-- The coefficients of `n` blocks with no coefficient but the DC one. -/
def dcChannel (n : Nat) (dc : Int) : List Int := (List.replicate n (dc :: List.replicate 63 0)).flatten

theorem paddedRows_flatImage {w h : Nat} (mx : Nat) {c : Rgb} (hc : rgbOf (pixelOf c) = c)
    (hpad : padOf w = 0 ∧ padOf h = 0 ∨ c = padRgb) :
    paddedRows (flatImage w h mx c) = List.replicate (h + padOf h) (List.replicate (w + padOf w) c) := by
  have hrows : pieces (3 * w) h (flatImage w h mx c).px = List.replicate h (List.replicate w (pixelOf c)).flatten := by
    rw [flatImage, ← flatten_replicate_flatten]
    refine pieces_flatten_replicate ?_ h
    simp [pixelOf, Nat.mul_comm]
  rw [paddedRows]
  dsimp only [flatImage] at hrows ⊢
  rw [hrows, List.map_replicate, pieces_flatten_replicate (k := 3) (row := pixelOf c) rfl, List.map_replicate, hc]
  rcases hpad with ⟨hw, hh⟩ | rfl
  · simp [hw, hh]
  · rw [List.replicate_append_replicate, List.replicate_append_replicate]

theorem planesOf_flatImage (p : Platform) {w h : Nat} (mx : Nat) {c : Rgb} (hc : rgbOf (pixelOf c) = c)
    (hpad : padOf w = 0 ∧ padOf h = 0 ∨ c = padRgb) :
    planesOf p (flatImage w h mx c) = [(toYuv p c).1, (toYuv p c).2.1, (toYuv p c).2.2].map
      (flatPlane (w + padOf w) (h + padOf h)) := by
  rw [planesOf, paddedRows_flatImage mx hc hpad]
  simp [flatPlane]

theorem blocksOf_flatPlane (wp hp : Nat) (c : Int) :
    blocksOf wp hp (flatPlane wp hp c) = List.replicate (wp / 8 * (hp / 8)) (List.replicate 64 c) := by
  refine List.eq_replicate_iff.mpr ⟨length_blocksOf wp hp _, fun f hf => ?_⟩
  obtain ⟨byy, hbyy, hf⟩ := List.mem_flatMap.mp hf
  obtain ⟨bx, hbx, rfl⟩ := List.mem_map.mp hf
  rw [List.mem_range] at hbyy hbx
  rw [blockAt, flatPlane, List.drop_replicate, List.take_replicate, flatMap_replicate, List.drop_replicate,
    List.take_replicate, show min 8 (hp - 8 * byy) = 8 by omega, show min 8 (wp - 8 * bx) = 8 by omega,
    List.flatten_replicate_replicate]

/-- A flat image has only DC coefficients. -/
theorem imageCoeffs_flatImage (p : Platform) {w h : Nat} (mx : Nat) {c : Rgb} (hc : rgbOf (pixelOf c) = c)
    (hpad : padOf w = 0 ∧ padOf h = 0 ∨ c = padRgb)
    (hsmall : ∀ s ∈ [(toYuv p c).1, (toYuv p c).2.1, (toYuv p c).2.2], s.natAbs ≤ 1024) :
    imageCoeffs p (flatImage w h mx c) = [(toYuv p c).1, (toYuv p c).2.1, (toYuv p c).2.2].map fun s =>
      dcChannel ((w + padOf w) / 8 * ((h + padOf h) / 8)) (flatDc p s) := by
  rw [imageCoeffs_eq, planesOf_flatImage p mx hc hpad, List.map_map]
  refine List.map_congr_left fun s hs => ?_
  rw [Function.comp_apply, flatImage, blocksOf_flatPlane, flatMap_replicate, quantBlock_flat p (hsmall s hs), zigzag_dc,
    dcChannel]

/-! ## The image of DC coefficients (R266 to R270, R293) -/

theorem planeOf_flat {wp hp : Nat} (hw : wp % 8 = 0) (hh : hp % 8 = 0) (c : Int) :
    planeOf wp hp (List.replicate (wp / 8 * (hp / 8)) (List.replicate 64 c)) = flatPlane wp hp c := by
  have hrows : (List.range 8).map (fun x =>
      (List.replicate (wp / 8) (List.replicate 64 c)).flatMap fun b => (b.drop (8 * x)).take 8) =
      List.replicate 8 (List.replicate wp c) := by
    refine List.eq_replicate_iff.mpr ⟨rfl, List.forall_mem_map.mpr fun x hx => ?_⟩
    rw [List.mem_range] at hx
    rw [flatMap_replicate, List.drop_replicate, List.take_replicate, List.flatten_replicate_replicate,
      show min 8 (64 - 8 * x) = 8 by omega]
    congr 1
    omega
  have hpieces : pieces (wp / 8) (hp / 8) (List.replicate (wp / 8 * (hp / 8)) (List.replicate 64 c)) =
      List.replicate (hp / 8) (List.replicate (wp / 8) (List.replicate 64 c)) := by
    rw [Nat.mul_comm, ← List.flatten_replicate_replicate]
    exact pieces_flatten_replicate List.length_replicate _
  rw [planeOf, hpieces, flatMap_replicate, hrows, List.flatten_replicate_replicate, flatPlane]
  congr 1
  omega

theorem decodePlane_dcChannel {p : Platform} {wp hp : Nat} (hw : wp % 8 = 0) (hh : hp % 8 = 0) {dc s : Int}
    (hblock : idctBlock p (dc :: List.replicate 63 0) = List.replicate 64 s) :
    decodePlane p wp hp (dcChannel (wp / 8 * (hp / 8)) dc) = flatPlane wp hp s := by
  have hlen : (dcChannel (wp / 8 * (hp / 8)) dc).length / 64 = wp / 8 * (hp / 8) := by
    simp [dcChannel]
  rw [decodePlane, hlen, dcChannel, pieces_flatten_replicate (k := 64) (row := dc :: List.replicate 63 0) rfl,
    List.map_replicate, unzigzag_dc, hblock, planeOf_flat hw hh]

theorem pixelBytes_flat (p : Platform) {w h wp hp : Nat} (hw : w ≤ wp) (hh : h ≤ hp) (y u v : Int) :
    pixelBytes p w h [flatPlane wp hp y, flatPlane wp hp u, flatPlane wp hp v] =
      (List.replicate (w * h) (toRgb p y u v)).flatten := by
  have hrow : ∀ r < h, ∀ c : Int, (flatPlane wp hp c).getD r [] = List.replicate wp c := fun r hr c => by
    rw [flatPlane, List.getD_replicate _ (by omega)]
  rw [pixelBytes, ← flatten_replicate_flatten]
  refine (flatMap_eq_of_forall fun r hr => ?_).trans (by rw [List.length_range])
  have hr := List.mem_range.mp hr
  show ((((flatPlane wp hp y).getD r []).zip
    (((flatPlane wp hp u).getD r []).zip ((flatPlane wp hp v).getD r []))).take w).flatMap _ = _
  rw [hrow r hr, hrow r hr, hrow r hr, List.zip_replicate', List.zip_replicate', List.take_replicate, flatMap_replicate,
    Nat.min_eq_left hw]

end Sys2Proof.Machine

namespace Sys2Proof.Machine

open F64 (val near_add near_sub near_mul val_ofInt)

/-! ## Images that are reproduced exactly (R271, R302) -/

/-- The decoded image of DC coefficients whose blocks are flat (R293, R301). -/
theorem imageFile_dcChannels {p : Platform} (w h mx : Nat) {a b d y u v : Int}
    (ha : idctBlock p (a :: List.replicate 63 0) = List.replicate 64 y)
    (hb : idctBlock p (b :: List.replicate 63 0) = List.replicate 64 u)
    (hd : idctBlock p (d :: List.replicate 63 0) = List.replicate 64 v) :
    imageFile p w h mx ([a, b, d].map (dcChannel ((w + padOf w) / 8 * ((h + padOf h) / 8)))) =
      ppmHeader w h mx ++ (List.replicate (w * h) (toRgb p y u v)).flatten := by
  have hw : (w + padOf w) % 8 = 0 := by unfold padOf; omega
  have hh : (h + padOf h) % 8 = 0 := by unfold padOf; omega
  simp only [imageFile, List.map_cons, List.map_nil, decodePlane_dcChannel hw hh ha, decodePlane_dcChannel hw hh hb,
    decodePlane_dcChannel hw hh hd]
  rw [pixelBytes_flat p (Nat.le_add_right _ _) (Nat.le_add_right _ _)]

/-! ### Mid-gray -/

theorem toYuv_gray {p : Platform} (hfwd : p.colourFwd = colourFwdDefault) : toYuv p padRgb = (0, 0, 0) := by
  have hmode : ∀ mode, toYuv { platformDefault with roundHalf := mode } padRgb = (0, 0, 0) := fun mode => by
    cases mode <;> decide +kernel
  rw [← hmode p.roundHalf, toYuv, hfwd]
  rfl

/-- Centred colour differences of 0 give the gray of the luminance, whatever the coefficients (R269). -/
theorem toRgb_gray (p : Platform) : toRgb p 128 128 128 = pixelOf padRgb := by
  have hY : (F64.ofInt 128).val = 128 := val_ofInt (by decide)
  have hC : ∀ a : F64, (a.mul (F64.ofInt (128 - 128))).val = 0 := fun a =>
    F64.val_mul_of_right_zero a (val_ofInt (by decide))
  have hround : ∀ z : F64, |z.val - 128| ≤ 1 / 4 → z.round p.roundHalf = 128 := fun z hz =>
    F64.round_eq (by push_cast; linarith) _
  have hadd : ∀ a : F64, ((F64.ofInt 128).add (a.mul (F64.ofInt (128 - 128)))).round p.roundHalf = 128 := fun a => by
    have h := near_add (F64.ofInt 128) (a.mul (F64.ofInt (128 - 128)))
    rw [hC, hY, add_zero] at h
    exact hround _ ((h.error (by norm_num : |(128 : ℚ)| ≤ 128)).trans (by norm_num))
  have hsub : ∀ a b : F64, (((F64.ofInt 128).sub (a.mul (F64.ofInt (128 - 128)))).sub
      (b.mul (F64.ofInt (128 - 128)))).round p.roundHalf = 128 := fun a b => by
    have h1 := near_sub (F64.ofInt 128) (a.mul (F64.ofInt (128 - 128)))
    rw [hC, hY, sub_zero] at h1
    have h2 := near_sub ((F64.ofInt 128).sub (a.mul (F64.ofInt (128 - 128)))) (b.mul (F64.ofInt (128 - 128)))
    rw [hC, sub_zero] at h2
    have e1 := h1.error (by norm_num : |(128 : ℚ)| ≤ 128)
    have e2 := h2.error (h1.abs_le (by norm_num : |(128 : ℚ)| ≤ 128))
    exact hround _ ((abs_sub_le _ _ _).trans ((add_le_add e2 e1).trans (by norm_num)))
  simp only [toRgb, hadd, hsub]
  decide

theorem dcChannel_zero (n : Nat) : dcChannel n 0 = List.replicate (64 * n) 0 := by
  rw [dcChannel, show (0 : Int) :: List.replicate 63 0 = List.replicate 64 0 from rfl, List.flatten_replicate_replicate,
    Nat.mul_comm]

theorem pairsOf_zeros (n : Nat) : pairsOf (List.replicate (64 * n) 0) = List.replicate (4 * n) ⟨15, 0⟩ := by
  rw [pairsOf, List.length_replicate, Nat.mul_div_cancel_left n (by decide), Nat.mul_comm 64 n,
    ← List.flatten_replicate_replicate, pieces_flatten_replicate List.length_replicate, flatMap_replicate,
    show rle (List.replicate 64 0) = List.replicate 4 ⟨15, 0⟩ by decide, List.flatten_replicate_replicate, Nat.mul_comm]

/-- A channel of zeros codes one symbol, with the code "0" (R283, R302). -/
theorem channelEnc_zeros {n : Nat} (hn : 1 ≤ n) :
    (channelEnc (List.replicate (64 * n) 0)).coeffs = List.replicate (64 * n) 0 ∧
    (channelEnc (List.replicate (64 * n) 0)).pairs = List.replicate (4 * n) ⟨15, 0⟩ ∧
    (channelEnc (List.replicate (64 * n) 0)).codes = [(⟨15, 0⟩, [false])] := by
  refine ⟨rfl, pairsOf_zeros n, ?_⟩
  have hne : List.replicate (4 * n) (⟨15, 0⟩ : Pair) ≠ [] := List.ne_nil_of_length_pos (by simp; omega)
  obtain ⟨k, hk⟩ := exists_frequencies_eq_singleton hne fun t ht => (List.mem_replicate.mp ht).2
  rw [channelEnc]
  dsimp only
  rw [pairsOf_zeros, hk]
  rfl

theorem imageCoeffs_gray {p : Platform} (hfwd : p.colourFwd = colourFwdDefault) (w h mx : Nat) :
    imageCoeffs p (flatImage w h mx padRgb) = List.replicate 3
      (List.replicate (64 * ((w + padOf w) / 8 * ((h + padOf h) / 8))) 0) := by
  rw [imageCoeffs_flatImage p mx (by decide) (.inr rfl) (by rw [toYuv_gray hfwd]; decide), toYuv_gray hfwd]
  simp [flatDc_zero, dcChannel_zero, List.replicate]

theorem imageFile_gray (p : Platform) (w h mx : Nat) : imageFile p w h mx (List.replicate 3
      (List.replicate (64 * ((w + padOf w) / 8 * ((h + padOf h) / 8))) 0)) =
    ppmHeader w h mx ++ (flatImage w h mx padRgb).px := by
  have hblock : idctBlock p (0 :: List.replicate 63 0) = List.replicate 64 128 :=
    idctBlock_dc (m := 0) (by simp) (by decide)
  have h := imageFile_dcChannels w h mx hblock hblock hblock
  rw [toRgb_gray] at h
  simpa [dcChannel_zero, List.replicate, flatImage] using h

/-- An image of 128 everywhere is the flat image of mid-gray. -/
theorem flatImage_gray (w h mx : Nat) :
    (⟨w, h, mx, List.replicate (3 * (w * h)) 128⟩ : Image) = flatImage w h mx padRgb := by
  rw [flatImage, show pixelOf padRgb = List.replicate 3 128 from rfl, List.flatten_replicate_replicate, Nat.mul_comm]

/-! ### The other exact colours -/

/-- Under the default parameters the colour `c` has the samples `y`, `u`, `v`, a flat block of them the DC coefficients
`a`, `b`, `d`, and the samples that these give back are the colour's (R271). -/
def IsExact (c : Rgb) (y u v a b d : Int) : Prop :=
  rgbOf (pixelOf c) = c ∧ toYuv platformDefault c = (y, u, v) ∧ (∀ s ∈ [y, u, v, a, b, d], s.natAbs ≤ 128) ∧
    [y, u, v].map (flatDc platformDefault) = [a, b, d] ∧
    toRgb platformDefault (2 * a + 128) (2 * b + 128) (2 * d + 128) = pixelOf c

section
variable {p : Platform} (hfwd : p.colourFwd = colourFwdDefault) (hinv : p.colourInv = colourInvDefault)
  (hq : p.qtable = qtableDefault) (hr : p.roundHalf = .away) {c : Rgb} {y u v a b d : Int}
  (hc : IsExact c y u v a b d) {w h : Nat} (mx : Nat)
include hfwd hinv hq hr hc

/-- A flat image of an exact colour, its sides multiples of 8, is reproduced (R271). -/
theorem exactColour_reproduced (hw : w % 8 = 0) (hh : h % 8 = 0) :
    toYuv p c = (y, u, v) ∧
    imageCoeffs p (flatImage w h mx c) = [a, b, d].map (dcChannel (w / 8 * (h / 8))) ∧
    imageFile p w h mx (imageCoeffs p (flatImage w h mx c)) = ppmHeader w h mx ++ (flatImage w h mx c).px := by
  obtain ⟨hpixel, hyuv, hsmall, hdc, hrgb⟩ := hc
  have hyuv : toYuv p c = (y, u, v) := by rw [← hyuv, toYuv, hfwd, hr]; rfl
  have hflat : ∀ s, flatDc p s = flatDc platformDefault s := fun s => by
    rw [flatDc, quantAt, hq, hr]
    rfl
  have hrgb : toRgb p (2 * a + 128) (2 * b + 128) (2 * d + 128) = pixelOf c := by rw [← hrgb, toRgb, hinv, hr]; rfl
  have hpad : padOf w = 0 ∧ padOf h = 0 := by unfold padOf; omega
  have hcoeffs : imageCoeffs p (flatImage w h mx c) = [a, b, d].map (dcChannel (w / 8 * (h / 8))) := by
    rw [imageCoeffs_flatImage p mx hpixel (.inl hpad), hyuv, hpad.1, hpad.2, ← hdc, List.map_map]
    · simp only [hflat]
      rfl
    · rw [hyuv]
      exact fun s hs => (hsmall s (List.mem_append_left [a, b, d] hs)).trans (by decide)
  have hblock : ∀ s ∈ [a, b, d], idctBlock p (s :: List.replicate 63 0) = List.replicate 64 (2 * s + 128) :=
    fun s hs => by
      have := hsmall s (List.mem_append_right [y, u, v] hs)
      refine idctBlock_dc ?_ (by omega)
      rw [hq, show qtableDefault.getD 0 1 = 16 from rfl]
      omega
  have hfile := imageFile_dcChannels w h mx (hblock a (by simp)) (hblock b (by simp)) (hblock d (by simp))
  rw [hpad.1, hpad.2, hrgb] at hfile
  exact ⟨hyuv, hcoeffs, hcoeffs ▸ hfile⟩

end

theorem black_isExact : IsExact ⟨0, 0, 0⟩ (-128) 0 0 (-64) 0 0 := by unfold IsExact; decide +kernel
theorem white_isExact : IsExact ⟨255, 255, 255⟩ 127 0 0 64 0 0 := by unfold IsExact; decide +kernel
theorem red_isExact : IsExact ⟨255, 0, 0⟩ (-52) (-43) 128 (-26) (-22) 64 := by unfold IsExact; decide +kernel
theorem brown_isExact : IsExact ⟨200, 100, 50⟩ (-4) (-42) 54 (-2) (-21) 27 := by unfold IsExact; decide +kernel

/-- Settles O56: a flat image has flat blocks, a flat block has a DC coefficient alone, and a DC coefficient alone gives
a flat block back. -/
theorem midGrayIsReproduced : Obligations.MidGrayIsReproduced := by
  refine ⟨fun p w h mx hfwd hw hh => ?_, fun p w h mx hfwd hinv hq hr hw hh hw8 hh8 q hmem => ?_⟩
  · intro img blocks
    have himg : img = flatImage w h mx padRgb := flatImage_gray w h mx
    have hblocks : 1 ≤ blocks := Nat.mul_pos (by unfold padOf; omega) (by unfold padOf; omega)
    rw [encodeChannels_eq, himg, imageCoeffs_gray hfwd]
    refine ⟨rfl, fun c hc => ?_, imageFile_gray p w h mx⟩
    rw [List.map_replicate] at hc
    rw [(List.mem_replicate.mp hc).2]
    exact channelEnc_zeros hblocks
  · intro img
    simp only [List.mem_cons, List.not_mem_nil, or_false] at hmem
    rcases hmem with rfl | rfl | rfl | rfl
    · exact exactColour_reproduced hfwd hinv hq hr black_isExact mx hw8 hh8
    · exact exactColour_reproduced hfwd hinv hq hr white_isExact mx hw8 hh8
    · exact exactColour_reproduced hfwd hinv hq hr red_isExact mx hw8 hh8
    · exact exactColour_reproduced hfwd hinv hq hr brown_isExact mx hw8 hh8

end Sys2Proof.Machine

namespace Sys2Proof.Machine

/-! ## The reads of HDR.DEC over readable bytes (R325) -/

theorem getLsbD_rdBE32 (b0 b1 b2 b3 : Byte) (i : Nat) : (rdBE32 b0 b1 b2 b3).getLsbD i =
    if i < 8 then b3.getLsbD i else if i - 8 < 8 then b2.getLsbD (i - 8)
    else if i - 8 - 8 < 8 then b1.getLsbD (i - 8 - 8) else b0.getLsbD (i - 8 - 8 - 8) := by
  rw [rdBE32]
  repeat rw [BitVec.getLsbD_append]

theorem be32_rdBE32 (b0 b1 b2 b3 : Byte) : be32 (rdBE32 b0 b1 b2 b3) = [b0, b1, b2, b3] := by
  simp only [be32, List.cons.injEq, and_true]
  refine ⟨?_, ?_, ?_, ?_⟩ <;> ext i hi <;>
    rw [BitVec.getElem_extractLsb', getLsbD_rdBE32, ← BitVec.getLsbD_eq_getElem hi] <;> grind

theorem be32_injective : Function.Injective be32 := fun v w h => by
  simp only [be32, List.cons.injEq, and_true] at h
  obtain ⟨h3, h2, h1, h0⟩ := h
  rw [← rdBE32_be32 v, h3, h2, h1, h0, rdBE32_be32]

theorem hdrAt_map_some {src : List Byte} {p : Nat} {b : Byte} :
    hdrAt (src.map some) p = .ok b ↔ src[p]? = some b := by
  rw [hdrAt, List.getElem?_map]
  cases src[p]? <;> simp

theorem hdrAt32_map_some {src : List Byte} {p : Nat} {w : Word} :
    hdrAt32 (src.map some) p = .ok w ↔ be32 w <+: src.drop p := by
  simp only [hdrAt32, bind_ok, hdrAt_map_some, Except.ok.injEq]
  constructor
  · rintro ⟨b0, h0, b1, h1, b2, h2, b3, h3, rfl⟩
    rw [be32_rdBE32]
    exact ⟨src.drop (p + 4), by
      rw [List.drop_eq_getElem?_toList_append (i := p), List.drop_eq_getElem?_toList_append (i := p + 1),
        List.drop_eq_getElem?_toList_append (i := p + 2), List.drop_eq_getElem?_toList_append (i := p + 3),
        h0, h1, h2, h3]
      rfl⟩
  · intro h
    have hat (i : Nat) (hi : i < 4) : src[p + i]? = some (be32 w)[i] :=
      List.getElem?_drop ▸ List.prefix_iff_getElem?.mp h i hi
    exact ⟨_, hat 0 (by decide), _, hat 1 (by decide), _, hat 2 (by decide), _, hat 3 (by decide), rdBE32_be32 w⟩

/-- A scan for the terminator counts the bytes before it (R325 conditions 5 and 8). -/
theorem findZero_skip {bs : List Byte} {cs : List SrcCell} (h : (0 : Byte) ∉ bs) :
    findZero (bs.map some ++ cs) = (· + bs.length) <$> findZero cs := by
  induction bs with
  | nil => exact (id_map (findZero cs)).symm
  | cons b bs ih =>
    obtain ⟨hb, hbs⟩ : (0 : Byte) ≠ b ∧ (0 : Byte) ∉ bs := by simpa [List.mem_cons] using h
    rw [List.map_cons, List.cons_append, findZero, readCell_some, ok_bind, if_neg (Ne.symm hb), ih hbs]
    cases findZero cs <;> rfl

theorem findZero_map_some {src : List Byte} {n : Nat} :
    findZero (src.map some) = .ok n ↔ ∃ name rest, src = name ++ 0 :: rest ∧ (0 : Byte) ∉ name ∧ n = name.length := by
  have hfound (name rest : List Byte) (h : (0 : Byte) ∉ name) :
      findZero ((name ++ 0 :: rest).map some) = .ok name.length := by
    rw [List.map_append, findZero_skip h]
    exact congrArg Except.ok (Nat.zero_add _)
  constructor
  · intro h
    by_cases hz : (0 : Byte) ∈ src
    · obtain ⟨name, rest, rfl, hname⟩ := List.eq_append_cons_of_mem hz
      rw [hfound name rest hname] at h
      exact ⟨name, rest, rfl, hname, (Except.ok.inj h).symm⟩
    · rw [← List.append_nil (src.map some), findZero_skip hz] at h
      cases h
  · rintro ⟨name, rest, rfl, hname, rfl⟩
    exact hfound name rest hname

/-! ## The valid headers are what HDR.DEC decodes (R325, R326) -/

/-- What HDR.DEC reports of a folder header (R326). -/
def folderResults (size : Word) (name : List Byte) : Results :=
  ⟨BitVec.ofNat 32 (6 + name.length), 0xFF, size, 5, BitVec.ofNat 32 name.length, 0, 0, 0⟩

/-- What HDR.DEC reports of a file header (R326). -/
def fileResults (size : Word) (name : List Byte) (orig : Word) (codec : List Byte) : Results :=
  ⟨BitVec.ofNat 32 (11 + name.length + codec.length), 0x00, size, 5, BitVec.ofNat 32 name.length, orig,
    BitVec.ofNat 32 (10 + name.length), BitVec.ofNat 32 codec.length⟩

/-- The bytes begin with a valid header, of which HDR.DEC reports the results (R325, R326). -/
inductive BeginsWithHeader : List Byte → Results → Prop where
  | folder {size : Word} {name : List Byte} (rest : List Byte) (hsize : size.toNat < 2 ^ 31) (hname : name ≠ [])
      (hzero : (0 : Byte) ∉ name) : BeginsWithHeader (folderHeader size name ++ rest) (folderResults size name)
  | file {size orig : Word} {name codec : List Byte} (rest : List Byte) (hsize : size.toNat < 2 ^ 31)
      (hname : name ≠ []) (hzero : (0 : Byte) ∉ name) (horig : orig.toNat < 2 ^ 31) (hcodec : (0 : Byte) ∉ codec) :
      BeginsWithHeader (fileHeader size name orig codec ++ rest) (fileResults size name orig codec)

theorem folderResults_eq (size : Word) (name : List Byte) : folderResults size name =
    ⟨BitVec.ofNat 32 (5 + name.length + 1), 0xFF, size, 5, BitVec.ofNat 32 name.length, 0, 0, 0⟩ := by
  rw [folderResults, show 6 + name.length = 5 + name.length + 1 by omega]

theorem fileResults_eq (size : Word) (name : List Byte) (orig : Word) (codec : List Byte) :
    fileResults size name orig codec =
      ⟨BitVec.ofNat 32 (5 + name.length + 5 + codec.length + 1), 0x00, size, 5,
        BitVec.ofNat 32 (5 + name.length - 5), orig, BitVec.ofNat 32 (5 + name.length + 5),
        BitVec.ofNat 32 codec.length⟩ := by
  rw [fileResults, show 11 + name.length + codec.length = 5 + name.length + 5 + codec.length + 1 by omega,
    show 10 + name.length = 5 + name.length + 5 by omega, Nat.add_sub_cancel_left]

/-- What HDR.DEC asks of the bytes after a file's name (R325 conditions 6 to 8). -/
theorem decodeFileTail_map_some {pre tail name : List Byte} {size : Word} {r : Results}
    (hpre : pre.length = 5 + name.length + 1) :
    decodeFileTail ((pre ++ tail).map some) size (5 + name.length) = .ok r ↔
      ∃ orig codec rest, tail = be32 orig ++ codec ++ [0] ++ rest ∧ orig.toNat < 2 ^ 31 ∧ (0 : Byte) ∉ codec ∧
        r = fileResults size name orig codec := by
  have hdrop : (pre ++ tail).drop (5 + name.length + 1) = tail := hpre ▸ List.drop_left
  have hdrop' : (pre ++ tail).drop (5 + name.length + 5) = tail.drop 4 := by
    rw [show 5 + name.length + 5 = 5 + name.length + 1 + 4 from rfl, ← List.drop_drop, hdrop]
  simp only [decodeFileTail, bind_ok, check_ok, exists_const, decide_eq_true_eq, nonNegative_iff, hdrAt32_map_some,
    hdrop, ← List.map_drop, hdrop', findZero_map_some]
  constructor
  · rintro ⟨-, orig, ⟨tail, rfl⟩, horig, _, ⟨codec, rest, htail, hcodec, rfl⟩, h⟩
    rw [List.drop_left' (be32_length orig)] at htail
    subst htail
    exact ⟨orig, codec, rest, by simp, horig, hcodec, (Except.ok.inj h).symm.trans (fileResults_eq _ _ _ _).symm⟩
  · rintro ⟨orig, codec, rest, rfl, horig, hcodec, rfl⟩
    have htail : be32 orig ++ codec ++ [0] ++ rest = be32 orig ++ (codec ++ 0 :: rest) := by simp
    rw [htail]
    refine ⟨?_, orig, List.prefix_append _ _, horig, _, ⟨codec, rest, List.drop_left' (be32_length orig), hcodec, rfl⟩,
      congrArg _ (fileResults_eq _ _ _ _).symm⟩
    simp [hpre, be32_length]
    omega

/-- HDR.DEC's checks up to the name, and what it goes on with (R325 conditions 1 to 5). -/
theorem decodeHeader_map_some {src : List Byte} {r : Results} : decodeHeader (src.map some) = .ok r ↔
    ∃ tag size name rest, src = [tag] ++ be32 size ++ name ++ [0] ++ rest ∧ size.toNat < 2 ^ 31 ∧ name ≠ [] ∧
      (0 : Byte) ∉ name ∧ (tag = folderTag ∧ r = folderResults size name ∨
        tag = fileTag ∧ decodeFileTail (src.map some) size (5 + name.length) = .ok r) := by
  simp only [decodeHeader, bind_ok, check_ok, exists_const, decide_eq_true_eq, nonNegative_iff, hdrAt_map_some,
    hdrAt32_map_some, ← List.map_drop, findZero_map_some]
  have hkinds : fileTag ≠ folderTag := by decide
  constructor
  · rintro ⟨-, tag, htag, hkind, size, ⟨tail, htail⟩, hsize, b, hb, hne, _, ⟨name, rest, hname, hzero, rfl⟩, h⟩
    obtain rfl : src = [tag] ++ be32 size ++ tail := by
      rw [← List.drop_zero (l := src), List.drop_eq_getElem?_toList_append, htag, ← htail]
      rfl
    obtain rfl : tail = name ++ 0 :: rest := hname
    refine ⟨tag, size, name, rest, by simp, hsize, ?_, hzero, ?_⟩
    · rintro rfl
      exact hne (Option.some.inj hb).symm
    · rcases hkind with rfl | rfl
      · rw [if_neg hkinds] at h
        exact .inr ⟨rfl, h⟩
      · rw [if_pos rfl] at h
        exact .inl ⟨rfl, (Except.ok.inj h).symm.trans (folderResults_eq _ _).symm⟩
  · rintro ⟨tag, size, name, rest, rfl, hsize, hname, hzero, h⟩
    obtain ⟨b, name', rfl⟩ := List.exists_cons_of_ne_nil hname
    refine ⟨?_, tag, rfl, ?_, size, ?_, hsize, b, rfl, ?_, _, ⟨b :: name', rest, ?_, hzero, rfl⟩, ?_⟩
    · simp [be32_length]
      omega
    · exact h.elim (fun h => .inr h.1) (fun h => .inl h.1)
    · exact ⟨b :: name' ++ [0] ++ rest, by simp⟩
    · exact fun hb => hzero (hb ▸ List.mem_cons_self)
    · simp [be32]
    · rcases h with ⟨rfl, rfl⟩ | ⟨rfl, h⟩
      · rw [if_pos rfl, folderResults_eq]
      · rwa [if_neg hkinds]

/-- HDR.DEC decodes exactly the valid headers (R325). -/
theorem decodeHeader_eq_ok {src : List Byte} {r : Results} :
    decodeHeader (src.map some) = .ok r ↔ BeginsWithHeader src r := by
  rw [decodeHeader_map_some]
  have hpre (tag : Byte) (size : Word) (name : List Byte) :
      ([tag] ++ be32 size ++ name ++ [0]).length = 5 + name.length + 1 := by
    simp [be32_length]
    omega
  have hfile (size : Word) (name : List Byte) (orig : Word) (codec rest : List Byte) :
      fileHeader size name orig codec ++ rest =
        [fileTag] ++ be32 size ++ name ++ [0] ++ (be32 orig ++ codec ++ [0] ++ rest) := by
    simp [fileHeader]
  constructor
  · rintro ⟨tag, size, name, rest, rfl, hsize, hname, hzero, ⟨rfl, rfl⟩ | ⟨rfl, htail⟩⟩
    · exact .folder rest hsize hname hzero
    · rw [decodeFileTail_map_some (hpre _ _ _)] at htail
      obtain ⟨orig, codec, rest, rfl, horig, hcodec, rfl⟩ := htail
      exact hfile .. ▸ .file rest hsize hname hzero horig hcodec
  · rintro (⟨rest, hsize, hname, hzero⟩ | ⟨rest, hsize, hname, hzero, horig, hcodec⟩)
    · exact ⟨_, _, _, rest, rfl, hsize, hname, hzero, .inl ⟨rfl, rfl⟩⟩
    · rw [hfile]
      refine ⟨_, _, _, _, rfl, hsize, hname, hzero, .inr ⟨rfl, ?_⟩⟩
      rw [decodeFileTail_map_some (hpre _ _ _)]
      exact ⟨_, _, rest, rfl, horig, hcodec, rfl⟩

/-! ## A readable source without a valid header (R325, R353) -/

section
variable {cs : List SrcCell}

theorem readCell_raises_of_readable {c : SrcCell} (h : none ∉ cs) (hc : c ∈ cs) :
    RaisesOnly [.headerInvalid] (readCell Err.busError c) := by
  cases c with
  | none => exact absurd hc h
  | some b => exact .ok

theorem hdrAt_raises_of_readable (h : none ∉ cs) (p : Nat) : RaisesOnly [.headerInvalid] (hdrAt cs p) := by
  unfold hdrAt
  split
  next c hc => exact readCell_raises_of_readable h (List.mem_of_getElem? hc)
  next => exact .error (by simp)

theorem hdrAt32_raises_of_readable (h : none ∉ cs) (p : Nat) : RaisesOnly [.headerInvalid] (hdrAt32 cs p) :=
  .bind (hdrAt_raises_of_readable h _) fun _ => .bind (hdrAt_raises_of_readable h _) fun _ =>
    .bind (hdrAt_raises_of_readable h _) fun _ => .bind (hdrAt_raises_of_readable h _) fun _ => .ok

theorem findZero_raises_of_readable (h : none ∉ cs) : RaisesOnly [.headerInvalid] (findZero cs) := by
  induction cs with
  | nil => exact .error (by simp)
  | cons c cs ih =>
    exact .bind (readCell_raises_of_readable h List.mem_cons_self) fun _ =>
      .ite .ok (.bind (ih (List.not_mem_of_not_mem_cons h)) fun _ => .ok)

theorem findZero_drop_raises_of_readable (h : none ∉ cs) (p : Nat) :
    RaisesOnly [.headerInvalid] (findZero (cs.drop p)) :=
  findZero_raises_of_readable fun hn => h (List.mem_of_mem_drop hn)

theorem decodeFileTail_raises_of_readable (h : none ∉ cs) (size : Word) (z : Nat) :
    RaisesOnly [.headerInvalid] (decodeFileTail cs size z) :=
  .bind (.check (by simp)) fun _ => .bind (hdrAt32_raises_of_readable h _) fun _ => .bind (.check (by simp)) fun _ =>
    .bind (findZero_drop_raises_of_readable h _) fun _ => .ok

/-- A decode of readable bytes raises no BUS_ERROR. -/
theorem decodeHeader_raises_of_readable (h : none ∉ cs) : RaisesOnly [.headerInvalid] (decodeHeader cs) :=
  .bind (.check (by simp)) fun _ => .bind (hdrAt_raises_of_readable h _) fun _ => .bind (.check (by simp)) fun _ =>
    .bind (hdrAt32_raises_of_readable h _) fun _ => .bind (.check (by simp)) fun _ =>
    .bind (hdrAt_raises_of_readable h _) fun _ => .bind (.check (by simp)) fun _ =>
    .bind (findZero_drop_raises_of_readable h _) fun _ => .ite .ok (decodeFileTail_raises_of_readable h _ _)

end

section
variable {s : State} {src : List Byte} (hw : s.latch.ops.src.wraps = false) (hsrc : s.source = some src)
include hw hsrc

theorem hdrDec_runsTo {r : Results} (h : BeginsWithHeader src r) : s.RunsTo .hdrDec r 0 [] := by
  refine runsTo_of_body_ok (i := .hdrDec) (d := ⟨r, 0, [], ⟨0, 0, .none⟩⟩) (regionsOk_of_src_fits rfl hw) ?_
  exact bind_ok.mpr ⟨r, by rw [source_eq_some.mp hsrc, decodeHeader_eq_ok.mpr h], rfl⟩

theorem hdrDec_headerInvalid (h : ∀ r, ¬BeginsWithHeader src r) : s.FailsWith .hdrDec .headerInvalid := by
  refine failsWith_of_body_error (i := .hdrDec) (regionsOk_of_src_fits rfl hw) (bind_error.mpr (.inl ?_))
  rw [source_eq_some.mp hsrc]
  cases hdec : decodeHeader (src.map some) with
  | ok r => exact absurd (decodeHeader_eq_ok.mp hdec) (h r)
  | error e => rw [List.mem_singleton.mp (decodeHeader_raises_of_readable (by simp) e hdec)]

end

/-- Settles O45: the bytes that HDR.DEC decodes are those that begin with a valid header. -/
theorem hdrDecDecodesExactlyValidHeaders : Obligations.HdrDecDecodesExactlyValidHeaders := by
  refine fun s src hw hsrc => ⟨?_, ?_, fun hfolder hfile => hdrDec_headerInvalid hw hsrc ?_⟩
  · rintro size name rest rfl hsize hname hzero
    exact hdrDec_runsTo hw hsrc (.folder rest hsize hname hzero)
  · rintro size name orig codec rest rfl hsize horig hname hzero hcodec
    exact hdrDec_runsTo hw hsrc (.file rest hsize hname hzero horig hcodec)
  · rintro _ (⟨rest, hsize, hname, hzero⟩ | ⟨rest, hsize, hname, hzero, horig, hcodec⟩)
    · exact hfolder ⟨_, _, rest, rfl, hsize, hname, hzero⟩
    · exact hfile ⟨_, _, _, _, rest, rfl, hsize, horig, hname, hzero, hcodec⟩

end Sys2Proof.Machine

namespace Sys2Proof.Machine

/-! ## A header that HDR.DEC decodes (R325, R328) -/

namespace BeginsWithHeader

variable {src : List Byte} {r : Results}

/-- Whatever follows a header, HDR.DEC reports the same of it. -/
theorem append (h : BeginsWithHeader src r) (more : List Byte) : BeginsWithHeader (src ++ more) r := by
  rcases h with ⟨rest, hsize, hname, hzero⟩ | ⟨rest, hsize, hname, hzero, horig, hcodec⟩ <;> rw [List.append_assoc]
  · exact .folder _ hsize hname hzero
  · exact .file _ hsize hname hzero horig hcodec

theorem unique {r' : Results} (h : BeginsWithHeader src r) (h' : BeginsWithHeader src r') : r = r' :=
  Except.ok.inj ((decodeHeader_eq_ok.mpr h).symm.trans (decodeHeader_eq_ok.mpr h'))

/-- The header that HDR.DEC reports lies inside the source. -/
theorem len_le (h : BeginsWithHeader src r) : r.len.toNat ≤ src.length := by
  rcases h with ⟨rest, -, -, -⟩ | ⟨rest, -, -, -, -, -⟩ <;> refine Nat.le_trans (Nat.mod_le _ _) ?_ <;>
    simp [folderHeader, fileHeader, be32_length] <;> omega

/-- A header cut short begins with no header: HDR.DEC would report that one of the whole bytes too. -/
theorem not_take (h : BeginsWithHeader src r) (hlen : r.len.toNat = src.length) {k : Nat} (hk : k < src.length)
    (r' : Results) : ¬BeginsWithHeader (src.take k) r' := fun h' => by
  have heq : r = r' := h.unique (List.take_append_drop k src ▸ h'.append (src.drop k))
  have hle := h'.len_le
  rw [← heq, List.length_take] at hle
  omega

/-- A valid header's size field is not negative and its name not empty (R325 conditions 3 and 4). -/
theorem size_and_name {tag : Byte} {size : Word} {rest : List Byte}
    (h : BeginsWithHeader ([tag] ++ be32 size ++ rest) r) :
    size.toNat < 2 ^ 31 ∧ ∃ b rest', rest = b :: rest' ∧ b ≠ 0 := by
  obtain ⟨tag', size', name, rest', heq, hsize, hname, hzero, -⟩ :=
    decodeHeader_map_some.mp (decodeHeader_eq_ok.mpr h)
  obtain ⟨b, name', rfl⟩ := List.exists_cons_of_ne_nil hname
  rw [List.append_assoc _ [0], List.append_assoc _ (b :: name')] at heq
  obtain ⟨hpre, rfl⟩ := List.append_inj heq (by simp [be32_length])
  obtain rfl : size = size' := be32_injective (List.cons.inj hpre).2
  exact ⟨hsize, b, _, rfl, fun hb => hzero (hb ▸ List.mem_cons_self)⟩

end BeginsWithHeader

/-! ## The header an encode writes (R321, R322) -/

theorem noZero_map_some {bs : List Byte} {u : Unit} (h : noZero (bs.map some) = .ok u) : (0 : Byte) ∉ bs := fun hz => by
  obtain ⟨pre, post, rfl, hpre⟩ := List.eq_append_cons_of_mem hz
  rw [List.map_append, noZero_skip hpre] at h
  cases h

/-- A header is stored as a codec's output is (R154). -/
theorem storeHeader_ok {s : State} {bs : List Byte} {d : Finish} (h : storeHeader s bs = .ok d) :
    bs.length ≤ s.latch.ops.dstCap.toNat ∧ d = codecFinish ((Sink.start s).extend bs) 0 .none := by
  obtain ⟨_, hroom, h⟩ := bind_ok.mp h
  obtain ⟨_, _, h⟩ := bind_ok.mp h
  cases h
  refine ⟨of_decide_eq_true (check_ok.mp hroom), ?_⟩
  simp [codecFinish, Operands.dst]

/-- `t` holds the header `bs` at the destination of `s` and its length in RES_LEN; `r` is what HDR.DEC reports of it. -/
structure State.WroteHeader (t s : State) (bs : List Byte) (r : Results) : Prop where
  bytes : t.mem.readRegion ⟨s.latch.ops.dstAddr.toNat, t.res.len.toNat⟩ = bs
  length : t.res.len.toNat = bs.length
  header : BeginsWithHeader bs r
  reported : r.len = t.res.len

theorem wroteHeader_of_storeHeader {s : State} {bs : List Byte} {d : Finish} {r : Results}
    (h : storeHeader s bs = .ok d) (hheader : BeginsWithHeader bs r) (hr : r.len = BitVec.ofNat 32 bs.length) :
    (s.complete d).WroteHeader s bs r := by
  obtain ⟨hcap, rfl⟩ := storeHeader_ok h
  have hlen : (s.complete (codecFinish ((Sink.start s).extend bs) 0 .none)).res.len = BitVec.ofNat 32 bs.length := by
    simp [codecFinish]
  exact ⟨readRegion_complete_codecFinish hcap, by rw [hlen, toNat_ofNat_of_le_cap hcap], hheader, hr.trans hlen.symm⟩

theorem folderResults_len (size : Word) (name : List Byte) :
    (folderResults size name).len = BitVec.ofNat 32 (folderHeader size name).length := by
  simp only [folderResults, folderHeader, List.length_append, List.length_singleton, be32_length]
  congr 1
  omega

theorem fileResults_len (size : Word) (name : List Byte) (orig : Word) (codec : List Byte) :
    (fileResults size name orig codec).len = BitVec.ofNat 32 (fileHeader size name orig codec).length := by
  simp only [fileResults, fileHeader, List.length_append, List.length_singleton, be32_length]
  congr 1
  omega

theorem codecName_length {s : State} {bs : List Byte} (h : s.codecName = some bs) :
    bs.length = s.latch.ops.arg3.toNat := by
  rw [← List.length_map (f := some), ← codecName_eq_some.mp h, cells_length]
  rfl

theorem source_ne_nil {s : State} {bs : List Byte} (h : s.source = some bs) (hlen : s.latch.ops.srcLen ≠ 0) :
    bs ≠ [] := fun hnil => hlen (BitVec.eq_of_toNat_eq (by rw [← source_length h, hnil]; rfl))

theorem hdrEfold_wroteHeader {s t : State} {name : List Byte} (hname : s.source = some name)
    (h : exec .hdrEfold s = .next t) (herr : t.status.err = false) :
    t.WroteHeader s (folderHeader s.latch.ops.arg0 name) (folderResults s.latch.ops.arg0 name) := by
  obtain ⟨d, hbody, rfl⟩ := body_ok_of_no_error h herr
  obtain ⟨_, hvalid, hbody⟩ := bind_ok.mp hbody
  obtain ⟨name', hread, hbody⟩ := bind_ok.mp hbody
  obtain rfl : name = name' := Except.ok.inj ((readAll_of_source _ hname).symm.trans hread)
  obtain ⟨_, hsize, hvalid⟩ := bind_ok.mp hvalid
  obtain ⟨_, hlen, hzero⟩ := bind_ok.mp hvalid
  rw [source_eq_some.mp hname] at hzero
  refine wroteHeader_of_storeHeader hbody (List.append_nil (folderHeader _ _) ▸ .folder [] ?_ ?_ ?_)
    (folderResults_len _ _)
  · exact nonNegative_iff.mp (check_ok.mp hsize)
  · exact source_ne_nil hname (of_decide_eq_true (check_ok.mp hlen))
  · exact noZero_map_some hzero

theorem hdrEfile_wroteHeader {s t : State} {name codec : List Byte} (hname : s.source = some name)
    (hcodec : s.codecName = some codec) (h : exec .hdrEfile s = .next t) (herr : t.status.err = false) :
    t.WroteHeader s (fileHeader s.latch.ops.arg0 name s.latch.ops.arg1 codec)
      (fileResults s.latch.ops.arg0 name s.latch.ops.arg1 codec) := by
  obtain ⟨d, hbody, rfl⟩ := body_ok_of_no_error h herr
  obtain ⟨_, hvalid, hbody⟩ := bind_ok.mp hbody
  obtain ⟨name', hread, hbody⟩ := bind_ok.mp hbody
  obtain rfl : name = name' := Except.ok.inj ((readAll_of_source _ hname).symm.trans hread)
  obtain ⟨codec', hread, hbody⟩ := bind_ok.mp hbody
  rw [codecName_eq_some.mp hcodec] at hread hvalid
  obtain rfl : codec = codec' := Except.ok.inj ((readAll_map_some _ _).symm.trans hread)
  obtain ⟨_, hsizes, hvalid⟩ := bind_ok.mp hvalid
  obtain ⟨_, hlen, hvalid⟩ := bind_ok.mp hvalid
  obtain ⟨_, hzero, hcodecZero⟩ := bind_ok.mp hvalid
  rw [source_eq_some.mp hname] at hzero
  obtain ⟨hsize, horig⟩ := Bool.and_eq_true_iff.mp (check_ok.mp hsizes)
  refine wroteHeader_of_storeHeader hbody (List.append_nil (fileHeader _ _ _ _) ▸ .file [] ?_ ?_ ?_ ?_ ?_)
    (fileResults_len _ _ _ _)
  · exact nonNegative_iff.mp hsize
  · exact source_ne_nil hname (of_decide_eq_true (check_ok.mp hlen))
  · exact noZero_map_some hzero
  · exact nonNegative_iff.mp horig
  · exact noZero_map_some hcodecZero

/-! ## Round trip (R328) -/

theorem take_drop_append {α : Type} {pre mid post : List α} {n m : Nat} (hn : pre.length = n) (hm : mid.length = m) :
    ((pre ++ mid ++ post).drop n).take m = mid := by
  rw [List.append_assoc, List.drop_left' hn, List.take_left' hm]

theorem folderHeader_name (size : Word) (name : List Byte) :
    ((folderHeader size name).drop 5).take name.length = name :=
  take_drop_append (post := [0]) rfl rfl

theorem fileHeader_name (size : Word) (name : List Byte) (orig : Word) (codec : List Byte) :
    ((fileHeader size name orig codec).drop 5).take name.length = name := by
  have hsplit : fileHeader size name orig codec =
      [fileTag] ++ be32 size ++ name ++ ([0] ++ be32 orig ++ codec ++ [0]) := by simp [fileHeader]
  exact hsplit ▸ take_drop_append rfl rfl

theorem fileHeader_codec (size : Word) (name : List Byte) (orig : Word) (codec : List Byte) :
    ((fileHeader size name orig codec).drop (name.length + 10)).take codec.length = codec := by
  refine take_drop_append (post := [0]) ?_ rfl
  simp [be32_length]
  omega

namespace State.WroteHeader

variable {s t u : State} {bs : List Byte} {r : Results}

theorem hdrDec_runsTo (h : t.WroteHeader s bs r) (hw : u.latch.ops.src.wraps = false)
    (hsrc : u.source = some (t.mem.readRegion ⟨s.latch.ops.dstAddr.toNat, t.res.len.toNat⟩)) :
    u.RunsTo .hdrDec r 0 [] :=
  Machine.hdrDec_runsTo hw (h.bytes ▸ hsrc) h.header

theorem hdrDec_take_headerInvalid (h : t.WroteHeader s bs r) (hw : u.latch.ops.src.wraps = false) {k : Nat}
    (hk : k < t.res.len.toNat)
    (hsrc : u.source = some ((t.mem.readRegion ⟨s.latch.ops.dstAddr.toNat, t.res.len.toNat⟩).take k)) :
    u.FailsWith .hdrDec .headerInvalid :=
  hdrDec_headerInvalid hw (h.bytes ▸ hsrc) (h.header.not_take (h.reported ▸ h.length) (h.length ▸ hk))

end State.WroteHeader

/-- What HDR.DEC reports of a written folder header, in the operands of the encode. -/
theorem folderResults_of_written {s t : State} {name bs : List Byte} (hname : s.source = some name)
    (h : t.WroteHeader s bs (folderResults s.latch.ops.arg0 name)) : folderResults s.latch.ops.arg0 name =
      ⟨t.res.len, 0xFF, s.latch.ops.arg0, 5, s.latch.ops.srcLen, 0, 0, 0⟩ := by
  rw [← h.reported]
  simp [folderResults, source_length hname]

/-- What HDR.DEC reports of a written file header, in the operands of the encode. -/
theorem fileResults_of_written {s t : State} {name codec bs : List Byte} (hname : s.source = some name)
    (hcodec : s.codecName = some codec)
    (h : t.WroteHeader s bs (fileResults s.latch.ops.arg0 name s.latch.ops.arg1 codec)) :
    fileResults s.latch.ops.arg0 name s.latch.ops.arg1 codec =
      ⟨t.res.len, 0x00, s.latch.ops.arg0, 5, s.latch.ops.srcLen, s.latch.ops.arg1, s.latch.ops.srcLen + 10,
        s.latch.ops.arg3⟩ := by
  rw [← h.reported]
  simp [fileResults, source_length hname, codecName_length hcodec, BitVec.ofNat_add, BitVec.add_comm]

/-- Settles O47: the encoded bytes begin with a valid header of their own length, and cut short with none. -/
theorem headerRoundTrip : Obligations.HeaderRoundTrip := by
  refine ⟨fun u tag size rest hw => ⟨fun hsize hsrc => ?_, fun hsrc => ?_⟩, ?_⟩
  · exact hdrDec_headerInvalid hw hsrc fun r h => Nat.not_lt.mpr hsize h.size_and_name.1
  · rw [List.append_assoc _ [0x00]] at hsrc
    refine hdrDec_headerInvalid hw hsrc fun r h => ?_
    obtain ⟨_, b, rest', heq, hb⟩ := h.size_and_name
    exact hb (List.cons.inj heq).1.symm
  · rintro i s t u name codec hi hname hcodec hexec herr hw
    have hnameLen := source_length hname
    rcases hi with rfl | rfl
    · have hcodec := hcodec rfl
      have hcodecLen := codecName_length hcodec
      have hwrote := hdrEfile_wroteHeader hname hcodec hexec herr
      refine ⟨fun hsrc => ⟨nofun, fun _ => ⟨?_, ?_⟩, ?_⟩, fun k hk => hwrote.hdrDec_take_headerInvalid hw hk⟩
      · exact fileResults_of_written hname hcodec hwrote ▸ hwrote.hdrDec_runsTo hw hsrc
      · rw [hwrote.bytes, ← hnameLen, ← hcodecLen, fileHeader_codec]
      · rw [hwrote.bytes, ← hnameLen, fileHeader_name]
    · have hwrote := hdrEfold_wroteHeader hname hexec herr
      refine ⟨fun hsrc => ⟨fun _ => ?_, nofun, ?_⟩, fun k hk => hwrote.hdrDec_take_headerInvalid hw hk⟩
      · exact folderResults_of_written hname hwrote ▸ hwrote.hdrDec_runsTo hw hsrc
      · rw [hwrote.bytes, ← hnameLen, folderHeader_name]

/-! ## HDR.PATCH (R329) -/

/-! A check or a read that passes leaves what follows it, and one that fails ends the body. -/

theorem bind_of_ok {ε α β : Type} {x : Except ε α} {a : α} (h : x = .ok a) (f : α → Except ε β) :
    (x >>= f) = f a := h ▸ ok_bind a f

theorem bind_of_error {ε α β : Type} {x : Except ε α} {e : ε} (h : x = .error e) (f : α → Except ε β) :
    (x >>= f) = .error e := bind_error.mpr (.inl h)

theorem check_of_true {ε : Type} {b : Bool} (h : b = true) (e : ε) : check b e = .ok () := check_ok.mpr h

theorem check_of_false {ε : Type} {b : Bool} (h : b = false) (e : ε) : check b e = .error e :=
  check_error.mpr ⟨h, rfl⟩

theorem readCell_of_memOk {ε : Type} (bus : ε) {s : State} {a : Nat} (h : s.plat.memOk a = true) :
    readCell bus (s.cell a) = .ok (s.engineRead a) := by rw [cell_of_memOk h, readCell_some]

theorem readCell_of_not_memOk {ε : Type} (bus : ε) {s : State} {a : Nat} (h : s.plat.memOk a = false) :
    readCell bus (s.cell a) = .error bus := by rw [cell_of_not_memOk h, readCell_none]

theorem regionsOk_hdrPatch (o : Operands) : regionsOk .hdrPatch o = !o.dst.wraps := by
  simp [regionsOk, usedRegions, readRegions, uses]

/-- A size field after a MEM_OK type byte is backed exactly when the five bytes are. -/
theorem sizeField_memOk {p : Platform} {a : Nat} (h : p.memOk a = true) :
    ((List.range 4).all fun i => p.memOk (a + 1 + i)) = true ↔ ∀ k, k < 5 → p.memOk (a + k) = true := by
  simp only [List.all_eq_true, List.mem_range]
  constructor
  · rintro hfield (_ | k) hk
    · exact h
    · exact Nat.add_right_comm a 1 k ▸ hfield k (Nat.lt_of_succ_lt_succ hk)
  · intro hall k hk
    exact Nat.add_right_comm a 1 k ▸ hall (k + 1) (Nat.succ_lt_succ hk)

/-- Settles O46: each check of the body leaves the next one, and the stores follow the last. -/
theorem hdrPatchRewritesTheSize : Obligations.HdrPatchRewritesTheSize := by
  intro s o at0 tag backed
  refine ⟨fun hw => failsWith_regionError (by rw [regionsOk_hdrPatch, hw]; rfl), fun hw => ?_⟩
  have hr : regionsOk .hdrPatch o = true := by rw [regionsOk_hdrPatch, hw]; rfl
  have hfails {e : Err} (h : bodyOf .hdrPatch s = .error e) : s.FailsWith .hdrPatch e := failsWith_of_body_error hr h
  refine ⟨fun hcap => ?_, fun hcap => ?_⟩
  · exact hfails (bind_of_error (check_of_false (decide_eq_false (Nat.not_le.mpr hcap)) _) _)
  have hfits : bodyOf .hdrPatch s = _ := bind_of_ok (check_of_true (decide_eq_true hcap) _) _
  refine ⟨fun hsize => ?_, fun hsize => ?_⟩
  · have hneg : nonNegative o.arg0 = false := Bool.eq_false_iff.mpr (mt nonNegative_iff.mp (Nat.not_lt.mpr hsize))
    exact hfails (hfits.trans (bind_of_error (check_of_false hneg _) _))
  have hsized := hfits.trans (bind_of_ok (check_of_true (nonNegative_iff.mpr hsize) _) _)
  have hread (hok : s.plat.memOk at0 = true) := hsized.trans (bind_of_ok (readCell_of_memOk _ hok) _)
  have htagged (hok : s.plat.memOk at0 = true) (htag : tag) :=
    (hread hok).trans (bind_of_ok (check_of_true (decide_eq_true htag) _) _)
  refine ⟨fun hok => ?_, fun hok htag => ?_, fun hok htag hbacked => ?_, fun htag hbacked => ?_⟩
  · exact hfails (hsized.trans (bind_of_error (readCell_of_not_memOk _ hok) _))
  · exact hfails ((hread hok).trans (bind_of_error (check_of_false (decide_eq_false htag) _) _))
  · have hfield := Bool.eq_false_iff.mpr (mt (sizeField_memOk hok).mp hbacked)
    exact hfails ((htagged hok htag).trans (bind_of_error (check_of_false hfield _) _))
  · have hok : s.plat.memOk at0 = true := hbacked 0 (by decide)
    have hfield := (sizeField_memOk hok).mpr hbacked
    exact runsTo_of_body_ok hr ((htagged hok htag).trans (bind_of_ok (check_of_true hfield _) _))

end Sys2Proof.Machine

namespace Sys2Proof.Machine

/-! ## CTRL and the reset input (R380, R381) -/

/-- Settles O9: a CTRL write without bit 1, one to a busy engine, and one to an idle engine. -/
theorem softResetIsRefusedWhileBusy : Obligations.SoftResetIsRefusedWhileBusy := by
  intro s w
  have hwrite : hostRegWrite 0x04 4 w s = .next (s.writeCtrl w) := hostRegWrite_offset .ctrl w s
  rw [hwrite]
  refine ⟨fun hw => congrArg _ (writeCtrl_of_clear hw), fun hw hbusy => congrArg _ (writeCtrl_of_busy hw hbusy),
    fun hw hidle => ⟨s.resetRegs, congrArg _ (writeCtrl_of_idle hw hidle), resetRegs_atReset s,
      (hardwareReset_of_idle hidle).symm, rfl⟩⟩

/-- Only a busy engine has a destination to abandon (R108, R380). -/
theorem busy_of_busyDst_contains {s : State} {x : Nat} (h : s.busyDst.contains x = true) : s.seq = .busy := by
  cases hq : s.seq with
  | busy => rfl
  | idle => simp [State.busyDst, State.running, isBusy_of_idle hq, Region.contains] at h

/-- A byte of the abandoned command's destination is a free value after the reset (R380). -/
theorem read_hardwareReset_inside {s : State} {x : Nat} (h : s.busyDst.contains x = true) (hx : x < 2 ^ 32) :
    s.hardwareReset.mem.read x = Config.freeByte s.draws x := by
  rw [State.hardwareReset, if_pos (isBusy_of_busy (busy_of_busyDst_contains h))]
  exact read_drawRegion_inside h hx

theorem hardwareReset_done (s : State) : s.hardwareReset.status.done = false := by
  obtain ⟨u, hu⟩ := hardwareReset_eq_resetRegs s
  rw [hu]
  rfl

/-- The host's turn is its oldest pending operation, on the state without the turn and without the operation. -/
theorem step_of_pending {s : State} {op : HostOp} {rest : List HostOp} (ht : s.turn = .host)
    (hhost : s.host = op :: rest) : step s = hostOp op { s.popSched with host := rest } := by
  rw [step_host ht, hostStep, State.popSched_host, hhost]

/-- Settles O10: the step is the hardware reset, which draws the destination of the command that ran and leaves the
engine idle. -/
theorem hardwareResetAbandonsTheCommand : Obligations.HardwareResetAbandonsTheCommand := by
  intro s rest hturn hhost
  refine ⟨_, step_of_pending hturn hhost, hardwareReset_atReset _, hardwareReset_done _,
    fun x hx => read_hardwareReset_outside hx, fun x hx hlt => ⟨_, read_hardwareReset_inside hx hlt⟩, fun w => ?_⟩
  exact ⟨_, hostOp_cmd_of_idle w (hardwareReset_seq _), rfl, rfl⟩

/-! ## The interrupt level (R361) -/

/-- After a completion DONE is 1, so the level is IE. -/
theorem irq_of_endsCommand {t s : State} (hend : t.EndsCommand s) (hkeep : t.KeepsRegisters s) : t.irq = s.ie := by
  rw [State.irq, hend.done, Bool.true_or, Bool.and_true, hkeep.ie]

theorem keepsRegisters_of_exec {i : Instr} {s t : State} (h : exec i s = .next t) : t.KeepsRegisters s := by
  obtain ⟨u, hu, hkeep⟩ := exec_keepsRegisters i s
  cases h.symm.trans hu
  exact hkeep

/-- The engine's turn ends a busy machine's command and changes no other register. -/
theorem step_of_busy_engine {s t : State} (ht : s.turn = .engine) (hbusy : s.seq = .busy) (h : step s = .next t) :
    t.EndsCommand s.popSched ∧ t.KeepsRegisters s.popSched := by
  obtain ⟨u, hu, hend⟩ := engineStep_endsCommand (s := s.popSched) hbusy
  cases h.symm.trans ((step_engine ht).trans hu)
  exact hend

theorem irq_of_ie_false {s : State} (h : s.ie = false) : s.irq = false := by rw [State.irq, h, Bool.false_and]

theorem irq_of_flags_false {s : State} (hdone : s.status.done = false) (herr : s.status.err = false) :
    s.irq = false := by
  rw [State.irq, hdone, herr, Bool.or_false, Bool.and_false]

theorem ie_of_irq {s : State} (h : s.irq = true) : s.ie = true := (Bool.and_eq_true_iff.mp h).1

/-- A CTRL write with bit 0 clear leaves IE = 0, whether or not it resets (R381). -/
theorem ie_writeCtrl_of_clear {w : Word} (hw : w.getLsbD 0 = false) (s : State) : (s.writeCtrl w).ie = false := by
  cases hreset : w.getLsbD 1 with
  | false => rw [writeCtrl_of_clear hreset]; exact hw
  | true =>
    cases hq : s.seq with
    | busy => rw [writeCtrl_of_busy hreset hq]; exact hw
    | idle => rw [writeCtrl_of_idle hreset hq]; rfl

/-- The host operations that can lower the level (R361). -/
def HostOp.MayLowerIrq (op : HostOp) : Prop :=
  op = .hwReset ∨ ∃ v, op = .regWrite 0x04 4 v ∨ op = .regWrite 0x08 4 v ∨ op = .regWrite 0x0C 4 v

/-- A store that goes on is the 32-bit store of a register at its offset, or changes nothing. -/
theorem hostRegWrite_next_offset {off bytes : Nat} {v : Word} {s t : State} (h : hostRegWrite off bytes v s = .next t) :
    t = s ∨ ∃ r : RegName, off = r.offset ∧ bytes = 4 ∧ t = s.writeReg v r := by
  unfold hostRegWrite at h
  split at h
  · rename_i hok
    obtain ⟨rfl, _⟩ := (regAccessOk_iff off bytes).mp hok
    split at h
    · rename_i r hr
      cases h
      exact .inr ⟨r, (offset_of_regAt hr).symm, rfl, rfl⟩
    · cases h
      exact .inl rfl
  · cases h

/-- A store to another register than CTRL, STATUS and CMD keeps the level. -/
theorem irq_writeReg (s : State) (v : Word) (r : RegName) :
    (s.writeReg v r).irq = s.irq ∨ (HostOp.regWrite r.offset 4 v).MayLowerIrq := by
  cases r with
  | ctrl => exact .inr (.inr ⟨v, .inl rfl⟩)
  | status => exact .inr (.inr ⟨v, .inr (.inl rfl)⟩)
  | cmd => exact .inr (.inr ⟨v, .inr (.inr rfl)⟩)
  | _ => exact .inl rfl

/-- An operation keeps the level unless it is one that may lower it. -/
theorem irq_hostOp {op : HostOp} {s t : State} (h : hostOp op s = .next t) : t.irq = s.irq ∨ op.MayLowerIrq := by
  cases op with
  | regRead off bytes =>
    rw [hostRegRead_next h]
    exact .inl rfl
  | regWrite off bytes v =>
    obtain rfl | ⟨r, rfl, rfl, rfl⟩ := hostRegWrite_next_offset h
    · exact .inl rfl
    · exact irq_writeReg s v r
  | wait =>
    cases h
    unfold State.pollDone
    split <;> exact .inl rfl
  | memRead a n =>
    obtain ⟨_, _, _, rfl⟩ := hostAccess_next h
    exact .inl rfl
  | check a n bs =>
    obtain ⟨_, _, _, rfl⟩ := hostAccess_next h
    exact .inl rfl
  | memWrite a bs =>
    obtain ⟨_, _, _, rfl⟩ := hostAccess_next h
    exact .inl rfl
  | hwReset => exact .inr (.inl rfl)

/-- The engine never lowers the level: idle it does nothing, and busy it ends its command. -/
theorem irq_engine_turn {s t : State} (ht : s.turn = .engine) (hirq : s.irq = true) (h : step s = .next t) :
    t.irq = true := by
  cases hq : s.seq with
  | idle =>
    cases h.symm.trans ((step_engine ht).trans (engineStep_of_idle (s := s.popSched) hq))
    exact hirq
  | busy =>
    obtain ⟨hend, hkeep⟩ := step_of_busy_engine ht hq h
    have hlevel := irq_of_endsCommand hend hkeep
    exact hlevel.trans (ie_of_irq hirq)

/-- Only an operation of the host that may lower the level does. -/
theorem lowering_step {s t : State} (hirq : s.irq = true) (h : step s = .next t) (hlow : t.irq = false) :
    ∃ op rest, s.host = op :: rest ∧ op.MayLowerIrq := by
  have hne : t.irq ≠ s.irq := by simp [hirq, hlow]
  cases ht : s.turn with
  | engine => exact absurd (irq_engine_turn ht hirq h) (by simp [hlow])
  | host =>
    rw [step_host ht] at h
    obtain ⟨_, he⟩ | ⟨op, rest, hhost, he⟩ := hostStep_cases s.popSched <;> rw [he] at h
    · cases h
      exact absurd rfl hne
    · exact ⟨op, rest, hhost, (irq_hostOp h).resolve_left hne⟩

/-- Settles O18: a completion leaves DONE = 1 and keeps IE, each lowering access clears IE or both flags, and every
other step keeps them. -/
theorem interruptIsALevel : Obligations.InterruptIsALevel := by
  refine ⟨fun _ => rfl, fun i s t h => irq_of_endsCommand (exec_endsCommand h) (keepsRegisters_of_exec h),
    fun s t ht hbusy h => ?_, fun s hdone => ?_, fun s w hw => irq_of_ie_false (ie_writeCtrl_of_clear hw s),
    fun s w hidle => ?_, fun s => (hardwareReset_atReset s).irq, fun s w hdone herr => ?_,
    fun _ _ => lowering_step⟩
  · obtain ⟨hend, hkeep⟩ := step_of_busy_engine ht hbusy h
    exact ⟨hkeep.ie, irq_of_endsCommand (s := s.popSched) hend hkeep⟩
  · rw [writeCtrl_of_clear (by decide)]
    simp [State.irq, hdone]
  · rw [State.writeReg, writeCmd_of_idle w hidle]
    exact irq_of_flags_false rfl rfl
  · exact irq_of_flags_false (by simp [State.writeReg, State.acknowledge, hdone])
      (by simp [State.writeReg, State.acknowledge, herr])

/-! ## Operand registers and the running command (R51, R384) -/

/-- A body reads no operand register: with other ones it finds the same inputs, by the latch (R51). -/
theorem bodyOf_with_ops (i : Instr) (s : State) (o : Operands) : bodyOf i { s with ops := o } = bodyOf i s :=
  bodyOf_congr ⟨rfl, rfl, fun _ => rfl, fun _ => rfl, fun _ => rfl, fun _ => .inl rfl⟩

theorem raiseError_with_ops (e : Err) (dst : Region) (s : State) (o : Operands) :
    ({ s with ops := o } : State).raiseError e dst = { s.raiseError e dst with ops := o } := by
  unfold State.raiseError
  split <;> rfl

/-- Settles O27: the region check and the body read the latch, and no completion reads an operand register. -/
theorem operandsAreReadFromTheLatch : Obligations.OperandsAreReadFromTheLatch := by
  intro i s t o h
  have hbody := bodyOf_with_ops i s o
  obtain ⟨hr, he⟩ | ⟨d, hr, hb, he⟩ | ⟨e, hr, hb, he⟩ := exec_cases i s <;> rw [he] at h <;> cases h
  · rw [exec_of_region_error (s := { s with ops := o }) hr, raiseError_with_ops]
  · exact exec_of_body_ok (s := { s with ops := o }) hr (hbody.trans hb)
  · rw [exec_of_body_error (s := { s with ops := o }) hr (hbody.trans hb), raiseError_with_ops]

end Sys2Proof.Machine

namespace Sys2Proof.Machine

/-! ## The causes a codec's body raises (R352, R354) -/

section
variable {es : List Cause} (hbus : .busError ∈ es) (hund : .srcUnderrun ∈ es)
include hbus hund

theorem inGet_raises (src : List SrcCell) : RaisesOnly es (inGet src) := by
  cases src with
  | nil => exact .error hund
  | cons c rest => exact .bind (.readCell hbus) fun _ => .ok

theorem inGet16_raises (src : List SrcCell) : RaisesOnly es (inGet16 src) :=
  .bind (.check hund) fun _ => .bind (inGet_raises hbus hund _) fun _ => .bind (inGet_raises hbus hund _) fun _ => .ok

end

/-! ### Appends (R96 to R101, R177) -/

section
variable {es : List Cause} (hbus : .busError ∈ es) (hroom : .dstOverflow ∈ es)
include hbus hroom

theorem putBytes_raises (k : Sink) (bs : List Byte) : RaisesOnly es (k.putBytes bs) :=
  .bind (.check hroom) fun _ => .bind (.check hbus) fun _ => .ok

theorem putEach_raises (k : Sink) (bs : List Byte) : RaisesOnly es (k.putEach bs) :=
  .bind (.check hbus) fun _ => putBytes_raises hbus hroom _ _

theorem putChunks_raises (cs : List (List Byte)) (k : Sink) : RaisesOnly es (Sink.putChunks cs k) := by
  induction cs generalizing k with
  | nil => exact .ok
  | cons c cs ih => exact .bind (putBytes_raises hbus hroom _ _) fun _ => ih _

theorem copyBack_raises (off n : Nat) (k : Sink) : RaisesOnly es (Sink.copyBack off n k) := by
  induction n generalizing k with
  | zero => exact .ok
  | succ n ih => exact .bind (putBytes_raises hbus hroom _ _) fun _ => ih _

theorem drive_raises (c : Compressor) (src : List SrcCell) (t : TrieState) (k : Sink) :
    RaisesOnly es (c.drive src t k) := by
  induction src generalizing t k with
  | nil => exact .bind (putChunks_raises hbus hroom _ _) fun _ => .ok
  | cons cell rest ih =>
    exact .bind (.readCell hbus) fun _ => .bind (putChunks_raises hbus hroom _ _) fun _ => ih _ _

theorem emitSized_raises (hsize : .sizeMismatch ∈ es) (arg0 : Nat) (k : Sink) (bs : List Byte) :
    RaisesOnly es (emitSized arg0 k bs) :=
  .bind (.check hsize) fun _ => putBytes_raises hbus hroom _ _

end

/-! ### The dictionary and window codecs (R173, R177, R196, R198, R223, R226) -/

theorem lz78CBody_raises (s : State) : RaisesOnly [.dstOverflow, .busError] (lz78CBody s) :=
  .bind (drive_raises (by simp) (by simp) _ _ _ _) fun _ => .ok

theorem lzwCBody_raises (s : State) : RaisesOnly [.dstOverflow, .busError] (lzwCBody s) :=
  .bind (drive_raises (by simp) (by simp) _ _ _ _) fun _ => .ok

theorem lzssCBody_raises (s : State) : RaisesOnly [.dstOverflow, .busError] (lzssCBody s) :=
  .bind (.readAll (by simp)) fun _ => .bind (putChunks_raises (by simp) (by simp) _ _) fun _ => .ok

theorem lzwDecodeCode_raises {es : List Cause} (hcode : .badCode ∈ es) (table : List (List Byte))
    (prev : Option (List Byte)) (c : Nat) : RaisesOnly es (lzwDecodeCode table prev c) := by
  cases prev with
  | none => exact .bind (.check hcode) fun _ => .ok
  | some p => exact .bind (.check hcode) fun _ => .bind (.check hcode) fun _ => .ok

/-- The causes in the rows of LZ78.D and LZW.D (R354). -/
def trieDecoderCauses : List Cause := [.dstOverflow, .srcUnderrun, .badCode, .sizeMismatch, .busError]

/-- The causes in the row of LZSS.D (R354). -/
def lzssDecoderCauses : List Cause := [.dstOverflow, .srcUnderrun, .badOffset, .sizeMismatch, .busError]

theorem lz78Loop_raises (arg0 fuel : Nat) (src : List SrcCell) (table : List (List Byte)) (k : Sink) :
    RaisesOnly trieDecoderCauses (lz78Loop arg0 fuel src table k) := by
  induction fuel generalizing src table k with
  | zero => exact .ok
  | succ fuel ih =>
    have hemit (bs : List Byte) : RaisesOnly trieDecoderCauses (emitSized arg0 k bs) :=
      emitSized_raises (by decide) (by decide) (by decide) _ _ _
    refine .ite .ok (.bind (inGet16_raises (by decide) (by decide) _) fun _ => .ite (ih _ _ _) (.ite ?_ ?_))
    · exact .bind (.check (by decide)) fun _ => .bind (hemit _) fun _ => .ok
    · exact .bind (inGet_raises (by decide) (by decide) _) fun _ => .bind (.check (by decide)) fun _ =>
        .bind (.check (by decide)) fun _ => .bind (hemit _) fun _ => ih _ _ _

theorem lzwLoop_raises (arg0 fuel : Nat) (src : List SrcCell) (table : List (List Byte)) (prev : Option (List Byte))
    (k : Sink) : RaisesOnly trieDecoderCauses (lzwLoop arg0 fuel src table prev k) := by
  induction fuel generalizing src table prev k with
  | zero => exact .ok
  | succ fuel ih =>
    refine .ite .ok (.bind (inGet16_raises (by decide) (by decide) _) fun _ => .ite (ih _ _ _ _) ?_)
    exact .bind (lzwDecodeCode_raises (by decide) _ _ _) fun _ =>
      .bind (emitSized_raises (by decide) (by decide) (by decide) _ _ _) fun _ => ih _ _ _ _

theorem lzssLoop_raises (arg0 fuel : Nat) (flags : List Bool) (src : List SrcCell) (k : Sink) :
    RaisesOnly lzssDecoderCauses (lzssLoop arg0 fuel flags src k) := by
  induction fuel generalizing flags src k with
  | zero => exact .error (by decide)
  | succ fuel ih =>
    match flags with
    | [] => exact .bind (inGet_raises (by decide) (by decide) _) fun _ => ih _ _ _
    | false :: flags =>
      exact .bind (inGet_raises (by decide) (by decide) _) fun _ => .bind (.check (by decide)) fun _ =>
        .bind (putBytes_raises (by decide) (by decide) _ _) fun _ => ih _ _ _
    | true :: flags =>
      refine .bind (inGet16_raises (by decide) (by decide) _) fun _ => .ite ?_ ?_
      · exact .bind (.check (by decide)) fun _ => .ok
      · exact .bind (.check (by decide)) fun _ => .bind (.check (by decide)) fun _ =>
          .bind (copyBack_raises (by decide) (by decide) _ _ _) fun _ => ih _ _ _

theorem lz78DBody_raises (s : State) : RaisesOnly trieDecoderCauses (lz78DBody s) :=
  .bind (.check (by decide)) fun _ => .bind (lz78Loop_raises _ _ _ _ _) fun _ =>
    .bind (.check (by decide)) fun _ => .ok

theorem lzwDBody_raises (s : State) : RaisesOnly trieDecoderCauses (lzwDBody s) :=
  .bind (.check (by decide)) fun _ => .bind (lzwLoop_raises _ _ _ _ _ _) fun _ =>
    .bind (.check (by decide)) fun _ => .ok

theorem lzssDBody_raises (s : State) : RaisesOnly lzssDecoderCauses (lzssDBody s) :=
  .bind (.check (by decide)) fun _ => .bind (lzssLoop_raises _ _ _ _ _) fun _ => .ok

/-! ### The image header and JPEG.C (R243, R244, R300) -/

section
variable {es : List Cause} (hbus : .busError ∈ es) (himg : .badImageHeader ∈ es)
include hbus himg

theorem skipWs_raises (seen : Bool) (src : List SrcCell) : RaisesOnly es (skipWs seen src) := by
  induction src generalizing seen with
  | nil => exact .error himg
  | cons c rest ih => exact .bind (.readCell hbus) fun _ => .ite (ih _) (.bind (.check himg) fun _ => .ok)

theorem readDigits_raises (count value : Nat) (src : List SrcCell) : RaisesOnly es (readDigits count value src) := by
  induction src generalizing count value with
  | nil => exact .ok
  | cons c rest ih => exact .bind (.readCell hbus) fun _ => .ite (.bind (.check himg) fun _ => ih _ _) .ok

theorem readNum_raises (src : List SrcCell) : RaisesOnly es (readNum src) :=
  .bind (skipWs_raises hbus himg _ _) fun _ => .bind (readDigits_raises hbus himg _ _ _) fun _ =>
    .bind (.check himg) fun _ => .ok

theorem expectByte_raises (p : Byte → Bool) (src : List SrcCell) : RaisesOnly es (expectByte p src) := by
  cases src with
  | nil => exact .error himg
  | cons c rest => exact .bind (.readCell hbus) fun _ => .bind (.check himg) fun _ => .ok

theorem parsePpm_raises (hres : .resource ∈ es) (hund : .srcUnderrun ∈ es) (maxPixels : Nat) (src : List SrcCell) :
    RaisesOnly es (parsePpm maxPixels src) :=
  .bind (expectByte_raises hbus himg _ _) fun _ => .bind (expectByte_raises hbus himg _ _) fun _ =>
    .bind (readNum_raises hbus himg _) fun _ => .bind (readNum_raises hbus himg _) fun _ =>
    .bind (readNum_raises hbus himg _) fun _ => .bind (expectByte_raises hbus himg _ _) fun _ =>
    .bind (.check himg) fun _ => .bind (.check hres) fun _ => .bind (.check hund) fun _ =>
    .bind (.readAll hbus) fun _ => .ok

/-! ### The container header (R290) -/

theorem readLine_raises (src : List SrcCell) : RaisesOnly es (readLine src) := by
  induction src with
  | nil => exact .error himg
  | cons c rest ih => exact .bind (.readCell hbus) fun _ => .ite .ok (.bind ih fun _ => .ok)

end

section
variable {es : List Cause} (himg : .badImageHeader ∈ es)
include himg

theorem tokenValues_raises (ts : List (List Byte)) : RaisesOnly es (tokenValues ts) := by
  induction ts with
  | nil => exact .ok
  | cons t ts ih =>
    have htoken : RaisesOnly es (tokenValue t) := .bind (.check himg) fun _ => .bind (.check himg) fun _ => .ok
    exact .bind htoken fun _ => .bind ih fun _ => .ok

theorem parseTokens_raises (tokens : List (List Byte)) : RaisesOnly es (parseTokens tokens) := by
  unfold parseTokens
  split
  · exact .bind (.check himg) fun _ => .bind (tokenValues_raises himg _) fun _ => .bind (.check himg) fun _ => .ok
  · exact .error himg

theorem parseContainerHeader_raises (hbus : .busError ∈ es) (hres : .resource ∈ es) (maxPixels : Nat)
    (src : List SrcCell) : RaisesOnly es (parseContainerHeader maxPixels src) :=
  .bind (readLine_raises hbus himg _) fun _ => .bind (parseTokens_raises himg _) fun _ =>
    .bind (.check hres) fun _ => .ok

end

/-! ### Dictionaries (R291) -/

theorem readCode_raises {es : List Cause} (hbus : .busError ∈ es) (d : List SrcCell) :
    RaisesOnly es (readCode d) := by
  induction d with
  | nil => exact .ok
  | cons c rest ih =>
    exact .bind (.readCell hbus) fun _ => .ite (.bind ih fun _ => .ok) (.ite (.bind ih fun _ => .ok) .ok)

section
variable {es : List Cause} (hbus : .busError ∈ es) (hdict : .badDictionary ∈ es)
include hbus hdict

theorem dictByte_raises (d : List SrcCell) : RaisesOnly es (dictByte d) := by
  cases d with
  | nil => exact .error hdict
  | cons c rest => exact .bind (.readCell hbus) fun _ => .ok

theorem readRecord_raises (d : List SrcCell) : RaisesOnly es (readRecord d) :=
  have hbyte := dictByte_raises hbus hdict
  .bind (.check hdict) fun _ => .bind (hbyte _) fun _ => .bind (hbyte _) fun _ => .bind (hbyte _) fun _ =>
    .bind (hbyte _) fun _ => .bind (hbyte _) fun _ => .bind (hbyte _) fun _ => .bind (.check hdict) fun _ =>
    .bind (readCode_raises hbus _) fun _ => .bind (.check hdict) fun _ => .bind (hbyte _) fun _ =>
    .bind (.check hdict) fun _ => .ok

theorem buildLoop_raises (fuel : Nat) (d : List SrcCell) (t : CTree) : RaisesOnly es (buildLoop fuel d t) := by
  induction fuel generalizing d t with
  | zero => exact .ok
  | succ fuel ih =>
    refine .ite .ok (.bind (readRecord_raises hbus hdict _) fun ⟨sym, code, rest⟩ => ?_)
    dsimp only
    split
    · exact ih _ _
    · exact .error hdict

theorem buildTree_raises (d : List SrcCell) : RaisesOnly es (buildTree d) :=
  .bind (.check hdict) fun _ => buildLoop_raises hbus hdict _ _ _

theorem buildTrees_raises (hund : .srcUnderrun ∈ es) (ds : List Nat) (src : List SrcCell) :
    RaisesOnly es (buildTrees ds src) := by
  induction ds generalizing src with
  | nil => exact .ok
  | cons d ds ih =>
    exact .bind (.check hund) fun _ => .bind (buildTree_raises hbus hdict _) fun _ => .bind (ih _) fun _ => .ok

end

/-! ### Streams (R292) -/

section
variable {es : List Cause} (hbus : .busError ∈ es) (hund : .srcUnderrun ∈ es) (hbit : .badBitstream ∈ es)
include hbus hund hbit

theorem walk_raises (root : CTree) (n : Nat) (bits : List (Option Bool)) (node : CTree) (count : Nat)
    (acc : List Int) (nb : Nat) : RaisesOnly es (walk root n bits node count acc nb) := by
  induction bits generalizing node count acc nb with
  | nil => exact .ite .ok (.error hund)
  | cons bit rest ih =>
    cases bit with
    | none => exact .ite .ok (.error hbus)
    | some bit =>
      refine .ite .ok ?_
      split
      · exact .error hbit
      · exact .ite (.error hbit) (ih _ _ _ _)
      · exact ih _ _ _ _

theorem walkChannel_raises (root : CTree) (n : Nat) (src : List SrcCell) : RaisesOnly es (walkChannel root n src) :=
  .bind (walk_raises hbus hund hbit _ _ _ _ _ _ _) fun _ => .ok

theorem walkChannels_raises (n : Nat) (ts : List CTree) (src : List SrcCell) :
    RaisesOnly es (walkChannels n ts src) := by
  induction ts generalizing src with
  | nil => exact .ok
  | cons t ts ih => exact .bind (walkChannel_raises hbus hund hbit _ _ _) fun _ => .bind (ih _) fun _ => .ok

end

/-! ### The JPEG commands (R300, R301) -/

/-- The causes in the row of JPEG.C (R354). -/
def imageEncoderCauses : List Cause := [.badImageHeader, .resource, .srcUnderrun, .busError, .dstOverflow]

/-- The causes in the row of JPEG.D (R354). -/
def imageDecoderCauses : List Cause :=
  [.badImageHeader, .resource, .srcUnderrun, .badDictionary, .badBitstream, .busError, .dstOverflow]

theorem jpegCBody_raises (s : State) : RaisesOnly imageEncoderCauses (jpegCBody s) :=
  .bind (parsePpm_raises (by decide) (by decide) (by decide) (by decide) _ _) fun _ =>
    .bind (putEach_raises (by decide) (by decide) _ _) fun _ => .ok

theorem parseContainer_raises (maxPixels : Nat) (src : List SrcCell) :
    RaisesOnly imageDecoderCauses (parseContainer maxPixels src) :=
  .bind (parseContainerHeader_raises (by decide) (by decide) (by decide) _ _) fun _ =>
    .bind (buildTrees_raises (by decide) (by decide) (by decide) _ _) fun _ =>
    .bind (walkChannels_raises (by decide) (by decide) (by decide) _ _ _) fun _ => .ok

theorem jpegDBody_raises (s : State) : RaisesOnly imageDecoderCauses (jpegDBody s) :=
  .bind (parseContainer_raises _ _) fun _ => .bind (putBytes_raises (by decide) (by decide) _ _) fun _ =>
    .bind (putBytes_raises (by decide) (by decide) _ _) fun _ => .ok

/-! ## Every command's errors are in its row (R353, R354) -/

/-- A codec's faults are CODEC_INTERNAL with their cause (R353). -/
theorem RaisesOnly.wrapCause {α : Type} {cs : List Cause} {x : Except Cause α} (hx : RaisesOnly cs x) :
    RaisesOnly (cs.map Err.codecInternal) (wrapCause x) := by
  intro e h
  obtain ⟨c, hc, rfl⟩ := wrapCause_error.mp h
  exact List.mem_map_of_mem (hx c hc)

/-- A row is REGION_ERROR and the errors of the command's body. -/
theorem RaisesOnly.cons {ε α : Type} {es : List ε} {x : Except ε α} (e : ε) (hx : RaisesOnly es x) :
    RaisesOnly (e :: es) x := fun e' h => List.mem_cons_of_mem e (hx e' h)

theorem bodyOf_raises (i : Instr) (s : State) : RaisesOnly (errorRow i) (bodyOf i s) := by
  cases i with
  | nop => exact .ok
  | lz78C => exact (lz78CBody_raises s).wrapCause.cons .regionError
  | lz78D => exact (lz78DBody_raises s).wrapCause.cons .regionError
  | lzssC => exact (lzssCBody_raises s).wrapCause.cons .regionError
  | lzssD => exact (lzssDBody_raises s).wrapCause.cons .regionError
  | lzwC => exact (lzwCBody_raises s).wrapCause.cons .regionError
  | lzwD => exact (lzwDBody_raises s).wrapCause.cons .regionError
  | jpegC => exact (jpegCBody_raises s).wrapCause.cons .regionError
  | jpegD => exact (jpegDBody_raises s).wrapCause.cons .regionError
  | hdrEfile => exact (efileBody_raises s).cons .regionError
  | hdrEfold => exact (efoldBody_raises s).cons .regionError
  | hdrDec => exact (decBody_raises s).cons .regionError
  | hdrPatch => exact (patchBody_raises s).cons .regionError
  | regLookup => exact (lookupBody_raises s).cons .regionError
  | regExtmap => exact (extmapBody_raises s).cons .regionError

/-- NOP uses no region, so no region check fails for it; every other row has REGION_ERROR (R152). -/
theorem regionError_mem_errorRow {i : Instr} {o : Operands} (h : regionsOk i o = false) :
    .regionError ∈ errorRow i := by
  cases i with
  | nop => cases h
  | _ => exact List.mem_cons_self

/-- Settles O25: a completion has the body's result, the body's error or REGION_ERROR. -/
theorem errorsAreInTheCommandsRow : Obligations.ErrorsAreInTheCommandsRow := by
  refine ⟨fun i s t h => ?_, fun s t e hturn hbusy hd h => ?_⟩
  · have hfails {e : Err} (he : e ∈ errorRow i) :
        (s.status.completeErr e).err = true ∧ ∃ e' ∈ errorRow i, (s.status.completeErr e).errcode = e'.code ∧
          (s.status.completeErr e).cause = e'.causeCode := ⟨rfl, e, he, rfl, rfl⟩
    obtain ⟨hr, he⟩ | ⟨d, _, _, he⟩ | ⟨e, _, hb, he⟩ := exec_cases i s <;> cases h.symm.trans he
    · rw [State.raiseError_status]
      exact .inr (hfails (regionError_mem_errorRow hr))
    · exact .inl ⟨rfl, rfl, rfl⟩
    · rw [State.raiseError_status]
      exact .inr (hfails (bodyOf_raises i s e hb))
  · cases h.symm.trans (step_of_illegal hturn hbusy hd)
    exact ⟨rfl, rfl, rfl⟩

end Sys2Proof.Machine

namespace Sys2Proof.Machine

/-! ## Memory outside the destination (R80, R155, R355) -/

/-- A command changes no byte of memory outside the destination region it uses. -/
theorem read_exec_outside {i : Instr} {s t : State} (h : exec i s = .next t) {x : Nat}
    (hx : (dstRegion i s.latch.ops).contains x = false) : t.mem.read x = s.mem.read x := by
  obtain ⟨_, he⟩ | ⟨d, _, hb, he⟩ | ⟨e, _, _, he⟩ := exec_cases i s <;> cases h.symm.trans he
  · exact read_raiseError_outside hx
  · exact read_complete_outside (bodyOf_storesIn hb) hx
  · exact read_raiseError_outside hx

/-- Settles O21: each of the ways a command can end keeps the registers and stores in its destination only. -/
theorem commandFrame : Obligations.CommandFrame := by
  intro i s
  obtain ⟨t, hexec, hkeep⟩ := exec_keepsRegisters i s
  have hend := exec_endsCommand hexec
  exact ⟨t, hexec, hkeep, hend.idle, hend.done, fun _ hx => read_exec_outside hexec hx⟩

/-! ## Host accesses to memory (R80, R83, R106 to R108) -/

theorem hostAccess_of_wraps {r : Region} {s : State} (act : State → State) (h : r.wraps = true) :
    hostAccess r s act = .fault .noSuchAddress := by rw [hostAccess, if_pos h]

section
variable {r : Region} {s : State} (act : State → State) (hw : r.wraps = false)
include hw

theorem hostAccess_of_regBlock (h : r.overlaps s.plat.regBlock = true) :
    hostAccess r s act = .refused .registerAccess := by
  simp only [hostAccess, hw, h, Bool.false_eq_true, if_false, if_true]

variable (hblock : r.overlaps s.plat.regBlock = false)
include hblock

theorem hostAccess_of_device (h : s.plat.devices.any r.overlaps = true) :
    hostAccess r s act = .refused .deviceAccess := by
  simp only [hostAccess, hw, hblock, h, Bool.false_eq_true, if_false, if_true]

theorem hostAccess_of_memory (h : s.plat.devices.any r.overlaps = false) : hostAccess r s act = .next (act s) := by
  simp only [hostAccess, hw, hblock, h, Bool.false_eq_true, if_false]

end

theorem busyDst_of_idle {s : State} (h : s.seq = .idle) : s.busyDst = ⟨0, 0⟩ := by
  rw [State.busyDst, State.running, isBusy_of_idle h]
  rfl

/-- From an idle machine the host reads memory itself (R106, R107). -/
theorem readMem_rdBytes_of_idle {s : State} (h : s.seq = .idle) (a n : Nat) :
    (s.readMem a n).rdBytes = s.mem.readRegion ⟨a, n⟩ := by
  rw [State.readMem, busyDst_of_idle h]
  simp [Region.contains, Memory.readRegion]

/-- An idle machine reads back what the host wrote (R106, R107). -/
theorem readMem_writeMem_of_idle {s : State} (h : s.seq = .idle) (a : Nat) (bs : List Byte) :
    ((s.writeMem a bs).readMem a bs.length).rdBytes = bs := by
  rw [readMem_rdBytes_of_idle (s := s.writeMem a bs) h, State.writeMem_mem, Memory.readRegion_write]

theorem keepsRegisters_writeMem (a : Nat) (bs : List Byte) (s : State) : (s.writeMem a bs).KeepsRegisters s := by
  constructor <;> rfl

/-- The three host operations on memory are accesses to the bytes they name. -/
theorem exists_hostAccess {op : HostOp} {a : Nat} {bs cs : List Byte}
    (h : op ∈ [HostOp.memWrite a bs, .memRead a bs.length, .check a bs.length cs]) :
    ∃ act, ∀ s, hostOp op s = hostAccess ⟨a, bs.length⟩ s act := by
  simp only [List.mem_cons, List.not_mem_nil, or_false] at h
  obtain rfl | rfl | rfl := h
  · exact ⟨State.writeMem a bs, fun _ => rfl⟩
  · exact ⟨State.readMem a bs.length, fun _ => rfl⟩
  · exact ⟨State.checkMem a bs.length cs, fun _ => rfl⟩

/-- Settles O11: an access that no stop ends writes memory or reads it, and the three stops exclude one another. -/
theorem hostMemoryAccessWhileIdle : Obligations.HostMemoryAccessWhileIdle := by
  refine fun s a bs cs => ⟨fun hidle hwraps hblock hdevice => ?_, fun op hop => ?_⟩
  · have hreads := readMem_writeMem_of_idle hidle a bs
    refine ⟨s.writeMem a bs, _, _, hostAccess_of_memory _ hwraps hblock hdevice,
      hostAccess_of_memory _ hwraps hblock hdevice, hreads, fun x => Memory.read_write_outside,
      keepsRegisters_writeMem a bs s, rfl, hostAccess_of_memory _ hwraps hblock hdevice, rfl, ?_⟩
    rw [State.checkMem_checksHold, hreads]
  · obtain ⟨act, hact⟩ := exists_hostAccess hop
    have hfits (hle : a + bs.length ≤ 2 ^ 32) : (Region.mk a bs.length).wraps = false := by
      simpa [Region.wraps] using hle
    rw [hact]
    exact ⟨fun hover => hostAccess_of_wraps act ((Region.wraps_iff _).mpr hover),
      fun hle => hostAccess_of_regBlock act (hfits hle), fun hle => hostAccess_of_device act (hfits hle)⟩

/-! ## Accesses while a command runs (R108) -/

theorem running_of_decode {s : State} {i : Instr} (hbusy : s.seq = .busy) (hd : decode s.latch.cmd = .ok i) :
    s.running = some i := by
  rw [State.running, if_pos (isBusy_of_busy hbusy), hd]

theorem engineStep_of_raced {s : State} {i : Instr} (h : s.seq = .busy) (hd : decode s.latch.cmd = .ok i)
    (hr : s.raced = true) : engineStep s = .next (s.drawOutcome (dstRegion i s.latch.ops)) := by
  simp only [engineStep, isBusy_of_busy h, hd, hr, if_true]

/-- Settles O20: a running command has its own destination and regions, and a raced one completes by drawing its
outcome. -/
theorem hostAccessWhileBusyIsARace : Obligations.HostAccessWhileBusyIsARace := by
  intro s i hbusy hd
  have hrun := running_of_decode hbusy hd
  have hdst : s.busyDst = dstRegion i s.latch.ops := by rw [State.busyDst, hrun]
  have hraces (r : Region) : s.racesWith r = (usedRegions i s.latch.ops).any r.overlaps := by
    rw [State.racesWith, hrun]
  refine ⟨fun a n k hk => ?_, fun a bs htouch => ?_, fun a bs hapart => ?_, fun hraced hturn => ?_⟩
  · simp [State.readMem, hdst, hk]
  · rw [State.writeMem_raced, hraces, htouch, Bool.or_true]
  · rw [State.writeMem_raced, hraces, hapart, Bool.or_false]
  · have hstep : step s = .next (s.popSched.drawOutcome (dstRegion i s.latch.ops)) :=
      (step_engine hturn).trans (engineStep_of_raced hbusy hd hraced)
    exact ⟨_, hstep, (endsCommand_drawOutcome (dstRegion_base_lt i _)).done, rfl,
      fun x hx => read_drawRegion_outside hx⟩

end Sys2Proof.Machine

namespace Sys2Proof.Machine

/-! ## The region check as a condition on addresses (R85, R126, R152) -/

/-- Two regions overlap exactly when neither is empty and each starts before the other ends (R85). -/
theorem overlaps_iff_ends (r t : Region) : r.overlaps t = true ↔
    r.base < r.base + r.len ∧ t.base < t.base + t.len ∧ t.base < r.base + r.len ∧ r.base < t.base + t.len := by
  rw [Region.overlaps_iff]
  omega

theorem uses_src_iff (i : Instr) : (uses i).src = true ↔ i ∉ [Instr.nop, .hdrPatch] := by cases i <;> decide

theorem uses_dst_iff (i : Instr) : (uses i).dst = true ↔ i ∉ [Instr.nop, .hdrDec, .regLookup, .regExtmap] := by
  cases i <;> decide

theorem uses_codec_iff (i : Instr) : (uses i).codec = true ↔ i = .hdrEfile := by cases i <;> decide

theorem mem_readRegions {i : Instr} {o : Operands} {r : Region} : r ∈ readRegions i o ↔
    (uses i).src = true ∧ r = o.src ∨ (uses i).codec = true ∧ r = o.codec := by
  simp [readRegions]

theorem mem_usedRegions {i : Instr} {o : Operands} {r : Region} : r ∈ usedRegions i o ↔
    ((uses i).src = true ∧ r = o.src ∨ (uses i).codec = true ∧ r = o.codec) ∨ (uses i).dst = true ∧ r = o.dst := by
  simp [usedRegions, mem_readRegions]

theorem overlaps_dstRegion {i : Instr} {o : Operands} {r : Region} :
    r.overlaps (dstRegion i o) = true ↔ (uses i).dst = true ∧ r.overlaps o.dst = true := by
  unfold dstRegion
  cases (uses i).dst <;> simp

theorem regionsOk_eq_false {i : Instr} {o : Operands} : regionsOk i o = false ↔
    (∃ r ∈ usedRegions i o, r.wraps = true) ∨ ∃ r ∈ readRegions i o, r.overlaps (dstRegion i o) = true := by
  rw [← Bool.not_eq_true, regionsOk, Bool.and_eq_true, not_and_or]
  simp only [List.all_eq_true, not_forall, Bool.not_eq_true', Bool.not_eq_false, exists_prop]

/-- The command with a codec-name region has a destination (R126). -/
theorem uses_dst_of_codec {i : Instr} (h : (uses i).codec = true) : (uses i).dst = true := by
  rw [(uses_codec_iff i).mp h]
  rfl

/-- The region check fails exactly at a used region that wraps, or at a region that is read and overlaps the
destination. -/
theorem regionsOk_eq_false_iff (i : Instr) (o : Operands) : regionsOk i o = false ↔
    ((uses i).src = true ∧ o.src.wraps = true) ∨ ((uses i).dst = true ∧ o.dst.wraps = true) ∨
    ((uses i).codec = true ∧ o.codec.wraps = true) ∨
    ((uses i).src = true ∧ (uses i).dst = true ∧ o.src.overlaps o.dst = true) ∨
    ((uses i).codec = true ∧ o.codec.overlaps o.dst = true) := by
  have hdst := uses_dst_of_codec (i := i)
  rw [regionsOk_eq_false]
  simp only [mem_usedRegions, mem_readRegions, overlaps_dstRegion, or_and_right, exists_or, and_assoc,
    exists_and_left, exists_eq_left]
  tauto

/-- A command completes with REGION_ERROR exactly where the region check fails (R152). -/
theorem exec_errcode_regionError {i : Instr} {s t : State} (h : exec i s = .next t) :
    t.status.errcode = 0x13 ↔ regionsOk i s.latch.ops = false := by
  obtain ⟨hr, he⟩ | ⟨d, hr, _, he⟩ | ⟨e, hr, hb, he⟩ := exec_cases i s <;> cases h.symm.trans he
  · simp [hr, Err.code]
  · simp [hr]
  · simpa [hr] using Err.code_ne_of_not_beforeAccess (bodyOf_error_beforeAccess hb)

/-- Settles O24: REGION_ERROR is the region check's answer, and the check is a condition on addresses. -/
theorem regionErrorExactlyWhenIllFormed : Obligations.RegionErrorExactlyWhenIllFormed := by
  intro i s
  obtain ⟨t, hexec, _⟩ := exec_keepsRegisters i s
  have hcode := exec_errcode_regionError hexec
  refine ⟨t, hexec, fun h => ?_, ?_⟩
  · have he := exec_of_region_error (hcode.mp h)
    cases hexec.symm.trans he
    rfl
  · rw [hcode, regionsOk_eq_false_iff, uses_src_iff, uses_dst_iff, uses_codec_iff]
    simp only [Region.wraps_iff, overlaps_iff_ends]
    exact Iff.rfl

/-! ## Commands that read their whole source first (R84, R353) -/

/-- A source with a byte that is not MEM_OK cannot be read whole (R84). -/
theorem source_eq_none_of_not_memOk {s : State} {a : Nat} (ha : s.latch.ops.src.contains a = true)
    (hmem : s.plat.memOk a = false) : s.source = none := by
  obtain ⟨hlo, hhi⟩ := (Region.contains_iff _ _).mp ha
  refine Option.eq_none_iff_forall_ne_some.mpr fun bs hsrc => ?_
  have hcell : none ∈ s.srcCells := by
    refine List.mem_map.mpr ⟨a - s.latch.ops.src.base, List.mem_range.mpr (by omega), ?_⟩
    rw [Nat.add_sub_cancel' hlo, cell_of_not_memOk hmem]
  simp [source_eq_some.mp hsrc] at hcell

/-- Settles O26: each of the three bodies starts by reading the source whole. -/
theorem sourceBusFaultIsReported : Obligations.SourceBusFaultIsReported := by
  intro s a ha hmem
  have hsrc := source_eq_none_of_not_memOk ha hmem
  exact ⟨fun hr => failsWith_of_body_error hr (lookupBody_of_no_source hsrc),
    fun hr => failsWith_of_body_error hr (extmapBody_of_no_source hsrc),
    fun hr => failsWith_of_cause hr rfl (bind_of_error (readAll_of_no_source _ hsrc) _)⟩

/-! ## A stream longer than its destination (R98, R353) -/

/-- Into a destination that is MEM_OK throughout, appends of more than DST_CAP bytes overflow it. -/
theorem putChunks_start_dstOverflow {s : State} {cs : List (List Byte)}
    (hmem : ∀ x, s.latch.ops.dst.contains x = true → s.plat.memOk x = true)
    (hcap : s.latch.ops.dstCap.toNat < cs.flatten.length) :
    Sink.putChunks cs (Sink.start s) = .error .dstOverflow := by
  refine Sink.putChunks_dstOverflow (Nat.zero_le _) (by rwa [Sink.start_outlen, Nat.zero_add])
    ((Sink.writable_iff _ _).mpr fun k hk => hmem _ ((Region.contains_iff _ _).mpr ⟨Nat.le_add_right _ _, ?_⟩))
  exact Nat.add_lt_add_left hk _

theorem bodyOf_lz78C (s : State) : bodyOf .lz78C s = wrapCause (lz78Compressor.body lz78Start .lz78Enc s) := rfl

/-- A compress command over a readable source fails as the appends of its stream do. -/
theorem compressor_failsWith {c : Compressor} {start : TrieState} {unit : TrieState → UnitWork} {i : Instr} {s : State}
    {bs : List Byte} {e : Cause} (hbody : bodyOf i s = wrapCause (c.body start unit s)) (hsrc : s.source = some bs)
    (hr : regionsOk i s.latch.ops = true) (hput : Sink.putChunks (c.chunks start bs) (Sink.start s) = .error e) :
    s.FailsWith i (.codecInternal e) := by
  refine failsWith_of_cause hr hbody (bind_of_error ?_ _)
  rw [source_eq_some.mp hsrc, drive_map_some, hput]
  rfl

/-- Settles O35: the appends of each stream ask for more than the capacity. -/
theorem compressorsReportOverflow : Obligations.CompressorsReportOverflow := by
  refine fun s bs hsrc hmem => ⟨fun hr hcap => ?_, fun hr hcap => ?_, fun hr hcap => ?_⟩
  · exact compressor_failsWith (bodyOf_lz78C s) hsrc hr (putChunks_start_dstOverflow hmem hcap)
  · refine failsWith_of_cause (x := lzssCBody s) hr rfl ?_
    rw [lzssCBody_of_source hsrc]
    exact bind_of_error (putChunks_start_dstOverflow hmem hcap) _
  · exact compressor_failsWith (bodyOf_lzwC s) hsrc hr (putChunks_start_dstOverflow hmem hcap)

/-! ## The decompress commands on their encoders' streams (R177, R198, R226) -/

/-- Tokens from output length `p` to `n` leave `n - p` more bytes in the output, whatever a device returns (R101). -/
theorem TokensTo.exists_emitTokens {n p : Nat} {toks : List Token} (h : TokensTo n p toks) (k : Sink) :
    ∃ out, p + out.length = n ∧ emitTokens toks k = k.extend out := by
  induction h generalizing k with
  | sentinel => exact ⟨[], rfl, k.extend_nil.symm⟩
  | @token p t ts _ _ ih =>
    obtain ⟨bs, hbs, hemit⟩ := t.emit_eq_extend k
    obtain ⟨out, hout, hrest⟩ := ih (k.extend bs)
    refine ⟨bs ++ out, by rw [List.length_append]; omega, ?_⟩
    rw [emitTokens, List.foldl_cons, hemit, ← emitTokens, hrest, Sink.extend_extend]

/-- On any destination the tokens of a byte string write as many bytes. -/
theorem exists_lzssDecoded (s : State) (bs : List Byte) :
    ∃ out, out.length = bs.length ∧ lzssDecoded s bs = (Sink.start s).extend out := by
  obtain ⟨out, hout, hemit⟩ :=
    (lzssTokens_to (Nat.zero_le _) (Nat.le_add_left bs.length 0)).exists_emitTokens (Sink.start s)
  exact ⟨out, by rwa [Nat.zero_add] at hout, hemit⟩

/-- Settles O39: each decoder follows its encoder's stream, and LZSS.D copies the input's bytes on ordinary memory. -/
theorem decompressorsInvertTheStreams : Obligations.DecompressorsInvertTheStreams := by
  refine fun s bs hlen hroom => ⟨fun hr hsrc => ?_, fun hr hord hsrc => ?_, fun hr hsrc => ?_, fun hr hsrc => ?_⟩
  · exact lz78D_encode_runsTo hr hsrc hlen hroom
  · exact lzssD_encode_runsTo hr hsrc hlen hroom (lzssDecoded_eq hroom hord)
  · obtain ⟨out, hout, hdecoded⟩ := exists_lzssDecoded s bs
    exact ⟨out, hout, hout ▸ lzssD_encode_runsTo hr hsrc hlen hroom hdecoded⟩
  · exact lzwD_encode_runsTo hr hsrc hlen hroom

end Sys2Proof.Machine

namespace Sys2Proof.Machine

/-! ## The scan for 0x00 (R323) -/

/-- The first byte that is not readable, or that is 0x00, decides the scan. -/
theorem noZero_first {bs : List Byte} (h : (0 : Byte) ∉ bs) (c : SrcCell) (rest : List SrcCell) :
    (c = none → noZero (bs.map some ++ c :: rest) = .error .busError) ∧
    (c = some 0x00 → noZero (bs.map some ++ c :: rest) = .error .headerInvalid) := by
  rw [noZero_skip h]
  exact ⟨fun hc => hc ▸ rfl, fun hc => hc ▸ rfl⟩

/-- Over readable bytes the scan finds the 0x00 that is among them. -/
theorem noZero_map_some_eq (bs : List Byte) :
    noZero (bs.map some) = if (0 : Byte) ∉ bs then .ok () else .error .headerInvalid := by
  split
  · next h => rw [← List.append_nil (bs.map some), noZero_skip h]; rfl
  · next h =>
    obtain ⟨pre, post, rfl, hpre⟩ := List.eq_append_cons_of_mem (not_not.mp h)
    rw [List.map_append]
    exact (noZero_first hpre _ _).2 rfl

/-! ## Validation (R323): the arguments, then the scan -/

theorem check_bind {ε α : Type} (b : Bool) (e : ε) (x : Except ε α) :
    (check b e >>= fun _ => x) = if b = true then x else .error e := by
  cases b <;> rfl

theorem validateFolder_eq (o : Operands) (name : List SrcCell) : validateFolder o name =
    if o.arg0.toNat < 2 ^ 31 ∧ o.srcLen ≠ 0 then noZero name else .error .headerInvalid := by
  rw [validateFolder, check_bind, check_bind, ← ite_and]
  simp only [nonNegative_iff, decide_eq_true_iff]

theorem validateFile_eq (o : Operands) (name codec : List SrcCell) : validateFile o name codec =
    if o.arg0.toNat < 2 ^ 31 ∧ o.arg1.toNat < 2 ^ 31 ∧ o.srcLen ≠ 0 then noZero (name ++ codec)
    else .error .headerInvalid := by
  rw [validateFile, check_bind, check_bind, ← ite_and, noZero_append]
  simp only [Bool.and_eq_true, nonNegative_iff, decide_eq_true_iff, and_assoc]

theorem srcLen_ne_zero_iff {s : State} {bs : List Byte} (h : s.source = some bs) :
    s.latch.ops.srcLen ≠ 0 ↔ bs ≠ [] := by
  refine ⟨source_ne_nil h, fun hne hzero => hne (List.eq_nil_of_length_eq_zero ?_)⟩
  rw [source_length h, hzero]
  rfl

theorem validateFolder_of_source {s : State} {name : List Byte} (hname : s.source = some name) :
    validateFolder s.latch.ops s.srcCells =
      if s.latch.ops.arg0.toNat < 2 ^ 31 ∧ name ≠ [] ∧ (0 : Byte) ∉ name then .ok () else .error .headerInvalid := by
  rw [validateFolder_eq, source_eq_some.mp hname, noZero_map_some_eq, ← ite_and]
  simp only [srcLen_ne_zero_iff hname, and_assoc]

theorem validateFile_of_source {s : State} {name codec : List Byte} (hname : s.source = some name)
    (hcodec : s.codecName = some codec) : validateFile s.latch.ops s.srcCells (s.cells s.latch.ops.codec) =
      if s.latch.ops.arg0.toNat < 2 ^ 31 ∧ s.latch.ops.arg1.toNat < 2 ^ 31 ∧ name ≠ [] ∧ (0 : Byte) ∉ name ∧
        (0 : Byte) ∉ codec then .ok () else .error .headerInvalid := by
  rw [validateFile_eq, source_eq_some.mp hname, codecName_eq_some.mp hcodec, ← List.map_append, noZero_map_some_eq,
    ← ite_and]
  simp only [srcLen_ne_zero_iff hname, List.mem_append, not_or, and_assoc]

/-! ## The end of an encode (R321, R322) -/

/-- A command that has its header to store overflows, meets a bus error, or stores it: the room comes first (log 13). -/
theorem storeHeader_outcomes {i : Instr} {s : State} {bs : List Byte} (hr : regionsOk i s.latch.ops = true)
    (hbody : bodyOf i s = storeHeader s bs) :
    (s.latch.ops.dstCap.toNat < bs.length → s.FailsWith i .dstOverflow) ∧
    (bs.length ≤ s.latch.ops.dstCap.toNat → s.room bs.length = false → s.FailsWith i .busError) ∧
    (s.room bs.length = true → s.RunsTo i (lengthResult bs.length) s.latch.ops.dstAddr.toNat bs) := by
  rw [storeHeader, check_bind, check_bind] at hbody
  simp only [decide_eq_true_iff] at hbody
  refine ⟨fun hcap => ?_, fun hcap hroom => ?_, fun hroom => ?_⟩
  · rw [if_neg (Nat.not_le.mpr hcap)] at hbody
    exact failsWith_of_body_error hr hbody
  · have hbus : ¬(Sink.start s).writable bs.length = true := fun hw => by simp [room_iff.mpr ⟨hcap, hw⟩] at hroom
    rw [if_pos hcap, if_neg hbus] at hbody
    exact failsWith_of_body_error hr hbody
  · obtain ⟨hcap, hw⟩ := room_iff.mp hroom
    rw [if_pos hcap, if_pos hw] at hbody
    exact runsTo_of_body_ok hr hbody

section
variable {i : Instr} {s : State} {validation : Except Err Unit} (hr : regionsOk i s.latch.ops = true)
  (hinvalid : ∀ e, validation = .error e → bodyOf i s = .error e)
include hr hinvalid

/-- An encode on readable names: validation refuses the header, or leaves its bytes to store. -/
theorem encode_outcomes {valid : Prop} [Decidable valid] {bs : List Byte} {n : Nat}
    (hvalidation : validation = if valid then .ok () else .error .headerInvalid)
    (hbody : validation = .ok () → bodyOf i s = storeHeader s bs) (hn : bs.length = n) :
    (¬valid → s.FailsWith i .headerInvalid) ∧
    (valid → s.latch.ops.dstCap.toNat < n → s.FailsWith i .dstOverflow) ∧
    (valid → n ≤ s.latch.ops.dstCap.toNat → s.room n = false → s.FailsWith i .busError) ∧
    (valid → s.room n = true → s.RunsTo i (lengthResult n) s.latch.ops.dstAddr.toNat bs) := by
  subst hn
  have hstores (h : valid) := storeHeader_outcomes hr (hbody (hvalidation.trans (if_pos h)))
  exact ⟨fun h => failsWith_of_body_error hr (hinvalid _ (hvalidation.trans (if_neg h))),
    fun h => (hstores h).1, fun h => (hstores h).2.1, fun h => (hstores h).2.2⟩

/-- An encode on any names: the arguments decide before any read, then the byte where the scan stops (log 14). -/
theorem encode_outcomes_of_scan {argsValid : Prop} [Decidable argsValid] {cells : List SrcCell}
    (hvalidation : validation = if argsValid then noZero cells else .error .headerInvalid) :
    (¬argsValid → s.FailsWith i .headerInvalid) ∧
    ∀ (bs : List Byte) (c : SrcCell) (rest : List SrcCell), argsValid → (0 : Byte) ∉ bs →
      cells = bs.map some ++ c :: rest →
      (c = none → s.FailsWith i .busError) ∧ (c = some 0x00 → s.FailsWith i .headerInvalid) := by
  have hfails {e : Err} (h : validation = .error e) : s.FailsWith i e := failsWith_of_body_error hr (hinvalid e h)
  refine ⟨fun h => hfails (hvalidation.trans (if_neg h)), fun bs c rest h hbs hcells => ?_⟩
  rw [if_pos h, hcells] at hvalidation
  obtain ⟨hunreadable, hzero⟩ := noZero_first hbs c rest
  exact ⟨fun hc => hfails (hvalidation.trans (hunreadable hc)), fun hc => hfails (hvalidation.trans (hzero hc))⟩

end

/-! ## HDR.EFILE (R321) -/

theorem efileBody_of_valid {s : State} {name codec : List Byte} (hname : s.source = some name)
    (hcodec : s.codecName = some codec)
    (h : validateFile s.latch.ops s.srcCells (s.cells s.latch.ops.codec) = .ok ()) :
    efileBody s = storeHeader s (fileHeader s.latch.ops.arg0 name s.latch.ops.arg1 codec) := by
  rw [efileBody, h, readAll_of_source _ hname, codecName_eq_some.mp hcodec, readAll_map_some]
  rfl

theorem fileHeader_length (size : Word) (name : List Byte) (orig : Word) (codec : List Byte) :
    (fileHeader size name orig codec).length = 11 + name.length + codec.length := by
  simp only [fileHeader, List.length_append, List.length_singleton, be32_length]
  omega

/-- Settles O43: validation is the arguments and one scan of the name and the codec name; a valid header is stored. -/
theorem hdrEfileEncodesFileHeader : Obligations.HdrEfileEncodesFileHeader := by
  refine ⟨?_, ?_⟩
  · intro s name codec hr hname hcodec
    exact encode_outcomes (i := .hdrEfile) hr (fun _ h => bind_of_error h _) (validateFile_of_source hname hcodec)
      (efileBody_of_valid hname hcodec) (fileHeader_length _ _ _ _)
  · intro s hr
    exact encode_outcomes_of_scan (i := .hdrEfile) hr (fun _ h => bind_of_error h _) (validateFile_eq _ _ _)

/-! ## HDR.EFOLD (R322) -/

theorem efoldBody_of_valid {s : State} {name : List Byte} (hname : s.source = some name)
    (h : validateFolder s.latch.ops s.srcCells = .ok ()) :
    efoldBody s = storeHeader s (folderHeader s.latch.ops.arg0 name) := by
  rw [efoldBody, h, readAll_of_source _ hname]
  rfl

theorem folderHeader_length (size : Word) (name : List Byte) : (folderHeader size name).length = 6 + name.length := by
  simp only [folderHeader, List.length_append, List.length_singleton, be32_length]
  omega

/-- Settles O44: validation is the arguments and a scan of the name; a valid header is stored. -/
theorem hdrEfoldEncodesFolderHeader : Obligations.HdrEfoldEncodesFolderHeader := by
  refine ⟨?_, ?_⟩
  · intro s name hr hname
    exact encode_outcomes (i := .hdrEfold) hr (fun _ h => bind_of_error h _) (validateFolder_of_source hname)
      (efoldBody_of_valid hname) (folderHeader_length _ _)
  · intro s hr
    exact encode_outcomes_of_scan (i := .hdrEfold) hr (fun _ h => bind_of_error h _) (validateFolder_eq _ _)

/-! ## JPEG.C (R300) -/

theorem jpegCBody_of_parse {s : State} {img : Image} (h : parsePpm s.plat.maxPixels s.srcCells = .ok img) :
    jpegCBody s = (Sink.start s).putEach (jpegEncode s.plat img) >>= fun k =>
      .ok (codecFinish k s.latch.ops.srcLen.toNat
        (.imgEnc (planesOf s.plat img) (encodeChannels s.plat img))) := by
  rw [jpegCBody, h, ok_bind]
  rfl

theorem putEach_start {s : State} {bs : List Byte} (h : s.room bs.length = true) :
    (Sink.start s).putEach bs = .ok ((Sink.start s).extend bs) := by
  obtain ⟨hcap, hw⟩ := room_iff.mp h
  exact Sink.putEach_ok.mpr ⟨by rwa [Sink.start_outlen, Nat.zero_add], hw, rfl⟩

/-- A byte with room that is not MEM_OK stops a byte-by-byte append (R96). -/
theorem putEach_start_busError {s : State} {bs : List Byte} {k : Nat} (hk : k < bs.length)
    (hcap : k < s.latch.ops.dstCap.toNat) (hmem : s.plat.memOk (s.latch.ops.dstAddr.toNat + k) = false) :
    (Sink.start s).putEach bs = .error .busError := by
  refine Sink.putEach_error.mpr (.inl ⟨Bool.eq_false_iff.mpr fun hw => ?_, rfl⟩)
  have := (Sink.writable_iff _ _).mp hw k (Nat.lt_min.mpr ⟨hk, hcap⟩)
  exact Bool.false_ne_true (hmem.symm.trans this)

/-- Without such a byte, an append of more than DST_CAP bytes overflows (R96, R300). -/
theorem putEach_start_dstOverflow {s : State} {bs : List Byte} (hcap : s.latch.ops.dstCap.toNat < bs.length)
    (hmem : ∀ k, k < s.latch.ops.dstCap.toNat → s.plat.memOk (s.latch.ops.dstAddr.toNat + k) = true) :
    (Sink.start s).putEach bs = .error .dstOverflow := by
  refine Sink.putEach_error.mpr (.inr ⟨(Sink.writable_iff _ _).mpr fun k hk => hmem k ?_, ?_, rfl⟩)
  · exact (Nat.lt_min.mp hk).2
  · rwa [Sink.start_outlen, Nat.zero_add]

/-- Settles O48: the parse decides, then the byte-by-byte append of the container. -/
theorem jpegCompressCompletes : Obligations.JpegCompressCompletes := by
  intro s hr
  refine ⟨?_, fun c hparse => failsWith_of_cause (x := jpegCBody s) hr rfl (bind_of_error hparse _)⟩
  intro img hparse out o
  have hbody := jpegCBody_of_parse hparse
  have hfails {c : Cause} (hput : (Sink.start s).putEach out = .error c) : s.FailsWith .jpegC (.codecInternal c) :=
    failsWith_of_cause hr rfl (hbody.trans (bind_of_error hput _))
  refine ⟨fun hroom => ?_, fun k hk hcap hmem => hfails (putEach_start_busError hk hcap hmem),
    fun hcap hmem => hfails (putEach_start_dstOverflow hcap hmem)⟩
  exact runsTo_of_codecFinish hr rfl (hbody.trans (bind_of_ok (putEach_start hroom) _))

end Sys2Proof.Machine
